-- ==== Sys2Proof/Word.lean ====
section
/-!
DEFINITION. The word types of the Karlar machine and their plainest reading (spec/00 R3, R8).
A scalar register, an address and a control register are 64 bits; a lane register element is 32 bits;
memory is addressed by the byte.
-/
namespace Sys2Proof

/-- A scalar register, an address or a control register: 64 bits (01 Table 1.4). -/
abbrev Word := BitVec 64

/-- One element of a lane register: 32 bits (01 R22). -/
abbrev Half := BitVec 32

/-- One byte of memory (00 R3). -/
abbrev Byte := BitVec 8

/-- The mask bits of up to 1,024 threads (01 R10, Table 1.4); bits at or above G are zero. -/
abbrev Mask := BitVec 1024

end Sys2Proof
end

