-- ==== Sys2Proof/Config.lean ====
section
/-!
DEFINITION. What an implementation fixes, and the values the manual leaves open.
An `opaque` constant has no body: nothing in Lean can evaluate it or prove a value of it, so a statement about
the machine holds whatever it is. Cryptographic primitives, which the manual names by reference to their
standards (07 R213, R217, R219; 13 R334 to R339; 14 R362, R364), are such constants too (log 6).
-/
namespace Sys2Proof

/-- A fresh open value: applied to a counter of the state that every use advances (log 2). -/
opaque Config.freeNat : Nat → Nat

/-- SHAKE256 with 64 output bytes, of a list of input bytes (07 R213, 13 Table 13.5). -/
opaque Config.shake : List Byte → List Byte

/-- AES-256 of one block: key reference, block, its first byte most significant (07 R217, R219; 12 R323; 14 R362). -/
opaque Config.aes : Nat → BitVec 128 → BitVec 128

/-- AES-256-XTS encryption of one data unit: key reference, tweak, plaintext (14 R373). -/
opaque Config.xtsEnc : Nat → Nat → List Byte → List Byte

/-- AES-256-XTS decryption of one data unit: key reference, tweak, ciphertext (14 R373). -/
opaque Config.xtsDec : Nat → Nat → List Byte → List Byte

/-- A key reference made from the bytes of a derived or unwrapped key (07 R219; 14 R364). -/
opaque Config.keyOf : List Byte → Nat

/-- The bytes of a key, for derivations that concatenate it (13 Table 13.3; 14 R364). -/
opaque Config.keyBytes : Nat → List Byte

/-- ML-KEM-1024 decapsulation: key-pair reference and ciphertext give the shared secret (07 R219). -/
opaque Config.kemDecaps : Nat → List Byte → List Byte

/-- The encapsulation key of an ML-KEM-1024 key pair (13 Table 13.5, block 17). -/
opaque Config.kemPublic : Nat → List Byte

/-- Whether an ML-DSA-65 signature over the bytes holds under the Feniras firmware key (13 R347). -/
opaque Config.signatureOk : List Byte → Bool

/-- A signature by an Alias key over bytes: the key's reference, the bytes (13 R336, R337, R355). -/
opaque Config.aliasSign : Nat → List Byte → List Byte

/-- Encapsulation to the ML-KEM-1024 key of a migration answer, with the randomness drawn: ciphertext and secret (13 R352). -/
opaque Config.kemEncaps : List Byte → Nat → List Byte × List Byte

/-- The device identity: the fused secret, the digest of the boot ROM, the certificates of the root CA and of the DeviceID key
(13 Table 13.4). -/
opaque Config.uds : List Byte
opaque Config.romDigest : List Byte
opaque Config.rootCert : List Byte
opaque Config.deviceCert : List Byte

/-- The ML-DSA-65 key pair derived from bytes, and the certificate of a key: the certifying key, the key, what it carries (13
Table 13.4). -/
opaque Config.dsaKey : List Byte → Nat
opaque Config.dsaCert : Nat → Nat → List Byte → List Byte

/-- Whether a certificate chain leads to the Feniras root; whether a signature over bytes holds under the Alias key of a chain: the
chain, the bytes, the signature (13 R352, R355, R356). -/
opaque Config.chainOk : List Byte → Bool
opaque Config.signOk : List Byte → List Byte → List Byte → Bool

/-- KMAC256 under the integrity key of an owner (13 R335). -/
opaque Config.kmac : Nat → List Byte → List Byte

/-- Whether a NEGOTIATE_ALGORITHMS request offers ML-DSA-65 signatures, and SHAKE256 measurement digests (13 R337). -/
opaque Config.spdmOffers : List Byte → Bool × Bool

/-- Whether it offers ML-KEM-1024 key exchange, and the key that a KEY_EXCHANGE carries (14 R370). -/
opaque Config.spdmKex : List Byte → Bool
opaque Config.spdmKexKey : List Byte → List Byte

/-- A message of a secure session opened under its key; the answer's bytes (14 R370). -/
opaque Config.doeOpen : Nat → List Byte → Option (List Byte)
opaque Config.doeAnswer : Nat → List Byte → List Byte

/-- What an opened IDE_KM or TDISP message asks: 1 lock, 2 start, 3 stop a VF's TDI, with its IDE stream; 4 a key for a stream; else
nothing (14 R369, R370). -/
opaque Config.doeTdisp : List Byte → Nat × Nat × Nat

/-- The digest and the security version carried by a firmware image (13 R347). -/
opaque Config.imageVersion : List Byte → BitVec 64
opaque Config.imageSvn : List Byte → BitVec 8

/-- The module ID and the mode of the host-port pair, from the module configuration in flash (14 R357). -/
opaque Config.mid : BitVec 8
opaque Config.bridge : Bool

/-- The ports whose MODE the module configuration gives as off (14 Table 14.1). -/
opaque Config.portOff : Nat → Bool

end Sys2Proof
end

