-- ==== Sys2Proof/Syntax.lean ====
section
/-!
DEFINITION. The instructions of Karlar level 1 (spec/02) and the steps of the part (spec/95), as data.
Scalar fields keep the widths of the encoding; a lane instruction keeps the raw fields of Table 2.5 that its
constructor does not fix. An event carries what the world outside the model supplies with it: which agent,
operation or entry it concerns, and the data that a drive, a peer module, a sensor or the host brings.
-/
namespace Sys2Proof

/-- The condition codes of R45. -/
inductive Cond where
  | eq | ne | lt | ge | ltn | gen
deriving DecidableEq, Repr

/-- The conditions of `bmask` (R106). -/
inductive MaskCond where
  | any | all | none
deriving DecidableEq, Repr

/-- The element types of the IALU and `vcmp` opcodes (02 Table 2.7). -/
inductive ITy where
  | i32 | n32 | i64 | n64
deriving DecidableEq, Repr

/-- The element types of the FALU opcodes. -/
inductive FTy where
  | f32 | bf16 | f16
deriving DecidableEq, Repr

/-- The conditions of `vcmp` and `fcmp` (02 Table 2.8, R132). -/
inductive VCond where
  | eq | ne | lt | le | gt | ge
deriving DecidableEq, Repr

/-- The types of `cvt` and of scans and reductions (02 Table 2.8). -/
inductive CTy where
  | i32 | n32 | i64 | n64 | f32 | bf16 | f16 | narrow
deriving DecidableEq, Repr

/-- The input class of `vdot` and `vdoth` (02 Table 2.8). -/
inductive DotTy where
  | narrow | bf16 | f16
deriving DecidableEq, Repr

/-- The size codes of lane memory forms (R52). -/
inductive Size where
  | i8 | n8 | i16 | n16 | i32 | n32 | i64 | n64
deriving DecidableEq, Repr

/-- The operations of `vatom` and `vred` (02 Table 2.8). -/
inductive VAtomOp where
  | add | and | or | xor | min | max | swap | fadd
deriving DecidableEq, Repr

/-- The fields of a lane instruction beside OP and FN (02 Table 2.5). -/
structure Lane where
  of ::
  /-- S, the park marker (R19). -/
  park : Bool := false
  /-- E, the end of the lane block (R16). -/
  last : Bool := false
  mk : BitVec 4 := 0
  mi : Bool := false
  rm : BitVec 4 := 0
  vd : BitVec 8 := 0
  va : BitVec 8 := 0
  vb : BitVec 8 := 0
  vc : BitVec 8 := 0
  aux : BitVec 8 := 0
  imm : BitVec 32 := 0
deriving DecidableEq, Repr

/-- A flit as it arrives on a port (14 R362): the header fields, the 224 payload bytes as sent (sealed for a stream
flit) and the 16-byte tag. `fecBad` says that forward error correction could not correct it (R358). -/
structure Flit where
  port : Nat
  typ : BitVec 4
  slot : Bool
  rstream : BitVec 16
  ctr : BitVec 32
  epoch : BitVec 32
  body : List Byte
  tag : List Byte
  fecBad : Bool := false
deriving DecidableEq, Repr

/-- The verdict a rendezvous flit carries (13 R350), or the abandon mark of R351. -/
inductive Verdict where
  | ready | stale | wait | abandon
deriving DecidableEq, Repr

/-- A rendezvous flit, opened (13 R350). -/
structure RdvFlit where
  tag : BitVec 64
  sigval : BitVec 64
  op : BitVec 3
  redop : BitVec 3
  typ : BitVec 3
  len : Nat
  nmem : Nat
  rank : Nat
  verdict : Verdict
deriving DecidableEq, Repr

/-- What the peer module's Ridgepole answers to the OPEN of a stream (14 R360). -/
structure PeerEntry where
  isMatch : Bool
  running : Bool
  tag : BitVec 64
  pidx : BitVec 13
  secret : List Byte
deriving DecidableEq, Repr

/-- What a drive function answers to ATTACH (14 R372, steps 2 to 5). -/
structure DriveAnswer where
  ok : Bool
  lbas : BitVec 4
  certDigest : List Byte
deriving DecidableEq, Repr

/-- A part that training or an error can take out of service (15 R376, R379). -/
inductive Part where
  | die (d : Nat) | stack (s : Nat) | channel (c : Nat) | port (p : Nat) | nvme (p : Nat)
deriving DecidableEq, Repr

/-- Which write moves, and where (09 R246 to R248): a write of an agent enters its die's order, or a write in
delivery reaches a die or its home slice. -/
inductive Delivery where
  | enter (agent : Nat) (which : Nat)
  | toDie (write : Nat) (die : Nat)
  | toHome (write : Nat)
deriving DecidableEq, Repr

/-- One constructor for each row of the opcode table, in its order: 143 scalar instructions, 77 lane
instructions, and 97 steps of the part that no program encodes (spec/95). Each docstring names the rule. -/
inductive Instr where
  /-- R92. Sets sD to the wrapped 64-bit sum of sA and sB. -/
  | add (d : BitVec 6) (a : BitVec 6) (b : BitVec 6)
  /-- R92. Sets sD to the wrapped difference sA minus sB. -/
  | sub (d : BitVec 6) (a : BitVec 6) (b : BitVec 6)
  /-- R92. Sets sD to the low 64 bits of the product. -/
  | mul (d : BitVec 6) (a : BitVec 6) (b : BitVec 6)
  /-- R92. Sets sD to the high 64 bits of the signed 128-bit product. -/
  | mulh (d : BitVec 6) (a : BitVec 6) (b : BitVec 6)
  /-- R92. Sets sD to the high 64 bits of the unsigned 128-bit product. -/
  | mulhn (d : BitVec 6) (a : BitVec 6) (b : BitVec 6)
  /-- R93. Signed quotient truncated toward zero; a zero divisor gives all ones and never traps. -/
  | div (d : BitVec 6) (a : BitVec 6) (b : BitVec 6)
  /-- R93. Unsigned quotient; a zero divisor gives all ones. -/
  | divn (d : BitVec 6) (a : BitVec 6) (b : BitVec 6)
  /-- R93. Signed remainder with the sign of the dividend; a zero divisor gives the dividend. -/
  | rem (d : BitVec 6) (a : BitVec 6) (b : BitVec 6)
  /-- R93. Unsigned remainder; a zero divisor gives the dividend. -/
  | remn (d : BitVec 6) (a : BitVec 6) (b : BitVec 6)
  /-- R92. Sets sD to the signed smaller of sA and sB. -/
  | min (d : BitVec 6) (a : BitVec 6) (b : BitVec 6)
  /-- R92. Sets sD to the signed larger of sA and sB. -/
  | max (d : BitVec 6) (a : BitVec 6) (b : BitVec 6)
  /-- R92. Sets sD to the unsigned smaller of sA and sB. -/
  | minn (d : BitVec 6) (a : BitVec 6) (b : BitVec 6)
  /-- R92. Sets sD to the unsigned larger of sA and sB. -/
  | maxn (d : BitVec 6) (a : BitVec 6) (b : BitVec 6)
  /-- R96. Sets sD to the bitwise AND of sA and sB. -/
  | and (d : BitVec 6) (a : BitVec 6) (b : BitVec 6)
  /-- R96. Sets sD to the bitwise OR of sA and sB. -/
  | or (d : BitVec 6) (a : BitVec 6) (b : BitVec 6)
  /-- R96. Sets sD to the bitwise XOR of sA and sB. -/
  | xor (d : BitVec 6) (a : BitVec 6) (b : BitVec 6)
  /-- R97. Shifts sA left by sB[5:0]. -/
  | shl (d : BitVec 6) (a : BitVec 6) (b : BitVec 6)
  /-- R97. Shifts sA right logically by sB[5:0]. -/
  | shr (d : BitVec 6) (a : BitVec 6) (b : BitVec 6)
  /-- R97. Shifts sA right arithmetically by sB[5:0]. -/
  | sra (d : BitVec 6) (a : BitVec 6) (b : BitVec 6)
  /-- R97. Rotates sA left by sB[5:0]. -/
  | rotl (d : BitVec 6) (a : BitVec 6) (b : BitVec 6)
  /-- R95. Sets sD to the magnitude of sA as i64; -2^63 gives itself. -/
  | abs (d : BitVec 6) (a : BitVec 6)
  /-- R98. Counts leading zero bits of sA, 64 for zero. -/
  | clz (d : BitVec 6) (a : BitVec 6)
  /-- R98. Counts trailing zero bits of sA, 64 for zero. -/
  | ctz (d : BitVec 6) (a : BitVec 6)
  /-- R98. Counts the one bits of sA. -/
  | popc (d : BitVec 6) (a : BitVec 6)
  /-- R101. Sign-extends bit 7 of sA into sD. -/
  | sext8 (d : BitVec 6) (a : BitVec 6)
  /-- R101. Sign-extends bit 15 of sA into sD. -/
  | sext16 (d : BitVec 6) (a : BitVec 6)
  /-- R101. Sign-extends bit 31 of sA into sD. -/
  | sext32 (d : BitVec 6) (a : BitVec 6)
  /-- R101. Clears the bits of sA above bit 7 into sD. -/
  | zext8 (d : BitVec 6) (a : BitVec 6)
  /-- R101. Clears the bits of sA above bit 15 into sD. -/
  | zext16 (d : BitVec 6) (a : BitVec 6)
  /-- R101. Clears the bits of sA above bit 31 into sD. -/
  | zext32 (d : BitVec 6) (a : BitVec 6)
  /-- R102. Sets sD to 1 when sA cc sB holds, else 0. -/
  | cmp (d : BitVec 6) (a : BitVec 6) (b : BitVec 6) (c : Cond)
  /-- R103. Sets sD to sA when the selector register is non-zero, else sB. -/
  | sel (d : BitVec 6) (a : BitVec 6) (b : BitVec 6) (c : BitVec 6)
  /-- R94. Sets sD to sA plus the sign-extended IMM13. -/
  | addi (d : BitVec 6) (a : BitVec 6) (i : BitVec 13)
  /-- R96. ANDs sA with the sign-extended IMM13. -/
  | andi (d : BitVec 6) (a : BitVec 6) (i : BitVec 13)
  /-- R96. ORs sA with the sign-extended IMM13. -/
  | ori (d : BitVec 6) (a : BitVec 6) (i : BitVec 13)
  /-- R96. XORs sA with the sign-extended IMM13. -/
  | xori (d : BitVec 6) (a : BitVec 6) (i : BitVec 13)
  /-- R97. Shifts sA left by an immediate count. -/
  | shli (d : BitVec 6) (a : BitVec 6) (c : BitVec 6)
  /-- R97. Shifts sA right logically by an immediate count. -/
  | shri (d : BitVec 6) (a : BitVec 6) (c : BitVec 6)
  /-- R97. Shifts sA right arithmetically by an immediate count. -/
  | srai (d : BitVec 6) (a : BitVec 6) (c : BitVec 6)
  /-- R102. Compares sA with IMM10 under CC and writes 1 or 0 to sD. -/
  | cmpi (d : BitVec 6) (a : BitVec 6) (c : Cond) (i : BitVec 10)
  /-- R99. Extracts and zero-extends a bitfield of sA. -/
  | bfx (d : BitVec 6) (a : BitVec 6) (l : BitVec 6) (p : BitVec 6)
  /-- R99. Extracts and sign-extends a bitfield of sA. -/
  | bfxS (d : BitVec 6) (a : BitVec 6) (l : BitVec 6) (p : BitVec 6)
  /-- R100. Inserts the low bits of sA into a field of sD. -/
  | bfi (d : BitVec 6) (a : BitVec 6) (l : BitVec 6) (p : BitVec 6)
  /-- R104. Sets sD to IMM19 shifted left by 13, sign-extended. -/
  | lui (d : BitVec 6) (i : BitVec 19)
  /-- R42. One-word form: sets sD to the sign-extended IMM18. -/
  | li (d : BitVec 6) (i : BitVec 18)
  /-- R42. Two-word form: replaces sD[63:32] with the following word U32. -/
  | liTwoWord (d : BitVec 6) (u : BitVec 32)
  /-- R104. Sets sD to sA plus the sign-extended IMM13 without translating. -/
  | lea (d : BitVec 6) (a : BitVec 6) (i : BitVec 13)
  /-- R104. Sets sD to PC plus the sign-extended IMM19. -/
  | leaPc (d : BitVec 6) (i : BitVec 19)
  /-- R105. Branches unconditionally by OFF25. -/
  | br (o : BitVec 25)
  /-- R107. Pushes the return address on the shadow stack, writes s63 and branches. -/
  | call (o : BitVec 25)
  /-- R105. Branches when sD is zero. -/
  | bz (d : BitVec 6) (o : BitVec 19)
  /-- R105. Branches when sD is non-zero. -/
  | bnz (d : BitVec 6) (o : BitVec 19)
  /-- R105. Decrements sD and branches while it is non-zero. -/
  | loop (d : BitVec 6) (o : BitVec 19)
  /-- R106. Waits for pending writes of mK, then branches on any, all or none of its bits. -/
  | bmask (c : MaskCond) (k : BitVec 4) (o : BitVec 19)
  /-- R108. Dispatches through a bounded jump table to a matching lpad or traps. -/
  | jtab (d : BitVec 6) (o : BitVec 19)
  /-- R109. Landing pad; does nothing when executed. -/
  | lpad (l : BitVec 16)
  /-- R105. Branches when sD equals sA. -/
  | bccEq (d : BitVec 6) (a : BitVec 6) (o : BitVec 13)
  /-- R105. Branches when sD differs from sA. -/
  | bccNe (d : BitVec 6) (a : BitVec 6) (o : BitVec 13)
  /-- R105. Branches when sD is signed less than sA. -/
  | bccLt (d : BitVec 6) (a : BitVec 6) (o : BitVec 13)
  /-- R105. Branches when sD is signed at least sA. -/
  | bccGe (d : BitVec 6) (a : BitVec 6) (o : BitVec 13)
  /-- R105. Branches when sD is unsigned less than sA. -/
  | bccLtn (d : BitVec 6) (a : BitVec 6) (o : BitVec 13)
  /-- R105. Branches when sD is unsigned at least sA. -/
  | bccGen (d : BitVec 6) (a : BitVec 6) (o : BitVec 13)
  /-- R105. Compares sD with IMM6 under CC and branches by OFF10. -/
  | bcci (d : BitVec 6) (c : Cond) (i : BitVec 6) (o : BitVec 10)
  /-- R118. Does nothing. -/
  | nop
  /-- R119. Waits for the lane stream to drain, then ends the group. -/
  | halt
  /-- R118. Places the group behind every other ready group of its priority. -/
  | yield
  /-- R107. Checks s63 against the shadow stack, pops it and returns. -/
  | ret
  /-- R121. Returns from a trap handler to XSPC at the level in XPRIV. -/
  | sret
  /-- R121. Replays the faulting lane instruction for the threads in m15, then returns. -/
  | fret
  /-- R120. Traps to the S handler at U, exits to the host agent at S. -/
  | ecall
  /-- R118. Raises SOFTWARE with XVAL taken from sA. -/
  | trap (a : BitVec 6)
  /-- R111. Waits until every handed-over lane instruction has completed. -/
  | lpark
  /-- R113. Reads the grant in force into sD and clears GCHG. -/
  | rdgrant (d : BitVec 6)
  /-- R112. Drains the lane stream and asks for a new width grant. -/
  | setw (a : BitVec 6)
  /-- R114. Waits for a q register to reach a sequence number, then reads its value. -/
  | qread (d : BitVec 6) (a : BitVec 6) (q : BitVec 2)
  /-- R110. Hands a lane block with a block mask and a copy of the scalar registers to the lane stream. -/
  | lrun (inv : Bool) (k : BitVec 4) (l : BitVec 20)
  /-- R115. Reads a control and status register into sD. -/
  | csrr (d : BitVec 6) (r : BitVec 12)
  /-- R115. Writes a control and status register field by field and returns the old value. -/
  | csrw (d : BitVec 6) (a : BitVec 6) (r : BitVec 12)
  /-- R115. Sets bits of the RW fields of a register and returns the old value. -/
  | csrs (d : BitVec 6) (a : BitVec 6) (r : BitVec 12)
  /-- R115. Clears bits of RW fields and W1C bits of a register and returns the old value. -/
  | csrc (d : BitVec 6) (a : BitVec 6) (r : BitVec 12)
  /-- R161. Loads a sign-extended byte. -/
  | ldsI8 (d : BitVec 6) (a : BitVec 6) (i : BitVec 13)
  /-- R161. Loads a zero-extended byte. -/
  | ldsN8 (d : BitVec 6) (a : BitVec 6) (i : BitVec 13)
  /-- R161. Loads a sign-extended 16-bit value. -/
  | ldsI16 (d : BitVec 6) (a : BitVec 6) (i : BitVec 13)
  /-- R161. Loads a zero-extended 16-bit value. -/
  | ldsN16 (d : BitVec 6) (a : BitVec 6) (i : BitVec 13)
  /-- R161. Loads a sign-extended 32-bit value. -/
  | ldsI32 (d : BitVec 6) (a : BitVec 6) (i : BitVec 13)
  /-- R161. Loads a zero-extended 32-bit value. -/
  | ldsN32 (d : BitVec 6) (a : BitVec 6) (i : BitVec 13)
  /-- R161. Loads a 64-bit value. -/
  | ldsI64 (d : BitVec 6) (a : BitVec 6) (i : BitVec 13)
  /-- R161. Stores the low byte of sD. -/
  | stsI8 (d : BitVec 6) (a : BitVec 6) (i : BitVec 13)
  /-- R161. Stores the low 16 bits of sD. -/
  | stsI16 (d : BitVec 6) (a : BitVec 6) (i : BitVec 13)
  /-- R161. Stores the low 32 bits of sD. -/
  | stsI32 (d : BitVec 6) (a : BitVec 6) (i : BitVec 13)
  /-- R161. Stores all 64 bits of sD. -/
  | stsI64 (d : BitVec 6) (a : BitVec 6) (i : BitVec 13)
  /-- R162. Acquire load of a sign-extended 32-bit value at SCOPE. -/
  | ldacqI32 (d : BitVec 6) (a : BitVec 6) (s : BitVec 4)
  /-- R162. Acquire load of a zero-extended 32-bit value at SCOPE. -/
  | ldacqN32 (d : BitVec 6) (a : BitVec 6) (s : BitVec 4)
  /-- R162. Acquire load of a 64-bit value at SCOPE. -/
  | ldacqI64 (d : BitVec 6) (a : BitVec 6) (s : BitVec 4)
  /-- R162. Release store of the low 32 bits of sB at SCOPE. -/
  | strelI32 (a : BitVec 6) (b : BitVec 6) (s : BitVec 4)
  /-- R162. Release store of sB at SCOPE. -/
  | strelI64 (a : BitVec 6) (b : BitVec 6) (s : BitVec 4)
  /-- R170. Orders earlier reads before later accesses and reconciles at die scope or wider. -/
  | fenceAcq (s : BitVec 4)
  /-- R170. Orders earlier accesses before later writes within the scope. -/
  | fenceRel (s : BitVec 4)
  /-- R170. Full fence, also ordering writes before later reads. -/
  | fenceAr (s : BitVec 4)
  /-- R171. Writes back dirty bytes of a range to home under their masks. -/
  | cwb (a : BitVec 6) (b : BitVec 6)
  /-- R171. Writes back and drops the die's copies of a range. -/
  | cinv (a : BitVec 6) (b : BitVec 6)
  /-- R171. Drops the die's copies of a range without writing back. -/
  | cdis (a : BitVec 6) (b : BitVec 6)
  /-- R168. Multi-word compare-and-swap over a parameter block, locking lines in ascending order. -/
  | mcas (d : BitVec 6) (a : BitVec 6)
  /-- R164. Atomic add returning the old value. -/
  | atomAdd (d : BitVec 6) (a : BitVec 6) (b : BitVec 6) (w : Bool) (o : BitVec 2) (s : BitVec 4)
  /-- R164. Atomic AND returning the old value. -/
  | atomAnd (d : BitVec 6) (a : BitVec 6) (b : BitVec 6) (w : Bool) (o : BitVec 2) (s : BitVec 4)
  /-- R164. Atomic OR returning the old value. -/
  | atomOr (d : BitVec 6) (a : BitVec 6) (b : BitVec 6) (w : Bool) (o : BitVec 2) (s : BitVec 4)
  /-- R164. Atomic XOR returning the old value. -/
  | atomXor (d : BitVec 6) (a : BitVec 6) (b : BitVec 6) (w : Bool) (o : BitVec 2) (s : BitVec 4)
  /-- R164. Atomic signed minimum returning the old value. -/
  | atomMin (d : BitVec 6) (a : BitVec 6) (b : BitVec 6) (w : Bool) (o : BitVec 2) (s : BitVec 4)
  /-- R164. Atomic signed maximum returning the old value. -/
  | atomMax (d : BitVec 6) (a : BitVec 6) (b : BitVec 6) (w : Bool) (o : BitVec 2) (s : BitVec 4)
  /-- R164. Atomic unsigned minimum returning the zero-extended old value. -/
  | atomMinn (d : BitVec 6) (a : BitVec 6) (b : BitVec 6) (w : Bool) (o : BitVec 2) (s : BitVec 4)
  /-- R164. Atomic unsigned maximum returning the zero-extended old value. -/
  | atomMaxn (d : BitVec 6) (a : BitVec 6) (b : BitVec 6) (w : Bool) (o : BitVec 2) (s : BitVec 4)
  /-- R164. Atomic swap returning the old value. -/
  | atomSwap (d : BitVec 6) (a : BitVec 6) (b : BitVec 6) (w : Bool) (o : BitVec 2) (s : BitVec 4)
  /-- R165. Atomic compare-and-swap against the expected value in sD. -/
  | atomCas (d : BitVec 6) (a : BitVec 6) (b : BitVec 6) (w : Bool) (o : BitVec 2) (s : BitVec 4)
  /-- R175. Waits until a timeline reaches n, then acquires at its scope. -/
  | twait (d : BitVec 6) (a : BitVec 6) (b : BitVec 6)
  /-- R174. Reads a timeline counter with no ordering. -/
  | tread (d : BitVec 6) (a : BitVec 6)
  /-- R176. Raises a software-signalled timeline to max(counter, n) as a release. -/
  | tsig (a : BitVec 6) (b : BitVec 6)
  /-- R177. Closes the group's open copy batch and returns its number. -/
  | cbatch (d : BitVec 6)
  /-- R179. Initialises an arrival barrier atomically at its home. -/
  | abinit (a : BitVec 6) (b : BitVec 6)
  /-- R180. Arrives on a barrier with a tag and count as a release. -/
  | aarrive (d : BitVec 6) (a : BitVec 6) (b : BitVec 6)
  /-- R181. Waits until a barrier's COMPLETE reaches n, then acquires. -/
  | await (d : BitVec 6) (a : BitVec 6) (b : BitVec 6)
  /-- R183. Workgroup barrier with an optional 64-bit reduction. -/
  | wgbar (d : BitVec 6) (a : BitVec 6) (b : BitVec 6)
  /-- R183. Herd barrier with an optional 64-bit reduction. -/
  | hbar (d : BitVec 6) (a : BitVec 6) (b : BitVec 6)
  /-- R185. Appends a record to a queue and returns a status. -/
  | kick (d : BitVec 6) (a : BitVec 6) (b : BitVec 6)
  /-- R200. Binds or unbinds a KV block table and initialises its descriptors and stacks. -/
  | btres (d : BitVec 6) (a : BitVec 6) (b : BitVec 6)
  /-- R201. Pops a descriptor from a tier and maps it at a block name. -/
  | btalloc (d : BitVec 6) (a : BitVec 6) (b : BitVec 6)
  /-- R202. Shares a block with a second name, raising REFCNT. -/
  | btfork (d : BitVec 6) (a : BitVec 6) (b : BitVec 6)
  /-- R203. Breaks sharing of a block by pop, copy and swing. -/
  | btcow (d : BitVec 6) (a : BitVec 6) (b : BitVec 6)
  /-- R204. Starts a block move between tiers with a popped mate. -/
  | btdemote (d : BitVec 6) (a : BitVec 6) (b : BitVec 6)
  /-- R206. Drops the reference at a block name. -/
  | btrel (d : BitVec 6) (a : BitVec 6) (b : BitVec 6)
  /-- R207. Resumes or abandons a suspended engine operation named by a token. -/
  | eresume (d : BitVec 6) (a : BitVec 6) (b : BitVec 6)
  /-- R208. Reads a queue's status and clears its ERR bit. -/
  | tstat (d : BitVec 6) (a : BitVec 6)
  /-- R212. Creates an enclave from a parameter block. -/
  | ecreate (d : BitVec 6) (a : BitVec 6)
  /-- R216. Stops an enclave, erases its keys and sends its frames to SCRUBBING. -/
  | edestroy (d : BitVec 6) (a : BitVec 6)
  /-- R214. Adds and measures a page of a building enclave. -/
  | eaddpg (d : BitVec 6) (a : BitVec 6)
  /-- R215. Extends the measurement, and on FINAL starts the control threads. -/
  | eextend (d : BitVec 6) (a : BitVec 6)
  /-- R217. Evicts an enclave page to a host buffer under the paging key. -/
  | eevict (d : BitVec 6) (a : BitVec 6)
  /-- R218. Reloads an evicted page after checking tag and version. -/
  | eload (d : BitVec 6) (a : BitVec 6)
  /-- R219. Imports a wrapped key into a weight or storage slot. -/
  | kimport (d : BitVec 6) (a : BitVec 6)
  /-- R220. Empties a weight or storage key slot. -/
  | kerase (a : BitVec 6)
  /-- R221. Returns the page-ownership entry of a frame. -/
  | potq (d : BitVec 6) (a : BitVec 6)
  /-- R222. Writes one save record of a register range. -/
  | savev (d : BitVec 6) (a : BitVec 6) (b : BitVec 6)
  /-- R223. Restores registers from one save record. -/
  | restv (d : BitVec 6) (b : BitVec 6)
  /-- R224. Writes the group record, seals the save area and ends the save routine. -/
  | sdone (a : BitVec 6)
  /-- R126. Per-thread wrapped integer add. -/
  | vadd (t : ITy) (f : Lane)
  /-- R126. Per-thread wrapped integer subtract. -/
  | vsub (t : ITy) (f : Lane)
  /-- R126. Per-thread low product. -/
  | vmul (t : ITy) (f : Lane)
  /-- R126. Per-thread high product by signedness. -/
  | vmulh (t : ITy) (f : Lane)
  /-- R126. Per-thread multiply-add, low bits. -/
  | vmad (t : ITy) (f : Lane)
  /-- R126. Per-thread minimum by signedness. -/
  | vmin (t : ITy) (f : Lane)
  /-- R126. Per-thread maximum by signedness. -/
  | vmax (t : ITy) (f : Lane)
  /-- R126. Per-thread bitwise AND. -/
  | vand (t : ITy) (f : Lane)
  /-- R126. Per-thread bitwise OR. -/
  | vor (t : ITy) (f : Lane)
  /-- R126. Per-thread bitwise XOR. -/
  | vxor (t : ITy) (f : Lane)
  /-- R126. Per-thread shift left by b mod w. -/
  | vshl (t : ITy) (f : Lane)
  /-- R126. Per-thread logical shift right by b mod w. -/
  | vshr (t : ITy) (f : Lane)
  /-- R126. Per-thread arithmetic shift right by b mod w. -/
  | vsra (t : ITy) (f : Lane)
  /-- R127. Per-thread bitfield extract. -/
  | vbfx (t : ITy) (f : Lane)
  /-- R127. Per-thread bitfield insert into b. -/
  | vbfi (t : ITy) (f : Lane)
  /-- R127. Per-thread select by a mask register. -/
  | vsel (t : ITy) (f : Lane)
  /-- R128. Per-thread integer magnitude. -/
  | vabs (w : Bool) (f : Lane)
  /-- R128. Per-thread integer negate. -/
  | vneg (w : Bool) (f : Lane)
  /-- R128. Per-thread bitwise NOT. -/
  | vnot (w : Bool) (f : Lane)
  /-- R128. Per-thread leading-zero count. -/
  | vclz (w : Bool) (f : Lane)
  /-- R128. Per-thread population count. -/
  | vpopc (w : Bool) (f : Lane)
  /-- R128. Per-thread move, copying the shape tag under an all-live mask. -/
  | vmov (w : Bool) (f : Lane)
  /-- R129. Per-thread integer compare into a mask register. -/
  | vcmp (t : ITy) (c : VCond) (f : Lane)
  /-- R130. Writes an immediate word to every live thread. -/
  | vimm (f : Lane)
  /-- R130. Writes the group thread index, tagged affine. -/
  | vtid (f : Lane)
  /-- R130. Writes the workgroup thread index, tagged affine. -/
  | vtidWg (f : Lane)
  /-- R130. Writes an affine sequence from thread 0's base and stride. -/
  | vaff (f : Lane)
  /-- R131. Per-element floating-point add, rounded once. -/
  | fadd (t : FTy) (f : Lane)
  /-- R131. Per-element floating-point subtract. -/
  | fsub (t : FTy) (f : Lane)
  /-- R131. Per-element floating-point multiply. -/
  | fmul (t : FTy) (f : Lane)
  /-- R131. Per-element fused multiply-add rounded once. -/
  | ffma (t : FTy) (f : Lane)
  /-- R131. Per-element exact minimum. -/
  | fmin (t : FTy) (f : Lane)
  /-- R131. Per-element exact maximum. -/
  | fmax (t : FTy) (f : Lane)
  /-- R131. Clears the sign bit of each element. -/
  | fabs (t : FTy) (f : Lane)
  /-- R131. Flips the sign bit of each element. -/
  | fneg (t : FTy) (f : Lane)
  /-- R132. Per-thread floating-point compare into a mask. -/
  | fcmp (t : FTy) (f : Lane)
  /-- R133. Writes a one-hot class word per element. -/
  | fclass (t : FTy) (f : Lane)
  /-- R131. Per-element correctly rounded reciprocal. -/
  | frcp (t : FTy) (f : Lane)
  /-- R131. Per-element correctly rounded reciprocal square root. -/
  | frsq (t : FTy) (f : Lane)
  /-- R131. Per-element correctly rounded square root. -/
  | fsqrt (t : FTy) (f : Lane)
  /-- R131. Per-element correctly rounded division. -/
  | fdiv (t : FTy) (f : Lane)
  /-- R131. Per-element correctly rounded 2^a. -/
  | fexp2 (t : FTy) (f : Lane)
  /-- R131. Per-element correctly rounded log2. -/
  | flog2 (t : FTy) (f : Lane)
  /-- R131. Per-element correctly rounded tanh. -/
  | ftanh (t : FTy) (f : Lane)
  /-- R131. Per-element a times 2^n. -/
  | fscale (t : FTy) (f : Lane)
  /-- R134. Converts between integer, IEEE and narrow types. -/
  | cvt (dst : CTy) (src : CTy) (f : Lane)
  /-- R135. Packs f32 or bf16 values into one word of narrow elements. -/
  | npack (bf : Bool) (f : Lane)
  /-- R136. Unpacks narrow elements exactly into f32 or bf16 registers. -/
  | nunpack (bf : Bool) (f : Lane)
  /-- R137. Accumulates one scaled K-block per live thread by BlockAccumulate. -/
  | vdot (k : DotTy) (f : Lane)
  /-- R137. Block dot product with bf16 scales. -/
  | vdoth (k : DotTy) (f : Lane)
  /-- R138. Mask AND for live threads. -/
  | mand (f : Lane)
  /-- R138. Mask OR for live threads. -/
  | mor (f : Lane)
  /-- R138. Mask XOR for live threads. -/
  | mxor (f : Lane)
  /-- R138. Mask NOT for live threads. -/
  | mnot (f : Lane)
  /-- R138. Mask move for live threads. -/
  | mmov (f : Lane)
  /-- R138. Counts live threads with a mask bit set into a lane register. -/
  | mcnt (f : Lane)
  /-- R138. Marks the lowest-indexed live thread with a mask bit set. -/
  | mfirst (f : Lane)
  /-- R138. Builds a mask from non-zero lane values. -/
  | mfrom (f : Lane)
  /-- R139. Shuffles words within a row by lane index. -/
  | rshuf (f : Lane)
  /-- R139. Shifts words across lanes of a row by n. -/
  | rshift (f : Lane)
  /-- R139. Broadcasts one lane's word across a row. -/
  | rbcast (f : Lane)
  /-- R140. Canonical prefix scan within a row. -/
  | rscan (f : Lane)
  /-- R140. Canonical tree reduction within a row to a lane register. -/
  | rred (f : Lane)
  /-- R141. Row reductions written to a q register, one sequence step per row. -/
  | rredQ (f : Lane)
  /-- R146. Group-wide permutation by thread index. -/
  | gperm (f : Lane)
  /-- R146. Group-wide canonical prefix scan. -/
  | gscan (f : Lane)
  /-- R146. Group-wide canonical tree reduction to a lane register. -/
  | gred (f : Lane)
  /-- R146. Broadcasts one thread's word to the group. -/
  | gbcast (f : Lane)
  /-- R147. Group-wide reduction written to a q register with one sequence step. -/
  | gredQ (f : Lane)
  /-- R149. Unit-stride lane load. -/
  | vld (z : Size) (f : Lane)
  /-- R149. Unit-stride lane store. -/
  | vst (z : Size) (f : Lane)
  /-- R149. Indexed lane load. -/
  | vldx (z : Size) (f : Lane)
  /-- R149. Indexed lane store. -/
  | vstx (z : Size) (f : Lane)
  /-- R149. Strided lane load. -/
  | vlds (z : Size) (f : Lane)
  /-- R151. Starts an asynchronous chunk copy per live thread into the open batch. -/
  | acpy (f : Lane)
  /-- R152. Per-thread relaxed atomic returning the old value. -/
  | vatom (op : VAtomOp) (z : Size) (f : Lane)
  /-- R152. Per-thread relaxed atomic with no result. -/
  | vred (op : VAtomOp) (z : Size) (f : Lane)
  /-- R110. A handed-over lane block begins to issue and samples its block mask. -/
  | laneBlockIssueStart (agent : Nat)
  /-- R110. A waiting lrun proceeds once a held block begins to issue. -/
  | lrunDispatchRoom (agent : Nat)
  /-- R21. A lane result or memory acknowledgement returns, lowering its class counter and releasing a park. -/
  | laneResultReturn (agent : Nat) (which : Nat)
  /-- R21. An instruction stalled at issue on a full outstanding counter issues once it falls. -/
  | counterStallEnd (agent : Nat)
  /-- R111. The lane stream of a waiting group drains and its waiting instruction continues. -/
  | laneStreamDrained (agent : Nat)
  /-- R106. Pending writes of the mask complete and bmask reads it. -/
  | bmaskWaitEnd (agent : Nat)
  /-- R114. A q write lands and a waiting qread checks its sequence. -/
  | qreadSequenceReached (agent : Nat)
  /-- R175. A timeline reaches the target and the waiting group or thread is made ready. -/
  | twaitSatisfied (agent : Nat)
  /-- R181. A barrier's COMPLETE reaches the target and the waiter acquires. -/
  | awaitSatisfied (agent : Nat)
  /-- R183. Every group of the workgroup reaches its k-th wgbar and all proceed with the reduction. -/
  | wgbarComplete (wg : Nat)
  /-- R183. Every group of the herd reaches its k-th hbar and all proceed. -/
  | hbarComplete (launch : Nat) (herd : Nat)
  /-- R151. An accepted copy chunk lands its bytes. -/
  | acpyChunkLands (chunk : Nat)
  /-- R302. The drive read of a fill ends; the leaf swings or the fill fails, and waiters are requeued. -/
  | storageFillEnd (fill : Nat) (drive : Option (List Byte))
  /-- R258. When a hardware entry frees, the oldest spilled record moves into it. -/
  | spillRefill (enc : Nat) (queue : Nat)
  /-- R263. The master distributor takes a LAUNCH record and starts its dispatch. -/
  | launchDispatchStart (part : Nat)
  /-- R266. The master deals a range of up to 16 indices to a distributor that asks. -/
  | rangeDeal (launch : Nat) (die : Nat)
  /-- R267. A distributor admits a workgroup to a core with enough free resources. -/
  | workgroupAdmit (launch : Nat) (die : Nat)
  /-- R261. A distributor swaps out the longest-waiting workgroup to make room. -/
  | swapOut (wg : Nat)
  /-- R262. A swapped-out workgroup's waits are satisfied and it becomes dispatchable. -/
  | swappedWorkgroupReady (wg : Nat)
  /-- R270. A group ready for 2,048 cycles without issuing becomes aged. -/
  | groupAged (agent : Nat)
  /-- R273. A new 10 us budget window starts and held requests proceed. -/
  | budgetWindow
  /-- R275. A partition time slice ends and the running enclave's groups are pre-empted. -/
  | timeSliceEnd (part : Nat) (next : Nat)
  /-- R310. The save routine exceeds PBUDGET and a forced save replaces it. -/
  | saveRoutineOverrun (agent : Nat)
  /-- R315. The restore routine exceeds PBUDGET and the group exits with PREEMPT. -/
  | restoreRoutineOverrun (agent : Nat)
  /-- R315. A saved group is loaded on a core and resumes by restore routine or full restore. -/
  | groupResume (agent : Nat) (core : Nat)
  /-- R299. Once per window the master reads DONE bytes and readies returned groups. -/
  | donePoll (part : Nat)
  /-- R380. Ridgepole fences a compute die and rehomes its addresses. -/
  | dieFence (die : Nat)
  /-- R379. An uncorrectable memory error poisons a line. -/
  | linePoison (line : Nat) (inSecond : Nat)
  /-- R379. Lane failures degrade a fabric port to four lanes. -/
  | portDegrade (port : Nat) (lanes : Nat)
  /-- R357. A fabric port trains and learns its peer MID. -/
  | portTrained (port : Nat) (mid : BitVec 8)
  /-- R272. The tile scheduler takes a TILE record into its window. -/
  | tileRecordTake (enc : Nat) (queue : Nat)
  /-- R272. A ready task is pre-translated and issued to a free engine, claiming its bank. -/
  | tileTaskIssue (op : Nat)
  /-- R322. An engine runs an MMA task, adding rows into accumulator rows. -/
  | mmaTask (op : Nat)
  /-- R327. An engine runs an attention task by online softmax over KV blocks. -/
  | attnTask (op : Nat)
  /-- R324. An engine scales, biases, activates and stores accumulator rows. -/
  | epiTask (op : Nat)
  /-- R329. An operand fault suspends an engine operation with its progress. -/
  | engineFaultSuspend (op : Nat)
  /-- R303. A record held on chip is written when the fault queue has room. -/
  | heldFaultRecordWrite (enc : Nat)
  /-- R190. A record completes and signals its timeline after earlier records of its queue. -/
  | recordCompleteSignal (op : Nat)
  /-- R192. A copy engine takes a COPY record and starts it. -/
  | copyRecordStart (enc : Nat) (queue : Nat)
  /-- R192. A unit of a copy lands and makes its barrier arrivals. -/
  | copyUnitLands (op : Nat)
  /-- R373. A storage engine takes a STORE record and issues NVMe commands. -/
  | storeRecordStart (enc : Nat) (queue : Nat)
  /-- R373. An NVMe command completes, with arrivals or a drive error. -/
  | storeCommandComplete (op : Nat) (ok : Bool) (data : List Byte)
  /-- R350. A collective engine sends rendezvous flits with its verdict. -/
  | collRendezvous (enc : Nat) (queue : Nat) (op : Nat)
  /-- R351. A rendezvous flit is received; the collective starts, waits or completes in error. -/
  | rdvFlitReceive (flit : Flit) (f : RdvFlit)
  /-- R351. The rendezvous timeout expires; the record completes with ENGINE and an abandon flit is sent. -/
  | rdvtoExpiry (op : Nat)
  /-- R203. The btcow copy ends and the swing updates map and counts. -/
  | btcowCopyDone (agent : Nat)
  /-- R204. A block move's copy lands and DRAIN is set. -/
  | blockMoveCopyLanded (op : Nat)
  /-- R204. With PINS at 0 the move swings ADDR and TIER, frees the mate and signals. -/
  | blockMoveSwing (op : Nat)
  /-- R291. The scrubber takes the next SCRUBBING frame from its cursor. -/
  | scrubFrameStart
  /-- R291. A frame's scrub ends, the frame becomes FREE and the cursor advances. -/
  | scrubFrameEnd
  /-- R305. GO of a migration channel starts a frame migration or refuses it. -/
  | migrationGo (ch : Nat)
  /-- R306. One line is locked, copied to DST and marked copied; after the last the leaf swings. -/
  | migrationLineCopy (ch : Nat)
  /-- R338. Mailbox command carrying one SPDM request to an endpoint. -/
  | spdm
  /-- R344. Mailbox command that checks a layout and starts writing shadows. -/
  | prepare
  /-- R345. Shadow tables reach every slice and the journal enters PREPARED. -/
  | shadowsWritten
  /-- R345. Mailbox command that raises LAYOUTGEN and starts flipping slices. -/
  | commit
  /-- R346. A slice replaces its partition tables with its shadow. -/
  | sliceFlip (slice : Nat)
  /-- R345. Mailbox command that discards shadows and releases held slices. -/
  | abort
  /-- R332. Mailbox command returning the committed layout block. -/
  | layoutq
  /-- R347. Mailbox command that stages a signed firmware image. -/
  | fwstage
  /-- R347. Mailbox command that replaces the compatibility manifest. -/
  | manifest
  /-- R349. Mailbox command that raises the SVN fuses. -/
  | svncommit
  /-- R352. Mailbox command opening a migration session on the source. -/
  | migopen
  /-- R353. Mailbox command writing page records of the dirty bitmap. -/
  | miground
  /-- R354. Mailbox command stopping the enclave and exporting its state. -/
  | migstop
  /-- R356. Mailbox command ending the source side by a COMMITTED or REFUSED token. -/
  | migend
  /-- R352. Mailbox command accepting a source hello on the destination. -/
  | migaccept
  /-- R355. Mailbox command installing page and state records on the destination. -/
  | migapply
  /-- R355. Mailbox command making the migrated enclave RUNNING. -/
  | migresume
  /-- R356. Mailbox command refusing the session and returning a REFUSED token. -/
  | migrefuse
  /-- R333. A watchdog reset restarts Ridgepole firmware and applies the journal. -/
  | ridgepoleRestart (failover : Bool)
  /-- R292. Reset erases keys, checks the POT and boots a listed firmware tuple. -/
  | packageReset
  /-- R376. Remaining dies, memory and ports finish training and service becomes FULL. -/
  | trainingComplete (failed : List Part)
  /-- R360. OPEN of a stream entry runs the checks and key exchange. -/
  | streamOpen (k : Nat) (peer : PeerEntry)
  /-- R359. CLOSE of a stream entry sends it DOWN and erases its keys. -/
  | streamClose (k : Nat)
  /-- R366. An accepted DATA flit is applied by the receiving copy engine. -/
  | dataFlitReceive (f : Flit)
  /-- R362. An ARRIVE flit makes an arrival on the named barrier. -/
  | arriveFlitReceive (f : Flit)
  /-- R364. An accepted MARKER moves the receiver to the next key epoch. -/
  | markerReceive (f : Flit)
  /-- R367. A FAULT flit suspends the sender's record with its cause and progress. -/
  | faultFlitReceive (f : Flit)
  /-- R363. An ACK releases retry-buffer flits and old epoch keys. -/
  | ackReceive (f : Flit)
  /-- R363. A NAK resends buffered flits from the NAKed one. -/
  | nakReceive (f : Flit)
  /-- R362. An IDLE flit is received and carries nothing. -/
  | idleFlitReceive (f : Flit)
  /-- R362. A flit of an unlisted type is discarded and counted in FECUNC. -/
  | unknownFlitDiscard (f : Flit)
  /-- R364. CTR reaching 0xFFFF_F000 sends a MARKER and starts the next epoch. -/
  | keyEpochMarker (k : Nat)
  /-- R372. ATTACH of an attachment entry authenticates and attaches a drive function. -/
  | attach (k : Nat) (drive : DriveAnswer)
  /-- R372. DETACH frees an attachment and returns it to IDLE. -/
  | detach (k : Nat)
  /-- R372. An IDE failure, TDI error or port loss sends an attachment to ERROR. -/
  | attachmentError (k : Nat)
  /-- R369. A TLP for a VF in RUN on a wrong stream is dropped and the TDI goes to ERROR; `off` and `data` are the bytes that it
  writes through BAR0, none for a read. -/
  | tdiTlpReceive (vf : Nat) (stream : Nat) (off : Nat) (data : List Byte)
  /-- R370. An SPDM secure-session message for IDE_KM or TDISP arrives through DOE. -/
  | doeSpdmMessage (msg : List Byte)
  /-- R381. Every 1 ms Ridgepole compares PWRW with CAPW and steps the clock. -/
  | powerCapCheck (pwr : BitVec 16)
  /-- R378. A write of the power cap is clamped to 600 to 2,400 W. -/
  | capwWrite (w : BitVec 16)
  /-- R4. A write to a device register field without behaviour of its own acts by its access code. -/
  | registerWrite (pa : Nat) (bytes : List Byte)
  /-- R53. A scalar word or lane instruction that names no instruction, or is fetched as zero or all ones, issues and raises ILLEGAL. -/
  | illegalEncoding (lane : Bool) (bits : BitVec 96)
  /-- R247. A plain write or home update arrives at a die or its home slice and is held or applied by the vector clock. -/
  | writeDelivery (d : Delivery)
  /-- R241. A cache evicts a block and writes its dirty bytes back at home under its dirty-byte mask. -/
  | eviction (die : Nat) (line : Nat)
  /-- R358. The PCIe host link of the bridging module trains, comes up at some width, or goes down, and ports 0 and 1 report it. -/
  | hostLinkStateChange (st : BitVec 2)
  /-- R379. An uncorrectable error in a group's registers or SRAM makes the group exit with POISON. -/
  | uncorrectableRegisterError (agent : Nat)
deriving DecidableEq, Repr

end Sys2Proof
end

