-- ==== Sys2Proof/Decode.lean ====
section
/-!
DEFINITION. The encodings of Karlar level 1 (spec/02): which field values are legal, the decoder, total on every bit
pattern and rejecting by name, and after it the encoder, written from the same tables.
-/
namespace Sys2Proof

/-- Why a bit pattern names no instruction (02 R53). -/
inductive Reject where
  /-- The major opcode is unassigned in Table 2.2 or Table 2.7. -/
  | unassignedOp
  /-- The FN value, or the sub-field that acts as one, is unassigned in its group (Tables 2.3, 2.4, 2.8). -/
  | unassignedFn
  /-- A reserved field or bit is not zero (R44, R122). -/
  | reservedField
  /-- A field holds a value that Table 2.4, R45, R47, R49, R50 or R52 marks illegal. -/
  | illegalField
  /-- The bytes end before the instruction does. -/
  | truncated
deriving DecidableEq, Repr

/-! ## Which field values are legal -/

/-- R37: a SCOPE value from 11 to 15 raises ILLEGAL. -/
def scopeOk (s : BitVec 4) : Bool := s.toNat ≤ 10

/-- R49: a valid NF byte: K = 00 with P from 1 to 7, or K = 01 with P from 1 to 3; bit 3 zero. -/
def nfOk (nf : BitVec 8) : Bool :=
  let k := (nf.extractLsb' 6 2).toNat
  let p := (nf.extractLsb' 0 3).toNat
  !nf.getLsbD 3 && ((k == 0 && 1 ≤ p) || (k == 1 && 1 ≤ p && p ≤ 3))

/-- R48: the NF byte that a class D AUX field carries in compact form. -/
def nfOfDot (aux : BitVec 8) : BitVec 8 :=
  (0 : BitVec 1) ++ aux.extractLsb' 5 1 ++ aux.extractLsb' 3 2 ++ (0 : BitVec 1) ++ aux.extractLsb' 0 3

/-- The element width K of an NF byte: 8, or 4 when NF[6] is set (R48, R49). -/
def nfWidth (nf : BitVec 8) : Nat := if nf.getLsbD 6 then 4 else 8

def ITy.is64 : ITy → Bool | .i64 | .n64 => true | _ => false
def ITy.signed : ITy → Bool | .i32 | .i64 => true | _ => false
def ITy.width (t : ITy) : Nat := if t.is64 then 64 else 32
def CTy.is64 : CTy → Bool | .i64 | .n64 => true | _ => false
def CTy.isInt : CTy → Bool | .i32 | .n32 | .i64 | .n64 => true | _ => false
def CTy.isFloat : CTy → Bool | .f32 | .bf16 | .f16 => true | _ => false

/-- The bytes of a size code (R52). -/
def Size.bytes : Size → Nat
  | .i8 | .n8 => 1 | .i16 | .n16 => 2 | .i32 | .n32 => 4 | .i64 | .n64 => 8
def Size.is64 (z : Size) : Bool := z.bytes == 8
def Size.signed : Size → Bool | .i8 | .i16 | .i32 | .i64 => true | _ => false

/-- How an instruction reads one register field of Table 2.5. -/
inductive FieldUse where
  /-- The entry does not name the field: it must be zero (R122). -/
  | zero
  /-- `n` lane registers from the field on; `pair` asks for an even field (R47). -/
  | vec (n : Nat) (pair : Bool)
  /-- A source: a lane register (a pair when `pair`), or a scalar register when its AUX flag is set. -/
  | src (pair : Bool)
  /-- A scalar register; the AUX flag must be set (R149). -/
  | scal
  /-- An address base: a scalar register, or an even lane pair (Table 5.7). -/
  | base
  /-- A 32-bit source as `src false`, in a form that is 64 bits wide when `wide`: its lane register must be even there (R47). -/
  | off (wide : Bool)
  /-- A mask register: bits [7:4] zero (R47). -/
  | msk
  /-- A destination mask: as `msk`, and not `m0` (R27). -/
  | mskDest
  /-- A destination q register: bits [7:2] zero (R47). -/
  | qDest
deriving DecidableEq, Repr

/-- The AUX layouts of Table 2.6; a memory form says whether SCOPE means something in it (R52). -/
inductive AuxUse where
  | ord | mem (sc : Bool) | narrow | dot | dotPlain
deriving DecidableEq, Repr

/-- The RM rules of R50. -/
inductive RmUse where
  /-- RM must be 0000. -/
  | zero
  /-- RM[74:72] from 000 to 101, RM[75] free (FZ or SAT). -/
  | round
  /-- RM[74:72] from 000 to 101, RM[75] = 0 (floating point to integer). -/
  | roundOnly
  /-- RM[74:72] = 000, RM[75] free (exact floating-point forms). -/
  | exact
deriving DecidableEq, Repr

/-- How one lane instruction uses its fields. -/
structure LaneUse where
  vd : FieldUse := .zero
  va : FieldUse := .zero
  vb : FieldUse := .zero
  vc : FieldUse := .zero
  aux : AuxUse := .ord
  rm : RmUse := .zero
  imm : Bool := true
deriving DecidableEq, Repr

def FieldUse.ok (u : FieldUse) (flag : Bool) (r : BitVec 8) : Bool :=
  match u with
  | .zero => !flag && r == 0
  | .vec _ pair => !flag && (!pair || !r.getLsbD 0)
  | .src pair | .off pair => if flag then (r.extractLsb' 6 2 == 0) else (!pair || !r.getLsbD 0)
  | .scal => flag && r.extractLsb' 6 2 == 0
  | .base => if flag then (r.extractLsb' 6 2 == 0) else !r.getLsbD 0
  | .msk => !flag && r.extractLsb' 4 4 == 0
  | .mskDest => !flag && r.extractLsb' 4 4 == 0 && r != 0
  | .qDest => !flag && r.extractLsb' 2 6 == 0

/-- The lane registers that a field names: the first, and how many (R22, R122). -/
def FieldUse.regs (u : FieldUse) (flag : Bool) (r : BitVec 8) : List (Nat × Nat) :=
  match u with
  | .vec n pair => [(r.toNat, if pair then 2 * n else n)]
  | .src pair => if flag then [] else [(r.toNat, if pair then 2 else 1)]
  | .off _ => if flag then [] else [(r.toNat, 1)]
  | .base => if flag then [] else [(r.toNat, 2)]
  | _ => []

/-- The AUX flags (VA, VB, VC scalar) of a layout, and whether the rest of AUX is legal (R48, R49, R52). -/
def AuxUse.flags (u : AuxUse) (aux : BitVec 8) : Bool × Bool × Bool :=
  match u with
  | .ord | .mem _ => (aux.getLsbD 2, aux.getLsbD 1, aux.getLsbD 0)
  | _ => (false, false, false)
def AuxUse.ok (u : AuxUse) (aux : BitVec 8) : Bool :=
  match u with
  | .ord => aux.extractLsb' 3 5 == 0
  | .mem sc => !aux.getLsbD 3 && (if sc then scopeOk (aux.extractLsb' 4 4) else aux.extractLsb' 4 4 == 0)
  | .narrow => nfOk aux
  | .dot => nfOk (nfOfDot aux)
  | .dotPlain => aux == 0

def RmUse.ok (u : RmUse) (rm : BitVec 4) : Bool :=
  match u with
  | .zero => rm == 0
  | .round => (rm.extractLsb' 0 3).toNat ≤ 5
  | .roundOnly => (rm.extractLsb' 0 3).toNat ≤ 5 && !rm.getLsbD 3
  | .exact => rm.extractLsb' 0 3 == 0

/-- R52: the IMM layout of scans and reductions: the operation and the type. -/
def redType (imm : BitVec 32) : Option CTy :=
  match (imm.extractLsb' 4 3).toNat with
  | 0 => some .i32 | 1 => some .n32 | 2 => some .i64 | 3 => some .n64
  | 4 => some .f32 | 5 => some .bf16 | 6 => some .f16 | _ => none
def redImmOk (scan : Bool) (imm : BitVec 32) : Bool :=
  let op := (imm.extractLsb' 0 3).toNat
  match redType imm with
  | none => false
  | some t => op ≤ 5 && (t.isInt || op ≤ 2) && !imm.getLsbD 3 && !imm.getLsbD 7
      && (scan || !imm.getLsbD 8) && imm.extractLsb' 9 23 == 0
def redPair (imm : BitVec 32) : Bool := match redType imm with | some t => t.is64 | none => false
def redRm (imm : BitVec 32) : RmUse := match redType imm with
  | some t => if t.isInt then .zero else .round
  | none => .zero

/-- R127: the position and length of `vbfx` and `vbfi`. -/
def bfImmOk (w : Nat) (imm : BitVec 32) : Bool :=
  imm.extractLsb' 12 20 == 0 && (imm.extractLsb' 0 6).toNat + (imm.extractLsb' 6 6).toNat + 1 ≤ w

/-- R139: `rshift`'s n as `i8` lies from -63 to 63, and IMM[31:8] is zero. -/
def shiftImmOk (imm : BitVec 32) : Bool :=
  imm.extractLsb' 8 24 == 0 && -63 ≤ (imm.extractLsb' 0 8).toInt && (imm.extractLsb' 0 8).toInt ≤ 63

/-- R50: the conversions whose every source value is exact in the destination. -/
def cvtExact (dst src : CTy) : Bool :=
  match dst, src with
  | .f32, .bf16 | .f32, .f16 | .f32, .narrow | .bf16, .narrow => true
  | _, _ => false
def cvtRm (dst src : CTy) : RmUse :=
  if dst.isInt then (if src.isInt then .zero else .roundOnly)
  else if cvtExact dst src then .exact else .round
/-- R134: the element select of `cvt`. -/
def cvtImmOk (src : CTy) (aux : BitVec 8) (imm : BitVec 32) : Bool :=
  match src with
  | .bf16 | .f16 => imm.toNat ≤ 1
  | .narrow => imm.toNat < 32 / nfWidth aux
  | _ => imm == 0

/-- The element count 32 / K of a packed narrow word (R135). -/
def nfCount (aux : BitVec 8) : Nat := 32 / nfWidth aux
/-- The registers of one dot-product block (R84): eight of 8-bit or 16-bit elements, four of 4-bit elements. -/
def dotRegs (k : DotTy) (aux : BitVec 8) : Nat :=
  match k with | .narrow => if nfWidth (nfOfDot aux) == 4 then 4 else 8 | _ => 8

/-- The fields that each lane instruction uses (02 Table 2.8, 05). None for an instruction of another kind. -/
def laneUse : Instr → Option (Lane × LaneUse)
  | .vadd t f => some (f, { vd := .vec 1 t.is64, va := .src t.is64, vb := .src t.is64, imm := f.imm == 0 })
  | .vsub t f => some (f, { vd := .vec 1 t.is64, va := .src t.is64, vb := .src t.is64, imm := f.imm == 0 })
  | .vmul t f => some (f, { vd := .vec 1 t.is64, va := .src t.is64, vb := .src t.is64, imm := f.imm == 0 })
  | .vmulh t f => some (f, { vd := .vec 1 t.is64, va := .src t.is64, vb := .src t.is64, imm := f.imm == 0 })
  | .vmin t f => some (f, { vd := .vec 1 t.is64, va := .src t.is64, vb := .src t.is64, imm := f.imm == 0 })
  | .vmax t f => some (f, { vd := .vec 1 t.is64, va := .src t.is64, vb := .src t.is64, imm := f.imm == 0 })
  | .vand t f => some (f, { vd := .vec 1 t.is64, va := .src t.is64, vb := .src t.is64, imm := f.imm == 0 })
  | .vor t f => some (f, { vd := .vec 1 t.is64, va := .src t.is64, vb := .src t.is64, imm := f.imm == 0 })
  | .vxor t f => some (f, { vd := .vec 1 t.is64, va := .src t.is64, vb := .src t.is64, imm := f.imm == 0 })
  | .vshl t f => some (f, { vd := .vec 1 t.is64, va := .src t.is64, vb := .src t.is64, imm := f.imm == 0 })
  | .vshr t f => some (f, { vd := .vec 1 t.is64, va := .src t.is64, vb := .src t.is64, imm := f.imm == 0 })
  | .vsra t f => some (f, { vd := .vec 1 t.is64, va := .src t.is64, vb := .src t.is64, imm := f.imm == 0 })
  | .vmad t f => some (f, { vd := .vec 1 t.is64, va := .src t.is64, vb := .src t.is64, vc := .src t.is64, imm := f.imm == 0 })
  | .vbfx t f => some (f, { vd := .vec 1 t.is64, va := .src t.is64, imm := bfImmOk t.width f.imm })
  | .vbfi t f => some (f, { vd := .vec 1 t.is64, va := .src t.is64, vb := .src t.is64, imm := bfImmOk t.width f.imm })
  | .vsel t f => some (f, { vd := .vec 1 t.is64, va := .src t.is64, vb := .src t.is64, imm := f.imm.extractLsb' 4 28 == 0 })
  | .vabs w f => some (f, { vd := .vec 1 w, va := .src w, imm := f.imm == 0 })
  | .vneg w f => some (f, { vd := .vec 1 w, va := .src w, imm := f.imm == 0 })
  | .vnot w f => some (f, { vd := .vec 1 w, va := .src w, imm := f.imm == 0 })
  | .vclz w f => some (f, { vd := .vec 1 w, va := .src w, imm := f.imm == 0 })
  | .vpopc w f => some (f, { vd := .vec 1 w, va := .src w, imm := f.imm == 0 })
  | .vmov w f => some (f, { vd := .vec 1 w, va := .src w, imm := f.imm == 0 })
  | .vcmp t _ f => some (f, { vd := .mskDest, va := .src t.is64, vb := .src t.is64, imm := f.imm == 0 })
  | .vimm f => some (f, { vd := .vec 1 false })
  | .vtid f => some (f, { vd := .vec 1 false, imm := f.imm == 0 })
  | .vtidWg f => some (f, { vd := .vec 1 false, imm := f.imm == 0 })
  | .vaff f => some (f, { vd := .vec 1 false, va := .src false, vb := .src false, imm := f.imm == 0 })
  | .fadd _ f => some (f, { vd := .vec 1 false, va := .src false, vb := .src false, rm := .round, imm := f.imm == 0 })
  | .fsub _ f => some (f, { vd := .vec 1 false, va := .src false, vb := .src false, rm := .round, imm := f.imm == 0 })
  | .fmul _ f => some (f, { vd := .vec 1 false, va := .src false, vb := .src false, rm := .round, imm := f.imm == 0 })
  | .fdiv _ f => some (f, { vd := .vec 1 false, va := .src false, vb := .src false, rm := .round, imm := f.imm == 0 })
  | .fscale _ f => some (f, { vd := .vec 1 false, va := .src false, vb := .src false, rm := .round, imm := f.imm == 0 })
  | .ffma _ f => some (f, { vd := .vec 1 false, va := .src false, vb := .src false, vc := .src false, rm := .round, imm := f.imm == 0 })
  | .fmin _ f => some (f, { vd := .vec 1 false, va := .src false, vb := .src false, rm := .exact, imm := f.imm == 0 })
  | .fmax _ f => some (f, { vd := .vec 1 false, va := .src false, vb := .src false, rm := .exact, imm := f.imm == 0 })
  | .fabs _ f => some (f, { vd := .vec 1 false, va := .src false, imm := f.imm == 0 })
  | .fneg _ f => some (f, { vd := .vec 1 false, va := .src false, imm := f.imm == 0 })
  | .fcmp t f => some (f, { vd := .mskDest, va := .src false, vb := .src false, rm := .exact, imm := (f.imm.extractLsb' 0 3).toNat ≤ 5 && !f.imm.getLsbD 3 && f.imm.extractLsb' 5 27 == 0 && (!f.imm.getLsbD 4 || t != .f32) })
  | .fclass _ f => some (f, { vd := .vec 1 false, va := .src false, rm := .exact, imm := f.imm == 0 })
  | .frcp _ f => some (f, { vd := .vec 1 false, va := .src false, rm := .round, imm := f.imm == 0 })
  | .frsq _ f => some (f, { vd := .vec 1 false, va := .src false, rm := .round, imm := f.imm == 0 })
  | .fsqrt _ f => some (f, { vd := .vec 1 false, va := .src false, rm := .round, imm := f.imm == 0 })
  | .fexp2 _ f => some (f, { vd := .vec 1 false, va := .src false, rm := .round, imm := f.imm == 0 })
  | .flog2 _ f => some (f, { vd := .vec 1 false, va := .src false, rm := .round, imm := f.imm == 0 })
  | .ftanh _ f => some (f, { vd := .vec 1 false, va := .src false, rm := .round, imm := f.imm == 0 })
  | .cvt dst src f => some (f, { vd := .vec 1 dst.is64, va := if dst == .narrow || src == .narrow then .vec 1 src.is64 else .src src.is64, aux := if dst == .narrow || src == .narrow then .narrow else .ord, rm := cvtRm dst src, imm := dst != src && cvtImmOk src f.aux f.imm })
  | .npack bf f => some (f, { vd := .vec 1 false, va := .vec (if bf then nfCount f.aux / 2 else nfCount f.aux) false, aux := .narrow, rm := .round, imm := f.imm == 0 })
  | .nunpack bf f => some (f, { vd := .vec (if bf then nfCount f.aux / 2 else nfCount f.aux) false, va := .vec 1 false, aux := .narrow, rm := .exact, imm := f.imm == 0 })
  | .vdot k f => some (f, { vd := .vec 1 false, va := .vec (dotRegs k f.aux) false, vb := .vec (dotRegs k f.aux) false, vc := .vec 1 false, aux := if k == .narrow then .dot else .dotPlain, rm := .round, imm := if k == .narrow then f.imm.extractLsb' 16 16 == 0 else f.imm == 0 })
  | .vdoth k f => some (f, { vd := .vec 1 false, va := .vec (dotRegs k f.aux) false, vb := .vec (dotRegs k f.aux) false, vc := .vec 1 false, aux := if k == .narrow then .dot else .dotPlain, rm := .round, imm := if k == .narrow then f.imm.extractLsb' 16 16 == 0 && !f.aux.getLsbD 6 else f.imm == 0 })
  | .mand f => some (f, { vd := .mskDest, va := .msk, vb := .msk, imm := f.imm == 0 })
  | .mor f => some (f, { vd := .mskDest, va := .msk, vb := .msk, imm := f.imm == 0 })
  | .mxor f => some (f, { vd := .mskDest, va := .msk, vb := .msk, imm := f.imm == 0 })
  | .mnot f => some (f, { vd := .mskDest, va := .msk, imm := f.imm == 0 })
  | .mmov f => some (f, { vd := .mskDest, va := .msk, imm := f.imm == 0 })
  | .mfirst f => some (f, { vd := .mskDest, va := .msk, imm := f.imm == 0 })
  | .mcnt f => some (f, { vd := .vec 1 false, va := .msk, imm := f.imm == 0 })
  | .mfrom f => some (f, { vd := .mskDest, va := .src false, imm := f.imm == 0 })
  | .rshuf f => some (f, { vd := .vec 1 false, va := .src false, vb := .src false, imm := f.imm == 0 })
  | .rshift f => some (f, { vd := .vec 1 false, va := .src false, vb := .src false, imm := shiftImmOk f.imm })
  | .rbcast f => some (f, { vd := .vec 1 false, va := .src false, imm := f.imm.toNat < 64 })
  | .rscan f => some (f, { vd := .vec 1 (redPair f.imm), va := .src (redPair f.imm), rm := redRm f.imm, imm := redImmOk true f.imm })
  | .rred f => some (f, { vd := .vec 1 (redPair f.imm), va := .src (redPair f.imm), rm := redRm f.imm, imm := redImmOk false f.imm })
  | .rredQ f => some (f, { vd := .qDest, va := .src (redPair f.imm), rm := redRm f.imm, imm := redImmOk false f.imm })
  | .gperm f => some (f, { vd := .vec 1 false, va := .src false, vb := .src false, imm := f.imm == 0 })
  | .gscan f => some (f, { vd := .vec 1 (redPair f.imm), va := .src (redPair f.imm), rm := redRm f.imm, imm := redImmOk true f.imm })
  | .gred f => some (f, { vd := .vec 1 (redPair f.imm), va := .src (redPair f.imm), rm := redRm f.imm, imm := redImmOk false f.imm })
  | .gredQ f => some (f, { vd := .qDest, va := .src (redPair f.imm), rm := redRm f.imm, imm := redImmOk false f.imm })
  | .gbcast f => some (f, { vd := .vec 1 false, va := .src false, imm := f.imm.toNat < 1024 })
  | .vld z f => some (f, { vd := .vec 1 z.is64, va := .scal, aux := .mem false })
  | .vst z f => some (f, { va := .scal, vc := .src z.is64, aux := .mem false })
  | .vldx z f => some (f, { vd := .vec 1 z.is64, va := .base, vb := .off z.is64, aux := .mem false })
  | .vstx z f => some (f, { va := .base, vb := .off z.is64, vc := .src z.is64, aux := .mem false })
  | .vlds z f => some (f, { vd := .vec 1 z.is64, va := .scal, vb := .off z.is64, aux := .mem false })
  | .acpy f => some (f, { va := .scal, vb := .base, vc := .src false, aux := .mem true, imm := f.imm.toNat ≤ 5 })
  | .vatom op z f => some (f, { vd := .vec 1 z.is64, va := .base, vb := .off z.is64, vc := .src z.is64, aux := .mem true, imm := (match z with | .i32 => true | .n32 | .i64 | .n64 => op != .fadd | _ => false) })
  | .vred op z f => some (f, { va := .base, vb := .off z.is64, vc := .src z.is64, aux := .mem true, imm := (match z with | .i32 => true | .n32 | .i64 | .n64 => op != .fadd | _ => false) && op != .swap })
  | _ => none

/-- The destination mask register of a lane instruction, and its destination q register (R27, R28). -/
def laneMaskDest (i : Instr) : Option Nat :=
  match laneUse i with | some (f, u) => if u.vd = .mskDest then some (f.vd.toNat % 16) else none | none => none
def laneQDest (i : Instr) : Option Nat :=
  match laneUse i with | some (f, u) => if u.vd = .qDest then some (f.vd.toNat % 4) else none | none => none

/-- Every static check of a lane instruction (R47 to R50, R52, R122). The checks against the register budget, the
group size and the level are made at issue. -/
def laneLegal (f : Lane) (u : LaneUse) : Bool :=
  let fl := u.aux.flags f.aux
  !(f.mk == 0 && f.mi) && u.vd.ok false f.vd && u.va.ok fl.1 f.va && u.vb.ok fl.2.1 f.vb && u.vc.ok fl.2.2 f.vc
    && u.aux.ok f.aux && u.rm.ok f.rm && u.imm

/-- Whether the fields of an instruction hold values that its encoding admits (R53). -/
def legal (i : Instr) : Bool :=
  match laneUse i with
  | some (f, u) => laneLegal f u
  | none =>
    match i with
    | .bfx _ _ l p | .bfxS _ _ l p | .bfi _ _ l p => p.toNat + l.toNat + 1 ≤ 64
    | .lrun inv k _ => !(k == 0 && inv)
    | .ldacqI32 _ _ s | .ldacqN32 _ _ s | .ldacqI64 _ _ s | .strelI32 _ _ s | .strelI64 _ _ s
    | .fenceAcq s | .fenceRel s | .fenceAr s => scopeOk s
    | .atomAdd _ _ _ _ _ s | .atomAnd _ _ _ _ _ s | .atomOr _ _ _ _ _ s | .atomXor _ _ _ _ _ s | .atomMin _ _ _ _ _ s | .atomMax _ _ _ _ _ s | .atomMinn _ _ _ _ _ s | .atomMaxn _ _ _ _ _ s | .atomSwap _ _ _ _ _ s | .atomCas _ _ _ _ _ s => scopeOk s
    | _ => true

/-! ## The decoder -/

/-- The bits [lo + len - 1 : lo] of a word. -/
abbrev bits {w : Nat} (x : BitVec w) (lo len : Nat) : BitVec len := x.extractLsb' lo len

/-- R45. -/
def condOf (c : BitVec 3) : Option Cond :=
  match c.toNat with
  | 0 => some .eq | 1 => some .ne | 2 => some .lt | 3 => some .ge | 4 => some .ltn | 5 => some .gen | _ => none

/-- Keeps an instruction whose fields are legal. -/
def checked (i : Instr) : Except Reject Instr := if legal i then .ok i else .error .illegalField

/-- Keeps an instruction when a reserved field is zero, and its fields are legal. -/
def reserved (z : Bool) (i : Instr) : Except Reject Instr := if z then checked i else .error .reservedField

/-- The scalar decoder: `w` is the word at the pc and `u` the word after it, which only a two-word `li` uses
(02 R40 to R45, Tables 2.2 to 2.4). -/
def decodeScalar (w u : BitVec 32) : Except Reject Instr :=
  let d := bits w 19 6
  let a := bits w 13 6
  let b := bits w 7 6
  let fn := bits w 0 7
  let i13 := bits w 0 13
  let i19 := bits w 0 19
  match (bits w 25 7).toNat with
  | 0x01 => match fn.toNat with
    | 0 => checked (.add d a b)
    | 1 => checked (.sub d a b)
    | 2 => checked (.mul d a b)
    | 3 => checked (.mulh d a b)
    | 4 => checked (.mulhn d a b)
    | 5 => checked (.div d a b)
    | 6 => checked (.divn d a b)
    | 7 => checked (.rem d a b)
    | 8 => checked (.remn d a b)
    | 9 => checked (.min d a b)
    | 10 => checked (.max d a b)
    | 11 => checked (.minn d a b)
    | 12 => checked (.maxn d a b)
    | 16 => checked (.and d a b)
    | 17 => checked (.or d a b)
    | 18 => checked (.xor d a b)
    | 24 => checked (.shl d a b)
    | 25 => checked (.shr d a b)
    | 26 => checked (.sra d a b)
    | 27 => checked (.rotl d a b)
    | _ => .error .unassignedFn
  | 0x02 => match fn.toNat with
    | 0 => reserved (b == 0) (.abs d a)
    | 1 => reserved (b == 0) (.clz d a)
    | 2 => reserved (b == 0) (.ctz d a)
    | 3 => reserved (b == 0) (.popc d a)
    | 8 => reserved (b == 0) (.sext8 d a)
    | 9 => reserved (b == 0) (.sext16 d a)
    | 10 => reserved (b == 0) (.sext32 d a)
    | 12 => reserved (b == 0) (.zext8 d a)
    | 13 => reserved (b == 0) (.zext16 d a)
    | 14 => reserved (b == 0) (.zext32 d a)
    | _ => .error .unassignedFn
  | 0x03 => match condOf (bits w 0 3) with
    | some c => reserved (bits w 3 4 == 0) (.cmp d a b c)
    | none => .error .illegalField
  | 0x04 => reserved (bits w 0 1 == 0) (.sel d a b (bits w 1 6))
  | 0x05 => checked (.addi d a i13)
  | 0x06 => checked (.andi d a i13)
  | 0x07 => checked (.ori d a i13)
  | 0x08 => checked (.xori d a i13)
  | 0x09 => match (bits w 6 2).toNat with
    | 0 => reserved (bits w 8 5 == 0) (.shli d a (bits w 0 6))
    | 1 => reserved (bits w 8 5 == 0) (.shri d a (bits w 0 6))
    | 2 => reserved (bits w 8 5 == 0) (.srai d a (bits w 0 6))
    | _ => .error .illegalField
  | 0x0A => match condOf (bits w 10 3) with
    | some c => checked (.cmpi d a c (bits w 0 10))
    | none => .error .illegalField
  | 0x0B => if w.getLsbD 12 then checked (.bfxS d a (bits w 6 6) (bits w 0 6))
    else checked (.bfx d a (bits w 6 6) (bits w 0 6))
  | 0x0C => reserved (bits w 12 1 == 0) (.bfi d a (bits w 6 6) (bits w 0 6))
  | 0x0D => checked (.lui d i19)
  | 0x0E => if w.getLsbD 18 then reserved (bits w 0 18 == 0) (.liTwoWord d u) else checked (.li d (bits w 0 18))
  | 0x0F => checked (.lea d a i13)
  | 0x10 => checked (.br (bits w 0 25))
  | 0x11 => checked (.call (bits w 0 25))
  | 0x12 => checked (.bz d i19)
  | 0x13 => checked (.bnz d i19)
  | 0x14 => checked (.loop d i19)
  | 0x15 => match (bits w 23 2).toNat with
    | 0 => checked (.bmask .any (bits w 19 4) i19)
    | 1 => checked (.bmask .all (bits w 19 4) i19)
    | 2 => checked (.bmask .none (bits w 19 4) i19)
    | _ => .error .illegalField
  | 0x16 => checked (.jtab d i19)
  | 0x17 => reserved (bits w 16 9 == 0) (.lpad (bits w 0 16))
  | 0x18 => checked (.bccEq d a i13)
  | 0x19 => checked (.bccNe d a i13)
  | 0x1a => checked (.bccLt d a i13)
  | 0x1b => checked (.bccGe d a i13)
  | 0x1c => checked (.bccLtn d a i13)
  | 0x1d => checked (.bccGen d a i13)
  | 0x1E => match condOf (bits w 16 3) with
    | some c => checked (.bcci d c (bits w 10 6) (bits w 0 10))
    | none => .error .illegalField
  | 0x1F => match fn.toNat with
    | 0 => reserved (d == 0 && a == 0 && b == 0) .nop
    | 1 => reserved (d == 0 && a == 0 && b == 0) .halt
    | 2 => reserved (d == 0 && a == 0 && b == 0) .yield
    | 3 => reserved (d == 0 && a == 0 && b == 0) .ret
    | 4 => reserved (d == 0 && a == 0 && b == 0) .sret
    | 5 => reserved (d == 0 && a == 0 && b == 0) .fret
    | 6 => reserved (d == 0 && a == 0 && b == 0) .ecall
    | 7 => reserved (d == 0 && b == 0) (.trap a)
    | 8 => reserved (d == 0 && a == 0 && b == 0) .lpark
    | 9 => reserved (a == 0 && b == 0) (.rdgrant d)
    | 10 => reserved (d == 0 && b == 0) (.setw a)
    | 12 | 13 | 14 | 15 => reserved (b == 0) (.qread d a (bits w 0 2))
    | _ => .error .unassignedFn
  | 0x20 => checked (.lrun (w.getLsbD 24) (bits w 20 4) (bits w 0 20))
  | 0x21 => reserved (bits w 12 1 == 0 && a == 0) (.csrr d (bits w 0 12))
  | 0x22 => reserved (bits w 12 1 == 0) (.csrw d a (bits w 0 12))
  | 0x23 => reserved (bits w 12 1 == 0) (.csrs d a (bits w 0 12))
  | 0x24 => reserved (bits w 12 1 == 0) (.csrc d a (bits w 0 12))
  | 0x25 => checked (.leaPc d i19)
  | 0x30 => checked (.ldsI8 d a i13)
  | 0x31 => checked (.ldsN8 d a i13)
  | 0x32 => checked (.ldsI16 d a i13)
  | 0x33 => checked (.ldsN16 d a i13)
  | 0x34 => checked (.ldsI32 d a i13)
  | 0x35 => checked (.ldsN32 d a i13)
  | 0x36 => checked (.ldsI64 d a i13)
  | 0x38 => checked (.stsI8 d a i13)
  | 0x39 => checked (.stsI16 d a i13)
  | 0x3a => checked (.stsI32 d a i13)
  | 0x3b => checked (.stsI64 d a i13)
  | 0x3C => match (bits w 4 3).toNat with
    | 0 => reserved (b == 0) (.ldacqI32 d a (bits w 0 4))
    | 1 => reserved (b == 0) (.ldacqN32 d a (bits w 0 4))
    | 2 => reserved (b == 0) (.ldacqI64 d a (bits w 0 4))
    | 4 => reserved (d == 0) (.strelI32 a b (bits w 0 4))
    | 6 => reserved (d == 0) (.strelI64 a b (bits w 0 4))
    | _ => .error .unassignedFn
  | 0x3D => match (bits w 4 3).toNat with
    | 1 => reserved (d == 0 && a == 0 && b == 0) (.fenceAcq (bits w 0 4))
    | 2 => reserved (d == 0 && a == 0 && b == 0) (.fenceRel (bits w 0 4))
    | 3 => reserved (d == 0 && a == 0 && b == 0) (.fenceAr (bits w 0 4))
    | _ => .error .unassignedFn
  | 0x3E => match fn.toNat with
    | 0 => reserved (d == 0) (.cwb a b)
    | 1 => reserved (d == 0) (.cinv a b)
    | 2 => reserved (d == 0) (.cdis a b)
    | _ => .error .unassignedFn
  | 0x3F => if fn == 0 then reserved (b == 0) (.mcas d a) else .error .unassignedFn
  | 0x40 => checked (.atomAdd d a b (w.getLsbD 6) (bits w 4 2) (bits w 0 4))
  | 0x41 => checked (.atomAnd d a b (w.getLsbD 6) (bits w 4 2) (bits w 0 4))
  | 0x42 => checked (.atomOr d a b (w.getLsbD 6) (bits w 4 2) (bits w 0 4))
  | 0x43 => checked (.atomXor d a b (w.getLsbD 6) (bits w 4 2) (bits w 0 4))
  | 0x44 => checked (.atomMin d a b (w.getLsbD 6) (bits w 4 2) (bits w 0 4))
  | 0x45 => checked (.atomMax d a b (w.getLsbD 6) (bits w 4 2) (bits w 0 4))
  | 0x46 => checked (.atomMinn d a b (w.getLsbD 6) (bits w 4 2) (bits w 0 4))
  | 0x47 => checked (.atomMaxn d a b (w.getLsbD 6) (bits w 4 2) (bits w 0 4))
  | 0x48 => checked (.atomSwap d a b (w.getLsbD 6) (bits w 4 2) (bits w 0 4))
  | 0x49 => checked (.atomCas d a b (w.getLsbD 6) (bits w 4 2) (bits w 0 4))
  | 0x50 => match fn.toNat with
    | 0 => checked (.twait d a b)
    | 1 => reserved (b == 0) (.tread d a)
    | 2 => reserved (d == 0) (.tsig a b)
    | 3 => reserved (a == 0 && b == 0) (.cbatch d)
    | _ => .error .unassignedFn
  | 0x51 => match fn.toNat with
    | 0 => reserved (d == 0) (.abinit a b)
    | 1 => checked (.aarrive d a b)
    | 2 => checked (.await d a b)
    | 3 => checked (.wgbar d a b)
    | 4 => checked (.hbar d a b)
    | _ => .error .unassignedFn
  | 0x52 => if fn == 0 then checked (.kick d a b) else .error .unassignedFn
  | 0x60 => match fn.toNat with
    | 0 => checked (.btres d a b)
    | 1 => checked (.btalloc d a b)
    | 2 => checked (.btfork d a b)
    | 3 => checked (.btcow d a b)
    | 4 => checked (.btdemote d a b)
    | 5 => checked (.btrel d a b)
    | _ => .error .unassignedFn
  | 0x61 => match fn.toNat with
    | 0 => checked (.eresume d a b)
    | 1 => reserved (b == 0) (.tstat d a)
    | _ => .error .unassignedFn
  | 0x62 => match fn.toNat with
    | 0 => reserved (b == 0) (.ecreate d a)
    | 1 => reserved (b == 0) (.edestroy d a)
    | 2 => reserved (b == 0) (.eaddpg d a)
    | 3 => reserved (b == 0) (.eextend d a)
    | 4 => reserved (b == 0) (.eevict d a)
    | 5 => reserved (b == 0) (.eload d a)
    | 6 => reserved (b == 0) (.kimport d a)
    | 7 => reserved (d == 0 && b == 0) (.kerase a)
    | 8 => reserved (b == 0) (.potq d a)
    | _ => .error .unassignedFn
  | 0x63 => match fn.toNat with
    | 0 => checked (.savev d a b)
    | 1 => reserved (a == 0) (.restv d b)
    | 2 => reserved (d == 0 && b == 0) (.sdone a)
    | _ => .error .unassignedFn
  | _ => .error .unassignedOp

/-- Whether a word is the first of a two-word `li` (R42), so that its second word is fetched. -/
def needsSecondWord (w : BitVec 32) : Bool := bits w 25 7 == 0x0E && w.getLsbD 18 && bits w 0 18 == 0

/-- The fields of a lane instruction beside OP and FN (Table 2.5). -/
def laneFields (x : BitVec 96) : Lane :=
  { park := x.getLsbD 95, last := x.getLsbD 94, mk := bits x 77 4, mi := x.getLsbD 76, rm := bits x 72 4,
    vd := bits x 64 8, va := bits x 56 8, vb := bits x 48 8, vc := bits x 40 8, aux := bits x 32 8, imm := bits x 0 32 }

def vcondOf (c : BitVec 3) : Option VCond :=
  match c.toNat with
  | 0 => some .eq | 1 => some .ne | 2 => some .lt | 3 => some .le | 4 => some .gt | 5 => some .ge | _ => none
def sizeOf (c : BitVec 3) : Size :=
  match c.toNat with
  | 0 => .i8 | 1 => .n8 | 2 => .i16 | 3 => .n16 | 4 => .i32 | 5 => .n32 | 6 => .i64 | _ => .n64
def ctyOf (c : BitVec 3) : CTy :=
  match c.toNat with
  | 0 => .i32 | 1 => .n32 | 2 => .i64 | 3 => .n64 | 4 => .f32 | 5 => .bf16 | 6 => .f16 | _ => .narrow
def ityOf (c : BitVec 2) : ITy := match c.toNat with | 0 => .i32 | 1 => .n32 | 2 => .i64 | _ => .n64
def vatomOf (c : BitVec 3) : VAtomOp :=
  match c.toNat with
  | 0 => .add | 1 => .and | 2 => .or | 3 => .xor | 4 => .min | 5 => .max | 6 => .swap | _ => .fadd

def decodeIalu (fn : BitVec 6) (t : ITy) (f : Lane) : Except Reject Instr :=
  match fn.toNat with
  | 0 => checked (.vadd t f)
  | 1 => checked (.vsub t f)
  | 2 => checked (.vmul t f)
  | 3 => checked (.vmulh t f)
  | 4 => checked (.vmad t f)
  | 5 => checked (.vmin t f)
  | 6 => checked (.vmax t f)
  | 7 => checked (.vand t f)
  | 8 => checked (.vor t f)
  | 9 => checked (.vxor t f)
  | 10 => checked (.vshl t f)
  | 11 => checked (.vshr t f)
  | 12 => checked (.vsra t f)
  | 13 => checked (.vbfx t f)
  | 14 => checked (.vbfi t f)
  | 15 => checked (.vsel t f)
  | _ => .error .unassignedFn
def decodeIun (fn : BitVec 6) (w : Bool) (f : Lane) : Except Reject Instr :=
  match fn.toNat with
  | 0 => checked (.vabs w f)
  | 1 => checked (.vneg w f)
  | 2 => checked (.vnot w f)
  | 3 => checked (.vclz w f)
  | 4 => checked (.vpopc w f)
  | 5 => checked (.vmov w f)
  | _ => .error .unassignedFn
def decodeFalu (fn : BitVec 6) (t : FTy) (f : Lane) : Except Reject Instr :=
  match fn.toNat with
  | 0 => checked (.fadd t f)
  | 1 => checked (.fsub t f)
  | 2 => checked (.fmul t f)
  | 3 => checked (.ffma t f)
  | 4 => checked (.fmin t f)
  | 5 => checked (.fmax t f)
  | 6 => checked (.fabs t f)
  | 7 => checked (.fneg t f)
  | 8 => checked (.fcmp t f)
  | 9 => checked (.fclass t f)
  | 10 => checked (.frcp t f)
  | 11 => checked (.frsq t f)
  | 12 => checked (.fsqrt t f)
  | 13 => checked (.fdiv t f)
  | 14 => checked (.fexp2 t f)
  | 15 => checked (.flog2 t f)
  | 16 => checked (.ftanh t f)
  | 17 => checked (.fscale t f)
  | _ => .error .unassignedFn
def decodeMask (fn : BitVec 6)  (f : Lane) : Except Reject Instr :=
  match fn.toNat with
  | 0 => checked (.mand f)
  | 1 => checked (.mor f)
  | 2 => checked (.mxor f)
  | 3 => checked (.mnot f)
  | 4 => checked (.mmov f)
  | 5 => checked (.mcnt f)
  | 6 => checked (.mfirst f)
  | 7 => checked (.mfrom f)
  | _ => .error .unassignedFn
def decodeRow (fn : BitVec 6)  (f : Lane) : Except Reject Instr :=
  match fn.toNat with
  | 0 => checked (.rshuf f)
  | 1 => checked (.rshift f)
  | 2 => checked (.rbcast f)
  | 3 => checked (.rscan f)
  | 4 => checked (.rred f)
  | 36 => checked (.rredQ f)
  | _ => .error .unassignedFn
def decodeGrp (fn : BitVec 6)  (f : Lane) : Except Reject Instr :=
  match fn.toNat with
  | 0 => checked (.gperm f)
  | 1 => checked (.gscan f)
  | 2 => checked (.gred f)
  | 3 => checked (.gbcast f)
  | 34 => checked (.gredQ f)
  | _ => .error .unassignedFn

/-- The lane decoder (02 R46 to R52, Tables 2.7 and 2.8). -/
def decodeLane (x : BitVec 96) : Except Reject Instr :=
  let f := laneFields x
  let fn := bits x 81 6
  match (bits x 87 7).toNat with
  | 0x01 => decodeIalu fn .i32 f
  | 0x02 => decodeIalu fn .n32 f
  | 0x03 => decodeIalu fn .i64 f
  | 0x04 => decodeIalu fn .n64 f
  | 0x05 => decodeIun fn false f
  | 0x06 => decodeIun fn true f
  | 0x07 => match vcondOf (bits fn 0 3) with
    | some c => if fn.getLsbD 3 then .error .unassignedFn else checked (.vcmp (ityOf (bits fn 4 2)) c f)
    | none => .error .unassignedFn
  | 0x08 => if fn == 0 then checked (.vimm f) else .error .unassignedFn
  | 0x09 => match fn.toNat with
    | 0 => checked (.vtid f)
    | 1 => checked (.vtidWg f)
    | _ => .error .unassignedFn
  | 0x0A => if fn == 0 then checked (.vaff f) else .error .unassignedFn
  | 0x10 => decodeFalu fn .f32 f
  | 0x11 => decodeFalu fn .bf16 f
  | 0x12 => decodeFalu fn .f16 f
  | 0x14 => checked (.cvt (ctyOf (bits fn 3 3)) (ctyOf (bits fn 0 3)) f)
  | 0x15 => match fn.toNat with
    | 0 => checked (.npack false f)
    | 1 => checked (.npack true f)
    | _ => .error .unassignedFn
  | 0x16 => match fn.toNat with
    | 0 => checked (.nunpack false f)
    | 1 => checked (.nunpack true f)
    | _ => .error .unassignedFn
  | 0x17 => match fn.toNat with
    | 0 => checked (.vdot .narrow f)
    | 1 => checked (.vdot .bf16 f)
    | 2 => checked (.vdot .f16 f)
    | _ => .error .unassignedFn
  | 0x18 => match fn.toNat with
    | 0 => checked (.vdoth .narrow f)
    | 1 => checked (.vdoth .bf16 f)
    | 2 => checked (.vdoth .f16 f)
    | _ => .error .unassignedFn
  | 0x20 => decodeMask fn f
  | 0x30 => decodeRow fn f
  | 0x31 => decodeGrp fn f
  | 0x40 => if bits fn 3 3 == 0 then checked (.vld (sizeOf (bits fn 0 3)) f) else .error .unassignedFn
  | 0x41 => if bits fn 3 3 == 0 then checked (.vst (sizeOf (bits fn 0 3)) f) else .error .unassignedFn
  | 0x42 => if bits fn 3 3 == 0 then checked (.vldx (sizeOf (bits fn 0 3)) f) else .error .unassignedFn
  | 0x43 => if bits fn 3 3 == 0 then checked (.vstx (sizeOf (bits fn 0 3)) f) else .error .unassignedFn
  | 0x44 => if bits fn 3 3 == 0 then checked (.vlds (sizeOf (bits fn 0 3)) f) else .error .unassignedFn
  | 0x45 => if fn == 0 then checked (.acpy f) else .error .unassignedFn
  | 0x46 => checked (.vatom (vatomOf (bits fn 3 3)) (sizeOf (bits fn 0 3)) f)
  | 0x47 => checked (.vred (vatomOf (bits fn 3 3)) (sizeOf (bits fn 0 3)) f)
  | _ => .error .unassignedOp

/-- Four bytes, the lowest address first, as a word (00 R3). -/
def wordOfBytes (b0 b1 b2 b3 : Byte) : BitVec 32 := b3 ++ b2 ++ b1 ++ b0

/-- The scalar decoder on bytes: the instruction, and the bytes after it. -/
def decodeBytes : List Byte → Except Reject (Instr × List Byte)
  | b0 :: b1 :: b2 :: b3 :: rest =>
    let w := wordOfBytes b0 b1 b2 b3
    if needsSecondWord w then
      match rest with
      | c0 :: c1 :: c2 :: c3 :: rest' => (decodeScalar w (wordOfBytes c0 c1 c2 c3)).map fun i => (i, rest')
      | _ => .error .truncated
    else (decodeScalar w 0).map fun i => (i, rest)
  | _ => .error .truncated

/-- The lane decoder on bytes: three little-endian words, bits [31:0] first (R46). -/
def decodeLaneBytes : List Byte → Except Reject (Instr × List Byte)
  | a0 :: a1 :: a2 :: a3 :: b0 :: b1 :: b2 :: b3 :: c0 :: c1 :: c2 :: c3 :: rest =>
    (decodeLane (wordOfBytes c0 c1 c2 c3 ++ wordOfBytes b0 b1 b2 b3 ++ wordOfBytes a0 a1 a2 a3)).map fun i => (i, rest)
  | _ => .error .truncated

/-- The instruction that an opcode-table word of `nbits` bits stands for, the bits above it zero: a row of 32 bits is
a scalar word (its second word, for a two-word `li`, is the next 32 bits), a row of 96 bits a lane instruction. -/
def decodeTableWord (nbits w : Nat) : Option Instr :=
  if nbits ≤ 64 then (decodeScalar (BitVec.ofNat 32 w) (BitVec.ofNat 32 (w / 2 ^ 32))).toOption
  else (decodeLane (BitVec.ofNat 96 w)).toOption

/-! ## The encoder -/

def Cond.code : Cond → BitVec 3 | .eq => 0 | .ne => 1 | .lt => 2 | .ge => 3 | .ltn => 4 | .gen => 5
def MaskCond.code : MaskCond → BitVec 2 | .any => 0 | .all => 1 | .none => 2
def VCond.code : VCond → BitVec 3 | .eq => 0 | .ne => 1 | .lt => 2 | .le => 3 | .gt => 4 | .ge => 5
def CTy.code : CTy → BitVec 3
  | .i32 => 0 | .n32 => 1 | .i64 => 2 | .n64 => 3 | .f32 => 4 | .bf16 => 5 | .f16 => 6 | .narrow => 7
def Size.code : Size → BitVec 3
  | .i8 => 0 | .n8 => 1 | .i16 => 2 | .n16 => 3 | .i32 => 4 | .n32 => 5 | .i64 => 6 | .n64 => 7
def ITy.code : ITy → BitVec 2 | .i32 => 0 | .n32 => 1 | .i64 => 2 | .n64 => 3
def DotTy.code : DotTy → BitVec 6 | .narrow => 0 | .bf16 => 1 | .f16 => 2
def FTy.op : FTy → BitVec 7 | .f32 => 0x10 | .bf16 => 0x11 | .f16 => 0x12
def VAtomOp.code : VAtomOp → BitVec 3
  | .add => 0 | .and => 1 | .or => 2 | .xor => 3 | .min => 4 | .max => 5 | .swap => 6 | .fadd => 7

/-- Format SR (R40). -/
def encSR (op : BitVec 7) (d a b : BitVec 6) (fn : BitVec 7) : BitVec 32 := op ++ d ++ a ++ b ++ fn
/-- Formats SI and SC. -/
def encSI (op : BitVec 7) (d a : BitVec 6) (i : BitVec 13) : BitVec 32 := op ++ d ++ a ++ i
/-- Format SU. -/
def encSU (op : BitVec 7) (d : BitVec 6) (i : BitVec 19) : BitVec 32 := op ++ d ++ i
/-- Format SJ. -/
def encSJ (op : BitVec 7) (o : BitVec 25) : BitVec 32 := op ++ o
/-- The lane format (Table 2.5). -/
def encLane (op : BitVec 7) (fn : BitVec 6) (f : Lane) : BitVec 96 :=
  BitVec.ofBool f.park ++ BitVec.ofBool f.last ++ op ++ fn ++ f.mk ++ BitVec.ofBool f.mi ++ f.rm ++ f.vd ++ f.va
    ++ f.vb ++ f.vc ++ f.aux ++ f.imm

/-- The major opcode and function of a lane instruction, with its fields (Tables 2.7 and 2.8). -/
def laneCode : Instr → Option (BitVec 7 × BitVec 6 × Lane)
  | .vadd t f => some (match t with | .i32 => 0x01 | .n32 => 0x02 | .i64 => 0x03 | .n64 => 0x04, 0, f)
  | .vsub t f => some (match t with | .i32 => 0x01 | .n32 => 0x02 | .i64 => 0x03 | .n64 => 0x04, 1, f)
  | .vmul t f => some (match t with | .i32 => 0x01 | .n32 => 0x02 | .i64 => 0x03 | .n64 => 0x04, 2, f)
  | .vmulh t f => some (match t with | .i32 => 0x01 | .n32 => 0x02 | .i64 => 0x03 | .n64 => 0x04, 3, f)
  | .vmad t f => some (match t with | .i32 => 0x01 | .n32 => 0x02 | .i64 => 0x03 | .n64 => 0x04, 4, f)
  | .vmin t f => some (match t with | .i32 => 0x01 | .n32 => 0x02 | .i64 => 0x03 | .n64 => 0x04, 5, f)
  | .vmax t f => some (match t with | .i32 => 0x01 | .n32 => 0x02 | .i64 => 0x03 | .n64 => 0x04, 6, f)
  | .vand t f => some (match t with | .i32 => 0x01 | .n32 => 0x02 | .i64 => 0x03 | .n64 => 0x04, 7, f)
  | .vor t f => some (match t with | .i32 => 0x01 | .n32 => 0x02 | .i64 => 0x03 | .n64 => 0x04, 8, f)
  | .vxor t f => some (match t with | .i32 => 0x01 | .n32 => 0x02 | .i64 => 0x03 | .n64 => 0x04, 9, f)
  | .vshl t f => some (match t with | .i32 => 0x01 | .n32 => 0x02 | .i64 => 0x03 | .n64 => 0x04, 10, f)
  | .vshr t f => some (match t with | .i32 => 0x01 | .n32 => 0x02 | .i64 => 0x03 | .n64 => 0x04, 11, f)
  | .vsra t f => some (match t with | .i32 => 0x01 | .n32 => 0x02 | .i64 => 0x03 | .n64 => 0x04, 12, f)
  | .vbfx t f => some (match t with | .i32 => 0x01 | .n32 => 0x02 | .i64 => 0x03 | .n64 => 0x04, 13, f)
  | .vbfi t f => some (match t with | .i32 => 0x01 | .n32 => 0x02 | .i64 => 0x03 | .n64 => 0x04, 14, f)
  | .vsel t f => some (match t with | .i32 => 0x01 | .n32 => 0x02 | .i64 => 0x03 | .n64 => 0x04, 15, f)
  | .vabs w f => some (if w then 0x06 else 0x05, 0, f)
  | .vneg w f => some (if w then 0x06 else 0x05, 1, f)
  | .vnot w f => some (if w then 0x06 else 0x05, 2, f)
  | .vclz w f => some (if w then 0x06 else 0x05, 3, f)
  | .vpopc w f => some (if w then 0x06 else 0x05, 4, f)
  | .vmov w f => some (if w then 0x06 else 0x05, 5, f)
  | .vcmp t c f => some (0x07, t.code ++ (0 : BitVec 1) ++ c.code, f)
  | .vimm f => some (0x08, 0, f)
  | .vtid f => some (0x09, 0, f)
  | .vtidWg f => some (0x09, 1, f)
  | .vaff f => some (0x0A, 0, f)
  | .fadd t f => some (t.op, 0, f)
  | .fsub t f => some (t.op, 1, f)
  | .fmul t f => some (t.op, 2, f)
  | .ffma t f => some (t.op, 3, f)
  | .fmin t f => some (t.op, 4, f)
  | .fmax t f => some (t.op, 5, f)
  | .fabs t f => some (t.op, 6, f)
  | .fneg t f => some (t.op, 7, f)
  | .fcmp t f => some (t.op, 8, f)
  | .fclass t f => some (t.op, 9, f)
  | .frcp t f => some (t.op, 10, f)
  | .frsq t f => some (t.op, 11, f)
  | .fsqrt t f => some (t.op, 12, f)
  | .fdiv t f => some (t.op, 13, f)
  | .fexp2 t f => some (t.op, 14, f)
  | .flog2 t f => some (t.op, 15, f)
  | .ftanh t f => some (t.op, 16, f)
  | .fscale t f => some (t.op, 17, f)
  | .cvt dst src f => some (0x14, dst.code ++ src.code, f)
  | .npack bf f => some (0x15, if bf then 1 else 0, f)
  | .nunpack bf f => some (0x16, if bf then 1 else 0, f)
  | .vdot k f => some (0x17, k.code, f)
  | .vdoth k f => some (0x18, k.code, f)
  | .mand f => some (0x20, 0, f)
  | .mor f => some (0x20, 1, f)
  | .mxor f => some (0x20, 2, f)
  | .mnot f => some (0x20, 3, f)
  | .mmov f => some (0x20, 4, f)
  | .mcnt f => some (0x20, 5, f)
  | .mfirst f => some (0x20, 6, f)
  | .mfrom f => some (0x20, 7, f)
  | .rshuf f => some (0x30, 0x0, f)
  | .rshift f => some (0x30, 0x1, f)
  | .rbcast f => some (0x30, 0x2, f)
  | .rscan f => some (0x30, 0x3, f)
  | .rred f => some (0x30, 0x4, f)
  | .rredQ f => some (0x30, 0x24, f)
  | .gperm f => some (0x31, 0x0, f)
  | .gscan f => some (0x31, 0x1, f)
  | .gred f => some (0x31, 0x2, f)
  | .gbcast f => some (0x31, 0x3, f)
  | .gredQ f => some (0x31, 0x22, f)
  | .vld z f => some (0x40, (0 : BitVec 3) ++ z.code, f)
  | .vst z f => some (0x41, (0 : BitVec 3) ++ z.code, f)
  | .vldx z f => some (0x42, (0 : BitVec 3) ++ z.code, f)
  | .vstx z f => some (0x43, (0 : BitVec 3) ++ z.code, f)
  | .vlds z f => some (0x44, (0 : BitVec 3) ++ z.code, f)
  | .acpy f => some (0x45, 0, f)
  | .vatom op z f => some (0x46, op.code ++ z.code, f)
  | .vred op z f => some (0x47, op.code ++ z.code, f)
  | _ => none

/-- The word of a scalar instruction; the first word, for a two-word `li` (Tables 2.2 to 2.4). -/
def scalarCode : Instr → Option (BitVec 32)
  | .add d a b => some (encSR 0x01 d a b 0)
  | .sub d a b => some (encSR 0x01 d a b 1)
  | .mul d a b => some (encSR 0x01 d a b 2)
  | .mulh d a b => some (encSR 0x01 d a b 3)
  | .mulhn d a b => some (encSR 0x01 d a b 4)
  | .div d a b => some (encSR 0x01 d a b 5)
  | .divn d a b => some (encSR 0x01 d a b 6)
  | .rem d a b => some (encSR 0x01 d a b 7)
  | .remn d a b => some (encSR 0x01 d a b 8)
  | .min d a b => some (encSR 0x01 d a b 9)
  | .max d a b => some (encSR 0x01 d a b 10)
  | .minn d a b => some (encSR 0x01 d a b 11)
  | .maxn d a b => some (encSR 0x01 d a b 12)
  | .and d a b => some (encSR 0x01 d a b 16)
  | .or d a b => some (encSR 0x01 d a b 17)
  | .xor d a b => some (encSR 0x01 d a b 18)
  | .shl d a b => some (encSR 0x01 d a b 24)
  | .shr d a b => some (encSR 0x01 d a b 25)
  | .sra d a b => some (encSR 0x01 d a b 26)
  | .rotl d a b => some (encSR 0x01 d a b 27)
  | .abs d a => some (encSR 0x02 d a 0 0)
  | .clz d a => some (encSR 0x02 d a 0 1)
  | .ctz d a => some (encSR 0x02 d a 0 2)
  | .popc d a => some (encSR 0x02 d a 0 3)
  | .sext8 d a => some (encSR 0x02 d a 0 8)
  | .sext16 d a => some (encSR 0x02 d a 0 9)
  | .sext32 d a => some (encSR 0x02 d a 0 10)
  | .zext8 d a => some (encSR 0x02 d a 0 12)
  | .zext16 d a => some (encSR 0x02 d a 0 13)
  | .zext32 d a => some (encSR 0x02 d a 0 14)
  | .cmp d a b c => some (encSR 0x03 d a b ((0 : BitVec 4) ++ c.code))
  | .sel d a b c => some (encSR 0x04 d a b (c ++ (0 : BitVec 1)))
  | .addi d a i => some (encSI 0x05 d a i)
  | .andi d a i => some (encSI 0x06 d a i)
  | .ori d a i => some (encSI 0x07 d a i)
  | .xori d a i => some (encSI 0x08 d a i)
  | .shli d a c => some (encSI 0x09 d a ((0 : BitVec 7) ++ c))
  | .shri d a c => some (encSI 0x09 d a ((1 : BitVec 7) ++ c))
  | .srai d a c => some (encSI 0x09 d a ((2 : BitVec 7) ++ c))
  | .cmpi d a c i => some (encSI 0x0A d a (c.code ++ i))
  | .bfx d a l p => some (encSI 0x0B d a ((0 : BitVec 1) ++ l ++ p))
  | .bfxS d a l p => some (encSI 0x0B d a ((1 : BitVec 1) ++ l ++ p))
  | .bfi d a l p => some (encSI 0x0C d a ((0 : BitVec 1) ++ l ++ p))
  | .lui d i => some (encSU 0x0D d i)
  | .li d i => some (encSU 0x0E d ((0 : BitVec 1) ++ i))
  | .liTwoWord d _ => some (encSU 0x0E d ((1 : BitVec 1) ++ (0 : BitVec 18)))
  | .lea d a i => some (encSI 0x0F d a i)
  | .leaPc d i => some (encSU 0x25 d i)
  | .br o => some (encSJ 0x10 o)
  | .call o => some (encSJ 0x11 o)
  | .bz d o => some (encSU 0x12 d o)
  | .bnz d o => some (encSU 0x13 d o)
  | .loop d o => some (encSU 0x14 d o)
  | .bmask c k o => some ((0x15 : BitVec 7) ++ c.code ++ k ++ o)
  | .jtab d o => some (encSU 0x16 d o)
  | .lpad l => some ((0x17 : BitVec 7) ++ (0 : BitVec 9) ++ l)
  | .bccEq d a o => some (encSI 0x18 d a o)
  | .bccNe d a o => some (encSI 0x19 d a o)
  | .bccLt d a o => some (encSI 0x1a d a o)
  | .bccGe d a o => some (encSI 0x1b d a o)
  | .bccLtn d a o => some (encSI 0x1c d a o)
  | .bccGen d a o => some (encSI 0x1d d a o)
  | .bcci d c i o => some ((0x1E : BitVec 7) ++ d ++ c.code ++ i ++ o)
  | .nop => some (encSR 0x1F 0 0 0 0)
  | .halt => some (encSR 0x1F 0 0 0 1)
  | .yield => some (encSR 0x1F 0 0 0 2)
  | .ret => some (encSR 0x1F 0 0 0 3)
  | .sret => some (encSR 0x1F 0 0 0 4)
  | .fret => some (encSR 0x1F 0 0 0 5)
  | .ecall => some (encSR 0x1F 0 0 0 6)
  | .lpark => some (encSR 0x1F 0 0 0 8)
  | .trap a => some (encSR 0x1F 0 a 0 7)
  | .rdgrant d => some (encSR 0x1F d 0 0 9)
  | .setw a => some (encSR 0x1F 0 a 0 10)
  | .qread d a q => some (encSR 0x1F d a 0 ((0x3 : BitVec 5) ++ q))
  | .lrun inv k l => some ((0x20 : BitVec 7) ++ BitVec.ofBool inv ++ k ++ l)
  | .csrr d r => some (encSI 0x21 d 0 ((0 : BitVec 1) ++ r))
  | .csrw d a r => some (encSI 0x22 d a ((0 : BitVec 1) ++ r))
  | .csrs d a r => some (encSI 0x23 d a ((0 : BitVec 1) ++ r))
  | .csrc d a r => some (encSI 0x24 d a ((0 : BitVec 1) ++ r))
  | .ldsI8 d a i => some (encSI 0x30 d a i)
  | .ldsN8 d a i => some (encSI 0x31 d a i)
  | .ldsI16 d a i => some (encSI 0x32 d a i)
  | .ldsN16 d a i => some (encSI 0x33 d a i)
  | .ldsI32 d a i => some (encSI 0x34 d a i)
  | .ldsN32 d a i => some (encSI 0x35 d a i)
  | .ldsI64 d a i => some (encSI 0x36 d a i)
  | .stsI8 d a i => some (encSI 0x38 d a i)
  | .stsI16 d a i => some (encSI 0x39 d a i)
  | .stsI32 d a i => some (encSI 0x3a d a i)
  | .stsI64 d a i => some (encSI 0x3b d a i)
  | .ldacqI32 d a s => some (encSR 0x3C d a 0 ((0 : BitVec 3) ++ s))
  | .ldacqN32 d a s => some (encSR 0x3C d a 0 ((1 : BitVec 3) ++ s))
  | .ldacqI64 d a s => some (encSR 0x3C d a 0 ((2 : BitVec 3) ++ s))
  | .strelI32 a b s => some (encSR 0x3C 0 a b ((4 : BitVec 3) ++ s))
  | .strelI64 a b s => some (encSR 0x3C 0 a b ((6 : BitVec 3) ++ s))
  | .fenceAcq s => some (encSR 0x3D 0 0 0 ((1 : BitVec 3) ++ s))
  | .fenceRel s => some (encSR 0x3D 0 0 0 ((2 : BitVec 3) ++ s))
  | .fenceAr s => some (encSR 0x3D 0 0 0 ((3 : BitVec 3) ++ s))
  | .cwb a b => some (encSR 0x3E 0 a b 0)
  | .cinv a b => some (encSR 0x3E 0 a b 1)
  | .cdis a b => some (encSR 0x3E 0 a b 2)
  | .mcas d a => some (encSR 0x3F d a 0 0)
  | .atomAdd d a b w o s => some (encSR 0x40 d a b (BitVec.ofBool w ++ o ++ s))
  | .atomAnd d a b w o s => some (encSR 0x41 d a b (BitVec.ofBool w ++ o ++ s))
  | .atomOr d a b w o s => some (encSR 0x42 d a b (BitVec.ofBool w ++ o ++ s))
  | .atomXor d a b w o s => some (encSR 0x43 d a b (BitVec.ofBool w ++ o ++ s))
  | .atomMin d a b w o s => some (encSR 0x44 d a b (BitVec.ofBool w ++ o ++ s))
  | .atomMax d a b w o s => some (encSR 0x45 d a b (BitVec.ofBool w ++ o ++ s))
  | .atomMinn d a b w o s => some (encSR 0x46 d a b (BitVec.ofBool w ++ o ++ s))
  | .atomMaxn d a b w o s => some (encSR 0x47 d a b (BitVec.ofBool w ++ o ++ s))
  | .atomSwap d a b w o s => some (encSR 0x48 d a b (BitVec.ofBool w ++ o ++ s))
  | .atomCas d a b w o s => some (encSR 0x49 d a b (BitVec.ofBool w ++ o ++ s))
  | .twait d a b => some (encSR 0x50 d a b 0)
  | .tread d a => some (encSR 0x50 d a 0 1)
  | .tsig a b => some (encSR 0x50 0 a b 2)
  | .cbatch d => some (encSR 0x50 d 0 0 3)
  | .abinit a b => some (encSR 0x51 0 a b 0)
  | .aarrive d a b => some (encSR 0x51 d a b 1)
  | .await d a b => some (encSR 0x51 d a b 2)
  | .wgbar d a b => some (encSR 0x51 d a b 3)
  | .hbar d a b => some (encSR 0x51 d a b 4)
  | .kick d a b => some (encSR 0x52 d a b 0)
  | .btres d a b => some (encSR 0x60 d a b 0)
  | .btalloc d a b => some (encSR 0x60 d a b 1)
  | .btfork d a b => some (encSR 0x60 d a b 2)
  | .btcow d a b => some (encSR 0x60 d a b 3)
  | .btdemote d a b => some (encSR 0x60 d a b 4)
  | .btrel d a b => some (encSR 0x60 d a b 5)
  | .eresume d a b => some (encSR 0x61 d a b 0)
  | .tstat d a => some (encSR 0x61 d a 0 1)
  | .ecreate d a => some (encSR 0x62 d a 0 0)
  | .edestroy d a => some (encSR 0x62 d a 0 1)
  | .eaddpg d a => some (encSR 0x62 d a 0 2)
  | .eextend d a => some (encSR 0x62 d a 0 3)
  | .eevict d a => some (encSR 0x62 d a 0 4)
  | .eload d a => some (encSR 0x62 d a 0 5)
  | .kimport d a => some (encSR 0x62 d a 0 6)
  | .kerase a => some (encSR 0x62 0 a 0 7)
  | .potq d a => some (encSR 0x62 d a 0 8)
  | .savev d a b => some (encSR 0x63 d a b 0)
  | .restv d b => some (encSR 0x63 d 0 b 1)
  | .sdone a => some (encSR 0x63 0 a 0 2)
  | _ => none

/-- The 32-bit words of an instruction, the one at the lowest address first; none for a step of the part, which no
program encodes. -/
def encode (i : Instr) : List (BitVec 32) :=
  match scalarCode i with
  | some w => match i with
    | .liTwoWord _ u => [w, u]
    | _ => [w]
  | none =>
    match laneCode i with
    | some (op, fn, f) => let x := encLane op fn f; [bits x 0 32, bits x 32 32, bits x 64 32]
    | none => []

/-- The decoder on the words of `encode`: one or two words for the scalar stream, three for the lane stream. -/
def decodeWords : List (BitVec 32) → Except Reject Instr
  | [w] => if needsSecondWord w then .error .truncated else decodeScalar w 0
  | [w, u] => if needsSecondWord w then decodeScalar w u else .error .truncated
  | [x, y, z] => decodeLane (z ++ y ++ x)
  | _ => .error .truncated

end Sys2Proof
end

