-- ==== Sys2Proof/Machine/State.lean ====
section
/-!
DEFINITION. The state of the NZ96 as plain data: every agent with its registers, the lane streams, memory with the
caches and clocks of the dies, the enclaves, queues, engine operations, launches, partitions, Ridgepole, the links and
the health block. The default of a field is its value at reset: the value the spec states, or where it states none
the value that the named log entry gives.
-/
namespace Sys2Proof.Machine

/-- Why `step` stops. -/
inductive Fault where
  /-- Raised by `step` alone, when the next turn names an agent that cannot take it: a schedule that the hardware
  does not produce (R270). Safe: no effect is claimed. -/
  | badTurn
deriving DecidableEq, Repr

/-- Why an instruction has no meaning here. -/
inductive Refusal where
  /-- Raised by an arm of `exec` whose instruction has no meaning yet. Safe. -/
  | notModelled (mnemonic : String)
deriving DecidableEq, Repr

/-! ## Agents -/

/-- The privilege levels (01 Table 1.6). -/
inductive Level where
  | u | s | h
deriving DecidableEq, Repr

/-- The kinds of agents that run Karlar code (01 R35, R36). -/
inductive AgentKind where
  | group | control | host
deriving DecidableEq, Repr

/-- The shape-tagged contents of a lane register (01 R23): uniform, affine with base and stride, or one word a thread. -/
inductive LaneReg where
  | u (b : Half)
  | a (b d : Half)
  | g (l : List Half)
deriving DecidableEq, Repr

/-- A reduction result register (01 R28). -/
structure QReg where
  val : Word := 0
  seq : BitVec 16 := 0
deriving DecidableEq, Repr

/-- The register files (01 Table 1.4). Reset: no value is given for a scalar register at package reset; zero (log 1). -/
structure Regs where
  s : Vector Word 64 := .replicate 64 0
  v : Vector LaneReg 256 := .replicate 256 (.u 0)
  m : Vector Mask 16 := .replicate 16 0
  q : Vector QReg 4 := .replicate 4 { val := 0, seq := 0 }
deriving DecidableEq, Repr

/-- The trap and save registers (11 Table 11.8). -/
structure TrapRegs where
  cause : BitVec 8 := 0
  causeLane : Bool := false
  val : Word := 0
  spc : Word := 0
  /-- XLANE.ADDR, with the two low bits zero, and XLANE.FV. -/
  xlane : Word := 0
  fv : Bool := false
  /-- XPRIV. -/
  hm : Bool := false
  level : Level := .u
  vec : Word := 0
  saveBase : Word := 0
  /-- PSTAT. -/
  used : BitVec 32 := 0
  forced : Bool := false
  resliced : Bool := false
  inRestore : Bool := false
  inSave : Bool := false
  /-- The IPA of the last STAGE2 fault, which an exit record carries (11 Table 11.9). -/
  s2ipa : Nat := 0
deriving DecidableEq, Repr

/-- The outstanding-operation classes (01 Table 1.1). -/
inductive OutClass where
  | mem | long | xlane
deriving DecidableEq, Repr

/-- A handed-over lane block: the lane index of its next instruction, how many of its instructions have issued, the
mask select of its `lrun`, the block mask once it has been sampled, and the scalar registers and the level as they stood
at the `lrun` (01 R17, 04 R110; log 13). -/
structure Block where
  lidx : Nat
  issued : Nat := 0
  sel : BitVec 4 := 0
  inv : Bool := false
  mask : Mask := 0
  s : Vector Word 64
  level : Level := .u
  /-- The next instruction executes for these threads alone: it replays after a storage-backed fill (11 R302). -/
  only : Option Mask := none
deriving DecidableEq, Repr

/-- One register write of an issued lane instruction that has not returned (01 R20, R21). -/
inductive PendWrite where
  /-- Lane register `r`: the threads written, and the new contents. -/
  | lane (r : Nat) (live : Mask) (all : Bool) (new : LaneReg)
  | mask (r : Nat) (live : Mask) (new : Mask)
  /-- One write of q register `r`, which takes a sequence step when it lands (R28). -/
  | q (r : Nat) (val : Word)
deriving DecidableEq, Repr

/-- A lane instruction whose results, or memory acknowledgements, are outstanding (01 R19 to R21). -/
structure Pend where
  /-- The class counter it holds; none for a fixed-latency instruction, which is not counted (R21). -/
  cls : Option OutClass
  writes : List PendWrite
  flags : BitVec 5 := 0
  /-- The threads whose data came back poisoned or failed its integrity check, with the cause and the address of the
  lowest of them (05 R155), and the address of the instruction. -/
  bad : Mask := 0
  badCause : BitVec 8 := 0
  badVal : Word := 0
  addr : Word := 0
deriving DecidableEq, Repr

/-- Held lane work (11 R296). -/
structure HeldLane where
  active : Option Block := none
  queue : List Block := []
deriving DecidableEq, Repr

/-- A fault that a drain before a save raised, delivered after the resume (11 R308). -/
structure HeldTrap where
  cause : BitVec 8
  val : Word
  addr : Word
  faulters : Mask
  /-- The IPA of a STAGE2 fault (R299). -/
  ipa : Nat := 0
deriving DecidableEq, Repr

/-- The lane stream of a group (01 R16 to R21). -/
structure LaneStream where
  queue : List Block := []
  active : Option Block := none
  parked : Bool := false
  /-- An instruction waits at issue for a full outstanding counter (R21). -/
  stalled : Bool := false
  pend : List Pend := []
  held : Option HeldLane := none
  /-- The threads that a `fret` waiting for a fill still has to replay (R156, R302). -/
  replay : Option Mask := none
  /-- The group waits for a fill that the fetch of its next lane instruction met (R89, R302). -/
  fetchWait : Bool := false
  drainTrap : Option HeldTrap := none
deriving DecidableEq, Repr

/-- What a waiting agent waits for; the waiting instruction executes again when the wait ends (04 R90). -/
inductive Wait where
  | lrunRoom | drain | bmask (k : BitVec 4)
  /-- For the write of q register `q` that takes sequence number `want`; `d` is the destination (R114). -/
  | qread (q : BitVec 2) (d : BitVec 6) (want : BitVec 16)
  /-- For a timeline by handle, or a barrier by address, to reach a count (R175, R181). -/
  | twait (h n : Word) | await (va n : Word)
  | wgbar | hbar | btcow (op : Nat) | fill (fill : Nat)
  /-- A saved agent that has exited: for the DONE of its exit record (R299). -/
  | exitDone
deriving DecidableEq, Repr

inductive Status where
  /-- No agent stands here. -/
  | absent
  | ready
  | waiting (w : Wait)
  /-- Exited to the host agent (R299). -/
  | exited
  /-- A save is blocked: the state is held on the core (R317, R312), with the wait that the save left, if any. -/
  | blocked (w : Option Wait)
  /-- Saved and off its core; `forced` tells a forced save from one that `sdone` ended (R315); the wait that the save
  left, if any (R262). -/
  | saved (forced : Bool) (w : Option Wait)
  /-- Halted (R119), or destroyed with its enclave (R216). -/
  | ended
  /-- An H thread stopped by a trap in its handler (R297). -/
  | stopped
deriving DecidableEq, Repr

/-- The arrival of an agent at `wgbar` or `hbar` (06 R182, R183). -/
structure BarArrival where
  herd : Option Nat
  k : Nat
  op : BitVec 3
  val : Word
  sd : BitVec 6
  /-- The clamped scope, and the clock of the release that the arrival makes (R183). -/
  scope : Nat := 2
  clock : Vector Nat 6 := .replicate 6 0
deriving DecidableEq, Repr

/-- The vector clock of a die: CD0 to CD3, BD0, BD1 (09 R247). -/
abbrev Clock := Vector Nat 6
def Clock.zero : Clock := .replicate 6 0
/-- A die's clock at reset, for which the spec gives no value: not `zero`, so that the clock of a release is told from that of a
value that no release wrote (log 8). -/
def Clock.start : Clock := .replicate 6 1

/-- A plain write that has not yet left its agent (09 R246). -/
structure Leaving where
  bytes : List Host.Cell
  smr : Bool := false
  /-- The page is die-affine to another die (R166), or an engine wrote an SMR page (R256): no copy is kept. -/
  uncached : Bool := false
deriving DecidableEq, Repr

/-- The code view of a group: the header copy of its launch (08 R227, R232). -/
structure CodeView where
  code : Nat
  span : Nat
  textOff : Nat
  textLen : Nat
  laneOff : Nat
  laneN : Nat
  cmp : Bool := false
  latOff : Nat := 0
  nlat : Nat := 0
  cstOff : Nat := 0
  cstLen : Nat := 0
  dictOff : Nat := 0
  ndict : Nat := 0
  /-- Of a compressed object: what it held at the `kick` of its launch, offset and bytes (08 R231). -/
  snap : List (Nat × List Byte) := []
deriving DecidableEq, Repr

/-- A code line that the L1 of a core holds expanded (08 R229, R231): its launch and its view address. -/
structure CodeLine where
  die : Nat
  core : Nat
  launch : Nat
  addr : Nat
  words : List (BitVec 32)
deriving DecidableEq, Repr

/-- The group registers of 04 Table 4.7 that the launch sets. -/
structure GroupIds where
  grpIdx : Nat := 0
  wgIdx : Nat := 0
  thrBase : Nat := 0
  launchId : Nat := 0
  herdMap : BitVec 36 := 0
deriving DecidableEq, Repr

/-- Synchronisation state of an agent: copy batches, barrier counts, wait results (06). -/
structure SyncState where
  /-- The widest scope of the open batch so far, and the last closed batch number (R174, R177). -/
  openScope : Nat := 0
  lastBatch : Nat := 0
  /-- The scopes of the closed batches: batch number and scope. -/
  batchScope : List (Nat × Nat) := []
  wgbarK : Nat := 0
  hbarK : Vector Nat 4 := .replicate 4 0
  arrival : Option BarArrival := none
deriving DecidableEq, Repr

/-- Scheduling state of an agent on its slot (10 R270): issues are counted over the whole part, and `lastIssue` is the
number of the agent's last one. -/
structure SchedState where
  slot : Nat := 0
  pri : Nat := 0
  lastIssue : Nat := 0
  aged : Bool := false
  /-- Whether the agent was ready when its slot last picked, and the issue count at which it became ready. -/
  ready : Bool := false
  since : Nat := 0
deriving DecidableEq, Repr

/-- An agent that runs Karlar code. Reset: no agent stands on the part; its registers read zero (log 1). -/
structure Agent where
  id : Nat := 0
  kind : AgentKind := .host
  enc : BitVec 16 := 0
  part : Nat := 0
  wg : Nat := 0
  die : Nat := 0
  core : Nat := 0
  status : Status := .absent
  level : Level := .h
  pc : Word := 0
  regs : Regs := {}
  /-- G, W, and the grant at the last read of GRANT or `rdgrant` (R10 to R13). -/
  gsize : Nat := 8
  width : Nat := 8
  seenWidth : Nat := 8
  contract : Option Nat := none
  budget : Nat := 8
  ids : GroupIds := {}
  gchg : Bool := false
  clamped : Bool := false
  rmode : BitVec 3 := 0
  flush : BitVec 6 := 0
  fflags : BitVec 5 := 0
  trap : TrapRegs := {}
  shadow : List Word := []
  lane : LaneStream := {}
  sync : SyncState := {}
  sched : SchedState := {}
  code : Option CodeView := none
  leaving : List Leaving := []
  /-- The clock of the home-origin values that the agent has read (09 R253), and that of its release fences at die scope or
  wider, which every later write of it carries (R170, R250). -/
  homeSeen : Clock := .zero
  relClock : Clock := .zero
  /-- The clock of the agent's releases at scope 8 or wider (18 R388). -/
  fabricClock : Clock := .zero
  /-- The scalar snapshot of a save routine, the width and X registers that a save keeps, and the pending scalar copy
  of a restore routine (11 R309, R315). -/
  snapshot : Option (Vector Word 64) := none
  savedWidth : Nat := 8
  pendingScalars : Option (Vector Word 64) := none
  /-- A pre-emption stops the scalar stream until the lane stream has drained (R308). -/
  preempting : Bool := false
  /-- The save slot bound to a group, by its index in the enclave's slot map (11 R293, R312). -/
  slotIdx : Nat := 0
deriving DecidableEq, Repr

/-! ## Memory -/

/-- Who wrote a home byte last (09 R247, R248): the clock that travels with the value, whether the value is home-origin,
and its place in the home order (R249). -/
structure ByteMeta where
  clock : Clock
  origin : Bool
  seq : Nat := 0
deriving DecidableEq, Repr

/-- One byte that a die holds a copy of (09 R240, R241, R255). -/
structure CopyByte where
  addr : Nat
  val : Byte
  dirty : Bool := false
  smr : Bool := false
  /-- The clock of the home-origin value that the copy shows. -/
  origin : Option Clock := none
  /-- The plain write that the copy shows while home has not applied it: its die and its number there; after that, and for
  a value that came from home, the place of the value in the home order (R249). -/
  wid : Option (Nat × Nat) := none
  seq : Nat := 0
deriving DecidableEq, Repr

/-- A plain write in delivery, or the home update of a home-origin write (09 R247, R248). -/
structure Flight where
  agent : Nat
  die : Nat
  clock : Clock
  bytes : List Host.Cell
  /-- True for a home update: it is not held for causal predecessors. -/
  origin : Bool := false
  atHome : Bool := false
  /-- Its place in the home order, once home has applied it (R249). -/
  seq : Nat := 0
  /-- The dies that the write still has to reach. -/
  todo : List Nat := []
deriving DecidableEq, Repr

/-- The caches of one die (09 R240). -/
structure DieMem where
  clock : Clock := .start
  copies : List CopyByte := []
deriving DecidableEq, Repr

/-- Memory and its order (09). `home` is the value applied at home of every byte of HBM, LPDDR-6 and host memory, in
canonical form: addresses strictly rising, no entry equal to the zero that never-written storage reads as (R158). -/
structure MemSys where
  home : List Host.Cell := []
  homeMeta : List (Nat × ByteMeta) := []
  /-- How many writes home has applied: the places of the home order given out (R249). -/
  homeSeq : Nat := 0
  dies : Vector DieMem 6 := .replicate 6 { clock := .start, copies := [] }
  flight : List Flight := []
  /-- Poisoned lines, by line number PA / 256 (15 R379); frames, by PA >> 18, that the scrub left with no valid Thatch tag, and
  lines whose tag fails because memory has been altered from outside (13 R335). -/
  poison : List Nat := []
  untagged : List Nat := []
  badTags : List Nat := []
deriving DecidableEq, Repr

/-- The states of a frame (11 Table 11.4). -/
inductive FrameState where
  | free | owned | code | save | pool | hostShared | scrubbing
deriving DecidableEq, Repr

/-- A page-ownership entry (11 Table 11.4). -/
structure PotEntry where
  state : FrameState := .free
  owner : BitVec 16 := 0
  lk : Bool := false
  migrating : Bool := false
  lkFor : BitVec 16 := 0
deriving DecidableEq, Repr

/-! ## Enclaves, queues and engine operations -/

/-- An engine timeline (06 R174; 07 Table 7.15). -/
structure Timeline where
  scope : Nat := 0
  soft : Bool := false
  count : Word := 0
  /-- The clocks of the releases that the counter carries (R175, R176, R190). -/
  clock : Clock := .zero
deriving DecidableEq, Repr

/-- A record that `kick` has taken, with what the `kick` captured (06 R185, R186). -/
structure Rec where
  bytes : List Byte
  rmode : BitVec 3 := 0
  flush : BitVec 6 := 0
  agent : Nat := 0
  wg : Nat := 0
  die : Nat := 0
  level : Level := .s
  /-- The clock of the release that the `kick` performed (R186). -/
  clock : Clock := .zero
  /-- The order of the `kick` in the partition, and in the queue (R263, R186). -/
  order : Nat := 0
  slot : Nat := 0
  /-- Of a LAUNCH record whose object is compressed: what the object held (08 R231). -/
  snap : List (Nat × List Byte) := []
deriving DecidableEq, Repr

/-- A queue of an enclave (10 R257, R258). A record in the spill area keeps in the model what the `kick` captured
beside its bytes in memory. -/
structure Queue where
  kind : Nat := 0
  hwCap : Nat := 0
  spillCap : Nat := 0
  spillAddr : Nat := 0
  hw : List Rec := []
  spill : List Rec := []
  /-- Spill slots are used round-robin: the number of records spilled so far, and refilled so far. -/
  spilled : Nat := 0
  refilled : Nat := 0
  /-- A refill that faulted: the token slot of the read (R259). -/
  refillFault : Option Nat := none
  err : Bool := false
  last : BitVec 8 := 0
deriving DecidableEq, Repr

/-- Where an engine operation stands. -/
inductive OpState where
  /-- In the tile scheduler's window. -/
  | window
  | running
  | suspended
  /-- Stopped at a 256-byte unit by MIGSTOP (13 R354). -/
  | stopped
  /-- Waiting at its load pipe: a storage-backed fill, or a pinned block (R302, R205). -/
  | waiting
  /-- Work ended; the completion still has to signal in the queue's order (R190). -/
  | done
deriving DecidableEq, Repr

/-- The running state of one ATTN row (12 R327): maximum, sum, output elements. -/
structure AttnRow where
  mx : Half
  sum : Half
  o : List Half
deriving DecidableEq, Repr

/-- What an operation works on beside a queue record. -/
inductive OpKind where
  /-- A record of a queue: kinds 0 LAUNCH, 1 COPY, 2 TILE, 3 STORE, 4 COLL (07 Table 7.3). -/
  | record (kind : Nat)
  /-- The copy of a `btcow`: table, name, old and new descriptor, destination register (07 R203). -/
  | cow (name : Word) (old new : Nat) (refcnt : Nat) (sd : BitVec 6)
  /-- A block move: table, descriptor, mate, whether it promotes, timeline and value (07 R204). -/
  | move (table : Nat) (desc mate : Nat) (promote : Bool) (tl : Nat) (val : Word)
deriving DecidableEq, Repr

/-- One valid accumulator row: its number in the reservation and its 96 f32 columns (12 R319). -/
structure AccRow where
  row : Nat
  cols : List Half
deriving DecidableEq, Repr

/-- An engine operation of an enclave. -/
structure Op where
  id : Nat
  enc : BitVec 16
  queue : Nat := 0
  kind : OpKind
  record : Rec
  state : OpState := .running
  die : Nat := 0
  /-- ROWPROG, bytes landed, or blocks done (11 Table 11.13). -/
  progress : Nat := 0
  cause : BitVec 8 := 0
  va : Word := 0
  /-- The error that the completion reports; 0 none. -/
  error : BitVec 8 := 0
  flags : BitVec 5 := 0
  /-- The block pinned by a COPY into a KV block: table and descriptor. -/
  pin : Option (Nat × Nat) := none
  attn : List AttnRow := []
  /-- A tile task: the object-table entries it has read (07 R195; of a collective, its members), the operand its engine holds loaded (B and its scales,
  or Q: 12 R322, R327), and the blocks that it has pinned, with the address and the size of each (R326). -/
  entries : List (Nat × List Byte) := []
  stationary : Option (List (List Nat × List Nat)) := none
  blocks : List (Nat × Nat × Nat × Nat) := []
  /-- The stream a peer copy or a collective uses, and its record tag (14 R361, Table 14.5). -/
  stream : Option Nat := none
  rectag : Nat := 0
  /-- A collective: the streams toward its other members by rank, the contributions that it holds, by rank and from their start,
  and its result once all of them have come and its own have been acknowledged (13 R351, 14 R361). -/
  streams : List Nat := []
  parts : List (Nat × List Byte) := []
  result : Option (List Byte) := none
  /-- Bytes handed to flits so far, for a peer copy. -/
  sent : Nat := 0
  /-- NVMe commands outstanding: offset and length in bytes; the offsets of those that have completed (14 R373). -/
  cmds : List (Nat × Nat) := []
  landed : List Nat := []
  /-- A STORE record: the storage key that its transfer began with (07 R220), and what it has handed to the drive: LBA and bytes. -/
  key : Option Nat := none
  written : List (Nat × List Byte) := []
  /-- Rendezvous flits held, and whether the collective has started (13 R351); whether a tile task holds its bank
  (12 R319). -/
  rdv : List RdvFlit := []
  started : Bool := false
  /-- A tile task whose workgroup has completed: the rows of its reservation, and those valid of the bank that it claims (12 R319). -/
  left : Option (Nat × List AccRow) := none
  /-- A tile task: the engine that it was issued to, by its number on the die (10 R272). -/
  engine : Option Nat := none
  /-- The widest scope of the policy that the operation was issued under (13 R346). -/
  maxScope : Nat := 10
  /-- The slot of its token, where an operation has come by migration with a token of the source (13 R355). -/
  tok : Option Nat := none
deriving DecidableEq, Repr

/-- A fault or flag record not yet written to memory (11 R303, 12 R321). -/
structure FaultRec where
  token : Word
  word1 : Word
  va : Word
  progress : Word
  /-- The die that acts for the enclave. -/
  die : Nat := 0
deriving DecidableEq, Repr

inductive EnclaveState where
  | building | running | migrating | stopped | arriving | dying
deriving DecidableEq, Repr

/-- The save fields, fixed at their sampling (11 R293, R312). -/
structure SaveFields where
  ipa : Nat
  slotSz : Nat
  nslot : Nat
deriving DecidableEq, Repr

/-- A live-migration session (13 R352 to R356). -/
structure MigSession where
  key : Nat := 0
  nonce : List Byte := []
  round : Nat := 0
  seq : Nat := 0
  dirty : List Nat := []
  /-- On the source: MIGSTOP is bringing the enclave to rest. -/
  stopping : Bool := false
  /-- On the destination: the partition and the stage-2 root of the new enclave, the frames still unused, the IPAs already
  mapped with their frames, the ephemeral key pair, the source's nonce, and whether the state record is in. -/
  part : Nat := 0
  s2Root : Nat := 0
  frames : List Nat := []
  mapped : List (Nat × Nat) := []
  kem : Nat := 0
  peerNonce : List Byte := []
  stateDone : Bool := false
deriving DecidableEq, Repr

/-- An enclave (07 R210 to R221). -/
structure Enclave where
  id : BitVec 16
  state : EnclaveState := .building
  part : Nat := 0
  nct : Nat := 0
  m : List Byte := []
  memKey : Nat := 0
  kemKey : Nat := 0
  timelines : List Timeline := []
  queues : List Queue := []
  wslots : List (Option Nat) := []
  sslots : List (Option Nat) := []
  version : Nat := 0
  latest : List (Nat × Nat) := []
  /-- The stage-2 input address of each frame that is not mapped at IPA = PA: a reloaded or a migrated frame (R218, R306). -/
  frameIpa : List (Nat × Nat) := []
  /-- The type of the latest eviction of each address: 1 CODE, 0 OWNED (R218). -/
  latestType : List (Nat × Nat) := []
  objTab : Nat := 0
  ctEntry : Nat := 0
  xvec0 : Word := 0
  s1Root : Nat := 0
  s2Root : Nat := 0
  arena : Nat := 0x11000
  /-- Bound block tables: number and header address (07 R200); their blocks on software-managed pages: table, address and size
  (09 R256). -/
  tables : List (Nat × Nat) := []
  smrBlocks : List (Nat × Nat × Nat) := []
  launches : Nat := 0
  save : Option SaveFields := none
  mapCleared : Bool := false
  /-- A blocked admission, with the cause and the IPA of its exit record (11 R313). -/
  admitBlocked : Option (BitVec 8 × Nat) := none
  held : List FaultRec := []
  /-- The number of live migrations so far (13 Table 13.5, block 18). -/
  migrations : Nat := 0
  session : Option MigSession := none
deriving DecidableEq, Repr

/-- A running storage-backed fill (11 R302). -/
structure Fill where
  id : Nat
  enc : BitVec 16
  die : Nat
  leaf : Nat
  old : Word
  va : Word
  ipa : Nat
  /-- The page that its pop has given; none when the pop failed. -/
  page : Option Nat := none
  /-- The storage keys of its enclave as it began (07 R220). -/
  keys : List (Option Nat) := []
  /-- The agents and the engine operations that wait, each with the address that brought it there. -/
  waiters : List (Nat × Word) := []
  engineWaiters : List (Nat × Word) := []
deriving DecidableEq, Repr

/-- One accepted chunk of an `acpy` (05 R151). -/
structure Chunk where
  id : Nat
  agent : Nat
  batch : Nat
  die : Nat
  /-- The instruction that it belongs to: its chunks land in thread order where they overlap. -/
  instr : Nat := 0
  src : List Nat
  dst : List Nat
  /-- Whether source and destination bytes are scratchpad offsets of the workgroup (R242). -/
  srcLocal : Option Nat := none
  dstLocal : Option Nat := none
  /-- The page attributes found at the translation (R284). -/
  srcSmr : Bool := false
  srcUncached : Bool := false
  dstSmr : Bool := false
  dstUncached : Bool := false
deriving DecidableEq, Repr

/-! ## Launches and workgroups -/

structure Launch where
  id : Nat
  op : Nat
  enc : BitVec 16
  part : Nat
  record : Rec
  view : CodeView
  contract : Option Nat := none
  head : Nat := 0
  dealt : Nat := 0
  completed : List Nat := []
  /-- Indices dealt to a die and not yet admitted: die and index. -/
  ranges : List (Nat × Nat) := []
  running : List Nat := []
  redeal : List Nat := []
  herds : List (List Nat) := []
  number : Nat := 0
  dead : Bool := false
deriving DecidableEq, Repr

inductive WgState where
  | resident | swapping | swapped | dispatchable | complete
deriving DecidableEq, Repr

structure Workgroup where
  id : Nat
  launch : Nat
  index : Nat
  enc : BitVec 16
  part : Nat
  die : Nat
  core : Nat
  groups : List Nat
  state : WgState := .resident
  /-- The scratchpad: its valid granules, and its bytes that are not zero (09 R244). -/
  scr : Nat := 0
  granules : List Nat := []
  scratch : List Host.Cell := []
  accRows : Nat := 0
  acc : List AccRow := []
  /-- The clock of the arrivals on barriers in the scratchpad (06 R180). -/
  clock : Clock := .zero
  banks : List Nat := []
deriving DecidableEq, Repr

/-! ## Partitions and Ridgepole -/

/-- A partition entry of the layout (13 Table 13.7). -/
structure PartEntry where
  valid : Bool := false
  parent : Nat := 0x3F
  maxScope : Nat := 10
  clampTrap : Bool := false
  vf : Nat := 0
  pbudget : Nat := 0
  slices : BitVec 40 := 0
  hbase : Nat := 0
  hcnt : Nat := 0
  lbase : Nat := 0
  lcnt : Nat := 0
  hostCo : Nat := 0
  tenantTag : BitVec 64 := 0
  exitBase : Nat := 0
  exitN : Nat := 0
  rdvto : Nat := 0
  /-- The budget entry (10 Table 10.3): four words. -/
  budget : Vector Word 4 := .replicate 4 0
deriving DecidableEq, Repr

/-- The journal phases (13 Table 13.8). -/
inductive Journal where
  | idle | preparing | prepared | committing
deriving DecidableEq, Repr

/-- The layout, its journal and its generation (13 R342 to R346). LAYOUTGEN is held in always-on storage; its value
before any commit is not given: 0 (log 1). -/
structure LayoutState where
  entries : List PartEntry := List.replicate 40 {}
  /-- The layout that slices not yet flipped still act by. -/
  old : List PartEntry := List.replicate 40 {}
  shadow : List PartEntry := []
  shadowDigest : List Byte := []
  journal : Journal := .idle
  flipped : List Nat := []
  held : List Nat := []
  gen : BitVec 64 := 0
  hostKeys : List (Nat × Nat) := []
  deviceHostKey : Nat := 0
deriving DecidableEq, Repr

/-- The Ridgepole mailbox (13 Table 13.1). -/
structure Mailbox where
  op : BitVec 8 := 0
  target : BitVec 16 := 0
  len : BitVec 32 := 0
  buf : Nat := 0
  rbuf : Nat := 0
  rcap : BitVec 32 := 0
  busy : Bool := false
  code : BitVec 8 := 0
  rlen : BitVec 32 := 0
  /-- A COMMIT that Ridgepole is working on: its answer comes when the last slice has flipped. -/
  pendingCommit : Bool := false
  pendingPrepare : Bool := false
deriving DecidableEq, Repr

/-- One firmware bank: the image in it, by reference its version and SVN (13 R347). -/
structure Bank where
  image : List Byte := []
  version : BitVec 64 := 0
  svn : BitVec 8 := 0
deriving DecidableEq, Repr

/-- Firmware, manifest and fuses (13 R347 to R349). The contents of flash are not given at reset: empty banks at
version 0, a manifest that lists that tuple (log 1). -/
structure Firmware where
  banks : Vector (Bank × Bank) 7 := .replicate 7 ({}, {})
  active : BitVec 7 := 0
  staged : BitVec 7 := 0
  lastBooted : BitVec 7 := 0
  fuses : Vector (BitVec 8) 7 := .replicate 7 0
  manifest : List (List Word) := [List.replicate 7 0]
  manifestBytes : List Byte := []
  msvn : Word := 0
  msvnFuse : Word := 0
deriving DecidableEq, Repr

/-- Ridgepole's own state (13 R333, R336 to R338; 14 R370). -/
structure Ridgepole where
  mailbox : Mailbox := {}
  firmware : Firmware := {}
  /-- SPDM negotiation state of each endpoint that has been spoken to, and of the DOE responder: 0 nothing, 1 version given, 2
  capabilities given, 3 algorithms agreed. -/
  spdm : List (Nat × Nat) := []
  doe : Nat := 0
  doeReply : List Byte := []
  /-- The key of the DOE responder's secure session, and whether FINISH has completed it (14 R370). -/
  doeKey : Option Nat := none
  doeUp : Bool := false
  /-- The Alias key of this boot and the certificate chain in SPDM slot 0 (13 R336). -/
  aliasKey : Nat := 0
  chain : List Byte := []
  scrubCursor : Nat := 0
  /-- The frames beyond CD0's stacks have trained since the reset, and each stays SCRUBBING until the scrubber has taken it (15 R377). -/
  lateScrub : Bool := false
  /-- The HBM stacks that failed to train: the scrubber never takes their frames (15 R377). -/
  unscrubbed : BitVec 8 := 0
  scrubbing : Option Nat := none
  /-- MIGACCEPT's session before its first MIGAPPLY. -/
  pendingSession : Option MigSession := none
deriving DecidableEq, Repr

/-- An outstanding exit record (11 R299). -/
inductive ExitWhat where
  | agent (id : Nat) | blockedSave (id : Nat) | blockedAdmission (enc : BitVec 16) (launch : Nat)
deriving DecidableEq, Repr

structure ExitRec where
  part : Nat
  exitId : Nat
  addr : Nat
  what : ExitWhat
deriving DecidableEq, Repr

/-- Scheduling state of a partition. -/
structure PartState where
  exitId : Nat := 0
  saveBlocked : Bool := false
  /-- The enclave whose slice runs, under slicing (10 R275); none: every enclave runs. -/
  slice : Option (BitVec 16) := none
  /-- The 10 µs windows that have passed in this slice (10 R273, R275). -/
  windows : Nat := 0
  kicks : Nat := 0
  /-- The core that the distributor of each die last used (10 R267), and the engine of its tile scheduler (10 R272). -/
  lastCore : List (Nat × Nat) := []
  lastEngine : List (Nat × Nat) := []
  /-- The budget entry in force since the window began (10 R273, 13 R346). -/
  budget : Vector Word 4 := .replicate 4 0
deriving DecidableEq, Repr

/-- A migration channel of R305. -/
structure MigChannel where
  src : BitVec 34 := 0
  leaf : BitVec 49 := 0
  dst : BitVec 34 := 0
  go : Bool := false
  status : BitVec 2 := 0
  copied : Nat := 0
  /-- The migration that runs: its source and destination frames and its leaf. -/
  run : Option (Nat × Nat × Nat) := none
deriving DecidableEq, Repr

/-! ## Links, storage, health -/

structure PortEntry where
  mode : BitVec 2 := 0
  state : BitVec 2 := 0
  peerMid : BitVec 8 := 0
  retries : BitVec 32 := 0
  fecUnc : BitVec 32 := 0
  linkKey : Nat := 0
  control : Nat := 0
deriving DecidableEq, Repr

/-- A flit kept in the retry buffer as ciphertext (14 R363). -/
structure Kept where
  flit : Flit
  op : Option Nat := none
  nbytes : Nat := 0
  isLast : Bool := false
deriving DecidableEq, Repr

/-- A stream entry (14 Table 14.2) with the keys and the order of its two directions (R363 to R365). -/
structure Stream where
  lenc : BitVec 16 := 0
  pmid : BitVec 8 := 0
  penc : BitVec 16 := 0
  state : BitVec 3 := 0
  port : BitVec 5 := 0
  epoch : BitVec 32 := 0
  flits : Word := 0
  pidx : BitVec 13 := 0
  /-- Sending: counter, key slots current and next (erased when none), unacknowledged flits. -/
  ctr : BitVec 32 := 0
  txCur : Option Nat := none
  txNext : Option Nat := none
  txOld : Option Nat := none
  kept : List Kept := []
  /-- Receiving: expected epoch and counter, keys, consecutive failures, record tags that a fault discards. -/
  rxEpoch : BitVec 32 := 0
  rxCtr : BitVec 32 := 0
  rxCur : Option Nat := none
  rxNext : Option Nat := none
  failures : Nat := 0
  /-- Consecutive NAKs that this side has received (R365). -/
  naks : Nat := 0
  discard : List Nat := []
  /-- The ACK and NAK answers of this side, sealed under the link key of the port. -/
  replies : List Flit := []
deriving DecidableEq, Repr

/-- A storage attachment entry (14 Table 14.8). -/
structure Attachment where
  encid : BitVec 16 := 0
  slot : BitVec 4 := 0
  port : BitVec 4 := 0
  func : BitVec 16 := 0
  state : BitVec 3 := 0
  lbas : BitVec 4 := 0
  certDig : List Byte := List.replicate 64 0
deriving DecidableEq, Repr

/-- TDI states (14 R369). -/
inductive Tdi where
  | unlocked | locked | run | error
deriving DecidableEq, Repr

structure TdiEntry where
  state : Tdi := .unlocked
  stream : Nat := 0
deriving DecidableEq, Repr

/-- Service levels (15 Table 15.1). RESET lasts from a reset until the boot ROM has looked for a tuple. -/
inductive Service where
  | reset | recovery | reduced | full
deriving DecidableEq, Repr

/-- The health block (15 Table 15.2) and what Ridgepole knows beside it. -/
structure Health where
  service : Service := .reset
  replaceReq : Bool := false
  reason : BitVec 8 := 0
  dieFence : BitVec 4 := 0
  stackRet : BitVec 8 := 0
  portDeg : BitVec 18 := 0
  rpStby : Bool := false
  clkMhz : BitVec 16 := 1200
  capW : BitVec 16 := 2400
  pwrW : BitVec 16 := 0
  poisonCnt : Word := 0
  events : Word := 0
  matrixHalf : Bool := false
  /-- Parts not yet trained in reduced service. -/
  untrained : Bool := true
deriving DecidableEq, Repr

/-- The links and the storage side. -/
structure Links where
  ports : Vector PortEntry 18 := .replicate 18 {}
  streams : List (Nat × Stream) := []
  attachments : List (Nat × Attachment) := []
  tdis : List (Nat × TdiEntry) := []
  /-- What the releases at scope 8 or wider that a remote copy follows have named (18 R388). -/
  sentClock : Clock := .zero
  /-- Rendezvous flits that wait for room in their stream: stream and flit (13 R350). -/
  rdvOut : List (Nat × RdvFlit) := []
  /-- Rendezvous flits received and held: stream and flit (13 R351). -/
  rdvIn : List (Nat × RdvFlit) := []
  /-- The keys of the selective IDE streams of the host port, by stream number (14 R369). -/
  ideKeys : List (Nat × Nat) := []
  /-- The data that the last read through a VF's BAR0 has returned (14 R368). -/
  completion : List Byte := []
  /-- TLPs that a TDI has dropped (14 R369). -/
  dropped : Nat := 0
deriving DecidableEq, Repr

/-! ## The whole -/

/-- Who acts next: an agent's scalar stream, an agent's lane stream, each with the agents that time keeps from being ready for this
pick, or a step of the part with what comes from outside (log 4). -/
inductive Turn where
  | scalar (agent : Nat) (late : List Nat := [])
  | lane (agent : Nat) (late : List Nat := [])
  | event (i : Instr)
deriving DecidableEq, Repr

/-- The state of the machine. -/
structure State where
  /-- The agent whose instruction executes; the other agents. -/
  cur : Agent := {}
  others : List Agent := []
  mem : MemSys := {}
  /-- Page ownership: the entries that differ from what reset and bring-up give (log 5). -/
  pot : List (Nat × PotEntry) := []
  enclaves : List Enclave := []
  ops : List Op := []
  fills : List Fill := []
  chunks : List Chunk := []
  codeLines : List CodeLine := []
  launches : List Launch := []
  wgs : List Workgroup := []
  parts : List (Nat × PartState) := []
  exits : List ExitRec := []
  channels : Vector MigChannel 8 := .replicate 8 {}
  layout : LayoutState := {}
  rp : Ridgepole := {}
  links : Links := {}
  health : Health := {}
  /-- The physical address of the level-0 host table (11 R287). -/
  hostRoot : Nat := 0x7FEC000000
  nextId : Nat := 1
  /-- MODEL: the turns to come, the hardware's coming choices, and the count of free values used (log 2, 4). -/
  turns : List Turn := []
  choices : List Nat := []
  free : Nat := 0
deriving DecidableEq, Repr

/-- The machine right after a package reset (11 R292, 13 R348, 15 R376): no agent, no enclave, no key, memory with
nothing listed, every register at the value its field states. -/
def State.reset : State := {}

end Sys2Proof.Machine
end

