-- ==== Sys2Proof/Machine/Memory.lean ====
section
/-!
DEFINITION. Memory below translation (spec/09): the home values in canonical form, the copies and the vector clock of
each die, the order and delivery of plain writes (R246, R247), home-origin writes (R248), software-managed lines
(R255), and the scratchpad and accumulator storage of a workgroup (R244).
-/
namespace Sys2Proof.Machine

/-! ## Lists keyed by numbers -/

def alook {α : Type} : List (Nat × α) → Nat → Option α
  | [], _ => none
  | (q, x) :: l, p => if q = p then some x else alook l p

def aput {α : Type} : List (Nat × α) → Nat → α → List (Nat × α)
  | [], p, y => [(p, y)]
  | (q, x) :: l, p, y => if q = p then (p, y) :: l else if p < q then (p, y) :: (q, x) :: l else (q, x) :: aput l p y

def adel {α : Type} : List (Nat × α) → Nat → List (Nat × α)
  | [], _ => []
  | (q, x) :: l, p => if q = p then adel l p else (q, x) :: adel l p

/-! ## Cells in canonical form -/

/-- The byte at `p`; an address with no entry reads as zero (R158; log 7). -/
def readCell : List Host.Cell → Nat → Byte
  | [], _ => 0
  | (q, c) :: l, p => if q = p then c else readCell l p

/-- Puts a byte that is not zero at its place. -/
def insertCell : List Host.Cell → Nat → Byte → List Host.Cell
  | [], p, b => [(p, b)]
  | (q, c) :: l, p, b => if p < q then (p, b) :: (q, c) :: l else if q = p then (p, b) :: l else (q, c) :: insertCell l p b

/-- Writes the byte at `p` and keeps the canonical form. -/
def writeCell (l : List Host.Cell) (p : Nat) (b : Byte) : List Host.Cell :=
  if b = 0 then l.filter fun c => c.1 != p else insertCell l p b

/-- The canonical form: addresses strictly rising, and no entry equal to what an unlisted address reads as. -/
def wfCells : List Host.Cell → Bool
  | [] => true
  | [(_, c)] => c != 0
  | (q, c) :: (r, d) :: l => c != 0 && decide (q < r) && wfCells ((r, d) :: l)

def writeCells (l : List Host.Cell) (bs : List Host.Cell) : List Host.Cell :=
  bs.foldl (fun l b => writeCell l b.1 b.2) l

/-- `n` bytes from `p` upward as a number, lowest address first (R3). -/
def readNat (l : List Host.Cell) (p : Nat) : Nat → Nat
  | 0 => 0
  | n + 1 => (readCell l p).toNat + 256 * readNat l (p + 1) n

/-- The low `n` bytes of a number as cells from `p` upward (R3). -/
def natCells (p x : Nat) : Nat → List Host.Cell
  | 0 => []
  | n + 1 => (p, BitVec.ofNat 8 x) :: natCells (p + 1) (x / 256) n

def natBytes (x : Nat) : Nat → List Byte
  | 0 => []
  | n + 1 => BitVec.ofNat 8 x :: natBytes (x / 256) n

def bytesNat : List Byte → Nat
  | [] => 0
  | b :: l => b.toNat + 256 * bytesNat l

/-- The 8-byte word at offset `o` of a block. -/
def wordAt (bs : List Byte) (o : Nat) : Nat := bytesNat ((bs.drop o).take 8)

def cellsAt (p : Nat) : List Byte → List Host.Cell
  | [] => []
  | b :: l => (p, b) :: cellsAt (p + 1) l

/-- Memory is in canonical form. -/
abbrev MemSys.wf (m : MemSys) : Bool := wfCells m.home

/-! ## Clocks and copies -/

def Clock.le (a b : Clock) : Bool := (List.finRange 6).all fun i => decide (a[i] ≤ b[i])
def Clock.join (a b : Clock) : Clock := Vector.ofFn fun i => max a[i] b[i]
def Clock.at (c : Clock) (d : Nat) : Nat := c.toList.getD d 0
def Clock.setAt (c : Clock) (d : Nat) (x : Nat) : Clock := c.setIfInBounds d x

def MemSys.die (m : MemSys) (d : Nat) : DieMem := m.dies[d]?.getD { clock := .start, copies := [] }
def MemSys.onDie (m : MemSys) (d : Nat) (f : DieMem → DieMem) : MemSys :=
  { m with dies := m.dies.setIfInBounds d (f (m.die d)) }

def DieMem.mapCopies (d : DieMem) (f : CopyByte → CopyByte) : DieMem := { d with copies := d.copies.map f }

def findCopy (l : List CopyByte) (p : Nat) : Option CopyByte := l.find? (·.addr == p)
/-- Puts a copy in the place of one with its address, or adds it. -/
def putCopy : List CopyByte → CopyByte → List CopyByte
  | [], c => [c]
  | x :: l, c => if x.addr = c.addr then c :: l else x :: putCopy l c
def dropCopies (l : List CopyByte) (drop : CopyByte → Bool) : List CopyByte := l.filter fun c => !drop c

/-- Whether the clock of a die covers a write (R247). -/
def covers (v : Clock) (f : Flight) : Bool := !f.origin && decide (f.clock.at f.die ≤ v.at f.die)

def Flight.touches (f : Flight) (p : Nat) : Bool := f.bytes.any (·.1 == p)
/-- Whether a write touches the 256-byte line of `p` (R238). -/
def Flight.onLine (f : Flight) (p : Nat) : Bool := f.bytes.any (·.1 / 256 == p / 256)
def Flight.done (f : Flight) : Bool := f.atHome && f.todo.isEmpty
/-- Whether two are one plain write. -/
def Flight.same (f g : Flight) : Bool := !f.origin && !g.origin && decide (f.die = g.die) && decide (f.clock.at f.die = g.clock.at g.die)
/-- Whether a write follows another in the order of a location: its clock covers it, and they touch one byte (R246, R249). -/
def Flight.follows (g f : Flight) : Bool := covers g.clock f && f.bytes.any fun b => g.touches b.1
/-- Whether a copy shows a plain write that home has not applied. -/
def CopyByte.shows (c : CopyByte) (f : Flight) : Bool := c.wid == some (f.die, f.clock.at f.die) && f.touches c.addr

def MemSys.homeByte (m : MemSys) (p : Nat) : Byte := readCell m.home p

/-- Whether cells cover all of line `l`. -/
def wholeLine (l : Nat) (bs : List Host.Cell) : Bool := (List.range 256).all fun i => bs.any (·.1 == l * 256 + i)

/-- Writes bytes at home with the clock that travels with them (R247, R248); a write of a whole line clears its poison, and
gives it a tag of its own (R379, R335). -/
def MemSys.putHome (m : MemSys) (bs : List Host.Cell) (c : Clock) (origin : Bool) : MemSys :=
  { m with
    poison := m.poison.filter fun l => !wholeLine l bs
    badTags := m.badTags.filter fun l => !wholeLine l bs
    home := writeCells m.home bs
    homeSeq := m.homeSeq + 1
    homeMeta := bs.foldl (fun l b => aput l b.1 { clock := c, origin, seq := m.homeSeq + 1 }) m.homeMeta }

/-- The place of a byte's home value in the home order. -/
def MemSys.seqOf (m : MemSys) (p : Nat) : Nat := match alook m.homeMeta p with | some h => h.seq | none => 0
/-- The clock of a byte's home value, where that is home-origin. -/
def MemSys.originOf (m : MemSys) (p : Nat) : Option Clock := match alook m.homeMeta p with
  | some h => if h.origin then some h.clock else none
  | none => none
/-- The join of the clocks of the home-origin values among them (R253). -/
def MemSys.originClock (m : MemSys) (ps : List Nat) : Clock :=
  ps.foldl (fun c q => match m.originOf q with | some k => c.join k | none => c) Clock.zero
/-- The join of the clocks of the plain writes that stand at home. -/
def MemSys.plainClock (m : MemSys) (ps : List Nat) : Clock :=
  ps.foldl (fun c q => match alook m.homeMeta q with | some h => if h.origin then c else c.join h.clock | none => c) Clock.zero

/-! ## Delivery -/

/-- Home applies one write in delivery: it joins the coherence order of its locations, and the copies that show it take
its place there (R249). -/
def MemSys.applyHome (m : MemSys) (f : Flight) : MemSys :=
  if f.atHome then m
  else
    let n := m.putHome f.bytes f.clock false
    { n with
      flight := n.flight.map fun g => if g.same f then { g with atHome := true, seq := n.homeSeq } else g
      dies := n.dies.map fun d => d.mapCopies fun c => if c.shows f then { c with wid := none, seq := n.homeSeq } else c }

/-- Of the writes in delivery, those that home applies with the ones that `sel` names: what a write of them follows in the
order of a location comes with it (R249). -/
def dueHome (sel : Flight → Bool) : List Flight → List Flight
  | [] => []
  | f :: l =>
    let r := dueHome sel l
    if !f.origin && !f.atHome && (sel f || r.any fun g => g.follows f) then f :: r else r

/-- Home applies, in the order they entered, the writes in delivery that `sel` names and what they follow. -/
def MemSys.toHome (m : MemSys) (sel : Flight → Bool) : MemSys :=
  let m' := (dueHome sel m.flight).foldl (fun m f => m.applyHome f) m
  { m' with flight := m'.flight.filter (!·.done) }

/-- What a copy shows once a write reaches its die: a plain write takes its place, unless the home order has it before what the
die has shown there; a home update does, unless the copy shows a plain write that home has still to apply, or a later value
(R247 to R249; log 8). -/
def CopyByte.takes (c : CopyByte) (f : Flight) (b : Byte) : CopyByte :=
  if c.smr then c
  else if f.origin then
    if c.wid.isSome || decide (f.seq ≤ c.seq) then c else { c with val := b, origin := some f.clock, seq := f.seq }
  else if f.atHome then
    if decide (f.seq ≤ c.seq) then c else { c with val := b, origin := none, wid := none, seq := f.seq }
  else { c with val := b, origin := none, wid := some (f.die, f.clock.at f.die) }

/-- A die applies one delivered write to the copies it holds and advances its clock (R247). -/
def MemSys.applyDie (m : MemSys) (e : Nat) (f : Flight) : MemSys :=
  m.onDie e fun d =>
    { copies := d.copies.map fun c => match f.bytes.find? (·.1 == c.addr) with | none => c | some b => c.takes f b.2
      clock := if f.origin then d.clock else d.clock.setAt f.die (max (d.clock.at f.die) (f.clock.at f.die)) }

/-- A die takes, in the order they entered, the writes in delivery to it that `sel` names. -/
def MemSys.toDie (m : MemSys) (e : Nat) (sel : Flight → Bool) : MemSys :=
  let due := fun f => f.todo.contains e && sel f
  let m' := (m.flight.filter due).foldl (fun m f => m.applyDie e f) m
  { m' with flight := (m.flight.map fun f => if due f then { f with todo := f.todo.filter (· != e) } else f).filter (!·.done) }

/-- The copies of a die that `sel` names are dropped. -/
def MemSys.drop (m : MemSys) (e : Nat) (sel : CopyByte → Bool) : MemSys :=
  m.onDie e fun d => { d with copies := dropCopies d.copies sel }

/-- A copy of an ordinary line that shows a value which the home order has left behind. -/
def MemSys.behind (m : MemSys) (c : CopyByte) : Bool := !c.smr && c.wid.isNone && decide (c.seq < m.seqOf c.addr)

/-- The pull of an acquire: every plain update that clock `c` names, and the home updates on their way, reach die `e`
(R163, R251); a clock that names something brings the die back to home order (R249; log 8). -/
def MemSys.pull (m : MemSys) (e : Nat) (c : Clock) : MemSys :=
  let m := m.toDie e fun f => f.origin || covers c f
  if c = Clock.zero then m else m.drop e m.behind

/-! ## Plain accesses -/

/-- The place in the home order that a die has seen at a byte, once it writes there: what its copy shows or has shown, or, where
it has none, the home value (R249; log 8). -/
def MemSys.seenAt (m : MemSys) (e p : Nat) : Nat :=
  match findCopy (m.die e).copies p with | some c => c.seq | none => m.seqOf p

/-- A plain write enters the order of its die and becomes visible there at once (R246, R247). An SMR write stays in
the die's copies (R255); an uncached write (AP 01 from another die, an engine on an SMR page) leaves no copy. -/
def MemSys.enter (m : MemSys) (agent e : Nat) (smr uncached : Bool) (bs : List Host.Cell) : MemSys :=
  if smr then
    if uncached then m.putHome bs .zero false
    else m.onDie e fun d => { d with copies := bs.foldl (fun l b => putCopy l { addr := b.1, val := b.2, dirty := true, smr := true }) d.copies }
  else
    let v := (m.die e).clock
    let v := v.setAt e (v.at e + 1)
    let seen := m.seenAt e
    let m := m.onDie e fun d =>
      { clock := v
        copies := if uncached then dropCopies d.copies fun c => bs.any (·.1 == c.addr)
          else bs.foldl (fun l b => putCopy l { addr := b.1, val := b.2, wid := some (e, v.at e), seq := seen b.1 }) d.copies }
    let f : Flight := { agent, die := e, clock := v, bytes := bs, todo := (List.range 6).filter (· != e) }
    let m := { m with flight := m.flight ++ [f] }
    if uncached then m.toHome f.same else m

def sectorOf (p : Nat) : List Nat := (List.range 32).map (p / 32 * 32 + ·)
def lineBytes (p : Nat) : List Nat := (List.range 256).map (p / 256 * 256 + ·)

/-- Before die `e` reads home values: the predecessors of each byte's last plain write are applied on it, and the home
updates on their way to it that hold one of the bytes, each as a whole (R247, R248; log 8). -/
def MemSys.beforeHome (m : MemSys) (e : Nat) (ps : List Nat) : MemSys :=
  let c := m.plainClock ps
  m.toDie e fun f => covers c f || (f.origin && ps.any f.touches)

/-- A fill of the 32-byte sector of `p` into die `e`; home first applies every write to the line that the die's clock
covers (R247). -/
def MemSys.fill (m : MemSys) (e p : Nat) (smr : Bool) : MemSys :=
  let ps := (sectorOf p).filter fun q => (findCopy (m.die e).copies q).isNone
  let m := m.beforeHome e ps
  let v := (m.die e).clock
  let m := m.toHome fun f => covers v f && f.onLine p
  let news := (ps.filter fun q => (findCopy (m.die e).copies q).isNone).map fun q =>
    ({ addr := q, val := m.homeByte q, smr, origin := m.originOf q, seq := m.seqOf q } : CopyByte)
  m.onDie e fun d => { d with copies := d.copies ++ news }

/-- Home first applies the writes to `ps` that the die's clock covers, so that a read at home is not older than what
the die has shown (R249; log 8). -/
def MemSys.settle (m : MemSys) (e : Nat) (ps : List Nat) : MemSys :=
  let v := (m.die e).clock
  m.toHome fun f => covers v f && ps.any f.touches

/-- A plain read of one byte by an agent of die `e`: the die's copy, or a fill; uncached, at home. Returns the clock of
a home-origin value too (R253). -/
def MemSys.readByte (m : MemSys) (e p : Nat) (smr uncached : Bool) : Byte × Option Clock × MemSys :=
  if uncached then
    let m := (m.settle e [p]).beforeHome e [p]
    (m.homeByte p, m.originOf p, m)
  else
    let m := if (findCopy (m.die e).copies p).isSome then m else m.fill e p smr
    match findCopy (m.die e).copies p with
    | some c => (c.val, c.origin, m)
    | none => (m.homeByte p, none, m)

def MemSys.readBytes (m : MemSys) (e p : Nat) (smr uncached : Bool) : Nat → List Byte × Clock × MemSys
  | 0 => ([], .zero, m)
  | n + 1 =>
    let r := m.readByte e p smr uncached
    let t := r.2.2.readBytes e (p + 1) smr uncached n
    (r.1 :: t.1, match r.2.1 with | some c => c.join t.2.1 | none => t.2.1, t.2.2)

/-! ## Accesses at home -/

def MemSys.metaOf (m : MemSys) (ps : List Nat) : Clock :=
  ps.foldl (fun c q => match alook m.homeMeta q with | some h => c.join h.clock | none => c) Clock.zero

/-- A die's dirty SMR bytes that `sel` names are written at home under their mask (R241, R255). -/
def MemSys.writeBack (m : MemSys) (e : Nat) (sel : Nat → Bool) : MemSys :=
  let ds := (m.die e).copies.filter fun c => c.smr && c.dirty && sel c.addr
  let m := m.putHome (ds.map fun c => (c.addr, c.val)) .zero false
  m.onDie e fun d => { d with copies := d.copies.map fun c => if c.smr && sel c.addr then { c with dirty := false } else c }

/-- Before an atomic event of die `e`, and before what executes as one: what the die's clock covers there stands at home; on
an SMR page the die's dirty bytes of the lines are written back and its copies of them dropped (R249, R255). -/
def MemSys.beforeAtomic (m : MemSys) (e : Nat) (ps : List Nat) (smr : Bool) : MemSys :=
  let line := fun q => ps.any fun p => p / 256 == q / 256
  if smr then (m.writeBack e line).drop e fun c => c.smr && line c.addr else m.settle e ps

/-- A read at home by die `e`: with the clock of the value (R163). Copies that the die holds become the home value, and what
comes to home as one comes to the die as one (R248; log 8). On an SMR page the dirty bytes of the die's copy of the line are
written back first (log 75). -/
def MemSys.homeRead (m : MemSys) (e p n : Nat) (smr : Bool) : List Byte × Clock × MemSys :=
  let ps := (List.range n).map (p + ·)
  let m := if smr then m.writeBack e fun q => ps.any fun p => p / 256 == q / 256 else (m.settle e ps).beforeHome e ps
  let bs := ps.map m.homeByte
  let c := m.metaOf ps
  let m := if smr then m else m.onDie e fun d => d.mapCopies fun x =>
    if ps.contains x.addr && !x.smr then { x with val := m.homeByte x.addr, origin := m.originOf x.addr, wid := none, seq := m.seqOf x.addr }
    else x
  (bs, c, m)

/-- A home-origin write by die `e` (R248): home takes it with clock `c`, the die's own copies show it at once, and a
home update goes to the other dies; all of its bytes together. -/
def MemSys.homeWrite (m : MemSys) (agent e : Nat) (bs : List Host.Cell) (c : Clock) : MemSys :=
  let m := m.putHome bs c true
  let m := m.onDie e fun d => d.mapCopies fun x =>
    match bs.find? (·.1 == x.addr) with
    | some b => { x with val := b.2, dirty := false, origin := some c, wid := none, seq := m.homeSeq }
    | none => x
  let todo := (List.range 6).filter fun k => k != e && (m.die k).copies.any fun x => !x.smr && bs.any (·.1 == x.addr)
  if todo.isEmpty then m
  else { m with flight := m.flight ++ [{ agent, die := e, clock := c, bytes := bs, origin := true, atHome := true, seq := m.homeSeq, todo }] }

/-- A write of the hardware at home: of a table, a record, a zeroed frame. -/
def MemSys.hwWrite (m : MemSys) (e : Nat) (bs : List Host.Cell) : MemSys :=
  let m := m.settle e (bs.map (·.1))
  m.homeWrite 0 e bs (m.die e).clock

/-- The bytes of a range as home holds them. -/
def MemSys.homeBytes (m : MemSys) (p n : Nat) : List Byte := (List.range n).map fun i => m.homeByte (p + i)
def MemSys.homeNat (m : MemSys) (p n : Nat) : Nat := readNat m.home p n

/-- Whole lines are written: every copy of a range and every write to it in delivery is gone, its home value is what is written,
and neither poison nor a failing tag stays (R289, R291, R379). -/
def MemSys.wipe (m : MemSys) (lo n : Nat) (bs : List Host.Cell) : MemSys :=
  let inside := fun p => decide (lo ≤ p) && decide (p < lo + n)
  { m with
    home := writeCells (m.home.filter fun c => !inside c.1) bs
    homeMeta := m.homeMeta.filter fun c => !inside c.1
    badTags := m.badTags.filter fun l => !inside (l * 256)
    poison := m.poison.filter fun l => !inside (l * 256)
    dies := m.dies.map fun d => { d with copies := dropCopies d.copies fun c => inside c.addr }
    flight := (m.flight.map fun f => { f with bytes := f.bytes.filter fun b => !inside b.1 }) }

/-- A frame that a walk claims, or that a migration fills, is written with zeros, which carry tags of their own (R289, R306). -/
def MemSys.clearFrame (m : MemSys) (base : Nat) : MemSys :=
  { m.wipe base 0x40000 [] with untagged := m.untagged.filter (· != base / 0x40000) }

/-! ## Acquire, release and fences (09 Table 9.1) -/

/-- The reconcile of R253: the clock of the home-origin values read is pulled, and every copy of an ordinary line is
dropped, so that later reads return the home value or a later one. -/
def MemSys.reconcile (m : MemSys) (e : Nat) (seen : Clock) : MemSys :=
  (m.pull e seen).drop e fun c => !c.smr

/-! ## Scratchpad and accumulators (R242, R244) -/

def Workgroup.scrByte (w : Workgroup) (o : Nat) : Byte := if w.granules.contains (o / 256) then readCell w.scratch o else 0

/-- A write makes the granules it names valid; their other bytes become zero. -/
def Workgroup.scrWrite (w : Workgroup) (bs : List Host.Cell) : Workgroup :=
  let gs := (bs.map (·.1 / 256)).filter fun g => !w.granules.contains g
  { w with
    granules := gs.foldl (fun l g => if l.contains g then l else g :: l) w.granules
    scratch := writeCells (w.scratch.filter fun c => !gs.contains (c.1 / 256)) bs }

/-- Row `r` of those valid; a row that is not valid reads as zero (R244). -/
def accRowIn (l : List AccRow) (r : Nat) : List Half :=
  match l.find? (·.row == r) with
  | some a => a.cols
  | none => List.replicate 96 0
def clearAccRow (r : Nat) (l : List AccRow) : List AccRow := l.filter (·.row != r)
def setAccRow (r : Nat) (cols : List Half) (l : List AccRow) : List AccRow := { row := r, cols } :: clearAccRow r l

def Workgroup.accRow (w : Workgroup) (r : Nat) : List Half := accRowIn w.acc r

end Sys2Proof.Machine
end

