-- ==== Sys2Proof/Machine/Agents.lean ====
section
/-!
DEFINITION. Finding and updating the parts of the state: agents, enclaves, workgroups, launches, operations; the
register accessors of an agent; the layout a slice acts by (13 R346); open choices (log 2).
-/
namespace Sys2Proof.Machine

/-! ## Registers of an agent -/

/-- Scalar register `r`; s0 reads zero (01 Table 1.4). -/
def Agent.rs (a : Agent) (r : BitVec 6) : Word := if r = 0 then 0 else a.regs.s[r.toNat]

/-- Writes scalar register `r`; a write to s0 is discarded (01 Table 1.4). -/
def Agent.setS (a : Agent) (r : BitVec 6) (x : Word) : Agent :=
  if r = 0 then a else { a with regs := { a.regs with s := a.regs.s.set r.toNat x } }

/-- Leaves the address of the next instruction as the program counter (R88). -/
def Agent.advance (a : Agent) (n : Word := 4) : Agent := { a with pc := a.pc + n }

def Agent.goto (a : Agent) (pc : Word) : Agent := { a with pc }

/-- The mask of all threads of the group. -/
def allLive (g : Nat) : Mask := BitVec.ofNat 1024 (2 ^ g - 1)

/-- Mask register `k`; m0 reads all-live (01 Table 1.4). -/
def Agent.mask (a : Agent) (k : BitVec 4) : Mask := if k = 0 then allLive a.gsize else a.regs.m[k.toNat]

def Agent.setMask (a : Agent) (k : BitVec 4) (x : Mask) : Agent :=
  { a with regs := { a.regs with m := a.regs.m.set k.toNat (x &&& allLive a.gsize) } }

/-- A group on a compute core; everything else is a control thread, a host-agent thread included (R36, R91). -/
def Agent.isControl (a : Agent) : Bool := decide (a.kind ≠ .group)
def Agent.isH (a : Agent) : Bool := decide (a.kind = .host)

/-- The slice of an agent on a compute core (13 "Partitions"). -/
def Agent.slice (a : Agent) : Nat := a.die * 10 + a.core / 4

/-! ## The acting agent -/

def State.onCur (s : State) (f : Agent → Agent) : State := { s with cur := f s.cur }

/-- The agent writes sD and goes on at the next instruction (R88). -/
def State.write (s : State) (d : BitVec 6) (x : Word) : State := s.onCur fun a => (a.setS d x).advance

def State.advance (s : State) : State := s.onCur (·.advance)

/-- The agent with an id, wherever it stands. -/
def State.agent? (s : State) (id : Nat) : Option Agent :=
  if s.cur.id = id then some s.cur else s.others.find? (·.id == id)

def State.onAgent (s : State) (id : Nat) (f : Agent → Agent) : State :=
  if s.cur.id = id then s.onCur f
  else { s with others := s.others.map fun a => if a.id = id then f a else a }

/-- Every agent that stands on the part. -/
def State.agents (s : State) : List Agent := (s.cur :: s.others).filter fun a => decide (a.status ≠ .absent)

def State.mapAgents (s : State) (f : Agent → Agent) : State := { s with cur := f s.cur, others := s.others.map f }

/-- Adds an agent; the first one takes the acting place. -/
def State.addAgent (s : State) (a : Agent) : State :=
  if s.cur.status = .absent then { s with cur := a } else { s with others := s.others ++ [a] }

/-- The agent with `id` takes the acting place. -/
def State.focus (s : State) (id : Nat) : State :=
  if s.cur.id = id then s
  else match s.others.find? (·.id == id) with
    | none => s
    | some a => { s with cur := a, others := s.cur :: s.others.filter (·.id != id) }

/-- Takes agents off the part. -/
def State.dropAgents (s : State) (p : Agent → Bool) : State :=
  { s with cur := if p s.cur then {} else s.cur, others := s.others.filter fun a => !p a }

/-! ## Open choices (log 2) -/

/-- The next open choice: from the schedule where it names one, else a free value. -/
def State.draw (s : State) : Nat × State :=
  match s.choices with
  | c :: cs => (c, { s with choices := cs })
  | [] => (Config.freeNat s.free, { s with free := s.free + 1 })

def State.fresh (s : State) : Nat × State := (s.nextId, { s with nextId := s.nextId + 1 })

/-! ## Enclaves and what belongs to them -/

def State.enclave? (s : State) (e : BitVec 16) : Option Enclave := s.enclaves.find? (·.id == e)
def State.onEnclave (s : State) (e : BitVec 16) (f : Enclave → Enclave) : State :=
  { s with enclaves := s.enclaves.map fun x => if x.id = e then f x else x }

def State.wg? (s : State) (w : Nat) : Option Workgroup := s.wgs.find? (·.id == w)
def State.onWg (s : State) (w : Nat) (f : Workgroup → Workgroup) : State :=
  { s with wgs := s.wgs.map fun x => if x.id = w then f x else x }

def State.launch? (s : State) (l : Nat) : Option Launch := s.launches.find? (·.id == l)
def State.onLaunch (s : State) (l : Nat) (f : Launch → Launch) : State :=
  { s with launches := s.launches.map fun x => if x.id = l then f x else x }

def State.op? (s : State) (o : Nat) : Option Op := s.ops.find? (·.id == o)
def State.onOp (s : State) (o : Nat) (f : Op → Op) : State :=
  { s with ops := s.ops.map fun x => if x.id = o then f x else x }
def State.dropOp (s : State) (o : Nat) : State := { s with ops := s.ops.filter (·.id != o) }

def State.part (s : State) (p : Nat) : PartState := (alook s.parts p).getD {}
def State.onPart (s : State) (p : Nat) (f : PartState → PartState) : State := { s with parts := aput s.parts p (f (s.part p)) }

def State.onQueue (s : State) (e : BitVec 16) (q : Nat) (f : Queue → Queue) : State :=
  s.onEnclave e fun x => { x with queues := x.queues.modify q f }
def State.queue? (s : State) (e : BitVec 16) (q : Nat) : Option Queue :=
  match s.enclave? e with
  | some x => x.queues[q]?
  | none => none

/-- A queue completes an operation with an error (R190, R208). -/
def State.queueError (s : State) (e : BitVec 16) (q : Nat) (cause : BitVec 8) : State :=
  if cause = 0 then s else s.onQueue e q fun x => { x with err := true, last := cause }

/-- The partition entry that a slice acts by: the old one until the slice flips (13 R346). -/
def LayoutState.entryAt (l : LayoutState) (p : Nat) (slice : Option Nat) : PartEntry :=
  let t := match slice with
    | some k => if decide (l.journal = Journal.committing) && !l.flipped.contains k then l.old else l.entries
    | none => l.entries
  t[p]?.getD {}

/-- The entry of a partition for what all of its slices share: the old one until the last slice of either has flipped (13 R346). -/
def LayoutState.ruling (l : LayoutState) (p : Nat) : PartEntry :=
  let o := l.old[p]?.getD {}
  let n := l.entries[p]?.getD {}
  if decide (l.journal = .committing) && (List.range 40).any fun k => (o.slices ||| n.slices).getLsbD k && !l.flipped.contains k then o else n

def Agent.sliceOf (a : Agent) : Option Nat := if a.kind = .group then some a.slice else none
def State.policy (s : State) (a : Agent) : PartEntry := s.layout.entryAt a.part a.sliceOf

/-- The compute dies still in service (15 R379, R380). -/
def State.dieLive (s : State) (d : Nat) : Bool := decide (4 ≤ d) || !s.health.dieFence.getLsbD d

/-- The home die of a physical address (09 R239), rehomed past fenced dies (15 R380). -/
def State.homeDie (s : State) (pa : Nat) : Nat :=
  let d := if pa < 0x8000000000 then pa / 0x1000000000 / 2 else pa / 0x40000 % 4
  (((List.range 4).map fun k => (d + k) % 4).find? fun k => s.dieLive k).getD d

/-! ## Page ownership (11 R287) -/

/-- The physical map (11 Table 11.1). -/
inductive Region where
  | hbm | lpddr | host | device | reserved
deriving DecidableEq, Repr

def regionOf (pa : Nat) : Region :=
  if pa < 0x8000000000 then .hbm
  else if pa < 0x10000000000 then .reserved
  else if pa < 0x20000000000 then .lpddr
  else if pa < 0x4000000000000 then .reserved
  else if pa < 0x8000000000000 then .host
  else if pa < 0xF000000000000 then .reserved
  else if pa < 0x10000000000000 then .device
  else .reserved

/-- The POT index of the frame of an address. -/
def potIndex (pa : Nat) : Option Nat :=
  match regionOf pa with
  | .hbm => some (pa / 0x40000)
  | .lpddr => some (2097152 + (pa - 0x10000000000) / 0x40000)
  | _ => none

def frameAddr (i : Nat) : Nat := if i < 2097152 then i * 0x40000 else 0x10000000000 + (i - 2097152) * 0x40000

/-- The entry of a frame that no listed entry describes: the Ridgepole region belongs to ID 0xFFFF, the device
carve-out to owner 0, and every other frame is FREE (R287; log 5). -/
def potInit (i : Nat) : PotEntry :=
  if 2096896 ≤ i && i < 2097152 then { state := .owned, owner := 0xFFFF }
  else if 2095872 ≤ i && i < 2096896 then { state := .owned, owner := 0 }
  else {}

/-- The frames of the Ridgepole region, and of the device carve-out (R287). -/
def ridgepoleFrame (i : Nat) : Bool := decide (2096896 ≤ i) && decide (i < 2097152)
def deviceCarveOut (i : Nat) : Bool := decide (2095872 ≤ i) && decide (i < 2096896)

/-- The frames outside CD0's two stacks: their memory trains after the reset (15 R376). -/
def lateFrame (i : Nat) : Bool := decide (524288 ≤ i)

/-- Whether the memory of a frame has trained: before FULL, CD0's two stacks alone, and never a stack that failed; the
Ridgepole region holds the POT itself (15 R376, R377; log 5). -/
def State.trainedFrame (s : State) (i : Nat) : Bool :=
  ridgepoleFrame i || !(s.health.untrained && lateFrame i) && !(lateFrame i && decide (i < 2097152) && s.rp.unscrubbed.getLsbD (i / 262144))

/-- The entry of a frame that no listed entry describes: once its memory has trained, a late frame stays SCRUBBING until the
scrubber has taken it (15 R377). -/
def State.potBase (s : State) (i : Nat) : PotEntry :=
  if s.rp.lateScrub && lateFrame i && !ridgepoleFrame i && !deviceCarveOut i then { state := .scrubbing } else potInit i

/-- A POT entry; a frame of untrained memory is SCRUBBING (15 R377). -/
def State.potAt (s : State) (i : Nat) : PotEntry :=
  let e := (alook s.pot i).getD (s.potBase i)
  if s.trainedFrame i then e else { e with state := .scrubbing }
def State.setPot (s : State) (i : Nat) (e : PotEntry) : State :=
  { s with pot := if e = s.potBase i then adel s.pot i else aput s.pot i e }
def State.potOf (s : State) (pa : Nat) : PotEntry := match potIndex pa with | some i => s.potAt i | none => {}

def FrameState.num : FrameState → Nat
  | .free => 0 | .owned => 1 | .code => 2 | .save => 3 | .pool => 4 | .hostShared => 5 | .scrubbing => 6

/-- The word that `potq` returns for an entry (11 Table 11.4). -/
def PotEntry.word (e : PotEntry) : Word :=
  (e.owner.setWidth 64) ||| (BitVec.ofNat 64 e.state.num <<< 16) ||| ((BitVec.ofBool e.lk).setWidth 64 <<< 19)
    ||| ((BitVec.ofBool e.migrating).setWidth 64 <<< 20) ||| (e.lkFor.setWidth 64 <<< 32)

end Sys2Proof.Machine
end

