-- ==== Sys2Proof/Machine/Translate.lean ====
section
/-!
DEFINITION. Translation (spec/11 R276 to R289, R301): the tables, the stage-1, stage-2 and host walks, claims and
locks, the ownership check, and the finding of a storage-backed absent page.
-/
namespace Sys2Proof.Machine

/-- Trap causes (01 Table 1.9). -/
abbrev Cause := BitVec 8
def bv64 (x : Nat) : Word := BitVec.ofNat 64 x
def cIllegal : Cause := 0x01
def cPrivilege : Cause := 0x02
def cMisalign : Cause := 0x03
def cNotPresent : Cause := 0x04
def cPermission : Cause := 0x05
def cStage2 : Cause := 0x06
def cOwner : Cause := 0x07
def cShape : Cause := 0x08
def cLpad : Cause := 0x09
def cJtab : Cause := 0x0A
def cWidth : Cause := 0x0B
def cPreempt : Cause := 0x0C
def cWeightTag : Cause := 0x0D
def cIntegrity : Cause := 0x0E
def cPoison : Cause := 0x0F
def cEngine : Cause := 0x10
def cMcas : Cause := 0x11
def cLayoutStale : Cause := 0x12
def cScopeClamp : Cause := 0x13
def cSaveBlocked : Cause := 0x14
def cDieLost : Cause := 0x15
def cSoftware : Cause := 0x16
def cEcall : Cause := 0x17

/-- Why an instruction does not complete as it stands. -/
inductive Stop where
  /-- A trap with its cause and value (R9), and for STAGE2 the IPA whose walk failed, which an exit record carries
  (Table 11.9). -/
  | trap (cause : Cause) (val : Word) (ipa : Nat := 0)
  /-- A storage-backed fill is awaited; the address that found its page absent (R302). -/
  | fill (id : Nat) (va : Word)
  /-- The instruction waits and has not executed (R90). -/
  | wait (w : Wait)
deriving DecidableEq, Repr

/-- Effects that may end early. The state at the stop is kept beside the reason: what a walk has done stays done. -/
abbrev X := EStateM Stop State

def X.trap {α : Type} (c : Cause) (v : Word := 0) : X α := throw (.trap c v)
def X.trapN {α : Type} (c : Cause) (v : Nat) : X α := throw (.trap c (BitVec.ofNat 64 v))
def X.check (b : Bool) (c : Cause) (v : Word := 0) : X Unit := if b then pure () else throw (.trap c v)
def X.update (f : State → State) : X Unit := modify f
/-- What succeeds, or the reason it does not, with the effects done so far. -/
def X.attempt {α : Type} (x : X α) : X (Except Stop α) := fun s =>
  match x s with
  | .ok a s' => .ok (.ok a) s'
  | .error e s' => .ok (.error e) s'

/-- Access kinds (R38). -/
inductive Kind where
  | r | w | x | a | e
deriving DecidableEq, Repr

/-- On whose behalf an access is made: an H agent, or an agent or engine of an enclave. -/
structure Ctx where
  enc : BitVec 16 := 0
  host : Bool := false
  level : Level := .s
  die : Nat := 0
  agent : Nat := 0
  engine : Bool := false
  /-- The access is an engine's, but translated as an S-level agent's: it goes to the home slice like every other one (07 R195,
  09 R256). -/
  direct : Bool := false
  /-- The workgroup whose scratchpad the local window names; none for a control thread and at H (R242, R243). -/
  wg : Option Nat := none
  /-- The memory operation for the save paths (Table 11.5). -/
  save : Bool := false
deriving DecidableEq, Repr

def Agent.ctx (a : Agent) : Ctx :=
  { enc := a.enc, host := a.isH, level := a.level, die := a.die, agent := a.id
    wg := if a.kind = .group then some a.wg else none }

/-- The hardware, acting as an S-level agent of the enclave (R293). -/
def hwCtx (enc : BitVec 16) (die : Nat) : Ctx := { enc, die }

/-- Where a virtual address leads. -/
inductive Place where
  /-- A physical address with its page attributes. -/
  | mem (pa : Nat) (smr : Bool) (ap : BitVec 2)
  /-- A byte of the scratchpad of a workgroup. -/
  | scr (wg : Nat) (off : Nat)
  /-- Device register space. -/
  | dev (pa : Nat)
deriving DecidableEq, Repr

/-- The place `n` bytes on. -/
def Place.plus (p : Place) (n : Nat) : Place :=
  match p with
  | .mem pa smr ap => .mem (pa + n) smr ap
  | .scr w o => .scr w (o + n)
  | .dev pa => .dev (pa + n)

/-! ## Entries (11 Tables 11.2 and 11.3) -/

def bitN (x i : Nat) : Bool := x.testBit i
def fieldN (x lo n : Nat) : Nat := x / 2 ^ lo % 2 ^ n

/-- Bytes of the table that an entry of `level` points to, and of a page at `level`. -/
def tableSize (level : Nat) : Nat := match level with | 1 => 0x8000 | 2 => 0x400 | 3 => 0x400 | _ => 0x10000
def pageBits (level : Nat) : Nat := match level with | 1 => 32 | 2 => 25 | _ => 18
def levelIndex (a level : Nat) : Nat := match level with
  | 0 => fieldN a 44 13 | 1 => fieldN a 32 12 | 2 => fieldN a 25 7 | _ => fieldN a 18 7

/-- Whether an entry with V = 1 is malformed (R280, R281). SB of a leaf with V = 1 is never one of the bits that must be zero
(log 73). -/
def malformed (stage2 : Bool) (level e : Nat) : Bool :=
  let l := bitN e 62
  if bitN e 1 then
    level == 3 || bitN e 63 || fieldN e 52 4 != 0 || (!stage2 && l) || fieldN e 2 8 != 0
      || fieldN e 10 42 * 0x400 % tableSize (level + 1) != 0
  else
    level == 0 || bitN e 63 || fieldN e 52 4 != 0 || (!stage2 && l) || fieldN e 16 2 != 0
      || (!stage2 && fieldN e 14 2 != 0) || fieldN e 12 2 != 3 - level || bitN e 11
      || (stage2 && (bitN e 10 || bitN e 8 || fieldN e 6 2 != 0))
      || fieldN e 18 34 * 0x40000 % 2 ^ pageBits level != 0

def entryNext (e : Nat) : Nat := fieldN e 10 42 * 0x400
def entryOut (e level a : Nat) : Nat := fieldN e 18 34 * 0x40000 + a % 2 ^ pageBits level

/-- `Permit` of R282: the permission bits R, W, X, E of a leaf. -/
def permits (e : Nat) (k : Kind) : Bool := match k with
  | .r => bitN e 2 | .w => bitN e 3 | .x => bitN e 4 | .a => bitN e 2 && bitN e 3 | .e => bitN e 5

/-- Where the line of an address stands: where a migration has moved it (R307). -/
def State.redirect (s : State) (pa : Nat) : Nat :=
  let at' := fun (c : MigChannel) => match c.run with
    | some r => r.1 == pa / 0x40000 && (s.potOf pa).migrating && decide (pa % 0x40000 / 256 < c.copied)
    | none => false
  match s.channels.toList.find? at' with
  | some c => (c.run.getD (0, 0, 0)).2.1 * 0x40000 + pa % 0x40000
  | none => pa

/-- A line of a retired stack: it always reads as poisoned (R379). -/
def State.retired (s : State) (pa : Nat) : Bool :=
  decide (pa < 0x8000000000) && s.health.stackRet.getLsbD (pa / 0x1000000000)

/-- A line that is poisoned at home, or a line of a retired stack (R379). -/
def State.poisoned (s : State) (pa : Nat) : Bool := s.mem.poison.contains (pa / 256) || s.retired pa

/-- A line whose tag fails (R335): none is valid in a frame that only the scrub has written, and one that has been altered
from outside. -/
def State.tagBad (s : State) (pa : Nat) : Bool := s.mem.untagged.contains (pa / 0x40000) || s.mem.badTags.contains (pa / 256)

/-- What a read at home meets. -/
def badData (s : State) (pa : Nat) : Option Cause :=
  if s.poisoned pa then some cPoison else if s.tagBad pa then some cIntegrity else none

/-- What a read of the entry at `pa` meets. -/
def State.badEntry (s : State) (pa : Nat) : Option Cause := badData s (s.redirect pa)

/-- The entry at `pa`, read at home; one whose line returns no data stands as not valid (R335, R379; log 91). -/
def State.entryAt (s : State) (pa : Nat) : Nat := if (s.badEntry pa).isSome then 0 else s.mem.homeNat (s.redirect pa) 8

/-- A walk for `va` reads an entry: a line that returns no data raises its cause (R335, R379; log 91). -/
def readEntry (va pa : Nat) : X Nat := do
  let s ← get
  match s.badEntry pa with
  | some k => X.trapN k va
  | none => pure (s.entryAt pa)

/-! ## Claims and locks -/

def frameType (ft : Nat) : FrameState := match ft with | 1 => .pool | 2 => .save | _ => .hostShared

/-- A FREE frame taken for an enclave and written with zeros under its key (R289). -/
def State.claimFrame (s : State) (i : Nat) (st : FrameState) (e : BitVec 16) : State :=
  { s.setPot i { s.potAt i with state := st, owner := e } with mem := s.mem.clearFrame (frameAddr i) }

/-- The frames that are FREE in one state and not in another: claimed between the two. -/
def State.claimed (s t : State) : List Nat :=
  (t.pot.filter fun x => decide ((s.potAt x.1).state = .free) && decide (x.2.state ≠ .free)).map (·.1)

/-- The state before effects that stopped, with what their walks have claimed and locked: `t` is the state that they reached
(R285, R289). -/
def State.keepClaims (s t : State) : State :=
  { s with pot := t.pot, mem := (s.claimed t).foldl (fun m i => m.clearFrame (frameAddr i)) s.mem }

/-- A walk for `e` has read an entry with L = 1 (R285). -/
def lockFrame (e : BitVec 16) (pa : Nat) (fault : Stop) : X Unit := do
  let s ← get
  match potIndex pa with
  | none => throw fault
  | some i =>
    let p := s.potAt i
    if p.lk then (if p.lkFor = e then pure () else throw fault)
    else set (s.setPot i { p with lk := true, lkFor := e })

/-- The frame that holds a stage-2 or host table must be OWNED by owner 0 (R283). -/
def hostTable (s : State) (pa : Nat) : Bool :=
  match potIndex pa with
  | some i => decide ((s.potAt i).state = .owned) && decide ((s.potAt i).owner = 0)
  | none => false

/-- The stage-2 walk of an IPA for enclave `e` (R279 to R281, R283, R285, R289): the physical address and the leaf. -/
def walk2 (e : BitVec 16) (va ipa : Nat) : Nat → Nat → Nat → Bool → X (Nat × Nat)
  | 0, _, _, _ => X.trapN cStage2 va
  | fuel + 1, level, table, locked => do
    let s ← get
    let pa := table + 8 * levelIndex ipa level
    let bad : Stop := .trap cStage2 (BitVec.ofNat 64 va)
    if !hostTable s pa then throw bad
    let en ← readEntry va pa
    if !bitN en 0 then throw bad
    if malformed true level en then throw bad
    if bitN en 62 then lockFrame e pa bad
    if bitN en 1 then walk2 e va ipa fuel (level + 1) (entryNext en) (locked && bitN en 62)
    else
      if bitN en 62 && !locked then throw bad
      let ft := fieldN en 14 2
      let out := entryOut en level ipa
      if ft ≠ 0 then
        if !bitN en 62 then throw bad
        match potIndex out with
        | none => X.trapN cOwner va
        | some i =>
          let s ← get
          let p := s.potAt i
          if p.state = .free then set (s.claimFrame i (frameType ft) e)
          else if p.state = frameType ft && p.owner = e then pure ()
          else X.trapN cOwner va
      pure (out, en)

/-- `ipa` through stage 2; a fault names it. A stage-2 address has 52 bits (Table 11.2), and a longer one fails its walk (log
76). -/
def stage2 (e : BitVec 16) (va ipa : Nat) (k : Kind) : X (Nat × Nat) := do
  let s ← get
  match s.enclave? e with
  | none => X.trapN cStage2 va
  | some en =>
    let r ← X.attempt do
      X.check (decide (ipa < 2 ^ 52)) cStage2 (BitVec.ofNat 64 va)
      let r ← walk2 e va ipa 4 0 en.s2Root true
      if permits r.2 k then pure r else X.trapN cStage2 va
    match r with
    | .ok r => pure r
    | .error (.trap c v _) => throw (.trap c v ipa)
    | .error st => throw st

/-- A storage-backed fill of the leaf at `pa`, whose value is `en`: a leaf with FILL = 1 in the set joins the fill that runs,
every other one starts a fill (R302, step 1). -/
def startFill (c : Ctx) (va ipaLeaf pa en : Nat) : X Nat := do
  let s ← get
  let pa := s.redirect pa
  match if bitN en 11 then s.fills.reverse.find? (fun f => f.leaf == pa) else none with
  | some f => pure f.id
  | none =>
    let en' := en ||| 0x800
    let id := s.nextId
    let f : Fill := { id, enc := c.enc, die := c.die, leaf := pa, old := BitVec.ofNat 64 en', va := BitVec.ofNat 64 va, ipa := ipaLeaf
                      keys := match s.enclave? c.enc with | some e => e.sslots | none => [] }
    set { s with
      nextId := id + 1
      fills := s.fills ++ [f]
      mem := if en = en' then s.mem else s.mem.hwWrite c.die (natCells pa en' 8) }
    pure id

/-- The stage-1 walk (R279 to R283, R301): the IPA and the leaf entry, whose own address in memory comes third. -/
def walk1 (c : Ctx) (va : Nat) : Nat → Nat → Nat → X (Nat × Nat × Nat)
  | 0, _, _ => X.trapN cNotPresent va
  | fuel + 1, level, table => do
    let eIpa := table + 8 * levelIndex va level
    let t ← stage2 c.enc va eIpa .r
    let s ← get
    let pot := s.potOf t.1
    if !((pot.state = .owned || pot.state = .pool) && pot.owner = c.enc && (potIndex t.1).isSome) then X.trapN cOwner va
    let en ← readEntry va t.1
    if !bitN en 0 then
      if level == 3 && bitN en 9 && fieldN en 12 2 == 0 then do
        let id ← startFill c va eIpa t.1 en
        throw (.fill id (BitVec.ofNat 64 va))
      else X.trapN cNotPresent va
    else if malformed false level en then X.trapN cNotPresent va
    else if bitN en 1 then walk1 c va fuel (level + 1) (entryNext en)
    else pure (entryOut en level va, en, t.1)

/-- The walk of the host table (R276, R283). -/
def walkHost (va : Nat) : Nat → Nat → Nat → X (Nat × Nat)
  | 0, _, _ => X.trapN cNotPresent va
  | fuel + 1, level, table => do
    let s ← get
    let pa := table + 8 * levelIndex va level
    if !hostTable s pa then X.trapN cNotPresent va
    let en ← readEntry va pa
    if !bitN en 0 then X.trapN cNotPresent va
    if malformed false level en then X.trapN cNotPresent va
    if bitN en 1 then walkHost va fuel (level + 1) (entryNext en) else pure (entryOut en level va, en)

/-- The size of the page that holds `va`, as a power of two: that of its stage-1 or host leaf, where the walk finds one, and
else of the smallest page (Table 11.2; log 36). -/
def leafBits (c : Ctx) (va : Nat) (s : State) : Nat :=
  if c.host then
    match walkHost va 4 0 s.hostRoot s with
    | .ok r _ => 18 + 7 * fieldN r.2 12 2
    | .error _ _ => 18
  else match s.enclave? c.enc with
    | none => 18
    | some e => match walk1 c va 4 0 e.s1Root s with
      | .ok r _ => 18 + 7 * fieldN r.2.1 12 2
      | .error _ _ => 18

/-- `CheckOwner` (R288, Table 11.5; R277 for what has no frame; R368 for host memory on a module that does not bridge). -/
def ownerAdmits (s : State) (c : Ctx) (pa : Nat) (k : Kind) : Bool :=
  match regionOf pa with
  | .reserved => false
  | .device => c.host && !c.engine
  | .host => Config.bridge
  | _ =>
    let p := s.potOf pa
    let mine := if c.host then decide (p.owner = 0) else decide (p.owner = c.enc)
    match p.state with
    | .free | .scrubbing => false
    | .owned | .pool => mine
    | .code => mine && decide (k = .r ∨ k = .x ∨ k = .e)
    | .save => mine && c.save && decide (k = .r ∨ k = .w)
    | .hostShared => (mine || c.host) && decide (k = .r ∨ k = .w ∨ k = .a ∨ k = .e)

/-- The addresses of device register space that raise OWNER for every access (R278). -/
def deviceHole (pa : Nat) : Bool :=
  let o := pa - 0xF000000000000
  !(decide (o < 0x4000000)) &&
    !(decide (0x100000000000 ≤ o) && decide (o < 0x200000000000) && o / 0x1000000000 % 256 != 0 && o / 0x1000000000 % 256 != Config.mid.toNat)

def windowBase : Nat := 0x1FFFFFFC0000000

/-- `Translate` (R282) for one access kind. -/
def translate (c : Ctx) (va : Word) (k : Kind) : X Place := do
  let a := va.toNat
  if a / 2 ^ 57 = 0 && windowBase ≤ a then
    let s ← get
    match c.wg.bind s.wg? with
    | none => X.trap cPermission va
    | some w => if a - windowBase < w.scr * 256 then pure (.scr w.id (a - windowBase)) else X.trap cPermission va
  else if a / 2 ^ 57 ≠ 0 then X.trap cNotPresent va
  else do
    let s ← get
    let r ← if c.host then do
        let r ← walkHost a 4 0 s.hostRoot
        if !permits r.2 k then X.trap cPermission va
        pure (r.1, r.2)
      else match s.enclave? c.enc with
        | none => X.trap cNotPresent va
        | some en => do
          let l ← walk1 c a 4 0 en.s1Root
          if !permits l.2.1 k || (c.engine && !permits l.2.1 .e) then X.trap cPermission va
          if c.level = .u && !bitN l.2.1 10 then X.trap cPermission va
          let p ← stage2 c.enc a l.1 k
          if c.engine && !permits p.2 .e then X.trap cStage2 va
          pure (p.1, l.2.1)
    let s ← get
    if !ownerAdmits s c r.1 k then X.trap cOwner va
    if regionOf r.1 = .device then
      if deviceHole r.1 then X.trap cOwner va
      pure (.dev r.1)
    else pure (.mem (s.redirect r.1) (bitN r.2 8) (BitVec.ofNat 2 (fieldN r.2 6 2)))

/-- A translation for `n` bytes from `va`, none of which crosses a page, since an access is aligned (R158). -/
def translateRange (c : Ctx) (va : Word) (k : Kind) (n : Nat) : X Place := do
  let p ← translate c va k
  match p with
  | .scr w o => do
    let s ← get
    match s.wg? w with
    | some g => if o + n ≤ g.scr * 256 then pure p else X.trap cPermission va
    | none => X.trap cPermission va
  | _ => pure p

end Sys2Proof.Machine
end

