-- ==== Sys2Proof/Machine/Access.lean ====
section
/-!
DEFINITION. Reads and writes of memory and scratchpad on behalf of an agent, an engine or the hardware: plain accesses
(R245 to R247, R255, R256), poison (R379), locked words (R285), the dirty bitmap (R353), release and acquire
(Table 9.1), and accesses at home.
-/
namespace Sys2Proof.Machine

/-! ## What an access meets -/

/-- Whether an access leaves no copy on its die: a die-affine page of another die (R166), an engine on an SMR page
(R256). -/
def uncachedFor (s : State) (c : Ctx) (pa : Nat) (smr : Bool) (ap : BitVec 2) : Bool :=
  (decide (ap = 1) && s.homeDie pa != c.die) || ((c.engine || c.direct) && smr)

/-- Whether a write of all of a bad line stands before its home: one that has not left the agent, one of the die's order that
home has still to apply, or the die's copy of a software-managed line, dirty in every byte (R379). Reading it needs nothing
of the line at home. -/
def State.rewritten (s : State) (die : Nat) (own : List Leaving) (l : Nat) : Bool :=
  own.any (fun w => wholeLine l w.bytes)
    || (s.mem.flight.any fun f => !f.origin && !f.atHome && covers (s.mem.die die).clock f && wholeLine l f.bytes)
    || (List.range 256).all fun i => match findCopy (s.mem.die die).copies (l * 256 + i) with | some c => c.smr && c.dirty | none => false

/-- Whether a read of `n` bytes of one frame takes nothing from one of the bad lines `ls`. -/
def State.avoids (s : State) (die : Nat) (own : List Leaving) (pa n : Nat) (ls : List Nat) : Bool :=
  ls.all fun l => !(decide (pa / 256 ≤ l) && decide (l * 256 < pa + n)) || s.rewritten die own l

/-- What a read of `n` bytes of one frame by an agent of a die meets, its own writes that have not left it being `own`; a
copy that the die `held` does not need the tag at home. -/
def badRange (s : State) (die : Nat) (own : List Leaving) (held : Bool) (pa n : Nat) : Option Cause :=
  if s.retired pa || !s.avoids die own pa n s.mem.poison then some cPoison
  else if !held && (s.mem.untagged.contains (pa / 0x40000) || !s.avoids die own pa n s.mem.badTags) then some cIntegrity
  else none

/-- A write to a frame of a migrating enclave sets its dirty bit (R353). -/
def State.markDirty (s : State) (pa : Nat) : State :=
  match potIndex pa with
  | none => s
  | some i =>
    let p := s.potAt i
    if p.state = .owned ∨ p.state = .code ∨ p.state = .pool then
      { s with enclaves := s.enclaves.map fun e =>
          if e.id = p.owner then
            match e.session with
            | some m => { e with session := some { m with dirty := if m.dirty.contains i then m.dirty else i :: m.dirty } }
            | none => e
          else e }
    else s

/-- Whether a write would change a bit of a word with V = 1 and L = 1 in a locked frame (R285). -/
def State.lockedWrite (s : State) (pa : Nat) (bs : List Byte) : Bool :=
  (s.potOf pa).lk && (List.range bs.length).any fun i =>
    let w := s.mem.homeNat ((pa + i) / 8 * 8) 8
    bitN w 0 && bitN w 62 && s.mem.homeByte (pa + i) != bs.getD i 0

/-! ## Writes of an agent that have not left it (R246) -/

def leavingByte (l : List Leaving) (p : Nat) : Option Byte :=
  l.foldl (fun o w => match w.bytes.find? (·.1 == p) with | some b => some b.2 | none => o) none

/-- One plain write of an agent enters the order of its die. -/
def MemSys.enterLeaving (m : MemSys) (a : Agent) (w : Leaving) : MemSys := m.enter a.id a.die w.smr w.uncached w.bytes

/-- Whether a write touches one of the bytes. -/
def Leaving.hits (w : Leaving) (ps : List Nat) : Bool := w.bytes.any fun b => ps.contains b.1

/-- The writes that have not left an agent, cut in two: those that `hit` names with what stands before them on the same
bytes, and the rest (R246). -/
def dueLeaving (hit : Leaving → Bool) : List Leaving → List Leaving × List Leaving
  | [] => ([], [])
  | w :: l =>
    let r := dueLeaving hit l
    if hit w || r.1.any fun v => v.hits (w.bytes.map (·.1)) then (w :: r.1, r.2) else (r.1, w :: r.2)

/-- Writes of an agent to any of `ps`, and those before them to the same bytes, enter the order of its die (R246). -/
def State.drainBytes (s : State) (id : Nat) (ps : List Nat) : State :=
  match s.agent? id with
  | none => s
  | some a =>
    let r := dueLeaving (·.hits ps) a.leaving
    { s with mem := r.1.foldl (fun m w => m.enterLeaving a w) s.mem }.onAgent id fun a => { a with leaving := r.2 }

/-- Every plain write of the agent enters the order of its die, in program order. -/
def State.drainWrites (s : State) (id : Nat) : State :=
  match s.agent? id with
  | none => s
  | some a =>
    { s with mem := a.leaving.foldl (fun m w => m.enterLeaving a w) s.mem }.onAgent id fun a => { a with leaving := [] }

/-! ## Chunks of asynchronous copies (05 R151) -/

/-- Whether two chunks of one agent have a byte in common that one of them writes (R150). -/
def Chunk.meets (x c : Chunk) : Bool :=
  x.agent == c.agent && ((x.dstLocal == c.dstLocal && x.dst.any c.dst.contains) || (x.dstLocal == c.srcLocal && x.dst.any c.src.contains)
    || (x.srcLocal == c.dstLocal && x.src.any c.dst.contains))

/-- Whether a chunk reads or writes one of the bytes `ps`, of a scratchpad or of memory. -/
def Chunk.touches (c : Chunk) (loc : Option Nat) (ps : List Nat) : Bool :=
  (c.srcLocal == loc && c.src.any ps.contains) || (c.dstLocal == loc && c.dst.any ps.contains)

/-- The byte that a chunk reads at a place of its source in memory, whose clock its group has then seen (R253). Where the line
returns no data the byte is open: an accepted chunk never faults (R151, R379; log 92). -/
def State.chunkByte (s : State) (c : Chunk) (p : Nat) : Byte × State :=
  let pa := s.redirect p
  let held := !c.srcUncached && (findCopy (s.mem.die c.die).copies pa).isSome
  match badRange s c.die [] held pa 1 with
  | some _ => (BitVec.ofNat 8 s.draw.1, s.draw.2)
  | none =>
    let r := s.mem.readBytes c.die pa c.srcSmr c.srcUncached 1
    (r.1.headD 0, { s with mem := r.2.2 }.onAgent c.agent fun a => { a with homeSeen := a.homeSeen.join r.2.1 })

/-- The bytes of a chunk's source as they stand, and the state after the reads. -/
def State.chunkBytes (s : State) (c : Chunk) : List Byte × State :=
  match c.srcLocal with
  | some w => (c.src.map fun o => match s.wg? w with | some g => g.scrByte o | none => 0, s)
  | none => c.src.foldl (fun (r : List Byte × State) p => let x := r.2.chunkByte c p; (r.1 ++ [x.1], x.2)) ([], s)

/-- The bytes of a chunk move: what the group's own earlier stores wrote at its source and its destination enters the die
order first (R150). -/
def State.moveChunk (s : State) (c : Chunk) : State :=
  let s := if c.srcLocal.isNone then s.drainBytes c.agent c.src else s
  let s := if c.dstLocal.isNone then s.drainBytes c.agent c.dst else s
  let r := s.chunkBytes c
  let cells := c.dst.zip r.1
  match c.dstLocal with
  | some w => r.2.onWg w fun g => g.scrWrite cells
  | none =>
    let cells := cells.map fun (x : Nat × Byte) => (r.2.redirect x.1, x.2)
    let t := cells.foldl (fun (s : State) (x : Nat × Byte) => s.markDirty x.1) r.2
    if cells.isEmpty then t else { t with mem := t.mem.enter c.agent c.die c.dstSmr c.dstUncached cells }

/-- The chunks that `hit` names, with the earlier ones that they follow. -/
def dueChunks (hit : Chunk → Bool) : List Chunk → List Chunk
  | [] => []
  | c :: l => let r := dueChunks hit l; if hit c || r.any c.meets then c :: r else r

/-- An access of an agent to bytes follows what its earlier copies read and write there: these land first (R150; log 74). -/
def State.landFor (s : State) (id : Nat) (loc : Option Nat) (ps : List Nat) : State :=
  (dueChunks (·.touches loc ps) (s.chunks.filter (·.agent == id))).foldl
    (fun s c => { s.moveChunk c with chunks := s.chunks.filter (·.id != c.id) }) s

/-- What the earlier copies of an agent read and write in `n` bytes at a place comes before its write there. -/
def State.landAt (s : State) (id : Nat) (p : Place) (n : Nat) : State :=
  match p with
  | .mem pa _ _ => s.landFor id none ((List.range n).map (pa + ·))
  | .scr w o => s.landFor id (some w) ((List.range n).map (o + ·))
  | .dev _ => s

/-! ## Plain accesses at a place -/

def readPlace (c : Ctx) (p : Place) (va : Word) (n : Nat) : X (List Byte) := do
  let s ← get
  match p with
  | .scr w o => pure (match s.wg? w with | some g => (List.range n).map fun i => g.scrByte (o + i) | none => List.replicate n 0)
  | .dev _ => pure (List.replicate n 0)
  | .mem pa smr ap =>
    let own := match s.agent? c.agent with | some a => if c.agent = 0 then [] else a.leaving | none => []
    let unc := uncachedFor s c pa smr ap
    let held := !unc && (List.range n).all fun i =>
      (leavingByte own (pa + i)).isSome || (findCopy (s.mem.die c.die).copies (pa + i)).isSome
    match badRange s c.die own held pa n with
    | some k => X.trap k va
    | none =>
      let r := s.mem.readBytes c.die pa smr unc n
      let bs := (List.range n).map fun i => match leavingByte own (pa + i) with | some b => b | none => r.1.getD i 0
      let t := { s with mem := r.2.2 }
      set (if c.agent = 0 then t else t.onAgent c.agent fun a => { a with homeSeen := a.homeSeen.join r.2.1 })
      pure bs

/-- A plain write. An agent's write leaves it later (R246); an engine's enters at once; an H-level write to a frame of
locked entries is applied at home before it completes (R285). -/
def writePlace (c : Ctx) (p : Place) (va : Word) (bs : List Byte) : X Unit := do
  let s ← get
  match p with
  | .scr w o =>
    let s := if c.agent = 0 then s else s.landAt c.agent p bs.length
    set (s.onWg w fun g => g.scrWrite (cellsAt o bs))
  | .dev _ => pure ()
  | .mem pa smr ap =>
    if c.host && s.lockedWrite pa bs then X.trap cPermission va
    let s := if c.agent = 0 then s else s.landAt c.agent p bs.length
    let s := s.markDirty pa
    let unc := uncachedFor s c pa smr ap
    if c.host && (s.potOf pa).lk then
      let s := s.drainWrites c.agent
      set { s with mem := s.mem.hwWrite c.die (cellsAt pa bs) }
    else if c.agent = 0 then set { s with mem := s.mem.enter 0 c.die smr unc (cellsAt pa bs) }
    else set (s.onAgent c.agent fun a => { a with leaving := a.leaving ++ [{ bytes := cellsAt pa bs, smr, uncached := unc }] })

/-- The pages that `n` bytes from `va` touch, as pieces: address and length. -/
def pieces (va : Word) (n : Nat) : List (Word × Nat) :=
  let a := va.toNat
  let last := if n = 0 then a else a + n - 1
  (List.range (last / 0x40000 - a / 0x40000 + 1)).map fun k =>
    let lo := max a ((a / 0x40000 + k) * 0x40000)
    let hi := min (a + n) ((a / 0x40000 + k + 1) * 0x40000)
    (BitVec.ofNat 64 lo, hi - lo)

/-- The same cut at every line. -/
def linePieces (va : Word) (n : Nat) : List (Word × Nat) :=
  let a := va.toNat
  let last := if n = 0 then a else a + n - 1
  (List.range (last / 0x100 - a / 0x100 + 1)).map fun k =>
    let lo := max a ((a / 0x100 + k) * 0x100)
    let hi := min (a + n) ((a / 0x100 + k + 1) * 0x100)
    (BitVec.ofNat 64 lo, hi - lo)

/-- The pieces that are translated one by one: pages, or lines while a migration runs, since a page in migration has its lines in
two frames (R307). -/
def State.spans (s : State) (va : Word) (n : Nat) : List (Word × Nat) :=
  if s.channels.toList.any fun c => decide (c.status = 1) then linePieces va n else pieces va n

/-- Bytes from physical address `pa` on as home holds them, each line where it stands (R307). -/
def State.pageBytes (s : State) (pa n : Nat) : List Byte :=
  ((s.spans (bv64 pa) n).map fun q => s.mem.homeBytes (s.redirect q.1.toNat) q.2).flatten

/-- Bytes written at home from physical address `pa` on, each line where it stands (R307). -/
def State.writePage (s : State) (die pa : Nat) (bs : List Byte) : State :=
  (s.spans (bv64 pa) bs.length).foldl (fun s q =>
    let p := s.redirect q.1.toNat
    { s.markDirty p with mem := s.mem.hwWrite die (cellsAt p ((bs.drop (q.1.toNat - pa)).take q.2)) }) s

/-- A plain read of `n` bytes, page by page, none of them in device space. -/
def readVa (c : Ctx) (va : Word) (n : Nat) (k : Kind := .r) : X (List Byte) := do
  let s ← get
  let ps ← (s.spans va n).mapM fun q => do
    let p ← translateRange c q.1 k q.2
    readPlace c p q.1 q.2
  pure ps.flatten

def writeVa (c : Ctx) (va : Word) (bs : List Byte) : X Unit := do
  let s ← get
  let ps ← (s.spans va bs.length).mapM fun q => do
    let p ← translateRange c q.1 .w q.2
    pure (q, p)
  ps.forM fun q => writePlace c q.2 q.1.1 ((bs.drop (q.1.1 - va).toNat).take q.1.2)

/-! ## Accesses at home, for structures that hardware keeps (R293, R303, R197) -/

def readHomePlace (c : Ctx) (p : Place) (va : Word) (n : Nat) : X (List Byte) := do
  let s ← get
  match p with
  | .mem pa smr _ =>
    let r := s.mem.homeRead c.die pa n smr
    let t := { s with mem := r.2.2 }
    match badData t pa with
    | some k => X.trap k va
    | none =>
      set t
      pure r.1
  | _ => readPlace c p va n

def writeHomePlace (c : Ctx) (p : Place) (bs : List Byte) : X Unit := do
  let s ← get
  match p with
  | .mem pa _ _ =>
    let s := s.markDirty pa
    set { s with mem := s.mem.hwWrite c.die (cellsAt pa bs) }
  | .scr w o => set (s.onWg w fun g => g.scrWrite (cellsAt o bs))
  | .dev _ => pure ()

def readHome (c : Ctx) (va : Word) (n : Nat) : X Nat := do
  let p ← translateRange c va .r n
  let bs ← readHomePlace c p va n
  pure (bytesNat bs)

def writeHome (c : Ctx) (va : Word) (x n : Nat) : X Unit := do
  let p ← translateRange c va .w n
  writeHomePlace c p (natBytes x n)

/-! ## Scopes (R37, R160) -/

/-- The scope after clamping, and whether it was clamped; none: the clamp traps. A control thread at scope 1 or 2 acts
at scope 0. -/
def clampScope (s : State) (a : Agent) (scope : Nat) : Option (Nat × Bool) :=
  let pol := s.policy a
  if a.isH then some (if scope = 1 ∨ scope = 2 then 0 else scope, false)
  else if pol.maxScope < scope then (if pol.clampTrap then none else some (pol.maxScope, true))
  else some (if a.isControl && (scope == 1 || scope == 2) then 0 else scope, false)

/-- `CheckScope` for the acting agent: marks GSTAT, or traps under CLAMPTRAP (R160). -/
def checkScope (scope : Nat) : X Nat := do
  let s ← get
  match clampScope s s.cur scope with
  | none => X.trapN cScopeClamp (scope + 16 * (s.policy s.cur).maxScope)
  | some (k, cl) =>
    if cl then set (s.onCur fun a => { a with clamped := true })
    pure k

/-- Clamping by the policy of a partition, for an engine or the hardware (R190, R366). -/
def State.clampFor (s : State) (part scope : Nat) : Nat := min scope (s.layout.entryAt part none).maxScope

/-- Clamping for an operation: by the policy that it was issued under (R190; 13 R346). -/
def Op.clamp (o : Op) (scope : Nat) : Nat := min scope o.maxScope

/-! ## Release and acquire (Table 9.1) -/

/-- Whether a byte lies in host memory. -/
def hostByte (p : Nat) : Bool := decide (regionOf p = .host)

/-- The release of an agent's prior accesses at a scope: they enter the order of their die (log 9); at scope 9 or 10 the
writes to host memory complete, and at scope 10 every write of the agent reaches its home, where the reads that come in
through storage root ports and from TDISP peers are served. A release at scope 8 or wider is one that a remote copy follows
(18 R388). -/
def State.release (s : State) (id scope : Nat) : State :=
  if scope < 2 then s else
  let s := s.drainWrites id
  let s := if scope < 8 then s else s.onAgent id fun a => { a with fabricClock := a.fabricClock.join (s.mem.die a.die).clock }
  if scope < 9 then s
  else { s with mem := s.mem.toHome fun f => (decide (10 ≤ scope) && f.agent == id) || f.bytes.any fun b => hostByte b.1 }

/-- Drops what an acquire at scope 9 or 10 drops: copies of HOSTSHARED lines and of host memory. -/
def State.dropShared (s : State) (die : Nat) : State :=
  { s with mem := s.mem.drop die fun c => !c.smr && (hostByte c.addr || decide ((s.potOf c.addr).state = .hostShared)) }

/-- The acquire of the releases that clock `c` names, on a die at a scope. -/
def State.acquire (s : State) (die scope : Nat) (c : Clock) : State :=
  if scope < 5 then s else
  let s := { s with mem := s.mem.pull die c }
  if scope < 9 then s else s.dropShared die

def State.clockOf (s : State) (die : Nat) : Clock := (s.mem.die die).clock

/-- The clock that a release of the acting agent at scope `k` attaches: that of the die at scope 5 or wider (Table 9.1), and
what a release fence at such a scope has named before the write (R170, R250). -/
def State.releaseClock (s : State) (k : Nat) : Clock :=
  if 5 ≤ k then s.clockOf s.cur.die else s.cur.relClock

end Sys2Proof.Machine
end

