-- ==== Sys2Proof/Machine/Engine.lean ====
section
/-!
DEFINITION. What engine operations share: the enclave service block (11 R293), timelines (06 R174, R176; 07 R190), fault
records (11 R303), suspension (11 R304), and streams going down (14 R360, R361).
-/
namespace Sys2Proof.Machine

/-- Runs effects and keeps the state reached, with the result or the stop. -/
def X.run' {α : Type} (x : X α) (s : State) : Except Stop α × State :=
  match x s with
  | .ok a s' => (.ok a, s')
  | .error e s' => (.error e, s')

/-- Runs effects that the hardware drops when they stop: the state before stands. -/
def X.orKeep (x : X Unit) (s : State) : State := match x s with | .ok _ s' => s' | .error _ _ => s

/-! ## The service block (11 Table 11.7) -/

def serviceView : Nat := 0x1FFFFFFBFFC0000
def serviceOff : Nat := 0x10000

/-- The service block lies in the root frame, which is reached through stage 2 (R293). -/
def svcPlace (enc : BitVec 16) (off : Nat) (k : Kind) : X Nat := do
  let s ← get
  match s.enclave? enc with
  | none => X.trapN cStage2 0
  | some e => do
    let r ← stage2 enc (serviceView + serviceOff + off) (e.s1Root + serviceOff + off) k
    let s ← get
    let p := s.potOf r.1
    if !((p.state = .owned || p.state = .pool) && p.owner = enc) then X.trapN cOwner (serviceView + serviceOff + off)
    pure (s.redirect r.1)

/-- A field of the block, as hardware that acts on a die reads it: what the die's clock covers there stands at home first, and
what clock `c` names, which the hardware has acquired (R256, R293). -/
def svcRead (enc : BitVec 16) (die off n : Nat) (c : Clock := .zero) : X Nat := do
  let pa ← svcPlace enc off .r
  let s ← get
  let v := (s.clockOf die).join c
  let s := { s with mem := s.mem.toHome fun f => covers v f && (List.range n).any fun i => f.touches (pa + i) }
  match badData s pa with
  | some k => X.trapN k (serviceView + serviceOff + off)
  | none => do
    set s
    pure (s.mem.homeNat pa n)

def svcWrite (enc : BitVec 16) (die off x n : Nat) : X Unit := do
  let pa ← svcPlace enc off .w
  let s ← get
  let s := s.markDirty pa
  set { s with mem := s.mem.hwWrite die (natCells pa x n) }

/-! ## The page pool, and fills that begin (R300, R302) -/

/-- Pops the pool stack (R300): the IPA. -/
def popPool (f : Fill) : X Nat := do
  let base ← svcRead f.enc f.die 0x20 8
  let top ← svcRead f.enc f.die 0x30 4
  X.check (decide (top ≠ 0)) cEngine
  let ipa ← readHome (hwCtx f.enc f.die) (bv64 (base + 8 * (top - 1))) 8
  svcWrite f.enc f.die 0x30 (top - 1) 4
  pure ipa

def pushPool (f : Fill) (ipa : Nat) : X Unit := do
  let base ← svcRead f.enc f.die 0x20 8
  let top ← svcRead f.enc f.die 0x30 4
  writeHome (hwCtx f.enc f.die) (bv64 (base + 8 * top)) ipa 8
  svcWrite f.enc f.die 0x30 (top + 1) 4

/-- A fill begins: FILL is set in its leaf, and a page is popped from the pool before the drive is read (R302, steps 1 and 3); a
fill whose pop fails has none. -/
def State.beginFill (s : State) (f : Fill) : State :=
  let s := if s.mem.homeNat f.leaf 8 = f.old.toNat then s
    else { s.markDirty f.leaf with mem := s.mem.hwWrite f.die (natCells f.leaf f.old.toNat 8) }
  match popPool f s with
  | .ok ipa t => { t with fills := t.fills ++ [{ f with page := some ipa }] }
  | .error _ t => { s.keepClaims t with fills := s.fills ++ [f] }

/-- The fills that walks have started begin. -/
def State.beginFills (s : State) (fs : List Fill) : State := fs.foldl (fun s f => s.beginFill f) s

/-- The state before effects that stopped for a fill, with what their walks have done in `t`: frames claimed and fills begun
(R285, R289, R302). -/
def State.keepWalk (s t : State) : State :=
  { s.keepClaims t with nextId := t.nextId }.beginFills (t.fills.drop s.fills.length)

/-! ## Records (07 R188 to R194) -/

/-- Bits [lo + n - 1 : lo] of the 8-byte word at `o` of a record. -/
def Rec.f (r : Rec) (o lo n : Nat) : Nat := fieldN (bytesNat ((r.bytes.drop o).take 8)) lo n
def Rec.w (r : Rec) (o : Nat) : Nat := bytesNat ((r.bytes.drop o).take 8)

/-! ## Timelines -/

def Enclave.timeline? (e : Enclave) (i : Nat) : Option Timeline := e.timelines[i]?

/-- The partition of an enclave. -/
def State.partOf (s : State) (e : BitVec 16) : Nat := match s.enclave? e with | some x => x.part | none => 0

/-- The release that an engine makes at a scope, of the writes that clock `c` covers: at scope 9 those to host memory complete, at 10
all of them stand at home (09 Table 9.1). -/
def State.engineRelease (s : State) (scope : Nat) (c : Clock) : State :=
  if scope < 9 then s
  else { s with mem := s.mem.toHome fun f => covers c f && (decide (10 ≤ scope) || f.bytes.any fun b => hostByte b.1) }

/-- A timeline becomes max(counter, n), carrying the clock of the release (R176, R190). -/
def State.signal (s : State) (enc : BitVec 16) (i : Nat) (n : Word) (c : Clock) : State :=
  s.onEnclave enc fun e =>
    { e with timelines := e.timelines.modify i fun t =>
        { t with count := if t.count.toNat < n.toNat then n else t.count, clock := t.clock.join c } }

/-! ## Fault records -/

/-- Writes a record into the fault queue; false when there is no room or no queue (R303). -/
def writeFault (enc : BitVec 16) (die : Nat) (r : FaultRec) : X Bool := do
  let base ← svcRead enc die 0x00 8
  let w ← svcRead enc die 0x08 8
  let head ← svcRead enc die 0x10 4
  let tail ← svcRead enc die 0x18 4
  let cap := fieldN w 0 17
  if base = 0 ∨ (tail + 2 ^ 32 - head) % 2 ^ 32 = cap then pure false
  else do
    let at' := BitVec.ofNat 64 (base + 32 * (tail % cap))
    writeHome (hwCtx enc die) at' r.token.toNat 8
    writeHome (hwCtx enc die) (at' + 8) r.word1.toNat 8
    writeHome (hwCtx enc die) (at' + 16) r.va.toNat 8
    writeHome (hwCtx enc die) (at' + 24) r.progress.toNat 8
    svcWrite enc die 0x18 (tail + 1) 4
    if bitN w 44 then
      X.update fun s => s.signal enc (fieldN w 32 12) (BitVec.ofNat 64 ((tail + 1) % 2 ^ 32)) (s.clockOf die)
    pure true

/-- A record is written, or held on chip behind those held already (R303). -/
def State.postFault (s : State) (enc : BitVec 16) (die : Nat) (r : FaultRec) : State :=
  let hold := s.onEnclave enc fun e => { e with held := e.held ++ [{ r with die }] }
  match s.enclave? enc with
  | none => s
  | some e =>
    if !e.held.isEmpty then hold
    else match writeFault enc die r s with
      | .ok true s' => s'
      | _ => hold

/-- The flag record of a task that raised NV, DZ or OF, written now or held, by an open choice; none when FQBASE is 0 (12
R321). -/
def State.postFlags (s : State) (enc : BitVec 16) (die : Nat) (token : Word) (f : BitVec 5) : State :=
  let r : FaultRec := { token, word1 := bv64 (256 * 2), va := 0, progress := f.setWidth 64, die }
  match (X.run' (svcRead enc die 0 8) s).1 with
  | .ok 0 => s
  | _ =>
    let d := s.draw
    if d.1 % 2 = 0 then d.2.postFault enc die r else d.2.onEnclave enc fun e => { e with held := e.held ++ [r] }

def OpKind.recordKind : OpKind → Nat | .record k => k | .cow .. => 5 | .move .. => 5

def Op.token (o : Op) : Word := BitVec.ofNat 64 (o.tok.getD o.id % 2 ^ 32 + o.queue % 2 ^ 16 * 2 ^ 32)

def Op.faultRec (o : Op) (cause : Cause) (va : Word) : FaultRec :=
  { token := o.token, word1 := BitVec.ofNat 64 (cause.toNat + 256 * o.kind.recordKind), va, progress := BitVec.ofNat 64 o.progress }

/-- Where the sending of a suspended operation goes on: at PROGRESS (R365); a collective that has its result has sent all. -/
def Op.suspendSent (o : Op) : Nat := if o.result.isSome then o.sent else o.progress

/-- An operation is suspended at its resume point, and its fault record goes to the fault queue (R303, R304). -/
def State.suspendOp (s : State) (id : Nat) (cause : Cause) (va : Word) : State :=
  match s.op? id with
  | none => s
  | some o =>
    (s.onOp id fun o => { o with state := .suspended, cause, va, stream := none, streams := [], sent := o.suspendSent, cmds := [], stationary := none }).postFault o.enc o.die (o.faultRec cause va)

/-- A task that completes reports the flags NV, DZ and OF (12 R321). -/
def State.reportFlags (s : State) (o : Op) : State :=
  if o.kind = .record 2 ∧ o.flags &&& 28#5 ≠ 0 then s.postFlags o.enc o.die o.token o.flags else s

/-- A running operation has met a fault: its engine stops, and its suspension follows (12 R329). -/
def State.faultOp (s : State) (id : Nat) (cause : Cause) (va : Word) : State :=
  s.onOp id fun o => { o with state := .running, cause, va }

/-- An operation runs, and has met no fault. -/
def Op.live (o : Op) : Bool := decide (o.state = .running) && o.cause == 0

/-- An operation has ended; its signal follows in the queue's order (R190). -/
def State.finishOp (s : State) (id : Nat) (error : Cause) : State := s.onOp id fun o => { o with state := .done, error }

/-! ## Streams (14 R359 to R361, R365) -/

def State.stream (s : State) (k : Nat) : Stream := (alook s.links.streams k).getD {}
def State.onStream (s : State) (k : Nat) (f : Stream → Stream) : State :=
  { s with links := { s.links with streams := aput s.links.streams k (f (s.stream k)) } }

def stIdle : BitVec 3 := 0
def stOpening : BitVec 3 := 1
def stUp : BitVec 3 := 2
def stDown : BitVec 3 := 3
def stRefused : BitVec 3 := 4

/-- Whether an operation uses a stream (R361). -/
def Op.usesStream (o : Op) (k : Nat) : Bool := o.stream == some k || o.streams.contains k

/-- Whether a flit of an operation is not yet acknowledged. -/
def State.unacked (s : State) (id : Nat) : Bool := s.links.streams.any fun x => x.2.kept.any fun y => y.op == some id

/-- A stream goes DOWN: its keys are erased, and the records that use it suspend (R360, R361, R365). Its answers go out under
the link key of the port. -/
def State.streamDown (s : State) (k : Nat) (cause : Cause) : State :=
  let st := s.stream k
  if st.state = stOpening ∨ st.state = stUp then
    let s := s.onStream k fun x =>
      { x with state := stDown, port := 0, txCur := none, txNext := none, txOld := none
               rxCur := none, rxNext := none, kept := [] }
    let s := { s with links := { s.links with rdvOut := s.links.rdvOut.filter (·.1 != k) } }
    (s.ops.filter fun o => o.usesStream k && decide (o.state = .running ∨ o.state = .waiting)).foldl
      (fun s o => s.suspendOp o.id cause o.va) s
  else s

/-- The UP stream of an enclave toward a module (R361). -/
def State.streamTo (s : State) (enc : BitVec 16) (mid : Nat) : Option (Nat × Stream) :=
  s.links.streams.find? fun x => decide (x.2.state = stUp) && x.2.lenc == enc && x.2.pmid.toNat == mid

end Sys2Proof.Machine
end

