-- ==== Sys2Proof/Machine/Device.lean ====
section
/-!
DEFINITION. Device register space (11 R278, Table 11.17): the mailbox (R332), the migration channels (R305), the port
status (R358), the health block (R378), the attachment table (R372), the stream entries (R359) and the relay windows
(R361), as words with the access codes of Table 0.2.
-/
namespace Sys2Proof.Machine

def devBase : Nat := 0xF000000000000

/-- The word at 8-aligned offset `o` of device register space, as a read returns it. -/
def State.devWord (s : State) (o : Nat) : Word :=
  let mb := s.rp.mailbox
  let h := s.health
  if o = 0x10000 then bv64 (mb.op.toNat + mb.target.toNat * 2 ^ 16 + mb.len.toNat * 2 ^ 32)
  else if o = 0x10008 then bv64 (mb.buf * 64)
  else if o = 0x10010 then bv64 (mb.rbuf * 64)
  else if o = 0x10018 then bv64 mb.rcap.toNat
  else if o = 0x10020 then bv64 (if mb.busy then 3 else 0)
  else if o = 0x10028 then bv64 (mb.code.toNat + mb.rlen.toNat * 2 ^ 32)
  else if 0x20000 ≤ o ∧ o < 0x20100 then
    let c := s.channels.toList.getD ((o - 0x20000) / 32) {}
    match o % 32 with
    | 0 => bv64 (c.src.toNat * 2 ^ 18)
    | 8 => bv64 (c.leaf.toNat * 8)
    | 16 => bv64 (c.dst.toNat * 2 ^ 18)
    | _ => bv64 ((if c.go || decide (c.status = 1) then 1 else 0) + c.status.toNat * 2)
  else if 0x40000 ≤ o ∧ o < 0x40120 then
    let p := (o - 0x40000) / 16
    let e := s.links.ports.toList.getD p {}
    let mode := if Config.bridge && decide (p < 2) then 1 else e.mode.toNat
    if o % 16 = 0 then bv64 (mode + e.state.toNat * 4 + e.peerMid.toNat * 2 ^ 8)
    else bv64 (e.retries.toNat + e.fecUnc.toNat * 2 ^ 32)
  else if 0x60000 ≤ o ∧ o < 0x60028 then
    match o - 0x60000 with
    | 0 => bv64 ((match h.service with | .full => 2 | .reduced => 1 | _ => 0) + (if h.replaceReq then 4 else 0)
        + h.reason.toNat * 2 ^ 8 + h.dieFence.toNat * 2 ^ 16 + h.stackRet.toNat * 2 ^ 20)
    | 8 => bv64 (h.portDeg.toNat + (if h.rpStby then 2 ^ 32 else 0))
    | 16 => bv64 (h.clkMhz.toNat + h.capW.toNat * 2 ^ 16 + h.pwrW.toNat * 2 ^ 32)
    | 24 => h.poisonCnt
    | _ => h.events
  else if 0x80000 ≤ o ∧ o < 0xA0000 then
    let a := (alook s.links.attachments ((o - 0x80000) / 128)).getD {}
    let r := o % 128
    if r = 0 then bv64 (a.encid.toNat + a.slot.toNat * 2 ^ 16 + a.port.toNat * 2 ^ 24 + a.func.toNat * 2 ^ 32)
    else if r = 8 then bv64 ((if a.state = 1 then 1 else 0) + a.state.toNat * 4 + a.lbas.toNat * 2 ^ 8)
    else if 0x20 ≤ r ∧ r < 0x60 then bv64 (bytesNat ((a.certDig.drop (r - 0x20)).take 8))
    else 0
  else if 0x100000 ≤ o ∧ o < 0x140000 then
    let e := s.stream ((o - 0x100000) / 32)
    match o % 32 with
    | 0 => bv64 (e.lenc.toNat + e.pmid.toNat * 2 ^ 16 + e.penc.toNat * 2 ^ 32)
    | 8 => bv64 ((if e.state = stOpening then 1 else 0) + e.state.toNat * 4 + e.port.toNat * 2 ^ 8 + e.epoch.toNat * 2 ^ 32)
    | 16 => e.flits
    | _ => bv64 e.pidx.toNat
  else 0

/-- The new value of an RW field whose bits lie in a word, under the mask of the bytes written. -/
def mergeField (old new mask : Word) (lo n : Nat) : Nat :=
  let m := bv64 (2 ^ n - 1) <<< lo
  fieldN (((old &&& ~~~ mask) ||| (new &&& mask)) &&& m).toNat lo n

/-- CAPW takes a written value clamped to 600–2,400 (R378). -/
def clampCap (w : Nat) : BitVec 16 := BitVec.ofNat 16 (min 2400 (max 600 w))

def State.setCap (s : State) (w : Nat) : State := { s with health := { s.health with capW := clampCap w } }

def State.onAttachment (s : State) (k : Nat) (f : Attachment → Attachment) : State :=
  { s with links := { s.links with attachments := aput s.links.attachments k (f ((alook s.links.attachments k).getD {})) } }
def State.attachment (s : State) (k : Nat) : Attachment := (alook s.links.attachments k).getD {}

/-- DETACH takes effect from RUN or ERROR (R372). -/
def State.detach (s : State) (k : Nat) : State :=
  let a := s.attachment k
  if a.state = 2 ∨ a.state = 3 then s.onAttachment k fun a => { a with state := 0 } else s

/-- CLOSE sends an OPENING or UP stream to DOWN (R359, R360). -/
def State.closeStream (s : State) (k : Nat) : State := s.streamDown k cEngine

/-- The commands of the mailbox (13 Table 13.2). -/
def mailboxOps : List Nat :=
  [0x01, 0x10, 0x11, 0x12, 0x13, 0x20, 0x21, 0x22, 0x30, 0x31, 0x32, 0x33, 0x38, 0x39, 0x3A, 0x3B]

/-- GO starts a command; an OP that is not listed ends at once with BADOP, and GO while BUSY has no effect (R332). -/
def Mailbox.go (m : Mailbox) : Mailbox :=
  if m.busy then m
  else if mailboxOps.contains m.op.toNat then { m with busy := true }
  else { m with code := 1, rlen := 0 }

/-- A write of the bytes that `mask` selects in the word at 8-aligned offset `o`. DESIGN CHOICE: ATTACH and DETACH written as 1 in one
write each act by the state before it, so that at most one of them does (R372; log 97). -/
def State.devWriteWord (s : State) (o : Nat) (x mask : Word) : State :=
  let old := s.devWord o
  let f := fun lo n => mergeField old x mask lo n
  let hit := fun i => (x &&& mask).getLsbD i
  let mbx := fun g => { s with rp := { s.rp with mailbox := g s.rp.mailbox } }
  if o = 0x10000 then mbx fun m => { m with op := f 0 8, target := f 16 16, len := f 32 32 }
  else if o = 0x10008 then mbx fun m => { m with buf := f 6 46 }
  else if o = 0x10010 then mbx fun m => { m with rbuf := f 6 46 }
  else if o = 0x10018 then mbx fun m => { m with rcap := f 0 32 }
  else if o = 0x10020 then (if hit 0 then mbx (·.go) else s)
  else if 0x20000 ≤ o ∧ o < 0x20100 then
    let k := (o - 0x20000) / 32
    let ch := fun g => { s with channels := s.channels.setIfInBounds k (g (s.channels.toList.getD k {})) }
    match o % 32 with
    | 0 => ch fun c => { c with src := f 18 34 }
    | 8 => ch fun c => { c with leaf := f 3 49 }
    | 16 => ch fun c => { c with dst := f 18 34 }
    | _ => if hit 0 then ch fun c => if c.status = 1 then c else { c with go := true } else s
  else if o = 0x60010 then (if mask.getLsbD 16 || mask.getLsbD 24 then s.setCap (f 16 16) else s)
  else if 0x80000 ≤ o ∧ o < 0xA0000 then
    let k := (o - 0x80000) / 128
    let a := s.attachment k
    if o % 128 = 0 then
      if a.state = 1 ∨ a.state = 2 then s
      else s.onAttachment k fun a => { a with encid := f 0 16, slot := f 16 4, port := f 24 4, func := f 32 16 }
    else if o % 128 = 8 then
      let s := if hit 1 then s.detach k else s
      if hit 0 && (decide (a.state = 0) || decide (a.state = 4)) then s.onAttachment k fun a => { a with state := 1 } else s
    else s
  else if 0x100000 ≤ o ∧ o < 0x140000 then
    let k := (o - 0x100000) / 32
    let e := s.stream k
    let still := decide (e.state = stIdle) || decide (e.state = stDown) || decide (e.state = stRefused)
    match o % 32 with
    | 0 => if still then s.onStream k fun e => { e with lenc := f 0 16, pmid := f 16 8, penc := f 32 16 } else s
    | 8 =>
      if hit 1 then s.closeStream k
      else if hit 0 && still then s.onStream k fun e => { e with state := stOpening }
      else s
    | _ => s
  else s

/-- The relay window that an offset lies in: the module it reaches (R278, R361). -/
def relayModule (o : Nat) : Option Nat :=
  if 0x100000000000 ≤ o ∧ o < 0x200000000000 then some (o / 0x1000000000 % 256) else none

/-- Whether a relay window's stream is UP: the one whose LENC and PENC are 0 (R361). -/
def State.relayUp (s : State) (m : Nat) : Bool :=
  s.links.streams.any fun x => decide (x.2.state = stUp) && x.2.lenc == 0 && x.2.penc == 0 && x.2.pmid.toNat == m

/-- Reads `n` bytes of device register space; what a peer module answers through a relay window is open (log 10). -/
def devRead (pa : Nat) (va : Word) (n : Nat) : X (List Byte) := do
  let s ← get
  let o := pa - devBase
  match relayModule o with
  | some m =>
    if s.relayUp m then
      let r := s.draw
      set r.2
      pure (natBytes r.1 n)
    else X.trap cOwner va
  | none => pure (natBytes ((s.devWord (o / 8 * 8)).toNat / 2 ^ (o % 8 * 8)) n)

/-- A plain write of bytes to device register space; one through a relay window acts on the peer alone (log 10). -/
def State.devWrite (s : State) (pa : Nat) (bs : List Byte) : State :=
  let o := pa - devBase
  let sh := o % 8 * 8
  s.devWriteWord (o / 8 * 8) (bv64 (bytesNat bs * 2 ^ sh)) (bv64 ((2 ^ (8 * bs.length) - 1) * 2 ^ sh))

def devWriteX (pa : Nat) (va : Word) (bs : List Byte) : X Unit := do
  let s ← get
  match relayModule (pa - devBase) with
  | some m => if s.relayUp m then pure () else X.trap cOwner va
  | none => set (s.devWrite pa bs)

end Sys2Proof.Machine
end

