-- ==== Sys2Proof/Machine/SaveArea.lean ====
section
/-!
DEFINITION. The save area of a group (07 R222 to R225, 11 R311 to R317): records and the group record as bytes, the slots
of the save region, writes and reads of the save paths through stage 2, and exit records (11 R299).
-/
namespace Sys2Proof.Machine

/-! ## Record bytes (R222) -/

def LaneReg.at : LaneReg → Nat → Half
  | .u b, _ => b
  | .a b d, i => b + BitVec.ofNat 32 i * d
  | .g l, i => l.getD i 0

def LaneReg.tag : LaneReg → Nat | .u _ => 0 | .a _ _ => 1 | .g _ => 2

def LaneReg.body (g : Nat) : LaneReg → List Byte
  | .u b => natBytes b.toNat 8
  | .a b d => natBytes b.toNat 4 ++ natBytes d.toNat 4
  | .g l => ((List.range g).map fun i => natBytes (l.getD i 0).toNat 4).flatten

def maskBytes (g : Nat) : Nat := 8 * ((g + 63) / 64)

/-- The header word of a record: FIRST, NM1, CLASS and G. -/
def recordHeader (first n cls g : Nat) : List Byte := natBytes (first + (n - 1) * 2 ^ 8 + cls * 2 ^ 16 + g * 2 ^ 32) 8

def tagWords (rs : List LaneReg) : List Byte :=
  let ws := (rs.length + 31) / 32
  natBytes ((rs.zipIdx.map fun x => x.1.tag * 2 ^ (2 * x.2)).foldl (· + ·) 0) (8 * ws)

/-- The record of `n` registers from `first` of a class; scalars come from `sc` (R309, R222). -/
def saveRecord (r : Regs) (g : Nat) (sc : Vector Word 64) (first n cls : Nat) : List Byte :=
  let is := (List.range n).map (first + ·)
  recordHeader first n cls g ++
    match cls with
    | 0 =>
      let rs := is.map fun i => (r.v.toList.getD i (.u 0))
      tagWords rs ++ (rs.map (LaneReg.body g)).flatten
    | 1 => (is.map fun i => natBytes (r.m.toList.getD i 0).toNat (maskBytes g)).flatten
    | 2 => (is.map fun i => let q := r.q.toList.getD i {}; natBytes q.val.toNat 8 ++ natBytes q.seq.toNat 8).flatten
    | _ => (is.map fun i => natBytes (sc.toList.getD i 0).toNat 8).flatten

/-- Whether a register range is one that `savev` may name (R222). -/
def saveRangeOk (budget first n cls : Nat) : Bool :=
  match cls with
  | 0 => decide (first + n ≤ budget)
  | 1 => decide (1 ≤ first) && decide (first + n ≤ 16)
  | 2 => decide (first + n ≤ 4)
  | _ => decide (1 ≤ first) && decide (first + n ≤ 64)

/-- The bytes of a forced save's records, from offset 0x400 (R225). -/
def forcedRecords (a : Agent) : List Byte :=
  saveRecord a.regs a.gsize a.regs.s 1 63 3 ++ saveRecord a.regs a.gsize a.regs.s 1 15 1
    ++ saveRecord a.regs a.gsize a.regs.s 0 4 2 ++ saveRecord a.regs a.gsize a.regs.s 0 a.budget 0

/-- SAVESIZE(G, n) (R225). -/
def saveSize (g n : Nat) : Nat := 1624 + 15 * maskBytes g + 8 * ((n + 31) / 32) + 4 * g * n

/-- GSTAT (04 Table 4.7). -/
def Agent.gstat (a : Agent) : Nat := (if a.gchg then 1 else 0) + (if a.clamped then 2 else 0)

/-- The group record (07 Table 7.16). -/
def groupRecord (a : Agent) (resume : Word) (endOff : Nat) (forced : Bool) : List Byte :=
  natBytes resume.toNat 8 ++ natBytes (endOff + if forced then 2 ^ 32 else 0) 8
    ++ natBytes (a.rmode.toNat + a.flush.toNat * 2 ^ 8 + a.fflags.toNat * 2 ^ 16 + a.gstat * 2 ^ 24) 8
    ++ natBytes a.shadow.length 8 ++ natBytes a.sync.lastBatch 8 ++ natBytes a.sync.wgbarK 8
    ++ (a.sync.hbarK.toList.map fun k => natBytes k 4).flatten ++ List.replicate 192 0
    ++ ((List.range 64).map fun i => natBytes (a.shadow.getD i 0).toNat 8).flatten ++ List.replicate 256 0

/-- The low bits of RESUMEPC record the level, U or S (R310). -/
def resumeWord (pc : Word) (l : Level) : Word := (pc &&& ~~~ 3) ||| (if l = .u then 0 else 1)

/-! ## The save region (R311) -/

def saveBase (f : SaveFields) : Nat := (f.nslot + 32767) / 32768 * 4096
def groupSlot (f : SaveFields) (j : Nat) : Nat := f.ipa + saveBase f + j * f.slotSz
def controlSlot (f : SaveFields) (j : Nat) : Nat := f.ipa + saveBase f + (f.nslot + j) * f.slotSz

/-- The bytes of a slot that are its save area. -/
def areaSize (f : SaveFields) : Nat := f.slotSz - 8192

/-- A range of IPAs through stage 2 for the save paths, page by page (R311). -/
def saveRange (enc : BitVec 16) (ipa n : Nat) (k : Kind) : X (List (Nat × Nat)) :=
  (pieces (BitVec.ofNat 64 ipa) n).mapM fun q => do
    let r ← stage2 enc q.1.toNat q.1.toNat k
    let s ← get
    if !ownerAdmits s { enc, save := true } r.1 k then X.trap cOwner q.1
    pure (s.redirect r.1, q.2)

/-- The context engine and `savev` write a save slot. Every piece translates before any byte is written. -/
def saveWrite (enc : BitVec 16) (die ipa : Nat) (bs : List Byte) : X Unit := do
  let ps ← saveRange enc ipa bs.length .w
  let _ ← ps.foldlM (fun (off : Nat) (p : Nat × Nat) => do
    X.update fun s => { s with mem := s.mem.hwWrite die (cellsAt p.1 ((bs.drop off).take p.2)) }
    pure (off + p.2)) 0
  pure ()

def saveRead (enc : BitVec 16) (ipa n : Nat) : X (List Byte) := do
  let ps ← saveRange enc ipa n .r
  let s ← get
  match ps.findSome? fun p => (List.range (p.2 / 256 + 2)).findSome? fun i => badData s (p.1 + min (256 * i) (p.2 - 1)) with
  | some c => X.trapN c ipa
  | none => pure (ps.map fun p => s.mem.homeBytes p.1 p.2).flatten

/-- The save fields at their sampling point, on a die that has acquired what clock `c` names; none when they are not valid
(R293, R312). -/
def sampleFields (enc : BitVec 16) (die : Nat) (c : Clock) : X (Option SaveFields) := do
  let ipa ← svcRead enc die 0x50 8 c
  let sz ← svcRead enc die 0x58 4 c
  let n ← svcRead enc die 0x5C 4 c
  pure (if ipa ≠ 0 ∧ ipa % 0x40000 = 0 ∧ sz % 4096 = 0 ∧ 12288 ≤ sz ∧ 1 ≤ n ∧ n ≤ 65536 then
    some { ipa, slotSz := sz, nslot := n } else none)

/-! ## Exit records (R299, Table 11.9) -/

def exitBytes (enc : BitVec 16) (cause : Cause) (id s2ipa kind : Nat) : List Byte :=
  natBytes (enc.toNat + cause.toNat * 2 ^ 16 + id % 2 ^ 32 * 2 ^ 32) 8 ++ natBytes s2ipa 8 ++ natBytes kind 8 ++ natBytes 0 8

/-- Whether the memory at an address is the host agent's, outside device register space (R288). -/
def State.hostFrame (s : State) (pa : Nat) : Bool :=
  decide (regionOf pa ≠ .device) && ownerAdmits s { host := true, die := 4 } pa .r && ownerAdmits s { host := true, die := 4 } pa .w

/-- Where the next exit record of a partition stands: record EXITID at entry (EXITID − 1) mod EXITN. -/
def State.exitAddr (s : State) (part : Nat) : Nat :=
  let p := s.layout.entryAt part none
  let n := if p.exitN = 0 then 65536 else p.exitN
  p.exitBase * 4096 + 32 * ((s.part part).exitId % n)

/-- Ridgepole writes an exit record into the partition's exit ring, which lies in host-owned memory (log 31). -/
def State.exitRecord (s : State) (part : Nat) (enc : BitVec 16) (cause : Cause) (s2ipa kind : Nat) (what : ExitWhat) : State :=
  let id := (s.part part).exitId + 1
  let addr := s.exitAddr part
  let mem := if s.hostFrame addr then s.mem.hwWrite 4 (cellsAt (s.redirect addr) (exitBytes enc cause id s2ipa kind)) else s.mem
  { s.onPart part fun x => { x with exitId := id } with mem, exits := s.exits ++ [{ part, exitId := id, addr, what }] }

/-- Whether the DONE byte of an exit record reads 1. -/
def State.exitDone (s : State) (x : ExitRec) : Bool :=
  s.hostFrame x.addr && (badData s (s.redirect x.addr)).isNone && s.mem.homeByte (s.redirect (x.addr + 0x18)) == 1

/-! ## The forced save (R225, R308, R310, R317) -/

/-- A save routine in progress is abandoned: the group stands again at the point where it was interrupted, with the
scalars of its snapshot (R310; log 11). -/
def Agent.dropRoutine (a : Agent) : Agent :=
  if a.trap.inSave then
    { a with
      regs := { a.regs with s := a.snapshot.getD a.regs.s }
      snapshot := none
      pc := a.trap.spc
      level := a.trap.level
      trap := { a.trap with inSave := false, used := 0 } }
  else a

/-- The bytes that a forced save writes into a slot: the group record and its records (R225); those of a control thread
hold its scalars alone (R311). The context tail has no layout that software could read (log 12). -/
def forcedBytes (a : Agent) : List Byte :=
  let recs := if a.kind = .control then saveRecord a.regs a.gsize a.regs.s 1 63 3 else forcedRecords a
  groupRecord a (resumeWord a.pc a.level) (0x400 + recs.length) true ++ recs

/-- The wait that a save leaves: the waiting instruction executes again (R90), and an exit still waits for its DONE. -/
def Status.leaves : Status → Option Wait
  | .waiting w => some w
  | .exited => some .exitDone
  | _ => none

/-- The save is blocked: the agent's state stays on its core (R317, R312). -/
def State.blockSave (s : State) (id : Nat) (s2ipa : Nat) : State :=
  match s.agent? id with
  | none => s
  | some a =>
    let s := s.onAgent id fun a => { a.dropRoutine with status := .blocked (Status.leaves a.status) }
    let s := s.onPart a.part fun p => { p with saveBlocked := true }
    s.exitRecord a.part a.enc cSaveBlocked s2ipa 1 (.blockedSave id)

/-- Where the agent's state is saved, with the fields sampled if this is the first save (R311, R312). -/
def saveSlotOf (a : Agent) : X (Option Nat) := do
  let s ← get
  match s.enclave? a.enc with
  | none => pure none
  | some e =>
    match e.save with
    | some f => pure (some (if a.kind = .control then controlSlot f a.slotIdx else a.trap.saveBase.toNat))
    | none => do
      let f ← sampleFields a.enc a.die .zero
      match f with
      | none => pure none
      | some f => do
        X.update fun s => s.onEnclave a.enc fun e => { e with save := some f }
        pure (some (if a.kind = .control then controlSlot f a.slotIdx else a.trap.saveBase.toNat))

/-- The registers of a group at launch, with scalars at zero (R23, R27, R28, R315). -/
def Regs.launch : Regs := {}

/-- A group that is saved while its restore routine runs: what that has restored is discarded, its save area stands, and its resume
starts again (R315; log 50). -/
def Agent.leaveRestore (a : Agent) : Agent :=
  { a with
    status := .saved false none, regs := .launch, lane := {}, pendingScalars := none
    trap := { a.trap with inRestore := false, used := 0 } }

/-- The context engine's forced save of an agent. The agent keeps what the context tail keeps: how it stood, so that
its resume is whole; a wait is left behind, since the instruction executes again (R90). -/
def State.forcedSave (s : State) (id : Nat) : State :=
  match s.agent? id with
  | none => s
  | some a0 =>
    if a0.trap.inRestore then s.onAgent id (·.leaveRestore)
    else
    let a := a0.dropRoutine
    let s := s.onAgent id fun _ => a
    let r := X.run' (do
      match ← saveSlotOf a with
      | none => pure false
      | some ipa => do
        saveWrite a.enc a.die ipa (forcedBytes a)
        pure true) s
    match r.1 with
    | .ok true => r.2.onAgent id fun a =>
        { a with
          status := .saved true (Status.leaves a.status)
          savedWidth := a.width
          trap := { a.trap with forced := true } }
    | .ok false => s.blockSave id 0
    | .error (.trap _ _ ipa) => (s.keepClaims r.2).blockSave id ipa
    | .error _ => s.blockSave id 0

end Sys2Proof.Machine
end

