-- ==== Sys2Proof/Machine/Ops.lean ====
section
/-!
DEFINITION. The shared operations of instructions: taking a trap and returning from one (11 R294 to R299), waiting (04
R90), loads, stores, acquires, releases and atomics of the acting agent (06 R158 to R166).
-/
namespace Sys2Proof.Machine

/-! ## Taking a trap -/

/-- Trap entry for a scalar trap (R296): XCAUSE, XVAL, XSPC and XPRIV are written, the level becomes S, or H for an H
agent, and execution goes on at XVEC. -/
def State.enterTrap (s : State) (cause : Cause) (val : Word) : State :=
  s.onCur fun a =>
    { a with
      trap := { a.trap with cause, causeLane := false, val, spc := a.pc, hm := true, level := a.level }
      level := if a.isH then .h else .s
      pc := a.trap.vec }

/-- The acting agent exits to the host agent with a cause (R297, R299). -/
def State.exitAgent (s : State) (cause : Cause) : State :=
  let a := s.cur
  (s.onCur fun a => { a with status := .exited }).exitRecord a.part a.enc cause a.trap.s2ipa 0 (.agent a.id)

/-- A trap or an overrun in a restore routine: what it has restored is discarded, and the group exits with PREEMPT; its
save area stands, and the resume will start again (R315). -/
def State.restoreFails (s : State) : State :=
  let a := s.cur
  (s.onCur fun a =>
    { a with
      regs := .launch
      pendingScalars := none
      trap := { a.trap with inRestore := false, used := 0 }
      lane := {}
      status := .saved false (some .exitDone) }).exitRecord a.part a.enc cPreempt a.trap.s2ipa 0 (.agent a.id)

/-- A trap raised by the acting agent, wherever it stands: in a restore routine (R315), in a save routine (R310), in a
handler (R297), or elsewhere (R296). -/
def State.takeTrap (s : State) (cause : Cause) (val : Word) (ipa : Nat := 0) : State :=
  let s := if cause = cStage2 then s.onCur fun a => { a with trap := { a.trap with s2ipa := ipa } } else s
  let a := s.cur
  if a.trap.inRestore then s.restoreFails
  else if a.trap.inSave then s.forcedSave a.id
  else if a.trap.hm then
    if a.isH then s.onCur fun a => { a with status := .stopped }
    else s.exitAgent cause
  else s.enterTrap cause val

/-- The return of `sret` and `fret` (R298): HM and FV clear, the level comes from XPRIV.LEVEL, the held lane work
resumes, and the scalar stream goes on at XSPC. In a restore routine the pending scalar copy replaces the scalar file
(R315). -/
def Agent.trapReturn (a : Agent) : Agent :=
  let lane := match a.lane.held with
    | some h => { a.lane with queue := h.queue ++ a.lane.queue, active := h.active, held := none }
    | none => a.lane
  let regs := if a.trap.inRestore then
      match a.pendingScalars with | some v => { a.regs with s := v } | none => a.regs
    else a.regs
  { a with
    regs
    lane
    pendingScalars := none
    trap := { a.trap with hm := false, fv := false, inRestore := false, used := 0 }
    level := a.trap.level
    pc := a.trap.spc }

/-! ## How an instruction ends -/

/-- A group whose instruction awaits a fill has its workgroup swapped out (R302, R261). -/
def State.beginSwap (s : State) (w : Nat) : State :=
  s.onWg w fun g => if g.state = .resident then { g with state := .swapping } else g

/-- The acting agent waits; the instruction has not executed (R90). -/
def State.waitFor (s : State) (w : Wait) : State := s.onCur fun a => { a with status := .waiting w }

/-- The acting agent waits for a fill, which `va` brought it to; the workgroup of a group is swapped out (R302). -/
def State.awaitFill (s : State) (f : Nat) (va : Word) : State :=
  let join := fun (x : Fill) => if x.id = f then { x with waiters := x.waiters ++ [(s.cur.id, va)] } else x
  let s := { s with fills := s.fills.map join }.waitFor (.fill f)
  if s.cur.kind = .group then s.beginSwap s.cur.wg else s

/-- The state after effects that stopped: `s` is the state before them, `t` the state they reached. A trap leaves every
effect of the instruction undone (R9), but for what a walk has claimed or locked. -/
def State.stopped (s : State) (t : State) : Stop → State
  | .trap c v ipa => (s.keepClaims t).takeTrap c v ipa
  | .fill f va => (s.keepWalk t).awaitFill f va
  | .wait w => s.waitFor w

/-- The state after effects that ended in `r`. -/
def State.after (s : State) (r : EStateM.Result Stop State Unit) : State :=
  match r with
  | .ok _ t => t
  | .error e t => s.stopped t e

abbrev Out := Host.Outcome State Fault Refusal

/-- The outcome of an instruction given by its effects. -/
def runX (x : X Unit) (s : State) : Out := .next (s.after (x s))

/-- The outcome of an instruction that raises a trap. -/
def trapOut (s : State) (cause : Cause) (val : Word := 0) : Out := .next (s.takeTrap cause val)

/-- PRIVILEGE below level `l` (R35, R91). -/
def Level.num : Level → Nat | .u => 0 | .s => 1 | .h => 2
def needLevel (l : Level) (s : State) (k : Out) : Out := if s.cur.level.num < l.num then trapOut s cPrivilege else k

/-! ## The acting agent inside effects -/

def X.cur : X Agent := do let s ← get; pure s.cur
def X.onCur (f : Agent → Agent) : X Unit := modify fun s => s.onCur f
def X.sreg (r : BitVec 6) : X Word := do let a ← X.cur; pure (a.rs r)
/-- Writes sD and goes on at the next instruction. -/
def X.finish (d : BitVec 6) (x : Word) : X Unit := modify fun s => s.write d x
def X.done : X Unit := modify fun s => s.advance
def X.waitOn (w : Wait) : X Unit := throw (.wait w)

/-- The register writes that have not returned, oldest first. -/
def LaneStream.writes (l : LaneStream) : List PendWrite := (l.pend.map (·.writes)).flatten

/-- Whether every lane instruction handed over has completed (R111). -/
def Agent.laneDrained (a : Agent) : Bool :=
  a.lane.queue.isEmpty && a.lane.active.isNone && a.lane.pend.isEmpty

/-- Waits as `lpark` does (R111, R159). -/
def X.drainLane : X Unit := do
  let a ← X.cur
  if !a.laneDrained then X.waitOn .drain

/-! ## Loads and stores (R158, R161) -/

def sext (n : Nat) (x : Nat) : Word := (BitVec.ofNat n x).signExtend 64

/-- Natural alignment, or MISALIGN (R158). -/
def X.aligned (va : Word) (n : Nat) : X Unit := X.check (va.toNat % n == 0) cMisalign va

/-- A plain load of the acting agent. -/
def loadVa (va : Word) (n : Nat) : X Nat := do
  X.aligned va n
  let a ← X.cur
  let p ← translateRange a.ctx va .r n
  match p with
  | .dev pa => do
    let bs ← devRead pa va n
    pure (bytesNat bs)
  | _ => do
    let bs ← readPlace a.ctx p va n
    pure (bytesNat bs)

/-- A plain store of the acting agent. -/
def storeVa (va : Word) (x n : Nat) : X Unit := do
  X.aligned va n
  let a ← X.cur
  let p ← translateRange a.ctx va .w n
  match p with
  | .dev pa => devWriteX pa va (natBytes x n)
  | _ => writePlace a.ctx p va (natBytes x n)

/-- A plain read of an object that may cross pages, for parameter blocks and records (R168, R185, R209). -/
def loadBlock (va : Word) (n : Nat) : X (List Byte) := do
  let a ← X.cur
  let s ← get
  let ps ← (s.spans va n).mapM fun q => do
    let p ← translateRange a.ctx q.1 .r q.2
    match p with
    | .dev pa => devRead pa q.1 q.2
    | _ => readPlace a.ctx p q.1 q.2
  pure ps.flatten

def storeBlock (va : Word) (bs : List Byte) : X Unit := do
  let a ← X.cur
  writeVa a.ctx va bs

/-! ## Release and acquire of the acting agent (R159, R163, R170) -/

/-- The release of the acting agent at a scope (R159): waits for its lane stream, then Table 9.1. -/
def X.release (scope : Nat) : X Unit := do
  X.drainLane
  X.update fun s => s.release s.cur.id scope

def X.acquire (scope : Nat) (c : Clock) : X Unit := X.update fun s => s.acquire s.cur.die scope c

/-- What the acting agent did before to any of `ps` comes first: its copies land, and its writes enter the order of the
die. -/
def State.drainTouching (s : State) (ps : List Nat) : State := (s.landFor s.cur.id none ps).drainBytes s.cur.id ps

/-- The acting agent has read a home-origin value that carries clock `c` (R253). -/
def State.seesClock (s : State) (c : Clock) : State := s.onCur fun a => { a with homeSeen := a.homeSeen.join c }

/-- `ldacq` at a place: at home and pulling at scope 5 or wider, else a plain read (R163). -/
def acquireLoad (p : Place) (va : Word) (n scope : Nat) : X Nat := do
  let a ← X.cur
  match p with
  | .mem pa smr _ =>
    if 5 ≤ scope then do
      let s ← get
      let s := s.drainTouching ((List.range n).map (pa + ·))
      let r := s.mem.homeRead a.die pa n smr
      let s := { s with mem := r.2.2 }
      match badData s pa with
      | some k => X.trap k va
      | none => do
        set ((s.seesClock (r.2.2.originClock ((List.range n).map (pa + ·)))).acquire a.die scope r.2.1)
        pure (bytesNat r.1)
    else do
      let bs ← readPlace a.ctx p va n
      pure (bytesNat bs)
  | .dev pa => do
    let bs ← devRead pa va n
    pure (bytesNat bs)
  | .scr .. => do
    let bs ← readPlace a.ctx p va n
    pure (bytesNat bs)

/-- `strel` at a place: at home with the clock of the die at scope 5 or wider, else a plain write (R163). -/
def releaseStore (p : Place) (va : Word) (bs : List Byte) (scope : Nat) : X Unit := do
  let a ← X.cur
  match p with
  | .mem pa _ _ =>
    if 5 ≤ scope then do
      let s ← get
      if a.isH && s.lockedWrite pa bs then X.trap cPermission va
      let s := (s.markDirty pa).drainTouching ((List.range bs.length).map (pa + ·))
      let m := s.mem.settle a.die ((List.range bs.length).map (pa + ·))
      set { s with mem := m.homeWrite a.id a.die (cellsAt pa bs) (m.die a.die).clock }
    else writePlace a.ctx p va bs
  | .dev pa => devWriteX pa va bs
  | .scr .. => writePlace a.ctx p va bs

/-! ## Atomics (R164 to R166) -/

/-- Where an atomic may execute (Table 6.5): `pcie` tells the operations that AP 10 admits, `k` the kind of its translation. -/
def atomicPlaceFor (c : Ctx) (va : Word) (n : Nat) (pcie : Bool) (k : Kind := .a) : X Place := do
  let p ← translateRange c va k n
  match p with
  | .dev _ => X.trap cPermission va
  | .scr .. => pure p
  | .mem pa _ ap => do
    let s ← get
    match ap.toNat with
    | 0 => pure p
    | 1 => if s.homeDie pa = c.die then pure p else X.trap cPermission va
    | 2 => if pcie then pure p else X.trap cPermission va
    | _ => X.trap cPermission va

def atomicPlace (va : Word) (n : Nat) (pcie : Bool) : X Place := do
  let a ← X.cur
  atomicPlaceFor a.ctx va n pcie

/-- What an atomic event does before it executes: what its agent and its die wrote there before stands at home; on an SMR
page the dirty bytes of the issuing die's copies of the lines are written back and the copies dropped, with all that the agent
wrote to those lines (R255). -/
def State.beforeAtomic (s : State) (p : Place) (n : Nat) : State :=
  match p with
  | .mem pa smr _ =>
    let ps := (List.range n).map (pa + ·)
    let s := s.drainTouching (if smr then lineBytes pa else ps)
    { s with mem := s.mem.beforeAtomic s.cur.die ps smr }
  | .scr w o => s.landFor s.cur.id (some w) ((List.range n).map (o + ·))
  | .dev _ => s

/-- The read half of an atomic event at its place, with the clock of the value. -/
def atomicRead (p : Place) (va : Word) (n : Nat) : X (Nat × Clock) := do
  let s ← get
  let t := s.beforeAtomic p n
  match p with
  | .mem pa smr _ =>
    let r := t.mem.homeRead t.cur.die pa n smr
    let t := { t with mem := r.2.2 }
    match badData t pa with
    | some k => X.trap k va
    | none => do
      set (t.seesClock (r.2.2.originClock ((List.range n).map (pa + ·))))
      pure (bytesNat r.1, r.2.1)
  | _ => do
    set t
    let bs ← readPlace t.cur.ctx p va n
    pure (bytesNat bs, .zero)

/-- The write half of an atomic event: the value carries the clock of the one it replaces, and that of a release: the die's,
or what a release fence has named before (R250). -/
def atomicWrite (p : Place) (va : Word) (x n : Nat) (c : Clock) : X Unit := do
  let a ← X.cur
  match p with
  | .mem pa _ _ => do
    let s ← get
    if a.isH && s.lockedWrite pa (natBytes x n) then X.trap cPermission va
    let s := s.markDirty pa
    set { s with mem := s.mem.homeWrite a.id a.die (natCells pa x n) c }
  | _ => writePlace a.ctx p va (natBytes x n)

/-- One atomic event with its ordering (R165): returns the old value. -/
def atomicRmw (p : Place) (va : Word) (n : Nat) (acq rel : Bool) (scope : Nat) (f : Nat → Nat) : X Nat := do
  let old ← atomicRead p va n
  let s ← get
  let c := old.2.join (s.releaseClock (if rel then scope else 0))
  atomicWrite p va (f old.1) n c
  if acq then X.acquire scope old.2
  pure old.1

/-- In a save or restore routine, where some instructions raise ILLEGAL (R309). -/
def Agent.inRoutine (a : Agent) : Bool := a.trap.inSave || a.trap.inRestore

end Sys2Proof.Machine
end

