-- ==== Sys2Proof/Machine/Fetch.lean ====
section
/-!
DEFINITION. Fetching an instruction: the code views of an object, plain or compressed (08 R227 to R231), reads of kind X,
and ILLEGAL with the word that raised it (02 R53 to R55).
-/
namespace Sys2Proof.Machine

/-- The word of an instruction that raises ILLEGAL or needs one, as XVAL receives it (R54). -/
def wordOf (i : Instr) : Word := match scalarCode i with | some w => w.setWidth 64 | none => 0

/-- ILLEGAL of a scalar instruction (R54). -/
def illegal (i : Instr) (s : State) : Out := trapOut s cIllegal (wordOf i)

/-! ## Reads of kind X -/

/-- An ordinary read of kind X; device registers take plain loads and stores only (R278). -/
def readX (c : Ctx) (va : Word) (n : Nat) : X (List Byte) := do
  let s ← get
  let ps ← (s.spans va n).mapM fun q => do
    let p ← translateRange c q.1 .x q.2
    match p with
    | .dev _ => X.trap cPermission q.1
    | _ => readPlace c p q.1 q.2
  pure ps.flatten

def readXNat (c : Ctx) (va : Word) (n : Nat) : X Nat := do
  let bs ← readX c va n
  pure (bytesNat bs)

/-! ## Compressed code lines (R227 to R230) -/

/-- A line as a list of words; a malformed one is all ones. -/
def badLine (n : Nat) : List (BitVec 32) := List.replicate n 0xFFFFFFFF

/-- The words of bytes, four to a word (R3). -/
def wordsOf : List Byte → List (BitVec 32)
  | b0 :: b1 :: b2 :: b3 :: l => wordOfBytes b0 b1 b2 b3 :: wordsOf l
  | _ => []

/-- Expands a DICT line of `n` words: `mask` tells the references, `refs` are their dictionary words in order, and
`lits` the literals. -/
def dictLine (mask : Nat) : Nat → Nat → List (BitVec 32) → List (BitVec 32) → List (BitVec 32)
  | 0, _, _, _ => []
  | n + 1, j, refs, lits =>
    if mask.testBit j then refs.headD 0 :: dictLine mask n (j + 1) refs.tail lits
    else lits.headD 0 :: dictLine mask n (j + 1) refs lits.tail

/-- The dictionary words of a DICT line, read one by one. -/
def dictWords (read : Nat → Nat → X (List Byte)) (v : CodeView) : List Nat → X (List (BitVec 32))
  | [] => pure []
  | i :: is => do
    let w ← read (v.dictOff + 4 * i) 4
    let l ← dictWords read v is
    pure (BitVec.ofNat 32 (bytesNat w) :: l)

/-- Expands one code line: `k` is its entry in the line address table, `n` its words, `m` the words of its mask; `read` reads
bytes of the object by offset. DESIGN CHOICE: an entry whose OFF is no multiple of 4, which Table 8.2 rules out, is malformed, though
R230 does not list it (log 103). -/
def expandLine (read : Nat → Nat → X (List Byte)) (v : CodeView) (k n m : Nat) : X (List (BitVec 32)) := do
  if v.nlat ≤ k then pure (badLine n)
  else do
    let eb ← read (v.latOff + 8 * k) 8
    let e := bytesNat eb
    let mode := fieldN e 44 2
    let clen := fieldN e 32 10
    let off := fieldN e 0 32
    if fieldN e 46 18 ≠ 0 ∨ fieldN e 42 2 ≠ 0 ∨ clen % 4 ≠ 0 ∨ off % 4 ≠ 0 ∨ v.cstLen < off + clen ∨ (mode = 1 ∧ clen < 4 * m) then
      pure (badLine n)
    else if mode = 0 then
      if clen ≠ 4 * n then pure (badLine n)
      else do
        let bs ← read (v.cstOff + off) clen
        pure (wordsOf bs)
    else if mode = 2 then pure (if clen = 0 then List.replicate n 0 else badLine n)
    else if mode = 1 then do
      let bs ← read (v.cstOff + off) clen
      let ws := wordsOf bs
      let mask := (ws.getD 0 0).toNat + (if m = 2 then (ws.getD 1 0).toNat * 2 ^ 32 else 0)
      let cnt := ((List.range n).filter mask.testBit).length
      let half := (cnt + 1) / 2
      let is := (List.range cnt).map fun j =>
        let w := (ws.getD (m + j / 2) 0).toNat
        if j % 2 = 0 then w % 65536 else w / 65536
      if clen ≠ 4 * (m + half + (n - cnt)) ∨ mask / 2 ^ n ≠ 0 ∨ is.any (fun i => decide (v.ndict ≤ i)) then pure (badLine n)
      else do
        let rs ← dictWords read v is
        pure (dictLine mask n 0 rs (ws.drop (m + half)))
    else pure (badLine n)

/-- Faults of the reads behind a view address are faults of that address, and a fill that they await is awaited for it
(R229). -/
def asFetch {α : Type} (va : Word) (x : X α) : X α := fun s =>
  match x s with
  | .error (.trap c _ ipa) t => .error (.trap c va ipa) t
  | .error (.fill k _) t => .error (.fill k va) t
  | r => r

/-- The view that a header describes; `snap` is what a compressed object held at its `kick` (R227, R231). -/
def viewOf (h : List Byte) (code : Nat) (snap : List (Nat × List Byte)) : CodeView :=
  let f := fun o lo n => fieldN (wordAt h o) lo n
  { code, snap
    span := wordAt h 0x68, textOff := f 0x18 0 32, textLen := f 0x18 32 32, laneOff := f 0x20 0 32, laneN := f 0x20 32 20
    cmp := f 0 40 1 == 1, latOff := f 0x40 0 32, nlat := f 0x40 32 32, cstOff := f 0x48 0 32, cstLen := f 0x48 32 32
    dictOff := f 0x50 0 32, ndict := f 0x50 32 17 }

/-- The parts of a compressed object that its lines are expanded from, with its header: offset and length. -/
def CodeView.sources (v : CodeView) : List (Nat × Nat) := [(0, 256), (v.latOff, 8 * v.nlat), (v.cstOff, v.cstLen), (v.dictOff, 4 * v.ndict)]

/-- What can be read of a part of an object: offset and bytes. -/
def State.peekPart (s : State) (c : Ctx) (code : Nat) (r : Nat × Nat) : List (Nat × List Byte) :=
  (s.spans (bv64 (code + r.1)) r.2).filterMap fun q =>
    match readX c q.1 q.2 s with
    | .ok b _ => some (q.1.toNat - code, b)
    | .error .. => none

/-- What a compressed object holds, as far as it can be read; nothing is kept of a plain one, whose fetches read it (R227, R231). -/
def State.objectSnap (s : State) (c : Ctx) (code : Nat) : List (Nat × List Byte) :=
  match readX c (bv64 code) 256 s with
  | .ok h _ => if (viewOf h code []).cmp then ((viewOf h code []).sources.map (s.peekPart c code)).flatten else []
  | .error .. => []

/-- `n` bytes of an object from offset `o`, of those kept. -/
def snapBytes (l : List (Nat × List Byte)) (o n : Nat) : Option (List Byte) :=
  (List.range n).mapM fun i => (l.find? fun p => decide (p.1 ≤ o + i) && decide (o + i < p.1 + p.2.length)).bind fun p => p.2[o + i - p.1]?

/-- The words of a line whose object has been written under its launch: each is the old one, the new one, or all ones, by an
open choice (R231). -/
def mixWords : List (BitVec 32) → List (BitVec 32) → Nat → List (BitVec 32)
  | x :: xs, y :: ys, d => (if d % 3 = 0 then y else if d % 3 = 1 then x else 0xFFFFFFFF) :: mixWords xs ys (d / 3)
  | _, _, _ => []

/-- A line of the object as it stood at the `kick` of its launch; what was not kept is read now. -/
def oldLine (c : Ctx) (v : CodeView) (k n m : Nat) : X (List (BitVec 32)) :=
  let v0 := match snapBytes v.snap 0 256 with | some h => viewOf h v.code [] | none => v
  expandLine (fun o n => match snapBytes v.snap o n with | some b => pure b | none => readX c (bv64 (v.code + o)) n) v0 k n m

/-- A line as it is expanded now: from what the object holds, and, where that has changed since the `kick` of its launch, from what
it held then (R231). -/
def freshLine (c : Ctx) (v : CodeView) (k n m : Nat) : X (List (BitVec 32)) := do
  let new ← expandLine (fun o n => readX c (bv64 (v.code + o)) n) v k n m
  if v.snap.isEmpty then pure new
  else do
    let s ← get
    match oldLine c v k n m s with
    | .error .. => pure new
    | .ok old t =>
      if old = new then pure new
      else do
        let d := t.draw
        set d.2
        pure (mixWords old new d.1)

/-- The launch of an agent. -/
def State.launchOf (s : State) (a : Agent) : Nat := match s.wg? a.wg with | some w => w.launch | none => 0

/-- The code line that begins at view address `va`: as the L1 of the agent's core holds it, or expanded into it now (R229,
R231). -/
def codeLine (c : Ctx) (a : Agent) (v : CodeView) (va k n m : Nat) : X (List (BitVec 32)) := do
  let s ← get
  let l := s.launchOf a
  match s.codeLines.find? fun x => x.die == a.die && x.core == a.core && x.launch == l && x.addr == va with
  | some x => pure x.words
  | none => do
    let ws ← freshLine c v k n m
    X.update fun s => { s with codeLines := s.codeLines ++ [{ die := a.die, core := a.core, launch := l, addr := va, words := ws }] }
    pure ws

/-- One word as a scalar fetch or `jtab` reads it (R227): inside the span of the group's object, its text view and zero
elsewhere; outside, an ordinary read of kind X. -/
def fetchWord (va : Word) : X (BitVec 32) := do
  let a ← X.cur
  let plain : X (BitVec 32) := do
    let w ← readXNat a.ctx va 4
    pure (BitVec.ofNat 32 w)
  match a.code with
  | none => plain
  | some v =>
    let p := va.toNat
    if p < v.code ∨ v.code + v.span ≤ p then plain
    else if p < v.code + v.textOff ∨ v.code + v.textOff + v.textLen ≤ p then pure 0
    else if !v.cmp then plain
    else asFetch va do
      let o := p - (v.code + v.textOff)
      let l ← codeLine a.ctx a v (v.code + v.textOff + o / 128 * 128) (o / 128) 32 1
      pure (l.getD (o % 128 / 4) 0)

/-- The scalar instruction at the program counter, or the word that names none (R53). -/
def fetchInstr : X (Except (BitVec 96) Instr) := do
  let a ← X.cur
  X.aligned a.pc 4
  let w ← fetchWord a.pc
  let u ← if needsSecondWord w then fetchWord (a.pc + 4) else pure 0
  match decodeScalar w u with
  | .ok i => pure (.ok i)
  | .error _ => pure (.error (w.setWidth 96))

/-- The context of a lane block: the level of its `lrun`. -/
def Agent.laneCtx (a : Agent) : Ctx := { a.ctx with level := match a.lane.active with | some b => b.level | none => a.level }

/-- The 96 bits of lane instruction `k` of the group's object; zero at or above LANEN (R227). -/
def fetchLaneBits (k : Nat) : X (BitVec 96) := do
  let a ← X.cur
  match a.code with
  | none => pure 0
  | some v =>
    let va := bv64 (v.code + v.laneOff + 12 * k)
    if v.laneN ≤ k then pure 0
    else if !v.cmp then do
      let x ← asFetch va (readXNat a.laneCtx va 12)
      pure (BitVec.ofNat 96 x)
    else asFetch va do
      let l ← codeLine a.laneCtx a v (v.code + v.laneOff + k / 16 * 192) ((v.textLen + 127) / 128 + k / 16) 48 2
      let w := fun j => l.getD (k % 16 * 3 + j) 0
      pure (w 2 ++ w 1 ++ w 0)

/-- Lane instruction `k`, or the bits that name none (R53). -/
def fetchLane (k : Nat) : X (Except (BitVec 96) Instr) := do
  let x ← fetchLaneBits k
  match decodeLane x with
  | .ok i => pure (.ok i)
  | .error _ => pure (.error x)

/-! ## What lies ahead in the lane stream (04 R106, R114) -/

/-- Whether one of the next instructions of a block, up to its end, may be one that `p` names: of a fetch that faults nothing is
known, and after an illegal one the rest is dropped (R54). -/
def State.blockMay (s : State) (p : Instr → Bool) : Nat → Nat → Bool
  | 0, _ => false
  | n + 1, k =>
    match fetchLane k s with
    | .ok (.ok i) _ => p i || (match laneUse i with | some (f, _) => !f.last && s.blockMay p n (k + 1) | none => false)
    | .ok (.error _) _ => false
    | .error _ _ => true

/-- Whether a handed-over instruction that `p` names has not issued yet: of the block in progress, or of one not begun. -/
def State.laneAhead (s : State) (p : Instr → Bool) : Bool :=
  (match s.cur.lane.active with | some b => s.blockMay p (256 - b.issued) b.lidx | none => false)
    || s.cur.lane.queue.any fun b => s.blockMay p 256 b.lidx

/-- Whether a lane instruction whose destination is mK has been handed over and has not completed (R106). No instruction writes
m0 (R27). In a lane-fault handler the work held behind the fault is not waited for: it goes on only after the return (log
16). -/
def State.maskPending (s : State) (k : BitVec 4) : Bool :=
  k != 0 && ((s.cur.lane.writes.any fun w => match w with | .mask j _ _ => j == k.toNat | _ => false)
    || s.laneAhead fun i => laneMaskDest i == some k.toNat)

/-- Whether a reduction that names qN has been handed over and has not completed (R114). In a lane-fault handler the work held
behind the fault does not count (log 16). -/
def State.qPending (s : State) (n : Nat) : Bool :=
  (s.cur.lane.writes.any fun w => match w with | .q j _ => j == n | _ => false) || s.laneAhead fun i => laneQDest i == some n

end Sys2Proof.Machine
end

