-- ==== Sys2Proof/Machine/Alu.lean ====
section
/-!
DEFINITION. Scalar arithmetic, logic, shifts, bitfields, extension, compare, select and constants (spec/04 R92 to R104,
02 R42).
-/
namespace Sys2Proof.Machine

/-! ## Values -/

/-- Bits [127:64] of a product (Table 4.2). -/
def mulHigh (x y : BitVec 128) : Word := (x * y).extractLsb' 64 64

/-- R93. -/
def divSigned (x y : Word) : Word := if y = 0 then BitVec.allOnes 64 else x.sdiv y
def divUnsigned (x y : Word) : Word := if y = 0 then BitVec.allOnes 64 else x / y
def remSigned (x y : Word) : Word := if y = 0 then x else x.srem y
def remUnsigned (x y : Word) : Word := if y = 0 then x else x % y

/-- R98: positions of the highest and lowest one bit, and the count of ones. -/
def leadingZeros (w n : Nat) : Nat := if n = 0 then w else w - 1 - Nat.log2 n
def trailingZeros (w n : Nat) : Nat := ((List.range w).find? n.testBit).getD w
def onesCount (w n : Nat) : Nat := ((List.range w).filter n.testBit).length

/-- The field of `len` bits at `pos` (R99). -/
def fieldOf (x : Word) (pos len : Nat) : Word := (x >>> pos) &&& bv64 (2 ^ len - 1)
def fieldSigned (x : Word) (pos len : Nat) : Word :=
  let f := fieldOf x pos len
  if f.getLsbD (len - 1) then f ||| ~~~ bv64 (2 ^ len - 1) else f

/-- R100. -/
def fieldInsert (old x : Word) (pos len : Nat) : Word :=
  let m := bv64 (2 ^ len - 1) <<< pos
  (old &&& ~~~ m) ||| ((x <<< pos) &&& m)

/-- The conditions of R45. -/
def condHolds (c : Cond) (x y : Word) : Bool :=
  match c with
  | .eq => x == y
  | .ne => x != y
  | .lt => x.slt y
  | .ge => !x.slt y
  | .ltn => x.ult y
  | .gen => !x.ult y

/-- Whether an immediate is zero-extended under a condition (R102, R105). -/
def condZeroExt : Cond → Bool | .ltn | .gen => true | _ => false
def condImm {n : Nat} (c : Cond) (i : BitVec n) : Word := if condZeroExt c then i.setWidth 64 else i.signExtend 64

/-! ## Shapes of instructions -/

/-- Three-register form: sD receives `f sA sB`. -/
def alu (f : Word → Word → Word) (d a b : BitVec 6) (s : State) : Out := .next (s.write d (f (s.cur.rs a) (s.cur.rs b)))
/-- Unary form. -/
def alu1 (f : Word → Word) (d a : BitVec 6) (s : State) : Out := .next (s.write d (f (s.cur.rs a)))

/-! ## Instructions -/

def execAdd (d a b : BitVec 6) (s : State) : Out := alu (· + ·) d a b s
def execSub (d a b : BitVec 6) (s : State) : Out := alu (· - ·) d a b s
def execMul (d a b : BitVec 6) (s : State) : Out := alu (· * ·) d a b s
def execMulh (d a b : BitVec 6) (s : State) : Out := alu (fun x y => mulHigh (x.signExtend 128) (y.signExtend 128)) d a b s
def execMulhn (d a b : BitVec 6) (s : State) : Out := alu (fun x y => mulHigh (x.setWidth 128) (y.setWidth 128)) d a b s
def execDiv (d a b : BitVec 6) (s : State) : Out := alu divSigned d a b s
def execDivn (d a b : BitVec 6) (s : State) : Out := alu divUnsigned d a b s
def execRem (d a b : BitVec 6) (s : State) : Out := alu remSigned d a b s
def execRemn (d a b : BitVec 6) (s : State) : Out := alu remUnsigned d a b s
def execMin (d a b : BitVec 6) (s : State) : Out := alu (fun x y => if x.slt y then x else y) d a b s
def execMax (d a b : BitVec 6) (s : State) : Out := alu (fun x y => if x.slt y then y else x) d a b s
def execMinn (d a b : BitVec 6) (s : State) : Out := alu (fun x y => if x.ult y then x else y) d a b s
def execMaxn (d a b : BitVec 6) (s : State) : Out := alu (fun x y => if x.ult y then y else x) d a b s
def execAnd (d a b : BitVec 6) (s : State) : Out := alu (· &&& ·) d a b s
def execOr (d a b : BitVec 6) (s : State) : Out := alu (· ||| ·) d a b s
def execXor (d a b : BitVec 6) (s : State) : Out := alu (· ^^^ ·) d a b s
def execShl (d a b : BitVec 6) (s : State) : Out := alu (fun x y => x <<< (y.toNat % 64)) d a b s
def execShr (d a b : BitVec 6) (s : State) : Out := alu (fun x y => x >>> (y.toNat % 64)) d a b s
def execSra (d a b : BitVec 6) (s : State) : Out := alu (fun x y => x.sshiftRight (y.toNat % 64)) d a b s
def execRotl (d a b : BitVec 6) (s : State) : Out := alu (fun x y => x.rotateLeft (y.toNat % 64)) d a b s

/-- R95: −2^63 gives itself. -/
def execAbs (d a : BitVec 6) (s : State) : Out := alu1 (fun x => if x.slt 0 then -x else x) d a s
def execClz (d a : BitVec 6) (s : State) : Out := alu1 (fun x => bv64 (leadingZeros 64 x.toNat)) d a s
def execCtz (d a : BitVec 6) (s : State) : Out := alu1 (fun x => bv64 (trailingZeros 64 x.toNat)) d a s
def execPopc (d a : BitVec 6) (s : State) : Out := alu1 (fun x => bv64 (onesCount 64 x.toNat)) d a s
def execSext8 (d a : BitVec 6) (s : State) : Out := alu1 (fun x => (x.setWidth 8).signExtend 64) d a s
def execSext16 (d a : BitVec 6) (s : State) : Out := alu1 (fun x => (x.setWidth 16).signExtend 64) d a s
def execSext32 (d a : BitVec 6) (s : State) : Out := alu1 (fun x => (x.setWidth 32).signExtend 64) d a s
def execZext8 (d a : BitVec 6) (s : State) : Out := alu1 (fun x => (x.setWidth 8).setWidth 64) d a s
def execZext16 (d a : BitVec 6) (s : State) : Out := alu1 (fun x => (x.setWidth 16).setWidth 64) d a s
def execZext32 (d a : BitVec 6) (s : State) : Out := alu1 (fun x => (x.setWidth 32).setWidth 64) d a s

def execCmp (d a b : BitVec 6) (c : Cond) (s : State) : Out := alu (fun x y => if condHolds c x y then 1 else 0) d a b s
/-- R103: every source is read before sD is written. -/
def execSel (d a b c : BitVec 6) (s : State) : Out :=
  .next (s.write d (if s.cur.rs c ≠ 0 then s.cur.rs a else s.cur.rs b))

def execAddi (d a : BitVec 6) (i : BitVec 13) (s : State) : Out := alu1 (· + i.signExtend 64) d a s
def execAndi (d a : BitVec 6) (i : BitVec 13) (s : State) : Out := alu1 (· &&& i.signExtend 64) d a s
def execOri (d a : BitVec 6) (i : BitVec 13) (s : State) : Out := alu1 (· ||| i.signExtend 64) d a s
def execXori (d a : BitVec 6) (i : BitVec 13) (s : State) : Out := alu1 (· ^^^ i.signExtend 64) d a s
def execShli (d a : BitVec 6) (c : BitVec 6) (s : State) : Out := alu1 (· <<< c.toNat) d a s
def execShri (d a : BitVec 6) (c : BitVec 6) (s : State) : Out := alu1 (· >>> c.toNat) d a s
def execSrai (d a : BitVec 6) (c : BitVec 6) (s : State) : Out := alu1 (·.sshiftRight c.toNat) d a s
def execCmpi (d a : BitVec 6) (c : Cond) (i : BitVec 10) (s : State) : Out :=
  alu1 (fun x => if condHolds c x (condImm c i) then 1 else 0) d a s

/-- R99: `l` is LEN − 1. -/
def execBfx (d a l p : BitVec 6) (s : State) : Out := alu1 (fun x => fieldOf x p.toNat (l.toNat + 1)) d a s
def execBfxS (d a l p : BitVec 6) (s : State) : Out := alu1 (fun x => fieldSigned x p.toNat (l.toNat + 1)) d a s
def execBfi (d a l p : BitVec 6) (s : State) : Out := alu1 (fun x => fieldInsert (s.cur.rs d) x p.toNat (l.toNat + 1)) d a s

/-- R104. -/
def execLui (d : BitVec 6) (i : BitVec 19) (s : State) : Out := .next (s.write d ((i.signExtend 64) <<< 13))
/-- R42. -/
def execLi (d : BitVec 6) (i : BitVec 18) (s : State) : Out := .next (s.write d (i.signExtend 64))
/-- R42: the instruction is two words long. -/
def execLiTwoWord (d : BitVec 6) (u : BitVec 32) (s : State) : Out :=
  .next (s.onCur fun a => (a.setS d (u ++ (a.rs d).setWidth 32)).advance 8)
def execLea (d a : BitVec 6) (i : BitVec 13) (s : State) : Out := alu1 (· + i.signExtend 64) d a s
def execLeaPc (d : BitVec 6) (i : BitVec 19) (s : State) : Out := .next (s.write d (s.cur.pc + i.signExtend 64))

end Sys2Proof.Machine
end

