-- ==== Sys2Proof/Machine/Branch.lean ====
section
/-!
DEFINITION. Branches, calls and returns, jump tables and landing pads (spec/04 R105 to R109).
-/
namespace Sys2Proof.Machine

/-- The byte distance of an offset in 4-byte units (R105, R41). -/
def off4 {n : Nat} (o : BitVec n) : Word := o.signExtend 64 * 4

/-- A direct branch: to PC + 4 × sext(OFF) when taken, else to the next instruction (R105). -/
def branchIf {n : Nat} (c : Bool) (o : BitVec n) (s : State) : Out :=
  .next (if c then s.onCur fun a => a.goto (a.pc + off4 o) else s.advance)

def execBr (o : BitVec 25) (s : State) : Out := branchIf true o s
def execBz (d : BitVec 6) (o : BitVec 19) (s : State) : Out := branchIf (s.cur.rs d == 0) o s
def execBnz (d : BitVec 6) (o : BitVec 19) (s : State) : Out := branchIf (s.cur.rs d != 0) o s

/-- R105: branches on the decremented value, which wraps from zero; a write to s0 is discarded (log 15). -/
def execLoop (d : BitVec 6) (o : BitVec 19) (s : State) : Out :=
  let x := s.cur.rs d - 1
  branchIf (x != 0) o (s.onCur fun a => a.setS d x)

def branchCc (c : Cond) (d a : BitVec 6) (o : BitVec 13) (s : State) : Out :=
  branchIf (condHolds c (s.cur.rs d) (s.cur.rs a)) o s
def execBccEq (d a : BitVec 6) (o : BitVec 13) (s : State) : Out := branchCc .eq d a o s
def execBccNe (d a : BitVec 6) (o : BitVec 13) (s : State) : Out := branchCc .ne d a o s
def execBccLt (d a : BitVec 6) (o : BitVec 13) (s : State) : Out := branchCc .lt d a o s
def execBccGe (d a : BitVec 6) (o : BitVec 13) (s : State) : Out := branchCc .ge d a o s
def execBccLtn (d a : BitVec 6) (o : BitVec 13) (s : State) : Out := branchCc .ltn d a o s
def execBccGen (d a : BitVec 6) (o : BitVec 13) (s : State) : Out := branchCc .gen d a o s
def execBcci (d : BitVec 6) (c : Cond) (i : BitVec 6) (o : BitVec 10) (s : State) : Out :=
  branchIf (condHolds c (s.cur.rs d) (condImm c i)) o s

/-! ## Masks (R106) -/

def maskCond (c : MaskCond) (g : Nat) (m : Mask) : Bool :=
  match c with
  | .any => m &&& allLive g != 0
  | .all => m &&& allLive g == allLive g
  | .none => m &&& allLive g == 0

def execBmask (c : MaskCond) (k : BitVec 4) (o : BitVec 19) (s : State) : Out :=
  if s.maskPending k then .next (s.waitFor (.bmask k))
  else branchIf (maskCond c s.cur.gsize (s.cur.mask k)) o s

/-! ## Calls (R107) -/

def execCall (o : BitVec 25) (s : State) : Out :=
  if s.cur.shadow.length ≥ 64 then trapOut s cLpad 4
  else .next (s.onCur fun a =>
    ({ a.setS 63 (a.pc + 4) with shadow := a.shadow ++ [a.pc + 4] }).goto (a.pc + off4 o))

def execRet (s : State) : Out :=
  match s.cur.shadow.getLast? with
  | none => trapOut s cLpad 3
  | some r =>
    if s.cur.rs 63 ≠ r then trapOut s cLpad 2
    else .next (s.onCur fun a => ({ a with shadow := a.shadow.dropLast }).goto r)

/-! ## Jump tables (R108, R109) -/

/-- The three reads of `jtab` and its checks: the target. -/
def jtabTarget (h x : Word) : X Word := do
  let hdr ← fetchWord h
  X.check (decide (x.toNat < (hdr.extractLsb' 16 16).toNat)) cJtab x
  let e ← fetchWord (h + 4 + 4 * x)
  let t := h + e.signExtend 64
  X.check (t.extractLsb' 0 2 == 0) cLpad 1
  let w ← fetchWord t
  X.check (w.extractLsb' 25 7 == 0x17 && w.extractLsb' 16 9 == 0 && w.extractLsb' 0 16 == hdr.extractLsb' 0 16) cLpad 1
  pure t

def execJtab (d : BitVec 6) (o : BitVec 19) (s : State) : Out :=
  runX (do
    let a ← X.cur
    let t ← jtabTarget (a.pc + off4 o) (a.rs d)
    X.onCur (·.goto t)) s

def execLpad (_ : BitVec 16) (s : State) : Out := .next s.advance

end Sys2Proof.Machine
end

