-- ==== Sys2Proof/Machine/ScalarMem.lean ====
section
/-!
DEFINITION. Scalar loads and stores, acquire loads and release stores (spec/06 R161 to R163).
-/
namespace Sys2Proof.Machine

/-- `lds`: `n` bytes at sA + sext64(IMM13), extended by `f` (R161). -/
def loadForm (n : Nat) (f : Nat → Word) (d a : BitVec 6) (i : BitVec 13) (s : State) : Out :=
  runX (do
    let x ← loadVa (s.cur.rs a + i.signExtend 64) n
    X.finish d (f x)) s

def execLdsI8 (d a : BitVec 6) (i : BitVec 13) (s : State) : Out := loadForm 1 (sext 8) d a i s
def execLdsN8 (d a : BitVec 6) (i : BitVec 13) (s : State) : Out := loadForm 1 bv64 d a i s
def execLdsI16 (d a : BitVec 6) (i : BitVec 13) (s : State) : Out := loadForm 2 (sext 16) d a i s
def execLdsN16 (d a : BitVec 6) (i : BitVec 13) (s : State) : Out := loadForm 2 bv64 d a i s
def execLdsI32 (d a : BitVec 6) (i : BitVec 13) (s : State) : Out := loadForm 4 (sext 32) d a i s
def execLdsN32 (d a : BitVec 6) (i : BitVec 13) (s : State) : Out := loadForm 4 bv64 d a i s
def execLdsI64 (d a : BitVec 6) (i : BitVec 13) (s : State) : Out := loadForm 8 bv64 d a i s

/-- `sts`: the low `n` bytes of sD to sA + sext64(IMM13) (R161). -/
def storeForm (n : Nat) (d a : BitVec 6) (i : BitVec 13) (s : State) : Out :=
  runX (do
    storeVa (s.cur.rs a + i.signExtend 64) (s.cur.rs d).toNat n
    X.done) s

def execStsI8 (d a : BitVec 6) (i : BitVec 13) (s : State) : Out := storeForm 1 d a i s
def execStsI16 (d a : BitVec 6) (i : BitVec 13) (s : State) : Out := storeForm 2 d a i s
def execStsI32 (d a : BitVec 6) (i : BitVec 13) (s : State) : Out := storeForm 4 d a i s
def execStsI64 (d a : BitVec 6) (i : BitVec 13) (s : State) : Out := storeForm 8 d a i s

/-- `ldacq` (R162, R163). DESIGN CHOICE: MISALIGN comes before translation and that before `CheckScope`, the order that the spec gives
for `atom` alone (log 87). -/
def acquireForm (n : Nat) (f : Nat → Word) (d a : BitVec 6) (sc : BitVec 4) (s : State) : Out :=
  runX (do
    let va := s.cur.rs a
    X.aligned va n
    let p ← translateRange s.cur.ctx va .r n
    let k ← checkScope sc.toNat
    let x ← acquireLoad p va n k
    X.finish d (f x)) s

def execLdacqI32 (d a : BitVec 6) (sc : BitVec 4) (s : State) : Out := acquireForm 4 (sext 32) d a sc s
def execLdacqN32 (d a : BitVec 6) (sc : BitVec 4) (s : State) : Out := acquireForm 4 bv64 d a sc s
def execLdacqI64 (d a : BitVec 6) (sc : BitVec 4) (s : State) : Out := acquireForm 8 bv64 d a sc s

/-- `strel` (R162, R163): a release, so it waits for the lane stream first (R159). The order of its checks is that of `ldacq`: DESIGN
CHOICE (log 87). -/
def releaseForm (n : Nat) (a b : BitVec 6) (sc : BitVec 4) (s : State) : Out :=
  runX (do
    let va := s.cur.rs a
    X.aligned va n
    let p ← translateRange s.cur.ctx va .w n
    let k ← checkScope sc.toNat
    X.release k
    releaseStore p va (natBytes (s.cur.rs b).toNat n) k
    X.done) s

def execStrelI32 (a b : BitVec 6) (sc : BitVec 4) (s : State) : Out := releaseForm 4 a b sc s
def execStrelI64 (a b : BitVec 6) (sc : BitVec 4) (s : State) : Out := releaseForm 8 a b sc s

end Sys2Proof.Machine
end

