-- ==== Sys2Proof/Machine/Atomic.lean ====
section
/-!
DEFINITION. Fences, range cache operations, scalar atomics and `mcas` (spec/06 R164 to R173).
-/
namespace Sys2Proof.Machine

/-! ## Fences (R170, R253) -/

/-- The reconcile of a fence at die scope or wider. -/
def State.reconcile (s : State) (scope : Nat) : State :=
  if scope < 5 then s else
  let a := s.cur
  let s := { s with mem := s.mem.reconcile a.die a.homeSeen }
  let s := s.onCur fun a => { a with homeSeen := .zero }
  if scope < 9 then s else s.dropShared a.die

/-- Every prior write of the agent is applied at home, behind what the order of each location has before it (R253). -/
def State.pushHome (s : State) : State := { s with mem := s.mem.toHome fun f => f.agent == s.cur.id }

/-- The release of a fence at scope `k`: at die scope or wider every later write of the agent carries the clock of the die
(R170, R250). -/
def X.releaseFence (k : Nat) : X Unit := do
  X.release k
  X.update fun s => s.onCur fun a => { a with relClock := a.relClock.join (s.releaseClock k) }

def execFenceAcq (sc : BitVec 4) (s : State) : Out :=
  runX (do
    let k ← checkScope sc.toNat
    X.update (·.reconcile k)
    X.done) s

def execFenceRel (sc : BitVec 4) (s : State) : Out :=
  runX (do
    let k ← checkScope sc.toNat
    X.releaseFence k
    X.done) s

def execFenceAr (sc : BitVec 4) (s : State) : Out :=
  runX (do
    let k ← checkScope sc.toNat
    X.releaseFence k
    X.update fun s => if k < 5 then s else s.pushHome.reconcile k
    X.done) s

/-! ## Range operations (R171 to R173) -/

inductive RangeOp where
  | wb | inv | dis
deriving DecidableEq, Repr

def RangeOp.kind : RangeOp → Kind | .dis => .w | _ => .r

/-- The operation on the sectors of one stretch of an SMR page; on another page nothing changes (R172). -/
def State.rangeOn (s : State) (op : RangeOp) (die pa n : Nat) : State :=
  let lo := pa / 32 * 32
  let hi := (pa + n + 31) / 32 * 32
  let inside := fun p => decide (lo ≤ p) && decide (p < hi)
  let dirty := (s.mem.die die).copies.any fun c => c.smr && c.dirty && inside c.addr
  let gone := fun (c : CopyByte) => c.smr && inside c.addr
  match op with
  | .wb => let s := if dirty then s.markDirty pa else s; { s with mem := s.mem.writeBack die inside }
  | .inv => let s := if dirty then s.markDirty pa else s; { s with mem := (s.mem.writeBack die inside).drop die gone }
  | .dis => { s with mem := s.mem.drop die gone }

/-- The address at which a stretch in the local window leaves the allocation, if it does (R171). -/
def windowFault (s : State) (a : Agent) (lo hi : Nat) : Option Nat :=
  match a.ctx.wg.bind s.wg? with
  | none => some lo
  | some w => let lim := windowBase + w.scr * 256; if hi ≤ lim then none else some (max lo lim)

/-- The first address of the faulting page (R173): of a page as large as its leaf makes it, where a stage-1 leaf is found, and
else of the smallest (log 36). -/
def pageStart (c : Ctx) (va : Nat) (s : State) : Nat :=
  va / 2 ^ leafBits c va s * 2 ^ leafBits c va s

/-- The pages of a range in order; the work of earlier pages stays done when a later one faults (R173). -/
def rangeGo (op : RangeOp) : List (Word × Nat) → State → State × Option Stop
  | [], s => (s, none)
  | q :: qs, s =>
    let a := s.cur
    let lo := q.1.toNat
    if windowBase ≤ lo ∧ lo < 2 ^ 57 then
      match windowFault s a lo (lo + q.2) with
      | some x => (s, some (.trap cPermission (bv64 x)))
      | none => rangeGo op qs s
    else
      match translate a.ctx q.1 op.kind s with
      | .ok (.mem pa smr _) t => rangeGo op qs (if smr then t.rangeOn op a.die pa q.2 else t)
      | .ok _ t => rangeGo op qs t
      | .error (.trap c _ ipa) t =>
        let t := s.keepClaims t
        if c = cNotPresent then rangeGo op qs t else (t, some (.trap c (bv64 (pageStart a.ctx lo t)) ipa))
      | .error _ _ => rangeGo op qs s

def rangeForm (op : RangeOp) (a b : BitVec 6) (s : State) : Out :=
  if !s.cur.laneDrained then .next (s.waitFor .drain)
  else
    let va := s.cur.rs a
    let n := min (s.cur.rs b).toNat (2 ^ 64 - va.toNat)
    if n = 0 then .next s.advance
    else
      let r := rangeGo op (s.spans va n) (s.drainWrites s.cur.id)
      match r.2 with
      | none => .next r.1.advance
      | some e => .next (r.1.stopped r.1 e)

def execCwb (a b : BitVec 6) (s : State) : Out := rangeForm .wb a b s
def execCinv (a b : BitVec 6) (s : State) : Out := rangeForm .inv a b s
def execCdis (a b : BitVec 6) (s : State) : Out := rangeForm .dis a b s

/-! ## Atomics (R164, R165) -/

/-- Signed order of two `n`-byte values. -/
def sltBytes (n x y : Nat) : Bool := (BitVec.ofNat (8 * n) x).slt (BitVec.ofNat (8 * n) y)

/-- `Extend` (R38): the old value of a 32-bit form, by the opcode. -/
def extendOld (signed w : Bool) (x : Nat) : Word := if w then bv64 x else if signed then sext 32 x else bv64 (x % 2 ^ 32)

/-- One atomic form: `f n old b` is the new value of `n` bytes, `b` truncated to the size (Table 6.4); `pcie` as in
Table 6.5; `o` is the order. -/
def atomForm (f : Nat → Nat → Nat → Nat) (pcie signed : Bool) (d a b : BitVec 6) (w : Bool) (o : BitVec 2)
    (sc : BitVec 4) (s : State) : Out :=
  runX (do
    let n := if w then 8 else 4
    let va := s.cur.rs a
    X.aligned va n
    let p ← atomicPlace va n pcie
    let k ← checkScope sc.toNat
    if o.getLsbD 1 then X.release k
    let x := (s.cur.rs b).toNat % 2 ^ (8 * n)
    let old ← atomicRmw p va n (o.getLsbD 0) (o.getLsbD 1 && decide (5 ≤ k)) k fun old => f n old x
    X.finish d (extendOld signed w old)) s

def execAtomAdd (d a b : BitVec 6) (w : Bool) (o : BitVec 2) (sc : BitVec 4) (s : State) : Out :=
  atomForm (fun n x y => (x + y) % 2 ^ (8 * n)) true true d a b w o sc s
def execAtomAnd (d a b : BitVec 6) (w : Bool) (o : BitVec 2) (sc : BitVec 4) (s : State) : Out :=
  atomForm (fun _ x y => x &&& y) false true d a b w o sc s
def execAtomOr (d a b : BitVec 6) (w : Bool) (o : BitVec 2) (sc : BitVec 4) (s : State) : Out :=
  atomForm (fun _ x y => x ||| y) false true d a b w o sc s
def execAtomXor (d a b : BitVec 6) (w : Bool) (o : BitVec 2) (sc : BitVec 4) (s : State) : Out :=
  atomForm (fun _ x y => x ^^^ y) false true d a b w o sc s
def execAtomMin (d a b : BitVec 6) (w : Bool) (o : BitVec 2) (sc : BitVec 4) (s : State) : Out :=
  atomForm (fun n x y => if sltBytes n x y then x else y) false true d a b w o sc s
def execAtomMax (d a b : BitVec 6) (w : Bool) (o : BitVec 2) (sc : BitVec 4) (s : State) : Out :=
  atomForm (fun n x y => if sltBytes n x y then y else x) false true d a b w o sc s
def execAtomMinn (d a b : BitVec 6) (w : Bool) (o : BitVec 2) (sc : BitVec 4) (s : State) : Out :=
  atomForm (fun _ x y => min x y) false false d a b w o sc s
def execAtomMaxn (d a b : BitVec 6) (w : Bool) (o : BitVec 2) (sc : BitVec 4) (s : State) : Out :=
  atomForm (fun _ x y => max x y) false false d a b w o sc s
def execAtomSwap (d a b : BitVec 6) (w : Bool) (o : BitVec 2) (sc : BitVec 4) (s : State) : Out :=
  atomForm (fun _ _ y => y) true true d a b w o sc s
/-- R165: the expected value is the low bytes of sD, read before the operation. -/
def execAtomCas (d a b : BitVec 6) (w : Bool) (o : BitVec 2) (sc : BitVec 4) (s : State) : Out :=
  atomForm (fun n x y => if x = (s.cur.rs d).toNat % 2 ^ (8 * n) then y else x) true true d a b w o sc s

/-! ## `mcas` (R167 to R169) -/

/-- One entry: address, size, expected and new value. -/
structure McasEntry where
  addr : Word
  size : Nat
  exp : Nat
  new : Nat
deriving DecidableEq, Repr

/-- The checks of a header (R168). -/
def mcasHeaderOk (h : Nat) : Bool :=
  let n := fieldN h 0 8
  1 ≤ n && n ≤ 8 && fieldN h 8 4 ≤ 10 && fieldN h 13 3 == 0 && fieldN h 24 (256 - 24) == 0 && fieldN h 16 8 / 2 ^ n == 0

/-- The entries of a block, read and checked in order. -/
def mcasEntries (base : Word) (h : Nat) : List Nat → X (List McasEntry)
  | [] => pure []
  | j :: js => do
    let bs ← loadBlock (base + bv64 (32 + 32 * j)) 32
    let x := bytesNat bs
    let addr := fieldN x 0 64
    let size := if bitN h (16 + j) then 8 else 4
    let blk := base.toNat
    X.check (addr % size == 0 && !(decide (blk ≤ addr) && decide (addr < blk + 32 + 32 * fieldN h 0 8))) cMcas (bv64 j)
    let l ← mcasEntries base h js
    pure ({ addr := bv64 addr, size, exp := fieldN x 64 (8 * size), new := fieldN x 128 (8 * size) } :: l)

/-- The place of an entry, and whether its page is software-managed; one in the local window raises PERMISSION (R243). -/
def mcasPlace (e : McasEntry) : X (Nat × Bool) := do
  let p ← atomicPlace e.addr e.size false
  match p with
  | .mem pa smr _ => pure (pa, smr)
  | _ => X.trap cPermission e.addr

/-- The index of the higher of two entries whose ranges overlap, if some do: the lowest such (R168). -/
def mcasOverlap (l : List (Nat × Nat)) : Option Nat :=
  (List.range l.length).find? fun j =>
    (l.take j).any fun q => match l[j]? with
      | some p => decide (p.1 < q.1 + q.2) && decide (q.1 < p.1 + p.2)
      | none => false

/-- The observed values with their clocks. -/
def mcasObserve : List (McasEntry × Nat × Bool) → X (List Nat × Clock)
  | [] => pure ([], .zero)
  | (e, pa, smr) :: l => do
    let o ← atomicRead (.mem pa smr 0) e.addr e.size
    let r ← mcasObserve l
    pure (o.1 :: r.1, o.2.join r.2)

/-- Writes NEW to every place, as one home update (R248). -/
def mcasWrite (l : List (McasEntry × Nat × Bool)) (c : Clock) : X Unit := do
  let s ← get
  match l.find? fun e => s.cur.isH && s.lockedWrite e.2.1 (natBytes e.1.new e.1.size) with
  | some e => X.trap cPermission e.1.addr
  | none =>
    let s := l.foldl (fun s e => s.markDirty e.2.1) s
    let cells := (l.map fun e => natCells e.2.1 e.1.new e.1.size).flatten
    set { s with mem := s.mem.homeWrite s.cur.id s.cur.die cells c }

/-- Which entries did not match, as a bit mask. -/
def mcasFail (l : List (McasEntry × Nat)) : Nat → Nat
  | j => match l with
    | [] => 0
    | (e, o) :: l => (if e.exp = o then 0 else 2 ^ j) + mcasFail l (j + 1)

def mcasReport (base : Word) : List Nat → Nat → X Unit
  | [], _ => pure ()
  | o :: l, j => do
    storeVa (base + bv64 (32 + 32 * j + 0x18)) o 8
    mcasReport base l (j + 1)

def mcasBody (base : Word) : X Nat := do
  X.aligned base 32
  let hb ← loadBlock base 32
  let h := bytesNat hb
  X.check (mcasHeaderOk h) cMcas 0xFF
  let es ← mcasEntries base h (List.range (fieldN h 0 8))
  let ps ← es.mapM mcasPlace
  match mcasOverlap ((ps.map (·.1)).zip (es.map (·.size))) with
  | some j => X.trap cMcas (bv64 j)
  | none => pure ()
  let k ← checkScope (fieldN h 8 4)
  X.release k
  let obs ← mcasObserve (es.zip ps)
  let fail := mcasFail (es.zip obs.1) 0
  let s ← get
  let c := obs.2.join (s.releaseClock k)
  if fail = 0 then mcasWrite (es.zip ps) c
  X.acquire k obs.2
  if fail ≠ 0 ∨ bitN h 12 then mcasReport base obs.1 0
  pure fail

def execMcas (d a : BitVec 6) (s : State) : Out :=
  runX (do
    let r ← mcasBody (s.cur.rs a)
    X.finish d (bv64 r)) s

end Sys2Proof.Machine
end

