-- ==== Sys2Proof/Machine/Flags.lean ====
section
/-!
DEFINITION. Control and status registers (01 Table 1.5; 04 R115 to R117, Table 4.7; 03 Tables 3.6a, 3.9, 3.10; 11 Table
11.8): who may access which, what each reads, which of its fields a write reaches; the floating-point flags (03 R80, R81)
and the grant fields (01 R11 to R13).
-/
namespace Sys2Proof.Machine

/-! ## Access (R30) -/

/-- A cell of Table 1.5. -/
inductive Acc where
  | no | ro | rw
deriving DecidableEq, Repr

/-- The U, S and H cells of a register number; none when Table 1.5 does not list it. -/
def csrCells (n : BitVec 12) : Option (Acc × Acc × Acc) :=
  match n.toNat with
  | 0x000 => some (.rw, .rw, .rw)
  | 0x001 => some (.ro, .ro, .ro)
  | 0x002 | 0x003 | 0x004 | 0x005 | 0x006 => some (.ro, .ro, .no)
  | 0x010 | 0x011 | 0x012 => some (.rw, .rw, .rw)
  | 0x020 | 0x021 | 0x022 => some (.no, .rw, .rw)
  | 0x023 => some (.no, .rw, .no)
  | 0x024 => some (.no, .ro, .ro)
  | 0x025 => some (.no, .rw, .rw)
  | 0x030 | 0x031 | 0x032 => some (.no, .ro, .no)
  | 0x040 | 0x041 => some (.ro, .ro, .ro)
  | 0x050 => some (.ro, .ro, .ro)
  | _ => none

/-- The trap of an access to register `n` at a level, if it is refused (R30). -/
def csrRefused (n : BitVec 12) (l : Level) (write : Bool) : Option Cause :=
  match csrCells n with
  | none => some cIllegal
  | some (u, s, h) =>
    match (match l with | .u => u | .s => s | .h => h) with
    | .no => if l = .u ∧ s ≠ .no then some cPrivilege else some cIllegal
    | .ro => if write then some cIllegal else none
    | .rw => none

/-! ## Values -/

/-- GRANT (Table 4.7); a control thread reads W 8, P 1, G 8 (R117). -/
def Agent.grant (a : Agent) : Word :=
  if a.isControl then bv64 (8 + 1 * 2 ^ 8 + 8 * 2 ^ 16)
  else bv64 (a.width % 256 + a.gsize / a.width % 256 * 2 ^ 8 + a.gsize % 2048 * 2 ^ 16)

/-- The outstanding lane instructions of a class (R21). -/
def LaneStream.count (l : LaneStream) (c : OutClass) : Nat := (l.pend.filter fun p => p.cls == some c).length

def Agent.outcnt (a : Agent) : Word :=
  bv64 (a.lane.count .mem % 64 + a.lane.count .long % 64 * 2 ^ 8 + a.lane.count .xlane % 64 * 2 ^ 16)

/-- XPRIV.LEVEL codes (Table 11.8). -/
def Level.code : Level → Nat | .u => 0 | .s => 1 | .h => 2

def bit (b : Bool) (i : Nat) : Nat := if b then 2 ^ i else 0

/-- The routine budget of the partition policy (Table 13.7). -/
def State.pbudget (s : State) (a : Agent) : Nat := if (s.policy a).pbudget = 0 then 16384 else (s.policy a).pbudget

/-- What register `n` reads for the acting agent. -/
def csrValue (s : State) (n : BitVec 12) : Word :=
  let a := s.cur
  let t := a.trap
  match n.toNat with
  | 0x000 => bv64 a.gstat
  | 0x001 => a.grant
  | 0x002 => bv64 (a.ids.grpIdx % 64)
  | 0x003 => bv64 (a.ids.wgIdx % 2 ^ 32)
  | 0x004 => bv64 (a.ids.thrBase % 4096)
  | 0x005 => bv64 (a.ids.launchId % 2 ^ 48)
  | 0x006 => a.ids.herdMap.setWidth 64
  | 0x010 => a.rmode.setWidth 64
  | 0x011 => a.flush.setWidth 64
  | 0x012 => a.fflags.setWidth 64
  | 0x020 => t.cause.setWidth 64 ||| bv64 (bit t.causeLane 8)
  | 0x021 => t.val
  | 0x022 => t.spc &&& ~~~ 3
  | 0x023 => (t.xlane &&& ~~~ 3) ||| bv64 (bit t.fv 0)
  | 0x024 => bv64 (t.level.code + bit t.hm 2)
  | 0x025 => t.vec &&& ~~~ 0xFFF
  | 0x030 => bv64 (s.pbudget a % 2 ^ 32)
  | 0x031 => t.saveBase
  | 0x032 => bv64 (bit t.inSave 0 + bit t.inRestore 1 + bit t.resliced 2 + bit t.forced 3 + t.used.toNat * 2 ^ 32)
  | 0x040 => if a.isH then 0 else a.enc.setWidth 64
  | 0x041 => s.layout.gen
  | 0x050 => a.outcnt
  | _ => 0

/-! ## Writes by field (R116) -/

/-- The RW fields of the acting agent's register `n` take the bits of `x`; every other field ignores them. MODE keeps
its value under a write of 101 to 111 (Table 3.7). -/
def csrPut (a : Agent) (n : BitVec 12) (x : Word) : Agent :=
  match n.toNat with
  | 0x010 => if x.extractLsb' 0 3 ≤ 4 then { a with rmode := x.extractLsb' 0 3 } else a
  | 0x011 => { a with flush := x.extractLsb' 0 6 }
  | 0x012 => { a with fflags := x.extractLsb' 0 5 }
  | 0x020 => { a with trap := { a.trap with cause := x.extractLsb' 0 8, causeLane := x.getLsbD 8 } }
  | 0x021 => { a with trap := { a.trap with val := x } }
  | 0x022 => { a with trap := { a.trap with spc := x &&& ~~~ 3 } }
  | 0x023 => { a with trap := { a.trap with xlane := x &&& ~~~ 3 } }
  | 0x025 => { a with trap := { a.trap with vec := x &&& ~~~ 0xFFF } }
  | _ => a

/-- The W1C fields, of GSTAT alone, clear where `x` has a 1. -/
def csrClear (a : Agent) (n : BitVec 12) (x : Word) : Agent :=
  if n = 0 then { a with gchg := a.gchg && !x.getLsbD 0, clamped := a.clamped && !x.getLsbD 1 } else a

/-- A read of GRANT clears GCHG (R13). -/
def Agent.sawGrant (a : Agent) : Agent := { a with gchg := false, seenWidth := a.width }

/-- Whether the access waits for the lane stream (R79). DESIGN CHOICE: in a lane-fault handler the lane work held behind the fault is no
part of that stream (log 16). -/
def csrWaits (n : BitVec 12) (write : Bool) : Bool :=
  (write && (n == 0x010 || n == 0x011)) || n == 0x012

/-! ## The grant (R12, R13, R15) -/

def widthOk (w g : Nat) : Bool := (w == 8 || w == 16 || w == 32 || w == 64) && decide (w ≤ g)

/-- The grant that a core gives: the contract, or any that R11 allows, by an open choice (R12, R235; log 2). -/
def chooseWidth (s : State) (contract : Option Nat) (g : Nat) : Nat × State :=
  match contract with
  | some w => (w, s)
  | none =>
    let d := s.draw
    let ws := [8, 16, 32, 64].filter (· ≤ g)
    (ws.getD (d.1 % ws.length) 8, d.2)

/-- A grant takes effect; GCHG is set when it differs from the one last read (R13). -/
def Agent.setGrant (a : Agent) (w : Nat) : Agent := { a with width := w, gchg := a.gchg || w != a.seenWidth }

/-! ## Floating-point flags (R80, R81) -/

def Agent.raiseFlags (a : Agent) (f : BitVec 5) : Agent := { a with fflags := a.fflags ||| f }

end Sys2Proof.Machine
end

