-- ==== Sys2Proof/Machine/Numbers.lean ====
section
/-!
DEFINITION. Number formats and arithmetic (spec/03): the formats, `RoundTo` and its helpers on exact rationals, the
special results of Table 3.8, the functions that are irrational by enclosures refined until both ends round alike,
conversions, and `BlockAccumulate`.
-/
namespace Sys2Proof.Machine

/-! ## Flags (03 Table 3.10) -/

abbrev Flags := BitVec 5
def flagNV : Flags := 16
def flagDZ : Flags := 8
def flagOF : Flags := 4
def flagUF : Flags := 2
def flagNX : Flags := 1

/-! ## Exact values -/

/-- An exact value with the sign of its zero: a NaN, an infinity, or ±n/d with d positive. -/
inductive FV where
  | nan
  | inf (neg : Bool)
  | num (neg : Bool) (n d : Nat)
deriving DecidableEq, Repr

def FV.zero (neg : Bool) : FV := .num neg 0 1
def FV.isZero : FV → Bool | .num _ 0 _ => true | _ => false
def FV.neg? : FV → Bool | .nan => false | .inf s => s | .num s _ _ => s
def FV.ofInt (z : Int) : FV := .num (decide (z < 0)) z.natAbs 1

/-- ±n · 2^e. -/
def FV.dyadic (neg : Bool) (n : Nat) (e : Int) : FV :=
  if 0 ≤ e then .num neg (n * 2 ^ e.toNat) 1 else .num neg n (2 ^ (-e).toNat)

/-! ## Formats -/

/-- A format (03 R65, R67, R68): the width, the trailing significand bits T, the bias B, whether it is an IEEE format,
and for a narrow format whether it is signed and extended. -/
structure Fmt where
  width : Nat
  t : Nat
  bias : Nat
  ieee : Bool := true
  signed : Bool := true
  ext : Bool := true
deriving DecidableEq, Repr

def Fmt.f32 : Fmt := { width := 32, t := 23, bias := 127 }
def Fmt.bf16 : Fmt := { width := 16, t := 7, bias := 127 }
def Fmt.f16 : Fmt := { width := 16, t := 10, bias := 15 }

/-- The narrow format of an NF byte (R48, R67). -/
def Fmt.narrow (nf : BitVec 8) : Fmt :=
  let k := nfWidth nf
  let p := (nf.extractLsb' 0 3).toNat
  let sg := nf.getLsbD 5
  let x := if sg then k - p else k - p + 1
  { width := k, t := p - 1, bias := 2 ^ (x - 1), ieee := false, signed := sg, ext := nf.getLsbD 4 }

def FTy.fmt : FTy → Fmt | .f32 => .f32 | .bf16 => .bf16 | .f16 => .f16

/-- The magnitude code of the largest finite value (Table 3.2; for IEEE formats, below the all-ones exponent). -/
def Fmt.maxCode (f : Fmt) : Nat :=
  if f.ieee then 2 ^ (f.width - 1) - 2 ^ f.t - 1
  else if f.signed then 2 ^ (f.width - 1) - 1 - (if f.ext then 1 else 0)
  else 2 ^ f.width - 2 - (if f.ext then 1 else 0)

/-- NaNOf: the canonical NaN (Table 3.1, R66) or the NaN code (Table 3.2). -/
def Fmt.nanCode (f : Fmt) : Nat :=
  if f.ieee then 2 ^ (f.width - 1) - 2 ^ f.t + 2 ^ (f.t - 1)
  else if f.signed then 2 ^ (f.width - 1) else 2 ^ f.width - 1

def Fmt.signBit (f : Fmt) : Nat := 2 ^ (f.width - 1)

/-- The code of an infinity, where the format has one. -/
def Fmt.infCode (f : Fmt) (neg : Bool) : Nat :=
  if f.ieee then (if neg then f.signBit else 0) + (2 ^ (f.width - 1) - 2 ^ f.t)
  else f.maxCode + 1 + (if neg then f.signBit else 0)

/-- The code of ±(magnitude code k). Zero of a narrow format has no sign. -/
def Fmt.withSign (f : Fmt) (neg : Bool) (k : Nat) : Nat :=
  if neg && (f.ieee || k != 0) then f.signBit + k else k

/-- ZeroOf. -/
def Fmt.zeroOf (f : Fmt) (neg : Bool) : Nat := f.withSign neg 0

/-- The value of a finite magnitude code (R65, R67). -/
def Fmt.magValue (f : Fmt) (neg : Bool) (k : Nat) : FV :=
  let e := k / 2 ^ f.t
  let m := k % 2 ^ f.t
  if e == 0 then .dyadic neg m (1 - f.bias - f.t : Int) else .dyadic neg (2 ^ f.t + m) (e - f.bias - f.t : Int)

/-- The value of a code (R65 to R68). -/
def Fmt.decode (f : Fmt) (c : Nat) : FV :=
  if f.ieee then
    let neg := decide (f.signBit ≤ c)
    let k := c % f.signBit
    if k < 2 ^ (f.width - 1) - 2 ^ f.t then f.magValue neg k
    else if k == 2 ^ (f.width - 1) - 2 ^ f.t then .inf neg else .nan
  else if c == f.nanCode then .nan
  else
    let neg := f.signed && decide (f.signBit ≤ c)
    let k := if f.signed then c % f.signBit else c
    if f.maxCode < k then .inf neg else f.magValue neg k

/-- A subnormal: not zero, exponent field 0. -/
def Fmt.isSubnormal (f : Fmt) (c : Nat) : Bool :=
  let k := if f.signed then c % f.signBit else c
  0 < k && k < 2 ^ f.t

/-- Input flushing (R78): a subnormal operand reads as zero of its sign; +0 for a narrow operand. -/
def Fmt.read (f : Fmt) (flush : Bool) (c : Nat) : FV :=
  if flush && f.isSubnormal c then FV.zero (f.ieee && decide (f.signBit ≤ c)) else f.decode c

/-! ## Rounding -/

/-- RoundInt on a magnitude num/den with its sign (R72, R73): the integer magnitude. Modes 0 rne, 1 rz, 2 rup,
3 rdn, 4 rna. -/
def roundMag (rm : Nat) (neg : Bool) (num den : Nat) : Nat :=
  let q := num / den
  let r := num % den
  if r == 0 then q
  else match rm with
    | 0 => if 2 * r < den then q else if den < 2 * r then q + 1 else q + q % 2
    | 1 => q
    | 2 => if neg then q else q + 1
    | 3 => if neg then q + 1 else q
    | _ => if 2 * r < den then q else q + 1

/-- floor(log2(n/d)) for positive n and d. -/
def ilog (n d : Nat) : Int :=
  let l : Int := (Nat.log2 n : Int) - Nat.log2 d
  let ge := if 0 ≤ l then decide (d * 2 ^ l.toNat ≤ n) else decide (d ≤ n * 2 ^ (-l).toNat)
  if ge then l else l - 1

/-- A rounding context: the resolved mode, SAT, and OutFlush of the destination (R50, R78). -/
structure RMode where
  rm : Nat := 0
  sat : Bool := false
  flush : Bool := false
deriving DecidableEq, Repr

/-- Overflow (R74). -/
def overflow (f : Fmt) (neg : Bool) (c : RMode) : Nat × Flags :=
  let max := f.withSign neg f.maxCode
  let code :=
    if c.rm == 1 || (c.rm == 2 && neg) || (c.rm == 3 && !neg) then max
    else if f.ieee then f.infCode neg
    else if c.sat then max
    else if f.ext then f.infCode neg else f.nanCode
  (code, flagOF ||| flagNX)

/-- InfTo (R75). -/
def infTo (f : Fmt) (neg : Bool) (c : RMode) : Nat × Flags :=
  if f.ieee || f.ext then (f.infCode neg, 0)
  else if c.sat then (f.withSign neg f.maxCode, flagNX) else (f.nanCode, flagNV)

/-- The exponent of the quantum at n/d, and the scaled magnitude as a fraction num/den (R73). -/
def quantum (f : Fmt) (n d : Nat) : Int × Nat × Nat :=
  let e := max (ilog n d) (1 - f.bias : Int)
  let s : Int := e - f.t
  if 0 ≤ s then (e, n, d * 2 ^ s.toNat) else (e, n * 2 ^ (-s).toNat, d)

/-- |x| < 2^Emin. -/
def belowNormal (f : Fmt) (n d : Nat) : Bool := decide (ilog n d < (1 - f.bias : Int))

/-- NegToUnsigned of a finite x (R75). -/
def negToUnsigned (f : Fmt) (n d : Nat) (c : RMode) : Nat × Flags :=
  if belowNormal f n d && c.flush then (0, flagUF ||| flagNX)
  else
    let q := quantum f n d
    if roundMag c.rm true q.2.1 q.2.2 == 0 then (0, flagNX ||| (if belowNormal f n d then flagUF else 0))
    else if c.sat then (0, flagNX) else (f.nanCode, flagNV)

/-- RoundTo (R73): the code and the flags. -/
def roundTo (f : Fmt) (x : FV) (c : RMode) : Nat × Flags :=
  match x with
  | .nan => (f.nanCode, 0)
  | .inf neg =>
    if !f.signed && neg then (if c.sat then (0, flagNX) else (f.nanCode, flagNV)) else infTo f neg c
  | .num neg n d =>
    if n == 0 then (f.zeroOf neg, 0)
    else if !f.signed && neg then negToUnsigned f n d c
    else
      let low := belowNormal f n d
      if low && c.flush then (f.zeroOf neg, flagUF ||| flagNX)
      else
        let q := quantum f n d
        let r := roundMag c.rm neg q.2.1 q.2.2
        let code := (q.1 + f.bias - 1).toNat * 2 ^ f.t + r
        if f.maxCode < code then overflow f neg c
        else
          let fl := if q.2.1 % q.2.2 == 0 then 0 else flagNX ||| (if low then flagUF else 0)
          (f.withSign neg code, fl)

/-! ## Exact arithmetic with the special results of Table 3.8 -/

def xorb (a b : Bool) : Bool := a != b

/-- The exact sum; a zero sum is +0, −0 when both addends are −0, and −0 under `.rdn` unless both are +0. -/
def FV.add (rm : Nat) (a b : FV) : FV × Flags :=
  match a, b with
  | .nan, _ | _, .nan => (.nan, 0)
  | .inf s, .inf t => if s == t then (.inf s, 0) else (.nan, flagNV)
  | .inf s, _ => (.inf s, 0)
  | _, .inf t => (.inf t, 0)
  | .num s n d, .num t m e =>
    let x : Int := (if s then -1 else 1) * (n * e : Nat) + (if t then -1 else 1) * (m * d : Nat)
    if x == 0 then
      (FV.zero (if n == 0 && m == 0 && s == t then s else rm == 3), 0)
    else (.num (decide (x < 0)) x.natAbs (d * e), 0)

def FV.negate : FV → FV
  | .nan => .nan | .inf s => .inf (!s) | .num s n d => .num (!s) n d

/-- The exact product; 0 × ∞ is NaN with NV. -/
def FV.mul (a b : FV) : FV × Flags :=
  match a, b with
  | .nan, _ | _, .nan => (.nan, 0)
  | .inf s, .inf t => (.inf (xorb s t), 0)
  | .inf s, .num t m _ => if m == 0 then (.nan, flagNV) else (.inf (xorb s t), 0)
  | .num s n _, .inf t => if n == 0 then (.nan, flagNV) else (.inf (xorb s t), 0)
  | .num s n d, .num t m e => (.num (xorb s t) (n * m) (d * e), 0)

/-- Division (Table 3.8). -/
def FV.div (a b : FV) : FV × Flags :=
  match a, b with
  | .nan, _ | _, .nan => (.nan, 0)
  | .inf _, .inf _ => (.nan, flagNV)
  | .inf s, .num t _ _ => (.inf (xorb s t), 0)
  | .num s _ _, .inf t => (FV.zero (xorb s t), 0)
  | .num s n d, .num t m e =>
    if m == 0 then (if n == 0 then (.nan, flagNV) else (.inf (xorb s t), flagDZ))
    else (.num (xorb s t) (n * e) (d * m), 0)

/-- a × b + c, with 0 × ∞ NaN and NV whatever c is (Table 3.8): a NaN c does not hide the invalid product. -/
def FV.fma (rm : Nat) (a b c : FV) : FV × Flags :=
  match a, b with
  | .nan, _ | _, .nan => (.nan, 0)
  | _, _ =>
    let p := a.mul b
    if p.2 != 0 then p else FV.add rm p.1 c

/-- Ordering of non-NaN values; zeros are equal. -/
def FV.lt (a b : FV) : Bool :=
  match a, b with
  | .inf s, .inf t => s && !t
  | .inf s, .num .. => s
  | .num .., .inf t => !t
  | .num s n d, .num t m e =>
    decide ((if s then -1 else 1) * ((n * e : Nat) : Int) < (if t then -1 else 1) * ((m * d : Nat) : Int))
  | _, _ => false
def FV.eq (a b : FV) : Bool :=
  match a, b with
  | .nan, _ | _, .nan => false
  | _, _ => !a.lt b && !b.lt a

/-- `fmin` and `fmax` (Table 3.8). -/
def FV.min2 (a b : FV) : FV :=
  match a, b with
  | .nan, x | x, .nan => x
  | _, _ => if a.lt b then a else if b.lt a then b else if a.neg? then a else b
def FV.max2 (a b : FV) : FV :=
  match a, b with
  | .nan, x | x, .nan => x
  | _, _ => if a.lt b then b else if b.lt a then a else if a.neg? then b else a

/-! ## Irrational results, by enclosure -/

/-- The integer square root of n, by bisection on bits: `k` bits from the highest. -/
def isqrtGo (n : Nat) : Nat → Nat → Nat
  | 0, r => r
  | k + 1, r =>
    let c := r + 2 ^ k
    isqrtGo n k (if c * c ≤ n then c else r)
def isqrt (n : Nat) : Nat := isqrtGo n (Nat.log2 n / 2 + 1) 0

/-- Σ over k < N of floor(2·2^p / ((2k+1)·3^(2k+1))): ln 2 at scale 2^p, from below within N + 2 units. -/
def ln2Sum (p : Nat) : Nat → Nat → Nat → Nat
  | 0, _, _ => 0
  | k + 1, j, pw => 2 * 2 ^ p / ((2 * j + 1) * pw) + ln2Sum p k (j + 1) (pw * 9)
def ln2Lo (p : Nat) : Nat := ln2Sum p (p / 3 + 4) 0 3
def ln2Hi (p : Nat) : Nat := ln2Lo p + p / 3 + 6

/-- Taylor terms of e^y for y at scale 2^p, rounded down: the sum of the terms t, t·y/j, … -/
def expSumLo (p y : Nat) : Nat → Nat → Nat → Nat
  | 0, _, _ => 0
  | k + 1, j, t => t + expSumLo p y k (j + 1) (t * y / (2 ^ p * j))
/-- The same rounded up, with twice the last term for the remainder (y < 1). -/
def expSumHi (p y : Nat) : Nat → Nat → Nat → Nat
  | 0, _, t => 2 * t + 2
  | k + 1, j, t => t + expSumHi p y k (j + 1) (t * y / (2 ^ p * j) + 1)
def expLo (p y : Nat) : Nat := expSumLo p y (p / 2 + 8) 1 (2 ^ p)
def expHi (p y : Nat) : Nat := expSumHi p y (p / 2 + 8) 1 (2 ^ p)

/-- 2^(i + f) with f = fn/fd in [0, 1): the enclosure at scale 2^p, to be multiplied by 2^i. -/
def exp2Frac (p fn fd : Nat) : Nat × Nat :=
  (expLo p (fn * ln2Lo p / fd), expHi p (fn * ln2Hi p / fd + 1))

/-- e^(n/d) for n/d ≥ 0: the enclosure at scale 2^p, and the power of two k it is to be multiplied by. -/
def expPos (p n d : Nat) : Nat × Nat × Nat :=
  let k := n * 2 ^ p / (d * ln2Hi p)
  let lo := n * 2 ^ p / d - k * ln2Hi p
  let hi := n * 2 ^ p / d + 1 - k * ln2Lo p
  (expLo p lo, expHi p hi, k)

/-- atanh(z) for z at scale 2^p, z < 1/2: the terms z^(2j+1)/(2j+1), down and up. -/
def atanhLoSum (p z2 : Nat) : Nat → Nat → Nat → Nat
  | 0, _, _ => 0
  | k + 1, j, t => t / (2 * j + 1) + atanhLoSum p z2 k (j + 1) (t * z2 / 2 ^ p)
def atanhHiSum (p z2 : Nat) : Nat → Nat → Nat → Nat
  | 0, _, t => 2 * t + 2
  | k + 1, j, t => t / (2 * j + 1) + 1 + atanhHiSum p z2 k (j + 1) (t * z2 / 2 ^ p + 1)

/-- log2(n/d) for n/d in [1, 2): the enclosure as two fractions. -/
def log2Frac (p n d : Nat) : (Nat × Nat) × (Nat × Nat) :=
  let zlo := (n - d) * 2 ^ p / (n + d)
  let zhi := zlo + 1
  let lo := 2 * atanhLoSum p (zlo * zlo / 2 ^ p) (p / 2 + 8) 0 zlo
  let hi := 2 * atanhHiSum p (zhi * zhi / 2 ^ p + 1) (p / 2 + 8) 0 zhi
  ((lo, ln2Hi p), (hi, ln2Lo p))

/-- Rounds a value given by enclosures of growing precision: the first at which both ends round alike. A value that
none of them decides is a free value of the format (log 2); no argument is known to need it. -/
def roundEnclosed (f : Fmt) (c : RMode) (enc : Nat → FV × FV) : List Nat → Nat × Flags
  | [] => (Config.freeNat 0 % 2 ^ f.width, flagNX)
  | p :: ps =>
    let e := enc p
    let a := roundTo f e.1 c
    let b := roundTo f e.2 c
    if a == b then a else roundEnclosed f c enc ps

def precisions : List Nat := [96, 192, 384, 768]

/-- 2^x (R76, Table 3.8). An |x| beyond 1,024 lies past every format: one value there stands for all (R73). -/
def exp2To (f : Fmt) (x : FV) (c : RMode) : Nat × Flags :=
  match x with
  | .nan => (f.nanCode, 0)
  | .inf true => roundTo f (FV.zero false) c
  | .inf false => roundTo f (.inf false) c
  | .num s n d =>
    if 1024 * d < n then roundTo f (.dyadic false 3 (if s then -2000 else 2000)) c
    else
      let z : Int := if s then -(n : Int) else n
      let i := z / (d : Int)
      let r := (z % (d : Int)).toNat
      if r == 0 then roundTo f (.dyadic false 1 i) c
      else roundEnclosed f c (fun p =>
        let e := exp2Frac p r d
        (.dyadic false e.1 (i - p), .dyadic false e.2 (i - p))) precisions

/-- log2 x (Table 3.8). -/
def log2To (f : Fmt) (x : FV) (c : RMode) : Nat × Flags :=
  match x with
  | .nan => (f.nanCode, 0)
  | .inf true => (f.nanCode, flagNV)
  | .inf false => roundTo f (.inf false) c
  | .num s n d =>
    if n == 0 then ((roundTo f (.inf true) c).1, flagDZ)
    else if s then (f.nanCode, flagNV)
    else
      let e := ilog n d
      let n' := if 0 ≤ e then n else n * 2 ^ (-e).toNat
      let d' := if 0 ≤ e then d * 2 ^ e.toNat else d
      if n' == d' then roundTo f (.ofInt e) c
      else roundEnclosed f c (fun p =>
        let l := log2Frac p n' d'
        ((FV.add 0 (.ofInt e) (.num false l.1.1 l.1.2)).1, (FV.add 0 (.ofInt e) (.num false l.2.1 l.2.2)).1)) precisions

/-- √x and 1/√x (Table 3.8). -/
def sqrtEnc (n d p : Nat) : Nat × Nat :=
  let r := isqrt (n * 2 ^ (2 * p) / d)
  (r, r + 1)
def sqrtScale (n d : Nat) : Nat :=
  if Nat.log2 n < Nat.log2 d then Nat.log2 d - Nat.log2 n else 0
def exactSqrt (n d : Nat) : Option (Nat × Nat) :=
  let g := Nat.gcd n d
  let n' := n / g
  let d' := d / g
  let a := isqrt n'
  let b := isqrt d'
  if a * a == n' && b * b == d' then some (a, b) else none
def sqrtTo (f : Fmt) (x : FV) (c : RMode) : Nat × Flags :=
  match x with
  | .nan => (f.nanCode, 0)
  | .inf true => (f.nanCode, flagNV)
  | .inf false => roundTo f (.inf false) c
  | .num s n d =>
    if n == 0 then roundTo f (FV.zero s) c
    else if s then (f.nanCode, flagNV)
    else match exactSqrt n d with
      | some (a, b) => roundTo f (.num false a b) c
      | none => roundEnclosed f c (fun p =>
          let p := p + sqrtScale n d
          let e := sqrtEnc n d p
          (.num false e.1 (2 ^ p), .num false e.2 (2 ^ p))) precisions
def rsqrtTo (f : Fmt) (x : FV) (c : RMode) : Nat × Flags :=
  match x with
  | .nan => (f.nanCode, 0)
  | .inf true => (f.nanCode, flagNV)
  | .inf false => roundTo f (FV.zero false) c
  | .num s n d =>
    if n == 0 then ((roundTo f (.inf s) c).1, flagDZ)
    else if s then (f.nanCode, flagNV)
    else match exactSqrt n d with
      | some (a, b) => roundTo f (.num false b a) c
      | none => roundEnclosed f c (fun p =>
          let p := p + sqrtScale n d
          let e := sqrtEnc n d p
          (.num false (2 ^ p) e.2, .num false (2 ^ p) e.1)) precisions

/-- tanh x (Table 3.8). Below 2^-20 by the series' first terms; from 64 on, every value lies strictly between
1 − 2^-100 and 1, where one value stands for all. -/
def tanhTo (f : Fmt) (x : FV) (c : RMode) : Nat × Flags :=
  match x with
  | .nan => (f.nanCode, 0)
  | .inf s => roundTo f (.num s 1 1) c
  | .num s n d =>
    if n == 0 then roundTo f x c
    else if 64 * d ≤ n then roundTo f (.num s (2 ^ 101 - 1) (2 ^ 101)) c
    else if n * 2 ^ 20 < d then
      -- x − x³/3 and x − x³/3 + 2x⁵/15, over 15·d⁵
      let lo := 15 * n * d ^ 4 - 5 * n ^ 3 * d ^ 2
      roundEnclosed f c (fun _ => (.num s lo (15 * d ^ 5), .num s (lo + 2 * n ^ 5) (15 * d ^ 5))) [0]
    else roundEnclosed f c (fun p =>
      -- 1 − 2/(e^2x + 1), with e^2x between lo and hi at scale 2^p / 2^k
      let e := expPos p (2 * n) d
      let lo := e.1 * 2 ^ e.2.2
      let hi := e.2.1 * 2 ^ e.2.2
      (.num s (lo - 2 ^ p) (lo + 2 ^ p), .num s (hi - 2 ^ p) (hi + 2 ^ p))) precisions

/-- y / (1 + e^−y) (12 R324). -/
def siluTo (f : Fmt) (x : FV) (c : RMode) : Nat × Flags :=
  match x with
  | .nan => (f.nanCode, 0)
  | .inf s => roundTo f (if s then FV.zero true else .inf false) c
  | .num s n d =>
    if n == 0 then roundTo f x c
    else if 200 * d ≤ n then
      (if s then roundTo f (.dyadic true 1 (-300)) c else roundTo f (.num false (n * (2 ^ 101 - 1)) (d * 2 ^ 101)) c)
    else if n * 2 ^ 20 < d then
      -- y/2 + y²/4 − y⁴/48 and the same with y⁶/480 more, over 480·d⁶: the value lies strictly between
      let a : Int := (if s then -1 else 1) * (240 * n * d ^ 5 : Nat) + (120 * n ^ 2 * d ^ 4 : Nat) - (10 * n ^ 4 * d ^ 2 : Nat)
      let b : Int := a + (n ^ 6 : Nat)
      roundEnclosed f c (fun _ => (.num s a.natAbs (480 * d ^ 6), .num s b.natAbs (480 * d ^ 6))) [0]
    else roundEnclosed f c (fun p =>
      let e := expPos p n d
      let lo := e.1 * 2 ^ e.2.2
      let hi := e.2.1 * 2 ^ e.2.2
      -- y ≥ 0: y·E/(E + 1); y < 0: y/(1 + E), with E = e^|y|
      if s then (.num true (n * 2 ^ p) (d * (hi + 2 ^ p)), .num true (n * 2 ^ p) (d * (lo + 2 ^ p)))
      else (.num false (n * lo) (d * (lo + 2 ^ p)), .num false (n * hi) (d * (hi + 2 ^ p)))) precisions

/-! ## Conversions (R63, R82) -/

/-- RoundInt of a finite value, as an integer, and whether it was inexact. -/
def roundInt (rm : Nat) (neg : Bool) (n d : Nat) : Int × Bool :=
  let r := roundMag rm neg n d
  (if neg then -(r : Int) else r, n % d != 0)

/-- Floating point or narrow to an integer type of `w` bits (R82). -/
def floatToInt (signed : Bool) (w : Nat) (rm : Nat) (x : FV) : Int × Flags :=
  let lo : Int := if signed then -(2 ^ (w - 1) : Nat) else 0
  let hi : Int := if signed then (2 ^ (w - 1) : Nat) - 1 else (2 ^ w : Nat) - 1
  match x with
  | .nan => (0, flagNV)
  | .inf s => (if s then lo else hi, flagNV)
  | .num s n d =>
    let r := roundInt rm s n d
    if r.1 < lo then (lo, flagNV) else if hi < r.1 then (hi, flagNV) else (r.1, if r.2 then flagNX else 0)

/-! ## Block accumulation (R83, R87) -/

/-- The exact block sum from product 0, signed zeros by R87. -/
def blockSum (rm : Nat) : List (FV × FV) → FV × Flags
  | [] => (FV.zero false, 0)
  | (a, b) :: ps =>
    ps.foldl (fun acc ab =>
      let p := ab.1.mul ab.2
      let s := FV.add rm acc.1 p.1
      (s.1, acc.2 ||| p.2 ||| s.2)) (a.mul b)

/-- The scaled block sum (R83): a NaN scale or product, 0 × ∞ within a product or between a scale and an infinite block sum, and
infinite products of both signs make it NaN with NV; a scale of 0 makes any other block sum a zero with the sign of the three. The
zero stands beside an infinite scale too: DEDUCED, since R83 excepts a NaN or infinite block sum alone, where R87 lets infinite inputs
make it NaN or infinite. DESIGN CHOICE: an infinite scale times a zero block sum, which R83 does not list, is NaN with NV (log 86). -/
def scaledSum (rm : Nat) (ps : List (FV × FV)) (sa sb : FV) : FV × Flags :=
  let s := blockSum rm ps
  match s.1, sa, sb with
  | .nan, _, _ | _, .nan, _ | _, _, .nan => (.nan, flagNV)
  | .num g .., sa, sb =>
    if sa.isZero || sb.isZero then (FV.zero (xorb g (xorb sa.neg? sb.neg?)), s.2)
    else
      let x := s.1.mul sa
      let y := x.1.mul sb
      (y.1, s.2 ||| x.2 ||| y.2)
  | .inf _, sa, sb =>
    let x := s.1.mul sa
    let y := x.1.mul sb
    match y.1 with
    | .nan => (.nan, flagNV)
    | v => (v, s.2 ||| x.2 ||| y.2)

/-- One step of BlockAccumulate: acc and the code that replaces it, with its flags. -/
def blockStep (c : RMode) (inFlush : Bool) (acc : Nat) (ps : List (FV × FV)) (sa sb : FV) : Nat × Flags :=
  let s := scaledSum c.rm ps sa sb
  let t := FV.add c.rm (Fmt.f32.read inFlush acc) s.1
  let r := roundTo .f32 t.1 c
  (r.1, s.2 ||| t.2 ||| r.2)

/-- BlockAccumulate over blocks of products with their scales (R87). The accumulator input flushes once, as a source
operand; later blocks take the rounded f32 as it stands. -/
def blockAccumulate (c : RMode) (inFlush : Bool) (acc : Nat) : List (List (FV × FV) × FV × FV) → Nat × Flags
  | [] => (acc, 0)
  | (ps, sa, sb) :: bs =>
    let r := blockStep c inFlush acc ps sa sb
    let rest := blockAccumulate c false r.1 bs
    (rest.1, r.2 ||| rest.2)

end Sys2Proof.Machine
end

