-- ==== Sys2Proof/Machine/Workgroups.lean ====
section
/-!
DEFINITION. The end of a group, of its workgroup and of its launch (04 R119; 01 R34; 10 R266, R269; 11 R311).
-/
namespace Sys2Proof.Machine

/-- The number of workgroups of a LAUNCH record (Table 7.4). -/
def Rec.grid (r : Rec) : Nat := r.f 0x18 32 32 + 1

/-- The window advances over every completed index at its head (R266). -/
def advanceHead : Nat → Nat → List Nat → Nat × List Nat
  | 0, h, l => (h, l)
  | k + 1, h, l => if l.contains h then advanceHead k (h + 1) (l.filter (· != h)) else (h, l)

def Launch.advance (l : Launch) : Launch :=
  let r := advanceHead l.completed.length l.head l.completed
  { l with head := r.1, completed := r.2 }

/-- A launch whose work has ended completes: when its head has passed the last index (R266), or with DIELOST once its
last running workgroup has ended (R269). -/
def State.launchEnds (s : State) (id : Nat) : State :=
  match s.launch? id with
  | none => s
  | some l =>
    if l.head = l.record.grid then { s.finishOp l.op 0 with launches := s.launches.filter (·.id != id) }
    else if l.dead && l.running.isEmpty then { s.finishOp l.op cDieLost with launches := s.launches.filter (·.id != id) }
    else s

/-- Whether a tile task claims a bank of a workgroup (12 R319). -/
def Op.claims (o : Op) (w : Nat) : Bool :=
  decide (o.kind = .record 2) && o.started && decide (o.state ≠ .done) && o.record.wg == w

/-- A workgroup leaves its core: its groups, its scratchpad and its accumulator banks are free (R268), but for a bank that a task
still claims, whose rows stay with the task (12 R319). -/
def State.freeWorkgroup (s : State) (w : Nat) : State :=
  let keep := fun (o : Op) => match s.wg? w with
    | some g => if o.claims w then { o with left := some (g.accRows, g.acc.filter fun r => r.row / 512 == o.record.f 0x20 32 15 / 512) } else o
    | none => o
  { s.dropAgents fun a => decide (a.kind = .group) && a.wg == w with wgs := s.wgs.filter (·.id != w), ops := s.ops.map keep }

/-- WORKGROUP_COMPLETE: the completion enters the reorder window (R119, R266). What the groups wrote is released with
the launch (R190). -/
def State.workgroupComplete (s : State) (w : Nat) : State :=
  match s.wg? w with
  | none => s
  | some g =>
    match s.launch? g.launch with
    | none => s.freeWorkgroup w
    | some l =>
      let c := s.clockOf g.die
      let s := s.onOp l.op fun o => { o with record := { o.record with clock := o.record.clock.join c } }
      let s := s.onLaunch l.id fun l =>
        ({ l with completed := g.index :: l.completed, running := l.running.filter (· != g.index) } : Launch).advance
      (s.freeWorkgroup w).launchEnds l.id

/-- Byte and bit of group slot `j` in the slot map (R311). -/
def slotMapByte (f : SaveFields) (j : Nat) : Nat := f.ipa + j / 8
def setMapBit (b : Byte) (j : Nat) (on : Bool) : Byte :=
  if on then b ||| (1#8 <<< (j % 8)) else b &&& ~~~ (1#8 <<< (j % 8))

/-- Sets or clears the bit of a group slot in the slot map. -/
def markSlot (enc : BitVec 16) (die j : Nat) (on : Bool) : X Unit := do
  let s ← get
  match (s.enclave? enc).bind (·.save) with
  | none => pure ()
  | some f => do
    let bs ← saveRead enc (slotMapByte f j) 1
    saveWrite enc die (slotMapByte f j) (bs.map fun b => setMapBit b j on)

/-- The acting agent ends (R119): its group slot is free; with its last group a workgroup completes. -/
def State.endAgent (s : State) : State :=
  let a := s.cur
  let s := (s.release a.id 6).onCur fun a => { a with status := .ended }
  if a.kind = .group then
    let s := (markSlot a.enc a.die a.slotIdx false).orKeep s
    match s.wg? a.wg with
    | none => s
    | some g =>
      if g.groups.all fun j => match s.agent? j with | some b => decide (b.status = .ended) | none => true then
        s.workgroupComplete g.id
      else s
  else s

end Sys2Proof.Machine
end

