-- ==== Sys2Proof/Machine/System.lean ====
section
/-!
DEFINITION. Lane dispatch, the grant, reduction results, control and status registers, and the SYS group (spec/04 R110 to
R121); `fret` stands in Return.lean.
-/
namespace Sys2Proof.Machine

/-- The acting agent waits until its lane stream has drained, else goes on with `k` (R111). -/
def whenDrained (s : State) (k : Out) : Out := if s.cur.laneDrained then k else .next (s.waitFor .drain)

/-! ## SYS (R118 to R121) -/

def execNop (s : State) : Out := .next s.advance
def execHalt (s : State) : Out := whenDrained s (.next s.endAgent)

/-- The latest issue of any agent; issues are counted. -/
def State.lastIssue (s : State) : Nat := (s.cur :: s.others).foldl (fun m a => max m a.sched.lastIssue) 0
/-- `yield` puts the group behind every other one of its slot: its last issue becomes the latest (R118, R270). -/
def execYield (s : State) : Out :=
  let n := s.lastIssue + 1
  .next (s.advance.onCur fun a => { a with sched := { a.sched with lastIssue := n, aged := false } })

def execSret (s : State) : Out := needLevel .s s (whenDrained s (.next (s.onCur (·.trapReturn))))

/-- R120: at U a trap, at S an exit after the instruction, at H ILLEGAL. -/
def execEcall (s : State) : Out :=
  match s.cur.level with
  | .u => trapOut s cEcall
  | .s => .next (s.advance.exitAgent (if s.cur.trap.hm then s.cur.trap.cause else cEcall))
  | .h => illegal .ecall s

def execTrap (a : BitVec 6) (s : State) : Out := trapOut s cSoftware (s.cur.rs a)
def execLpark (s : State) : Out := whenDrained s (.next s.advance)

/-! ## Width (R112, R113) -/

def execRdgrant (d : BitVec 6) (s : State) : Out :=
  .next ((s.onCur fun a => a.sawGrant).write d s.cur.grant)

def execSetw (a : BitVec 6) (s : State) : Out :=
  if s.cur.isControl || s.cur.inRoutine then illegal (.setw a) s
  else if !widthOk (s.cur.rs a).toNat s.cur.gsize then trapOut s cWidth (s.cur.rs a)
  else whenDrained s (
    let c := chooseWidth s s.cur.contract s.cur.gsize
    .next (c.2.advance.onCur fun a => a.setGrant c.1))

/-! ## Reduction results (R114) -/

def execQread (d a : BitVec 6) (q : BitVec 2) (s : State) : Out :=
  if s.cur.inRoutine then illegal (.qread d a q) s
  else
    let r := s.cur.regs.q[q.toNat]
    let want := (s.cur.rs a).setWidth 16
    if r.seq = want then .next (s.write d r.val)
    else if s.qPending q.toNat then .next (s.waitFor (.qread q d want))
    else trapOut s cSoftware ((want ++ r.seq).setWidth 64)

/-! ## Lane dispatch (R110) -/

def execLrun (inv : Bool) (k : BitVec 4) (l : BitVec 20) (s : State) : Out :=
  if s.cur.isControl || s.cur.inRoutine then illegal (.lrun inv k l) s
  else
    match s.cur.code with
    | none => illegal (.lrun inv k l) s
    | some v =>
      if v.laneN ≤ l.toNat then trapOut s cIllegal (l.setWidth 64)
      else if 8 ≤ s.cur.lane.queue.length then .next (s.waitFor .lrunRoom)
      else
        let b : Block := { lidx := l.toNat, sel := k, inv, s := s.cur.regs.s, level := s.cur.level }
        .next (s.advance.onCur fun a => { a with lane := { a.lane with queue := a.lane.queue ++ [b] } })

/-! ## Control and status registers (R115, R116) -/

/-- A read of PSTAT in a routine finds more cycles spent, by an open amount (R310; log 17). -/
def State.spend (s : State) (r : BitVec 12) : State :=
  if r = 0x032 && s.cur.inRoutine then
    let d := s.draw
    d.2.onCur fun a => { a with trap := { a.trap with used := a.trap.used + BitVec.ofNat 32 d.1 } }
  else s

/-- One access: the checks of R30, the wait of R79, then the effect `f` of the agent and the old value, and sD. -/
def csrAccess (i : Instr) (d : BitVec 6) (r : BitVec 12) (write : Bool) (f : Agent → Word → Agent) (s : State) : Out :=
  match csrRefused r s.cur.level write with
  | some c => if c = cIllegal then illegal i s else trapOut s c
  | none =>
    if csrWaits r write && !s.cur.laneDrained then .next (s.waitFor .drain)
    else
      let t := s.spend r
      let old := csrValue t r
      .next ((t.onCur fun a => f a old).write d old)

def execCsrr (d : BitVec 6) (r : BitVec 12) (s : State) : Out :=
  csrAccess (.csrr d r) d r false (fun a _ => if r = 1 then a.sawGrant else a) s
def execCsrw (d a : BitVec 6) (r : BitVec 12) (s : State) : Out :=
  csrAccess (.csrw d a r) d r true (fun g _ => csrClear (csrPut g r (s.cur.rs a)) r (s.cur.rs a)) s
def execCsrs (d a : BitVec 6) (r : BitVec 12) (s : State) : Out :=
  csrAccess (.csrs d a r) d r true (fun g old => csrPut g r (old ||| s.cur.rs a)) s
def execCsrc (d a : BitVec 6) (r : BitVec 12) (s : State) : Out :=
  csrAccess (.csrc d a r) d r true (fun g old => csrClear (csrPut g r (old &&& ~~~ s.cur.rs a)) r (s.cur.rs a)) s

end Sys2Proof.Machine
end

