-- ==== Sys2Proof/Machine/Sync.lean ====
section
/-!
DEFINITION. Timelines, copy batches, arrival barriers, workgroup and herd barriers (spec/06 R174 to R184).
-/
namespace Sys2Proof.Machine

/-! ## Timelines (R174 to R177) -/

/-- What a handle names (Table 6.9): the group timeline (none) or an engine timeline with its index. -/
def timelineOf (s : State) (h : Word) : Except Unit (Option (Nat × Timeline)) :=
  if h.getLsbD 63 then (if h.toNat = 2 ^ 63 then .ok none else .error ())
  else if 2 ^ 12 ≤ h.toNat then .error ()
  else match (s.enclave? s.cur.enc).bind (·.timeline? h.toNat) with
    | some t => .ok (some (h.toNat, t))
    | none => .error ()

/-- The handle of the instruction; none is valid at H level (Table 6.1). -/
def handle (h : Word) : X (Option (Nat × Timeline)) := do
  let s ← get
  if s.cur.isH then X.trap cPermission h
  match timelineOf s h with
  | .ok t => pure t
  | .error _ => X.trap cPermission h

/-- The group timeline: every chunk of the batches up to it has landed (R177). -/
def State.groupTimeline (s : State) (a : Agent) : Nat :=
  (s.chunks.filter (·.agent == a.id)).foldl (fun m c => min m (c.batch - 1)) a.sync.lastBatch

def State.counterOf (s : State) : Option (Nat × Timeline) → Word
  | some t => t.2.count
  | none => bv64 (s.groupTimeline s.cur)

/-- The scope of the batches up to `n` (R174, R175). -/
def SyncState.scopeUpTo (y : SyncState) (n : Nat) : Nat :=
  (y.batchScope.filter fun b => decide (b.1 ≤ n)).foldl (fun m b => max m b.2) 0

/-- `twait` (R175). DESIGN CHOICE: `CheckScope`, and with it SCOPECLAMP under CLAMPTRAP, comes once the wait has ended; the spec does not
place it (log 87). -/
def execTwait (d a b : BitVec 6) (s : State) : Out :=
  if s.cur.inRoutine then illegal (.twait d a b) s
  else runX (do
    let n := s.cur.rs b
    let t ← handle (s.cur.rs a)
    match t with
    | none => do
      X.check (decide (n.toNat ≤ s.cur.sync.lastBatch)) cSoftware n
      let c := s.counterOf none
      if c.toNat < n.toNat then X.waitOn (.twait (s.cur.rs a) n)
      let k ← checkScope (s.cur.sync.scopeUpTo n.toNat)
      X.acquire k .zero
      X.finish d c
    | some (_, tl) => do
      if tl.count.toNat < n.toNat then X.waitOn (.twait (s.cur.rs a) n)
      let k ← checkScope tl.scope
      X.acquire k tl.clock
      X.finish d tl.count) s

def execTread (d a : BitVec 6) (s : State) : Out :=
  runX (do
    let t ← handle (s.cur.rs a)
    X.finish d (s.counterOf t)) s

/-- `tsig` (R176). DESIGN CHOICE: PERMISSION on the group timeline, or on one that software may not signal, puts the handle into XVAL, as
a bad handle does (R174; log 99). -/
def execTsig (a b : BitVec 6) (s : State) : Out :=
  runX (do
    let t ← handle (s.cur.rs a)
    match t with
    | none => X.trap cPermission (s.cur.rs a)
    | some (i, tl) => do
      X.check tl.soft cPermission (s.cur.rs a)
      let k ← checkScope tl.scope
      X.release k
      X.update fun t => t.signal s.cur.enc i (s.cur.rs b) (t.releaseClock k)
      X.done) s

/-- R177; at H level it returns 0 and has no other effect (Table 6.1). -/
def execCbatch (d : BitVec 6) (s : State) : Out :=
  if s.cur.isH then .next (s.write d 0)
  else
    let n := s.cur.sync.lastBatch + 1
    .next ((s.onCur fun a => { a with sync := { a.sync with
      lastBatch := n, openScope := 0, batchScope := a.sync.batchScope ++ [(n, a.sync.openScope)] } }).write d (bv64 n))

/-! ## Arrival barriers (R178 to R181) -/

/-- The four words of Table 6.11. -/
structure Barrier where
  word : Nat
  cur : Nat
  next : Nat
  complete : Nat
deriving DecidableEq, Repr

def Barrier.ofNat (x : Nat) : Barrier :=
  { word := fieldN x 0 64, cur := fieldN x 64 64, next := fieldN x 128 64, complete := fieldN x 192 64 }
def Barrier.toNat (b : Barrier) : Nat := b.word + b.cur * 2 ^ 64 + b.next * 2 ^ 128 + b.complete * 2 ^ 192
def Barrier.ovf (b : Barrier) : Bool := bitN b.word 63
def Barrier.bytesMode (b : Barrier) : Bool := bitN b.word 56
def Barrier.scope (b : Barrier) : Nat := fieldN b.word 52 4
def Barrier.expect (b : Barrier) : Nat := fieldN b.word 0 48
def Barrier.setOvf (b : Barrier) : Barrier := if b.ovf then b else { b with word := b.word + 2 ^ 63 }

/-- Reserved bits, a scope above 10 or a zero EXPECT in word 0. -/
def badConfig (w : Nat) : Bool :=
  decide (10 < fieldN w 52 4) || decide (fieldN w 0 48 = 0) || decide (fieldN w 57 6 ≠ 0) || decide (fieldN w 48 4 ≠ 0)

def Barrier.malformed (b : Barrier) : Bool := badConfig b.word || decide (b.expect < b.cur) || decide (b.expect < b.next)

/-- The loop of `Arrive`: it ends within two steps on a barrier that is not malformed. -/
def Barrier.settle : Nat → Barrier → Barrier
  | 0, b => b
  | k + 1, b =>
    if b.cur = 0 then Barrier.settle k { b with complete := (b.complete + 1) % 2 ^ 64, cur := b.expect - b.next, next := 0 } else b

/-- `Arrive` (R180). -/
def Barrier.arrive (b : Barrier) (count : Nat) (tag : Bool) : Barrier :=
  if b.malformed then b.setOvf
  else if b.ovf then b
  else if tag == bitN b.complete 0 then
    if b.cur < count then b.setOvf else Barrier.settle 2 { b with cur := b.cur - count }
  else
    if b.expect < b.next + count then b.setOvf else Barrier.settle 2 { b with next := b.next + count }

/-- The scope at which an arrival releases and `await` acquires: enclave for a malformed barrier (R180). -/
def Barrier.orderScope (b : Barrier) : Nat := if b.malformed then 6 else b.scope

/-- The address checks of R179. -/
def barrierPlace (va : Word) : X Place := do
  X.aligned va 32
  atomicPlace va 32 false

/-- The barrier and the clock of its arrivals, read at its home. -/
def readBarrier (p : Place) (va : Word) : X (Barrier × Clock) := do
  let r ← atomicRead p va 32
  let s ← get
  match p with
  | .scr w _ => pure (.ofNat r.1, match s.wg? w with | some g => g.clock | none => .zero)
  | _ => pure (.ofNat r.1, r.2)

def writeBarrier (p : Place) (va : Word) (b : Barrier) (c : Clock) : X Unit := do
  atomicWrite p va b.toNat 32 c
  match p with
  | .scr w _ => X.update fun s => s.onWg w fun g => { g with clock := g.clock.join c }
  | _ => pure ()

def execAbinit (a b : BitVec 6) (s : State) : Out :=
  runX (do
    let va := s.cur.rs a
    let w := s.cur.rs b
    let p ← barrierPlace va
    X.check (!badConfig w.toNat && !w.getLsbD 63) cSoftware w
    X.update (·.beforeAtomic p 32)
    writeBarrier p va { word := w.toNat, cur := fieldN w.toNat 0 48, next := 0, complete := 0 } .zero
    X.done) s

def execAarrive (d a b : BitVec 6) (s : State) : Out :=
  runX (do
    let va := s.cur.rs a
    let x := (s.cur.rs b).toNat
    let p ← barrierPlace va
    X.check (fieldN x 48 15 == 0) cSoftware
    let r ← readBarrier p va
    let k ← checkScope r.1.orderScope
    X.release k
    let t ← get
    writeBarrier p va (r.1.arrive (fieldN x 0 48) (bitN x 63)) (r.2.join (t.releaseClock k))
    X.finish d (bv64 r.1.complete)) s

def execAwait (d a b : BitVec 6) (s : State) : Out :=
  if s.cur.inRoutine then illegal (.await d a b) s
  else runX (do
    let va := s.cur.rs a
    let p ← barrierPlace va
    let r ← readBarrier p va
    X.check (!r.1.ovf && !r.1.malformed) cSoftware va
    if r.1.complete < (s.cur.rs b).toNat then X.waitOn (.await va (s.cur.rs b))
    let k ← checkScope r.1.scope
    X.acquire k r.2
    X.finish d (bv64 r.1.complete)) s

/-! ## Workgroup and herd barriers (R182 to R184) -/

/-- The reduction of Table "OP" of R182. -/
def barOp (op : BitVec 3) (x y : Word) : Word :=
  match op.toNat with
  | 0 => 0
  | 1 => x + y
  | 2 => if x.slt y then x else y
  | 3 => if x.slt y then y else x
  | 4 => if x.ult y then x else y
  | 5 => if x.ult y then y else x
  | 6 => x ||| y
  | _ => x &&& y

def barReduce (op : BitVec 3) : List Word → Word
  | [] => 0
  | x :: l => if op = 0 then 0 else l.foldl (barOp op) x

/-- The agent arrives and waits; completion writes sD and lets it go on. -/
def Agent.arriveAt (a : Agent) (x : BarArrival) (w : Wait) : Agent :=
  { a with sync := { a.sync with arrival := some x }, status := .waiting w }

def execWgbar (d a b : BitVec 6) (s : State) : Out :=
  if s.cur.inRoutine then illegal (.wgbar d a b) s
  else
    let x := s.cur.rs a
    if (x &&& ~~~ 0x700) ≠ 0 then trapOut s cSoftware x
    else if s.cur.isControl then whenDrained s (.next (s.write d (if x = 0 then 0 else s.cur.rs b)))
    else runX (do
      let k ← checkScope 2
      X.release k
      let t ← get
      X.onCur fun g =>
        { g with sync := { g.sync with wgbarK := g.sync.wgbarK + 1 } }.arriveAt
          { herd := none, k := g.sync.wgbarK + 1, op := x.extractLsb' 8 3, val := s.cur.rs b, sd := d, scope := k, clock := t.releaseClock k } .wgbar) s

/-- The place of a herd in HERDMAP (Table 4.7). -/
def GroupIds.herdSlot (i : GroupIds) (h : Nat) : Option Nat :=
  (List.range 4).find? fun j => i.herdMap.getLsbD (32 + j) && (i.herdMap.extractLsb' (8 * j) 8).toNat == h

def execHbar (d a b : BitVec 6) (s : State) : Out :=
  if s.cur.inRoutine then illegal (.hbar d a b) s
  else
    let x := s.cur.rs a
    let h := (x.extractLsb' 0 8).toNat
    match (if (x &&& ~~~ 0x7FF) ≠ 0 ∨ s.cur.isControl then none else s.cur.ids.herdSlot h) with
    | none => trapOut s cSoftware x
    | some j => runX (do
        let k ← checkScope 6
        X.release k
        let t ← get
        X.onCur fun g =>
          let n := (g.sync.hbarK.toList.getD j 0) + 1
          { g with sync := { g.sync with hbarK := g.sync.hbarK.setIfInBounds j n } }.arriveAt
            { herd := some h, k := n, op := x.extractLsb' 8 3, val := s.cur.rs b, sd := d, scope := k, clock := t.releaseClock k } .hbar) s

end Sys2Proof.Machine
end

