-- ==== Sys2Proof/Machine/Kick.lean ====
section
/-!
DEFINITION. `kick`: the record checks (spec/07 R188, R189, Tables 7.3 to 7.9), placement in a queue (10 R257, R258) and
the release with what the `kick` captures (06 R185, R186); `tstat` (07 R208).
-/
namespace Sys2Proof.Machine

/-! ## Record checks (R189) -/

def Rec.kind (r : Rec) : Nat := r.f 0 56 8
def Rec.pri (r : Rec) : Nat := r.f 0 52 3
def Rec.tlv (r : Rec) : Bool := r.f 0 12 1 == 1
def Rec.tl (r : Rec) : Nat := r.f 0 0 12
def Rec.sigval (r : Rec) : Nat := r.w 8

/-- Record bytes by queue kind (R185). -/
def recordSize (kind : Nat) : Nat := if kind = 2 then 128 else 64
/-- Hardware entries of 64 bytes by queue kind (R257). -/
def recordEntries (kind : Nat) : Nat := if kind = 2 then 2 else 1

def headerOk (r : Rec) (kind ntl : Nat) : Bool :=
  r.kind == kind && r.f 0 55 1 == 0 && r.f 0 48 4 == 0 && r.f 0 13 19 == 0 && (!r.tlv || decide (r.tl < ntl))

/-- A contract code: the width, none for 0. -/
def contractOf (w : Nat) : Option Nat := if w = 0 then none else some (4 * 2 ^ w)
def contractFits (w g : Nat) : Bool := match contractOf w with | none => true | some k => decide (k ≤ g)

/-- G, the register budget, and the groups of a workgroup of a LAUNCH record. -/
def Rec.g (r : Rec) : Nat := 8 * 2 ^ r.f 0x20 13 3
def Rec.budget (r : Rec) : Nat := 8 * (r.f 0x20 20 5 + 1)
def Rec.wgSize (r : Rec) : Nat := r.f 0x20 0 13

/-- Table 7.4. -/
def launchOk (r : Rec) (l : Level) : Bool :=
  r.f 0 34 14 == 0 && (r.f 0 33 1 == 0 || decide (l = .s)) && r.w 0x10 % 4096 == 0 && r.f 0x18 0 32 % 4 == 0
    && decide (8 ≤ r.wgSize) && decide (r.wgSize ≤ 4096) && r.wgSize % r.g == 0 && decide (r.wgSize ≤ 64 * r.g)
    && decide (r.f 0x20 16 3 ≤ 4) && contractFits (r.f 0x20 16 3) r.g && decide (r.budget * r.g ≤ 131072)
    && decide (r.f 0x20 32 13 ≤ 4096) && decide (r.f 0x20 48 15 ≤ 20480)
    && r.f 0x20 19 1 == 0 && r.f 0x20 25 7 == 0 && r.f 0x20 45 3 == 0 && r.f 0x20 63 1 == 0
    && decide (r.f 0x38 0 9 ≤ 256) && r.f 0x38 9 55 == 0 && (r.f 0x38 0 9 != 0 || r.w 0x28 == 0)

/-- The bits of a block name that are zero (Table 7.11). -/
def nameOk (x : Nat) : Bool := fieldN x 56 4 == 0 && fieldN x 16 16 == 0

/-- Table 7.5. -/
def copyOk (r : Rec) : Bool :=
  let mode := r.f 0 32 2
  decide (mode ≠ 3) && decide (r.f 0 36 4 ≤ 10) && (r.f 0 40 8 == 0 || mode != 2)
    && (if mode = 1 then r.f 0x20 0 32 != 0 && r.f 0x20 32 32 != 0 else r.w 0x20 != 0 && r.w 0x28 == 0)
    && r.w 0x30 % 32 == 0 && (r.f 0 34 1 == 1 || r.w 0x30 == 0)
    && (if mode = 2 then nameOk (r.w 0x38) else r.w 0x38 == 0)

def zeroWords (r : Rec) (l : List Nat) : Bool := l.all fun o => r.w o == 0

/-- The M of a TILE record, and its first row. -/
def Rec.m (r : Rec) : Nat := r.f 0x20 48 9 + 1
def Rec.accRow (r : Rec) : Nat := r.f 0x20 32 15
def Rec.bank (r : Rec) : Nat := r.accRow / 512
def Rec.task (r : Rec) : Nat := r.f 0 32 3

/-- K depth and block length by the element width of the A operand (Table 12.1). -/
def tileK (cls nf : Nat) : Nat × Nat := if cls ≠ 0 then (128, 16) else if nfWidth (BitVec.ofNat 8 nf) = 4 then (512, 32) else (256, 32)

/-- Table 7.7. -/
def mmaOk (r : Rec) : Bool :=
  let ca := r.f 0x38 48 2
  let cb := r.f 0x38 50 2
  let na := r.f 0x38 32 8
  let nb := r.f 0x38 40 8
  let k := tileK ca na
  decide (ca ≠ 3) && decide (cb ≠ 3) && (decide (ca = 0) == decide (cb = 0))
    && (if ca = 0 then nfWidth (BitVec.ofNat 8 na) == nfWidth (BitVec.ofNat 8 nb) else na == 0 && nb == 0)
    && decide (r.f 0x38 52 3 ≤ 5) && r.f 0x38 56 8 == 0
    && decide (k.2 ≤ r.f 0x40 0 10) && decide (r.f 0x40 0 10 ≤ k.1) && r.f 0x40 0 10 % k.2 == 0
    && decide (1 ≤ r.f 0x40 10 7) && decide (r.f 0x40 10 7 ≤ 96) && r.f 0x40 17 47 == 0
    && zeroWords r [0x48, 0x50, 0x58, 0x60, 0x68, 0x70, 0x78]
def attnOk (r : Rec) : Bool :=
  decide (r.m ≤ 128) && nameOk (r.w 0x30) && r.f 0x38 0 16 != 0 && r.f 0x38 16 2 != 3 && r.f 0x38 18 6 == 0
    && r.f 0x38 48 16 == 0 && r.f 0x40 32 32 != 0 && zeroWords r [0x50, 0x58, 0x60, 0x68, 0x70, 0x78]
def epiOk (r : Rec) : Bool :=
  r.f 0x30 16 16 == 0 && decide (r.f 0x38 0 3 ≤ 3) && r.f 0x38 3 5 == 0 && r.f 0x38 19 1 == 0
    && decide (r.f 0x38 20 3 ≤ 5) && decide (1 ≤ r.f 0x38 24 7) && decide (r.f 0x38 24 7 ≤ 96) && r.f 0x38 31 33 == 0
    && (r.f 0x38 16 2 != 3 || nfOk (BitVec.ofNat 8 (r.f 0x38 8 8)))
    && zeroWords r [0x40, 0x48, 0x50, 0x58, 0x60, 0x68, 0x70, 0x78]

/-- A record that names a narrow format, which reduced service denies (15 R377). -/
def Rec.narrow (r : Rec) : Bool :=
  match r.task with
  | 0 => r.f 0x38 48 2 == 0 || r.f 0x38 50 2 == 0
  | 1 => r.f 0x38 24 8 != 0
  | _ => r.f 0x38 16 2 == 3

/-- Table 7.6 and R193: `rows` is the accumulator reservation of the kicking workgroup, none for a control thread. -/
def tileOk (r : Rec) (ntl : Nat) (rows : Option Nat) (reduced : Bool) : Bool :=
  r.f 0 35 13 == 0 && r.f 0x20 13 3 == 0 && r.f 0x20 29 3 == 0 && r.f 0x20 47 1 == 0 && r.f 0x20 57 7 == 0
    && (r.f 0x20 12 1 == 0 || decide (r.f 0x20 0 12 < ntl)) && (r.f 0x20 28 1 == 0 || decide (r.f 0x20 16 12 < ntl))
    && (match rows with
      | some n => decide (r.accRow + r.m ≤ n) && r.accRow / 512 == (r.accRow + r.m - 1) / 512
      | none => false)
    && (match r.task with | 0 => mmaOk r | 1 => attnOk r | 2 => epiOk r | _ => false)
    && !(reduced && r.narrow)

/-- Table 7.8. DESIGN CHOICE: BAR is not checked at the kick, neither its alignment nor, where ARRV is 0, that it is zero (R189; log
101). -/
def storeOk (r : Rec) : Bool :=
  let op := r.f 0 32 2
  decide (op ≠ 3) && r.f 0 41 7 == 0 && decide (r.f 0x10 0 8 ≤ 15) && r.f 0x10 8 24 == 0 && r.f 0x20 32 32 == 0
    && ((r.f 0x20 0 32 == 0) == (op == 2)) && r.w 0x38 == 0

/-- Bytes of a COLL element type (Table 7.9). -/
def collSize (t : Nat) : Nat := if t = 1 ∨ t = 2 then 2 else 4

/-- Table 7.9. DESIGN CHOICE: PEER is checked of sends and receives alone (R189; log 101). -/
def collOk (r : Rec) (gen : BitVec 64) : Bool :=
  let op := r.f 0 32 3
  let n := r.f 0x28 0 8
  decide (op ≤ 4) && decide (r.f 0 35 3 ≤ 2) && decide (r.f 0 40 3 ≤ 4) && r.f 0 38 2 == 0 && r.f 0 43 5 == 0
    && r.w 0x20 % collSize (r.f 0 40 3) == 0 && decide (2 ≤ n) && decide (n ≤ 255) && decide (r.f 0x28 8 8 < n)
    && (decide (op < 3) || decide (r.f 0x28 16 8 < n)) && r.f 0x28 24 8 == 0 && r.f 0x28 32 32 == gen.toNat % 2 ^ 32
    && r.w 0x38 == 0

def State.reduced (s : State) : Bool := decide (s.health.service = .reduced)

/-- The rows of the acting group's workgroup; none for a control thread. -/
def State.rowsOf (s : State) (a : Agent) : Option Nat := if a.isControl then none else (s.wg? a.wg).map (·.accRows)

def recordOk (s : State) (r : Rec) (kind ntl : Nat) : Bool :=
  headerOk r kind ntl && match kind with
    | 0 => launchOk r s.cur.level
    | 1 => copyOk r
    | 2 => tileOk r ntl (s.rowsOf s.cur) s.reduced
    | 3 => storeOk r
    | 4 => collOk r s.layout.gen
    | _ => false

/-! ## Placement (R258, R259) -/

/-- The hardware entries in use. -/
def Queue.used (q : Queue) : Nat := q.hw.length * recordEntries q.kind
def Queue.hwFree (q : Queue) : Bool := decide (q.used + recordEntries q.kind ≤ q.hwCap)

def Queue.spillSlot (q : Queue) (n : Nat) : Word := bv64 (q.spillAddr + recordSize q.kind * (n % q.spillCap))

/-- The status a `kick` of an admissible record returns (Table 6.14). -/
def Queue.place (q : Queue) : Nat :=
  if q.spill.isEmpty && q.hwFree then 0 else if q.spill.length < q.spillCap then 1 else 2

/-! ## The instruction -/

/-- `kick` of an admissible record (R185, R186): the release, then the record with what the `kick` captures. -/
def kickPlace (d : BitVec 6) (qi : Nat) (q : Queue) (bs : List Byte) : X Unit := do
  if q.place = 2 then X.finish d 2
  else do
    let k ← checkScope 6
    X.release k
    let s ← get
    if q.place = 1 then writeVa (hwCtx s.cur.enc s.cur.die) (q.spillSlot q.spilled) bs
    let s ← get
    let a := s.cur
    let r : Rec :=
      { bytes := bs, rmode := a.rmode, flush := a.flush, agent := a.id, wg := if a.isControl then 0 else a.wg, die := a.die
        level := a.level, clock := s.releaseClock k, order := (s.part a.part).kicks, slot := s.nextId
        snap := if q.kind = 0 then s.objectSnap (hwCtx a.enc a.die) (bytesNat ((bs.drop 0x10).take 8)) else [] }
    let s := s.onPart a.part fun p => { p with kicks := p.kicks + 1 }
    let s := s.onQueue a.enc qi fun q =>
      if q.place = 0 then { q with hw := q.hw ++ [r] } else { q with spill := q.spill ++ [r], spilled := q.spilled + 1 }
    let s := if q.kind = 1 ∧ r.f 0 40 8 ≠ 0 then
        { s with links := { s.links with sentClock := s.links.sentClock.join a.fabricClock } } else s
    set { s with nextId := s.nextId + 1 }
    X.finish d (bv64 q.place)

def execKick (d a b : BitVec 6) (s : State) : Out :=
  if s.cur.inRoutine then illegal (.kick d a b) s
  else runX (do
    let x := (s.cur.rs a).toNat
    let va := s.cur.rs b
    match (if s.cur.isH ∨ 2 ^ 16 ≤ x then none else s.queue? s.cur.enc x) with
    | none => X.finish d 3
    | some q => do
      X.aligned va (recordSize q.kind)
      let bs ← loadBlock va (recordSize q.kind)
      let ntl := match s.enclave? s.cur.enc with | some e => e.timelines.length | none => 0
      if recordOk s { bytes := bs } q.kind ntl then kickPlace d x q bs else X.finish d 3) s

/-! ## `tstat` (R208) -/

/-- Records accepted and not yet complete. -/
def State.pending (s : State) (e : BitVec 16) (qi : Nat) (q : Queue) : Nat :=
  q.hw.length + q.spill.length + (s.ops.filter fun o => o.enc == e && o.queue == qi && decide (o.kind.recordKind ≠ 5)).length

def State.suspended (s : State) (e : BitVec 16) (qi : Nat) (q : Queue) : Bool :=
  q.refillFault.isSome || s.ops.any fun o => o.enc == e && o.queue == qi && decide (o.kind.recordKind ≠ 5) && decide (o.state = .suspended)

def queueStatus (s : State) (e : BitVec 16) (qi : Nat) (q : Queue) : Word :=
  bv64 (bit (s.suspended e qi q) 63 + bit q.err 62 + q.kind * 2 ^ 56 + min 65535 (s.pending e qi q) * 2 ^ 32 + q.last.toNat)

/-- `tstat` (R208). DESIGN CHOICE: with bits of sA[63:16] set, sA names no queue, and sD receives all ones (log 100). -/
def execTstat (d a : BitVec 6) (s : State) : Out :=
  if s.cur.isH then trapOut s cPrivilege
  else
    let x := (s.cur.rs a).toNat
    match (if 2 ^ 16 ≤ x then none else s.queue? s.cur.enc x) with
    | none => .next (s.write d (BitVec.allOnes 64))
    | some q => .next ((s.onQueue s.cur.enc x fun q => { q with err := false }).write d (queueStatus s s.cur.enc x q))

end Sys2Proof.Machine
end

