-- ==== Sys2Proof/Machine/BlockOps.lean ====
section
/-!
DEFINITION. The KV block table as hardware reads and writes it (spec/07 R197 to R199; 12 R326, R331): one step is a set of
reads at home and one home update; headers, names, map entries, descriptors, stacks; pops, pushes and pins; reads and
writes of a block at its physical address.
-/
namespace Sys2Proof.Machine

/-! ## One step (R199) -/

/-- The writes that a step will make, by virtual address, with their size; the clock of the values it has read; and the kind
with which it translates what it only reads: A, as the `mcas` that it is (R199), or R where an engine resolves a name (R205). -/
structure BtState where
  writes : List (Word × Nat × Nat) := []
  clock : Clock := .zero
  kind : Kind := .a

abbrev B := StateT BtState X

/-- The physical address of a location of a step, and whether its page is software-managed: what `mcas` may name (R166, R168,
R243). -/
def btPlace (c : Ctx) (va : Word) (n : Nat) (k : Kind) : X (Nat × Bool) := do
  X.aligned va n
  let p ← if k = .a then atomicPlaceFor c va n false else translateRange c va k n
  match p with
  | .mem pa smr _ => pure (pa, smr)
  | _ => X.trap cPermission va

/-- What stands before a step at one of its locations: the agent's own writes to it and those its die has shown, and the dirty
bytes of a software-managed line (R255). -/
def State.beforeStep (s : State) (c : Ctx) (pa n : Nat) (smr : Bool) : State :=
  let ps := (List.range n).map (pa + ·)
  let s := if c.agent = s.cur.id then s.drainTouching (if smr then lineBytes pa else ps) else s
  { s with mem := s.mem.beforeAtomic c.die ps smr }

/-- A read at home. After a plain write that R197 forbids, the value is open per byte between the one written and the one that
hardware keeps; the model keeps one value at home, and that is the one written (log 39). -/
def btHome (c : Ctx) (va : Word) (n : Nat) (k : Kind) : X (Nat × Clock) := do
  let p ← btPlace c va n k
  let s ← get
  let t := s.beforeStep c p.1 n p.2
  let r := t.mem.homeRead c.die p.1 n p.2
  let t := { t with mem := r.2.2 }
  match badData t p.1 with
  | some k => X.trap k va
  | none =>
    set (if c.agent = t.cur.id then t.seesClock (r.2.2.originClock ((List.range n).map (p.1 + ·))) else t)
    pure (bytesNat r.1, r.2.1)

def btRead (c : Ctx) (va : Word) (n : Nat) : B Nat := do
  let t ← get
  match t.writes.find? fun w => w.1 == va with
  | some w => pure w.2.2
  | none =>
    let r ← liftM (btHome c va n t.kind)
    modify fun t => { t with clock := t.clock.join r.2 }
    pure r.1

def btWrite (va : Word) (n x : Nat) : B Unit :=
  modify fun t => { t with writes := (va, n, x % 2 ^ (8 * n)) :: t.writes.filter fun w => w.1 != va }

/-- The clock of the release that a step at scope `k` makes. -/
def State.stepClock (s : State) (c : Ctx) (k : Nat) : Clock :=
  if 5 ≤ k then s.clockOf c.die else if c.agent = s.cur.id then s.cur.relClock else .zero

/-- Every location translates before any is written; all of them reach home together (R168, R248). -/
def btCommit (c : Ctx) (k : Nat) (t : BtState) : X Unit := do
  let ws ← t.writes.mapM fun w => do
    let p ← btPlace c w.1 w.2.1 .a
    pure (p, w)
  let s ← get
  let s := ws.foldl (fun s w => s.beforeStep c w.1.1 w.2.2.1 w.1.2) s
  match ws.find? fun w => (badData s w.1.1).isSome with
  | some w => X.trap ((badData s w.1.1).getD cPoison) w.2.1
  | none =>
    let s := ws.foldl (fun s w => s.markDirty w.1.1) s
    let cells := (ws.map fun w => natCells w.1.1 w.2.2.2 w.2.2.1).flatten
    if !ws.isEmpty then set { s with mem := s.mem.homeWrite c.agent c.die cells (t.clock.join (s.stepClock c k)) }

/-- One step: its effects, then the acquire of what it has read, at the clamped scope. -/
def B.step {α : Type} (c : Ctx) (k : Nat) (b : B α) (reads : Kind := .a) : X α := do
  let r ← b.run { kind := reads }
  btCommit c k r.2
  X.update fun s => s.acquire c.die k r.2.clock
  pure r.1

/-! ## Layouts (Table 7.11) -/

/-- The header of a table, its TOP words apart. -/
structure Tab where
  hdr : Nat
  dir : Nat
  desc : Nat
  poolH : Nat
  poolL : Nat
  nbh : Nat
  nbl : Nat
  blkLog : Nat
  nseq : Nat
  stackH : Nat
  stackL : Nat
deriving DecidableEq, Repr

def Tab.blocks (t : Tab) : Nat := 1 + t.nbh + t.nbl
def Tab.size (t : Tab) : Nat := 2 ^ t.blkLog
def Tab.stack (t : Tab) (tier : Nat) : Nat := if tier = 1 then t.stackH else t.stackL

def btHeader (c : Ctx) (hdr : Nat) : B Tab := do
  let w := fun k => btRead c (bv64 (hdr + 8 * k)) 8
  let dir ← w 0
  let desc ← w 1
  let poolH ← w 2
  let poolL ← w 3
  let nb ← w 4
  let sz ← w 5
  let stackH ← w 6
  let stackL ← w 7
  pure { hdr, dir, desc, poolH, poolL, nbh := fieldN nb 0 32, nbl := fieldN nb 32 32, blkLog := fieldN sz 0 5
         nseq := fieldN sz 32 25, stackH, stackL }

/-- A descriptor; its COW bit follows REFCNT. -/
structure Desc where
  state : Nat := 0
  tier : Nat := 0
  drain : Bool := false
  addr : Nat := 0
  ref : Nat := 0
  pins : Nat := 0
  gen : Nat := 0
  mate : Nat := 0
deriving DecidableEq, Repr

def dFree : Nat := 0
def dValid : Nat := 1
def dDemoting : Nat := 2
def dPromoting : Nat := 3

def Desc.cow (d : Desc) : Bool := decide (2 ≤ d.ref)
def Desc.word0 (d : Desc) : Nat := d.state * 2 ^ 62 + d.tier * 2 ^ 60 + bit d.cow 59 + bit d.drain 58 + d.addr
def Desc.word1 (d : Desc) : Nat := d.ref * 2 ^ 48 + d.pins * 2 ^ 36 + d.gen % 4096 * 2 ^ 24 + d.mate
def Desc.ofWords (x y : Nat) : Desc :=
  { state := fieldN x 62 2, tier := fieldN x 60 2, drain := bitN x 58, addr := fieldN x 14 38 * 2 ^ 14
    ref := fieldN y 48 16, pins := fieldN y 36 12, gen := fieldN y 24 12, mate := fieldN y 0 24 }

def Tab.descVa (t : Tab) (i : Nat) : Word := bv64 (t.desc + 16 * i)
def btDesc (c : Ctx) (t : Tab) (i : Nat) : B Desc := do
  let x ← btRead c (t.descVa i) 8
  let y ← btRead c (t.descVa i + 8) 8
  pure (.ofWords x y)
def btSetDesc (t : Tab) (i : Nat) (d : Desc) : B Unit := do
  btWrite (t.descVa i) 8 d.word0
  btWrite (t.descVa i + 8) 8 d.word1

/-- TOPH or TOPL of a tier. -/
def Tab.topVa (t : Tab) : Word := bv64 (t.hdr + 0x40)
def topShift (tier : Nat) : Nat := if tier = 1 then 0 else 32
def btTop (c : Ctx) (t : Tab) (tier : Nat) : B Nat := do
  let w ← btRead c t.topVa 8
  pure (fieldN w (topShift tier) 32)
def btSetTop (c : Ctx) (t : Tab) (tier n : Nat) : B Unit := do
  let w ← btRead c t.topVa 8
  let sh := topShift tier
  btWrite t.topVa 8 (w - fieldN w sh 32 * 2 ^ sh + n * 2 ^ sh)

/-! ## Status codes (Table 7.12) -/

def btOk : Nat := 0
def btEmpty : Nat := 1
def btExists : Nat := 2
def btRange : Nat := 3
def btState : Nat := 4
def btRefMax : Nat := 5
def btBusy : Nat := 6
def btUnbound : Nat := 7

def btWord (r : Nat × Nat) : Word := bv64 (r.1 * 2 ^ 56 + r.2 % 2 ^ 56)

/-! ## Pops and pushes (R201, R206; 17 R385) -/

/-- Pops the free stack of a tier: the descriptor index, or the status. -/
def btPop (c : Ctx) (t : Tab) (tier : Nat) : B (Except Nat Nat) := do
  let n ← btTop c t tier
  if n = 0 then pure (.error btEmpty)
  else
    let i ← btRead c (bv64 (t.stack tier + 4 * (n - 1))) 4
    if i = 0 ∨ t.blocks ≤ i then pure (.error btState)
    else
      let d ← btDesc c t i
      if d.state ≠ dFree ∨ d.tier ≠ tier then pure (.error btState)
      else
        btSetTop c t tier (n - 1)
        pure (.ok i)

def btPush (c : Ctx) (t : Tab) (tier i : Nat) : B Unit := do
  let n ← btTop c t tier
  btWrite (bv64 (t.stack tier + 4 * n)) 4 i
  btSetTop c t tier (n + 1)

/-- A descriptor becomes FREE with GEN + 1 and goes onto its tier's stack (R206). -/
def btFree (c : Ctx) (t : Tab) (i : Nat) (d : Desc) : B Unit := do
  btSetDesc t i { d with state := dFree, gen := d.gen + 1, pins := 0, mate := 0, drain := false, ref := 0 }
  btPush c t d.tier i

/-- Writes back a descriptor, freed when it is VALID with no reference and no pin. -/
def btSettle (c : Ctx) (t : Tab) (i : Nat) (d : Desc) : B Unit :=
  if d.state = dValid ∧ d.ref = 0 ∧ d.pins = 0 then btFree c t i d else btSetDesc t i d

/-! ## Names (R197, R198) -/

def nameTable (x : Word) : Nat := (x.extractLsb' 60 4).toNat
def nameSeq (x : Word) : Nat := (x.extractLsb' 32 24).toNat
def nameLb (x : Word) : Nat := (x.extractLsb' 0 16).toNat

/-- What a name leads to: the table, the directory entry and the map entry. -/
structure Named where
  tab : Tab
  dir : Word
  map : Word
  lb : Nat

/-- The header address of a bound table. -/
def boundTable (s : State) (enc : BitVec 16) (n : Nat) : Option Nat :=
  match s.enclave? enc with
  | some e => alook e.tables n
  | none => none

def btName (c : Ctx) (x : Word) : B (Except Nat Named) := do
  let s ← liftM (get : X State)
  if !nameOk x.toNat then pure (.error btRange)
  else match boundTable s c.enc (nameTable x) with
    | none => pure (.error btUnbound)
    | some h =>
      let t ← btHeader c h
      if t.nseq ≤ nameSeq x then pure (.error btRange)
      else
        let dir := bv64 (t.dir + 16 * nameSeq x)
        let w ← btRead c (dir + 8) 8
        if fieldN w 32 17 ≤ nameLb x then pure (.error btRange)
        else
          let b ← btRead c dir 8
          pure (.ok { tab := t, dir, map := bv64 (b + 4 * nameLb x), lb := nameLb x })

def btMap (c : Ctx) (n : Named) : B Nat := do
  let w ← btRead c n.map 4
  pure (fieldN w 0 24)
def btSetMap (n : Named) (i : Nat) : B Unit := btWrite n.map 4 i

def btNblk (c : Ctx) (n : Named) : B Nat := do
  let w ← btRead c (n.dir + 8) 8
  pure (fieldN w 0 17)
def btSetNblk (c : Ctx) (n : Named) (x : Nat) : B Unit := do
  let w ← btRead c (n.dir + 8) 8
  btWrite (n.dir + 8) 8 (w - fieldN w 0 17 + x)

/-! ## Pins (R205, R326, R331) -/

inductive PinAns where
  /-- The block's index, with its descriptor as it was found. -/
  | ok (table i : Nat) (d : Desc) (size : Nat)
  | wait
  | fault
deriving DecidableEq, Repr

/-- Pins descriptor `i`. -/
def btPin (c : Ctx) (t : Tab) (n i : Nat) (writer : Bool) : B PinAns := do
  let d ← btDesc c t i
  if d.state = dFree then pure .fault
  else if writer && (decide (d.state ≠ dValid) || d.cow) then pure .fault
  else if d.drain ∨ d.pins = 4095 then pure .wait
  else
    btSetDesc t i { d with pins := d.pins + 1 }
    pure (.ok n i d t.size)

def btUnpin (c : Ctx) (t : Tab) (i : Nat) : B Unit := do
  let d ← btDesc c t i
  btSettle c t i { d with pins := d.pins - 1 }

/-- Resolves a block name for an engine and pins it: one atomic step, so that the map entry still names it (R326). -/
def resolveBlock (c : Ctx) (x : Word) (writer : Bool) : B PinAns := do
  let r ← btName c x
  match r with
  | .error _ => pure .fault
  | .ok n =>
    let i ← btMap c n
    if i = 0 then pure .fault else btPin c n.tab (nameTable x) i writer

/-- Unpins a block of a bound table. -/
def unpinBlock (c : Ctx) (table i : Nat) : X Unit := do
  let s ← get
  match boundTable s c.enc table with
  | none => pure ()
  | some h => B.step c 6 (do
    let t ← btHeader c h
    btUnpin c t i) .r

/-! ## The bytes of a block, at its physical address (R326, R288) -/

/-- XVAL and VA of a fault on a physical address are not given: an open value (log 2). -/
def openVa : X Word := do
  let s ← get
  let d := s.draw
  set d.2
  pure (bv64 d.1)

def physCheck (c : Ctx) (pa n : Nat) (k : Kind) : X Unit := do
  let s ← get
  let c' := { c with host := false }
  if !(ownerAdmits s c' pa k && ownerAdmits s c' pa .e && decide (regionOf pa ≠ .device)) then
    let v ← openVa
    X.trap cOwner v
  match if k = .w then none else (List.range ((n + 255) / 256)).findSome? fun j => badData s (s.redirect (pa + 256 * j)) with
  | some e =>
    let v ← openVa
    X.trap e v
  | none => pure ()

/-- Whether a block of a bound table lies on a software-managed page, as `btres` found it: an engine goes straight to home there
(R256). -/
def State.blockSmr (s : State) (enc : BitVec 16) (pa : Nat) : Bool :=
  match s.enclave? enc with
  | some e => e.smrBlocks.any fun b => decide (b.2.1 ≤ pa) && decide (pa < b.2.1 + b.2.2)
  | none => false

def physRead (c : Ctx) (pa n : Nat) : X (List Byte) := do
  let s ← get
  let smr := s.blockSmr c.enc pa
  let t := { s with mem := s.mem.settle c.die ((List.range n).map (s.redirect pa + ·)) }
  set t
  physCheck c pa n .r
  let s ← get
  let pa := s.redirect pa
  let r := s.mem.readBytes c.die pa smr smr n
  set { s with mem := r.2.2 }
  pure r.1

def physWrite (c : Ctx) (pa : Nat) (bs : List Byte) : X Unit := do
  physCheck c pa bs.length .w
  let s ← get
  let smr := s.blockSmr c.enc pa
  let pa := s.redirect pa
  let s := s.markDirty pa
  set { s with mem := s.mem.enter 0 c.die smr smr (cellsAt pa bs) }

/-- Copies the bytes from `off` on of a block to another, 256 bytes at a time, as an engine of the die: what landed, and
the fault that ended it. -/
def copyBlock (c : Ctx) (src dst : Nat) : Nat → Nat → X (Nat × Option Stop)
  | 0, off => pure (off, none)
  | k + 1, off => do
    let r ← X.attempt do
      let bs ← physRead c (src + off) 256
      physWrite c (dst + off) bs
    match r with
    | .ok _ => copyBlock c src dst k (off + 256)
    | .error e => pure (off, some e)

/-- An engine of a die, acting for an enclave (R256, R282). -/
def engineCtx (enc : BitVec 16) (die wg : Nat) : Ctx :=
  { enc, die, engine := true, wg := if wg = 0 then none else some wg }

end Sys2Proof.Machine
end

