-- ==== Sys2Proof/Machine/BlockTable.lean ====
section
/-!
DEFINITION. The BT instructions (spec/07 R200 to R206).
-/
namespace Sys2Proof.Machine

/-- A level set of Table 7.1; another level raises PRIVILEGE. -/
def onLevels (ls : List Level) (s : State) (k : Out) : Out := if ls.contains s.cur.level then k else trapOut s cPrivilege

/-- A BT instruction: `CheckScope`, the release of the agent, one step, and the status word in sD (R198, R199). -/
def btForm (d : BitVec 6) (b : Ctx → B (Nat × Nat)) : X Unit := do
  let k ← checkScope 6
  X.release k
  let a ← X.cur
  let r ← B.step a.ctx k (b a.ctx)
  X.finish d (btWord r)

/-- The status of a step that failed, which has changed nothing. -/
def btFail (st : Nat) : B (Nat × Nat) := pure (st, 0)

/-! ## `btres` (R200) -/

/-- The header check of R200. R200 says that it is made and does not list it; DESIGN CHOICE: the reserved bits of word 0x28 are
tested with those of 0x48 to 0x7F, and the stacks must be 4-byte aligned, as their entries are (log 77). -/
def headerOkBt (w5 nb dir desc poolH poolL stackH stackL : Nat) (rest : Bool) : Bool :=
  let log := fieldN w5 0 5
  let nseq := fieldN w5 32 25
  fieldN w5 5 27 == 0 && fieldN w5 57 7 == 0 && decide (14 ≤ log) && decide (log ≤ 20) && decide (1 ≤ nseq)
    && decide (nseq ≤ 2 ^ 24) && decide (1 + fieldN nb 0 32 + fieldN nb 32 32 ≤ 2 ^ 24) && dir % 64 == 0 && desc % 64 == 0
    && poolH % 2 ^ log == 0 && poolL % 2 ^ log == 0 && stackH % 4 == 0 && stackL % 4 == 0 && rest

/-- The frame of one pool block, where the block passes the checks of R200, and whether its page is software-managed. -/
def poolBlock (c : Ctx) (va size : Nat) : X (Option (Nat × Bool)) := do
  let s ← get
  match s.enclave? c.enc with
  | none => pure none
  | some e => do
    let r ← X.attempt do
      let l ← walk1 c va 4 0 e.s1Root
      let p ← stage2 c.enc va l.1 .e
      pure (l, p)
    match r with
    | .ok (l, p) =>
      let within := fun (a en : Nat) => let ps := 2 ^ pageBits (3 - fieldN en 12 2); a / ps == (a + size - 1) / ps
      pure (if bitN l.2.1 5 && bitN p.2 5 && bitN p.2 62 && within va l.2.1 && within l.1 p.2 then
        some (p.1, bitN l.2.1 8) else none)
    | .error (.trap ..) => pure none
    | .error e => throw e

/-- The frames of `n` pool blocks from `va`. -/
def poolFrames (c : Ctx) (size : Nat) : Nat → Nat → X (Option (List (Nat × Bool)))
  | _, 0 => pure (some [])
  | va, n + 1 => do
    let f ← poolBlock c va size
    match f with
    | none => pure none
    | some f => do
      let l ← poolFrames c size (va + size) n
      pure (l.map (f :: ·))

/-- Whether queued, running or suspended work names a table, an engine pins a descriptor of it, or a copy or a move of it
has neither swung nor been abandoned. -/
def Rec.namesTable (r : Rec) (n : Nat) : Bool :=
  (r.kind == 2 && r.task == 1 && r.f 0x30 60 4 == n) || (r.kind == 1 && r.f 0 32 2 == 2 && r.f 0x38 60 4 == n)
def State.tableBusy (s : State) (enc : BitVec 16) (n : Nat) : Bool :=
  (match s.enclave? enc with
    | some e => e.queues.any fun q => (q.hw ++ q.spill).any fun r => r.namesTable n
    | none => false) ||
  s.ops.any fun o => o.enc == enc && match o.kind with
    | .record _ => (o.record.namesTable n && decide (o.state ≠ .done)) || (match o.pin with | some p => p.1 == n | none => false)
    | .cow x .. => nameTable x == n
    | .move t .. => t == n

def stackEntries (base top : Nat) (n : Nat) : List (Word × Nat) := (List.range n).map fun k => (bv64 (base + 4 * k), top - k)

/-- The writes of a bind. -/
def btInit (t : Tab) (frames : List (Nat × Nat)) : B Unit := do
  btSetDesc t 0 {}
  frames.zipIdx.forM fun f => btSetDesc t (f.2 + 1) { tier := f.1.1, addr := f.1.2 }
  (stackEntries t.stackH t.nbh t.nbh ++ stackEntries t.stackL (t.nbh + t.nbl) t.nbl).forM fun w => btWrite w.1 4 w.2
  btWrite t.topVa 8 (t.nbh + t.nbl * 2 ^ 32)

def btBind (c : Ctx) (n : Nat) (hdr : Word) : B (Nat × Nat) := do
  let ws ← (List.range 16).mapM fun k => btRead c (hdr + bv64 (8 * k)) 8
  let w := fun k => ws.getD k 0
  if !headerOkBt (w 5) (w 4) (w 0) (w 1) (w 2) (w 3) (w 6) (w 7) ((ws.drop 9).all (· == 0)) then btFail btRange
  else
    let t ← btHeader c hdr.toNat
    let fh ← liftM (poolFrames c t.size t.poolH t.nbh)
    let fl ← liftM (poolFrames c t.size t.poolL t.nbl)
    match fh, fl with
    | some h, some l =>
      btInit t (h.map (fun f => (1, f.1)) ++ l.map fun f => (2, f.1))
      let smr := ((h ++ l).filter (·.2)).map fun f => (n, f.1, t.size)
      liftM (X.update fun s => s.onEnclave c.enc fun e =>
        { e with tables := aput e.tables n hdr.toNat, smrBlocks := e.smrBlocks ++ smr })
      pure (btOk, t.blocks)
    | _, _ => btFail btRange

/-- The step of `btres`: with `va` = 0 it unbinds the table that `x` numbers, else it binds the table whose header is at `va`.
DESIGN CHOICE: of a misaligned `va` and a number already bound, which R200 does not order, BUSY comes first (log 77). -/
def btRes (c : Ctx) (va x : Word) : B (Nat × Nat) := do
  let s ← liftM (get : X State)
  let n := (x.extractLsb' 0 4).toNat
  if x.toNat / 16 ≠ 0 then btFail btRange
  else if va = 0 then
    if (boundTable s c.enc n).isNone then btFail btUnbound
    else if s.tableBusy c.enc n then btFail btBusy
    else
      liftM (X.update fun s => s.onEnclave c.enc fun e =>
        { e with tables := adel e.tables n, smrBlocks := e.smrBlocks.filter fun b => b.1 != n })
      pure (btOk, 0)
  else if (boundTable s c.enc n).isSome then btFail btBusy
  else if va.toNat % 64 ≠ 0 then btFail btRange
  else btBind c n va

def execBtres (d a b : BitVec 6) (s : State) : Out :=
  onLevels [.s] s (runX (btForm d fun c => btRes c (s.cur.rs a) (s.cur.rs b)) s)

/-! ## `btalloc`, `btfork`, `btrel` (R201, R202, R206) -/

/-- `btalloc` (R201). DESIGN CHOICE: a bad name comes before a bad tier, and both before EXISTS (log 77). -/
def btAlloc (c : Ctx) (x y : Word) : B (Nat × Nat) := do
  let r ← btName c x
  match r with
  | .error e => btFail e
  | .ok n =>
    if y ≠ 1 ∧ y ≠ 2 then btFail btRange
    else
      let m ← btMap c n
      if m ≠ 0 then btFail btExists
      else
        let p ← btPop c n.tab y.toNat
        match p with
        | .error e => btFail e
        | .ok i =>
          let d ← btDesc c n.tab i
          btSetDesc n.tab i { d with state := dValid, ref := 1, pins := 0, gen := d.gen + 1, drain := false, mate := 0 }
          btSetMap n i
          let k ← btNblk c n
          btSetNblk c n (max k (n.lb + 1))
          pure (btOk, i)
def execBtalloc (d a b : BitVec 6) (s : State) : Out :=
  onLevels [.u, .s] s (runX (btForm d fun c => btAlloc c (s.cur.rs a) (s.cur.rs b)) s)

/-- `btfork` (R202). DESIGN CHOICE: where several hold, STATE comes first, then EXISTS, then REFMAX (log 77). -/
def btFork (c : Ctx) (x y : Word) : B (Nat × Nat) := do
  if nameTable x ≠ nameTable y then btFail btRange
  else
    let r ← btName c x
    let q ← btName c y
    match r, q with
    | .error e, _ | .ok _, .error e => btFail e
    | .ok n, .ok m =>
      let i ← btMap c n
      if i = 0 then btFail btState
      else
        let d ← btDesc c n.tab i
        let old ← btMap c m
        if d.state = dFree then btFail btState
        else if old ≠ 0 then btFail btExists
        else if d.ref = 65535 then btFail btRefMax
        else
          btSetDesc n.tab i { d with ref := d.ref + 1 }
          btSetMap m i
          let k ← btNblk c m
          btSetNblk c m (max k (m.lb + 1))
          pure (btOk, i)
def execBtfork (d a b : BitVec 6) (s : State) : Out :=
  onLevels [.u, .s] s (runX (btForm d fun c => btFork c (s.cur.rs a) (s.cur.rs b)) s)

def btRel (c : Ctx) (x y : Word) : B (Nat × Nat) := do
  if y ≠ 0 then btFail btRange
  else
    let r ← btName c x
    match r with
    | .error e => btFail e
    | .ok n =>
      let i ← btMap c n
      if i = 0 then btFail btState
      else
        let d ← btDesc c n.tab i
        if d.state = dFree ∨ d.ref = 0 then btFail btState
        else
          btSetMap n 0
          let k ← btNblk c n
          if k = n.lb + 1 then btSetNblk c n n.lb
          btSettle c n.tab i { d with ref := d.ref - 1 }
          pure (btOk, d.ref - 1)
def execBtrel (d a b : BitVec 6) (s : State) : Out :=
  onLevels [.u, .s] s (runX (btForm d fun c => btRel c (s.cur.rs a) (s.cur.rs b)) s)

/-! ## `btcow` (R203) -/

/-- What the first step of `btcow` finds. -/
inductive CowStart where
  | status (st v : Nat)
  /-- A copy is to run: the descriptors old and new, and REFCNT. -/
  | copy (old new ref : Nat)
deriving DecidableEq, Repr

/-- The pop. -/
def btCow (c : Ctx) (x y : Word) : B CowStart := do
  if 3 ≤ y.toNat then pure (.status btRange 0)
  else
    let r ← btName c x
    match r with
    | .error e => pure (.status e 0)
    | .ok n =>
      let i ← btMap c n
      if i = 0 then pure (.status btState 0)
      else
        let d ← btDesc c n.tab i
        if d.state ≠ dValid then pure (.status btState 0)
        else if d.ref = 1 then pure (.status btOk i)
        else
          let p ← btPop c n.tab (if y = 0 then d.tier else y.toNat)
          match p with
          | .error e => pure (.status e 0)
          | .ok j =>
            let e ← btDesc c n.tab j
            btSetDesc n.tab j { e with state := dValid, ref := 0, pins := 0, drain := false, mate := 0 }
            pure (.copy i j d.ref)

/-- The copy's operation, on the issuing agent's die; the agent is descheduled while it runs. -/
def cowOp (s : State) (x : Word) (old new ref : Nat) (d : BitVec 6) : Op :=
  { id := s.nextId, enc := s.cur.enc, kind := .cow x old new ref d, record := { bytes := [], agent := s.cur.id, die := s.cur.die }
    die := s.cur.die }

def execBtcow (d a b : BitVec 6) (s : State) : Out :=
  onLevels [.u, .s] s (runX (do
    let k ← checkScope 6
    X.release k
    let g ← X.cur
    let r ← B.step g.ctx k (btCow g.ctx (s.cur.rs a) (s.cur.rs b))
    match r with
    | .status st v => X.finish d (btWord (st, v))
    | .copy old new ref => do
      let t ← get
      let o := cowOp t (s.cur.rs a) old new ref d
      set ({ t with nextId := t.nextId + 1, ops := t.ops ++ [o] }.waitFor (.btcow o.id))) s)

/-! ## `btdemote` (R204) -/

/-- The step that pops the mate: the moving descriptor and its mate, or the status. -/
def btDemote (c : Ctx) (x : Word) (up : Bool) : B (Except Nat (Nat × Nat)) := do
  let r ← btName c x
  match r with
  | .error e => pure (.error e)
  | .ok n =>
    let i ← btMap c n
    if i = 0 then pure (.error btState)
    else
      let d ← btDesc c n.tab i
      if d.state ≠ dValid ∨ d.tier ≠ (if up then 2 else 1) then pure (.error btState)
      else
        let p ← btPop c n.tab (if up then 1 else 2)
        match p with
        | .error e => pure (.error e)
        | .ok m =>
          let e ← btDesc c n.tab m
          let st := if up then dPromoting else dDemoting
          btSetDesc n.tab i { d with state := st, mate := m, drain := false }
          btSetDesc n.tab m { e with state := st, ref := 0, pins := 0, mate := i, drain := false }
          pure (.ok (i, m))

/-- The handle of sB, its direction bit apart: a created engine timeline, or PERMISSION (R174). -/
def moveTimeline (s : State) (x : Word) : Option Nat :=
  let h := x &&& ~~~ ((1 : Word) <<< 62)
  if x.getLsbD 63 then none
  else match timelineOf s h with
    | .ok (some (i, _)) => some i
    | _ => none

def execBtdemote (d a b : BitVec 6) (s : State) : Out :=
  onLevels [.u, .s] s (
    match moveTimeline s (s.cur.rs b) with
    | none => trapOut s cPermission (s.cur.rs b)
    | some tl => runX (do
      let up := (s.cur.rs b).getLsbD 62
      let k ← checkScope 6
      X.release k
      let g ← X.cur
      let r ← B.step g.ctx k (btDemote g.ctx (s.cur.rs a) up)
      match r with
      | .error st => X.finish d (btWord (st, 0))
      | .ok (i, m) => do
        let t ← get
        let o : Op :=
          { id := t.nextId, enc := t.cur.enc, kind := .move (nameTable (s.cur.rs a)) i m up tl (s.cur.rs d), record := { bytes := [] }
            die := t.cur.die }
        set { t with nextId := t.nextId + 1, ops := t.ops ++ [o] }
        X.finish d (btWord (btOk, 0))) s)

end Sys2Proof.Machine
end

