-- ==== Sys2Proof/Machine/Enclave.lean ====
section
/-!
DEFINITION. The lifecycle of an enclave (spec/07 R209 to R221; 11 R286, R287): creation, added pages, measurement,
destruction, paging, key slots, and `potq`.
-/
namespace Sys2Proof.Machine

/-! ## Status (R209) -/

def eNoSpace : Nat := 1
def eFrame : Nat := 2
def eParam : Nat := 3
def eState : Nat := 4
def eAuth : Nat := 5
def eBusy : Nat := 6

/-- Effects that may end in a status. -/
abbrev Q := ExceptT Nat X

def Q.refuse {α : Type} (n : Nat) : Q α := ExceptT.mk (pure (.error n))
def Q.need (b : Bool) (n : Nat) : Q Unit := if b then pure () else Q.refuse n
def Q.of {α : Type} (n : Nat) : Option α → Q α
  | some a => pure a
  | none => Q.refuse n
def Q.update (f : State → State) : Q Unit := liftM (X.update f)
def Q.state : Q State := liftM (get : X State)
/-- A value drawn by Ridgepole: a key, a nonce, a choice of identifier. -/
def Q.draw : Q Nat := do
  let s ← Q.state
  Q.update fun _ => s.draw.2
  pure s.draw.1

/-- Writes the result of an ENC instruction, or its status in sD[63:56]. -/
def encForm (d : BitVec 6) (q : Q Word) : X Unit := do
  match ← q.run with
  | .ok w => X.finish d w
  | .error n => X.finish d (bv64 (n * 2 ^ 56))

/-- A parameter block, read with kind R. -/
def Q.block (va : Word) (n : Nat) : Q (List Byte) := liftM (loadBlock va n)

/-! ## Cryptography (log 6) -/

/-- SHAKE256, 64 output bytes. -/
def shake64 (bs : List Byte) : List Byte := ((Config.shake bs) ++ List.replicate 64 0).take 64
def shake32 (bs : List Byte) : List Byte := (shake64 bs).take 32

/-- A block of bytes, the first most significant, with zeros after them. -/
def blockOf (bs : List Byte) : BitVec 128 :=
  ((bs ++ List.replicate 16 0).take 16).foldl (fun (x : BitVec 128) (b : Byte) => (x <<< 8) ||| b.setWidth 128) 0
/-- Byte `i` of a block. -/
def blockByte (x : BitVec 128) (i : Nat) : Byte := x.extractLsb' (120 - 8 * i) 8

/-- Product of GF(2^128) by bits of `x`, the first bit most significant, added to `z`. -/
def gfLoop : Nat → BitVec 128 → BitVec 128 → BitVec 128 → BitVec 128
  | 0, _, _, z => z
  | n + 1, x, v, z =>
    gfLoop n (x <<< 1) (if v.getLsbD 0 then (v >>> 1) ^^^ (0xE1#128 <<< 120) else v >>> 1) (if x.msb then z ^^^ v else z)
def gfMul (x y : BitVec 128) : BitVec 128 := gfLoop 128 x y 0

/-- GHASH of `n` blocks of bytes, from `y` on. -/
def ghash (h : BitVec 128) : Nat → List Byte → BitVec 128 → BitVec 128
  | 0, _, y => y
  | n + 1, bs, y => ghash h n (bs.drop 16) (gfMul (y ^^^ blockOf (bs.take 16)) h)

/-- Block `n` of the counter mode of an IV of 12 bytes. -/
def gcmBlock (key : Nat) (iv : List Byte) (n : Nat) : BitVec 128 := Config.aes key (blockOf iv ||| BitVec.ofNat 128 n)
/-- The hash key; it is not zero (log 6). -/
def gcmHashKey (key : Nat) : BitVec 128 := if Config.aes key 0 = 0 then 1 else Config.aes key 0

/-- AES-256-GCM of bytes: encryption and decryption alike. -/
def gcmCrypt (key : Nat) (iv bs : List Byte) : List Byte :=
  bs.zipIdx.map fun x => x.1 ^^^ blockByte (gcmBlock key iv (2 + x.2 / 16)) (x.2 % 16)
/-- The tag of AES-256-GCM. -/
def gcmTag16 (key : Nat) (iv aad c : List Byte) : List Byte :=
  let h := gcmHashKey key
  let y := ghash h ((c.length + 15) / 16) c (ghash h ((aad.length + 15) / 16) aad 0)
  let y := gfMul (y ^^^ BitVec.ofNat 128 (aad.length * 8 * 2 ^ 64 + c.length * 8)) h
  (List.range 16).map fun i => blockByte (gcmBlock key iv 1 ^^^ y) i
/-- The plaintext under a key, or none where the tag fails. -/
def gcmOpen (key : Nat) (iv aad c tag : List Byte) : Option (List Byte) :=
  if gcmTag16 key iv aad c = tag then some (gcmCrypt key iv c) else none

/-- "NZ96PAGE". -/
def asciiPage : List Byte := [0x4E, 0x5A, 0x39, 0x36, 0x50, 0x41, 0x47, 0x45]

/-- The paging key of an enclave, from its memory key (13 Table 13.3). -/
def pagingKey (memKey : Nat) : Nat := Config.keyOf (shake32 (Config.keyBytes memKey ++ asciiPage))

/-! ## Frames -/

def Nat.inRange (i base n : Nat) : Bool := decide (base ≤ i) && decide (i < base + n)

def PartEntry.hasFrame (p : PartEntry) (i : Nat) : Bool := Nat.inRange i p.hbase p.hcnt || Nat.inRange i p.lbase p.lcnt

/-- The valid children of a partition in a layout. -/
def childrenOf (t : List PartEntry) (p : Nat) : List PartEntry := t.filter fun e => e.valid && e.parent == p

/-- A partition's own frames outside its carve-out: none of its children holds them (13 R343). -/
def State.ownsFrame (s : State) (part i : Nat) : Bool :=
  let p := s.layout.entryAt part none
  p.valid && p.hasFrame i && !Nat.inRange i p.hbase p.hostCo && !(childrenOf s.layout.entries part).any (·.hasFrame i)

/-- A frame that may be assigned in a partition: aligned, FREE, and among its own frames (R209). -/
def State.frameFree (s : State) (part pa : Nat) : Bool :=
  match potIndex pa with
  | none => false
  | some i => decide (pa % 0x40000 = 0) && decide ((s.potAt i).state = .free) && !(s.potAt i).migrating && s.ownsFrame part i

/-- A FREE frame takes its content under an enclave's key (Table 11.6). -/
def State.fillFrame (s : State) (pa : Nat) (st : FrameState) (e : BitVec 16) (bs : List Byte) : State :=
  match potIndex pa with
  | none => s
  | some i =>
    let s := s.claimFrame i st e
    { s with mem := s.mem.wipe pa 0x40000 (cellsAt pa bs) }

/-- Every write to a range, wherever it stands on its way, reaches its home (R284). -/
def State.gather (s : State) (lo n : Nat) : State :=
  let inside := fun p => Nat.inRange p lo n
  let s := (s.cur :: s.others).foldl (fun s a => s.drainWrites a.id) s
  let m := s.mem.toHome fun f => f.bytes.any fun b => inside b.1
  { s with mem := (List.range 6).foldl (fun m d => m.writeBack d inside) m }

/-! ## Stage-2 paths (R286) -/

/-- The entries on the path of an IPA, root first, leaf last; none where a pointer is missing. -/
def State.path2 (s : State) (ipa : Nat) : Nat → Nat → Nat → Option (List Nat)
  | 0, _, _ => none
  | fuel + 1, level, table =>
    let pa := table + 8 * levelIndex ipa level
    let en := s.entryAt pa
    if !hostTable s pa then none
    else if level = 3 then some [pa]
    else if bitN en 0 && bitN en 1 && !malformed true level en then
      (s.path2 ipa fuel (level + 1) (entryNext en)).map (pa :: ·)
    else none

def State.putEntry (s : State) (pa e : Nat) : State := { s with mem := s.mem.hwWrite s.cur.die (natCells (s.redirect pa) e 8) }

/-- Writes a locked leaf for frame `pa` at the end of a path, and sets L on the path. -/
def State.mapLocked (s : State) (path : List Nat) (pa rights : Nat) : State :=
  let s := path.dropLast.foldl (fun s p => s.putEntry p (s.entryAt p ||| 2 ^ 62)) s
  match path.getLast? with
  | some p => s.putEntry p (pa + 2 ^ 62 + rights + 1)
  | none => s

def rR : Nat := 4
def rW : Nat := 8
def rX : Nat := 16
def rE : Nat := 32
def rU : Nat := 1024

/-- Every valid stage-2 leaf below a table: its input address, level and entry. -/
def State.leaves2 (s : State) : Nat → Nat → Nat → Nat → List (Nat × Nat × Nat)
  | 0, _, _, _ => []
  | fuel + 1, level, table, base =>
    let n := match level with | 0 => 256 | 1 => 4096 | _ => 128
    let span := match level with | 0 => 2 ^ 44 | _ => 2 ^ pageBits level
    ((List.range n).map fun k =>
      let en := s.entryAt (table + 8 * k)
      if !bitN en 0 || malformed true level en then []
      else if bitN en 1 then s.leaves2 fuel (level + 1) (entryNext en) (base + k * span)
      else [(base + k * span, level, en)]).flatten

/-- The stage-2 leaves of an enclave that map the frame at `pa`, with the input address of the frame. -/
def State.mapsFrame (s : State) (e : Enclave) (pa : Nat) : List (Nat × Nat) :=
  (s.leaves2 4 0 e.s2Root 0).filterMap fun l =>
    let out := entryOut l.2.2 l.2.1 0
    if out ≤ pa ∧ pa < out + 2 ^ pageBits l.2.1 then some (l.1 + (pa - out), l.2.2) else none

/-! ## `ecreate` (R212, R213) -/

/-- The limits of Table 7.15 on the block itself. -/
def ecreateOk (b : List Byte) : Bool :=
  let w := fun k => wordAt b (8 * k)
  let w0 := w 0
  decide (1 ≤ fieldN w0 0 8) && decide (fieldN w0 0 8 ≤ 128) && decide (1 ≤ fieldN w0 8 8) && decide (fieldN w0 8 8 ≤ 64)
    && fieldN w0 28 4 == 0 && decide (fieldN w0 32 5 ≤ 16) && decide (fieldN w0 37 5 ≤ 16) && decide (fieldN w0 42 6 < 40)
    && fieldN w0 48 16 == 0 && decide (1 ≤ w 1) && decide (w 1 ≤ 2 ^ 20) && decide (w 3 < w 1)
    && (List.range 6).all fun k => w (10 + k) == 0

/-- One QTAB entry. -/
def qtabOk (x : Nat) : Bool :=
  decide (fieldN x 0 3 ≤ 4) && fieldN x 3 13 == 0 && decide (1 ≤ fieldN x 16 13) && decide (fieldN x 16 13 ≤ 4096) && fieldN x 29 3 == 0
def tltabOk (x : Nat) : Bool := decide (fieldN x 0 4 ≤ 10) && fieldN x 5 3 == 0

def Queue.ofWords (x y : Nat) : Queue :=
  { kind := fieldN x 0 3, hwCap := fieldN x 16 13, spillCap := fieldN x 32 32, spillAddr := y }
def Timeline.ofByte (x : Nat) : Timeline := { scope := fieldN x 0 4, soft := bitN x 4 }

/-- The hardware queue entries that the enclaves of a partition hold (10 R257). -/
def State.hwEntries (s : State) (part : Nat) : Nat :=
  ((s.enclaves.filter fun e => e.part == part).map fun e => (e.queues.map (·.hwCap)).foldl (· + ·) 0).foldl (· + ·) 0

/-- An ID that names no live enclave, never 0 and never 0xFFFF (R30, R287); which one is not given. -/
def State.newEncId (s : State) (n : Nat) : Option (BitVec 16) :=
  ((List.range 65534).map fun k => BitVec.ofNat 16 ((n + k) % 65534 + 1)).find? fun e => (s.enclave? e).isNone

def asciiEnc1 : List Byte := [0x4E, 0x5A, 0x39, 0x36, 0x45, 0x4E, 0x43, 0x31]

/-- M0 (R213): the QTAB entries with their hardware-entry field zeroed. -/
def measure0 (b qt tl : List Byte) (nq : Nat) : List Byte :=
  let z := (List.range nq).map fun i =>
    natBytes (wordAt qt (16 * i) - fieldN (wordAt qt (16 * i)) 16 13 * 2 ^ 16) 8 ++ (qt.drop (16 * i + 8)).take 8
  shake64 (asciiEnc1 ++ b.take 8 ++ (b.drop 0x38).take 24 ++ z.flatten ++ tl)

/-- The service view's own tables, and the level-0 pointer to them (R286). -/
def State.serviceTables (s : State) (root : Nat) : State :=
  let v := serviceView
  let s := s.putEntry (root + 8 * levelIndex v 0) (root + 0x38000 + 3)
  let s := s.putEntry (root + 0x38000 + 8 * levelIndex v 1) (root + 0x37C00 + 3)
  let s := s.putEntry (root + 0x37C00 + 8 * levelIndex v 2) (root + 0x37800 + 3)
  s.putEntry (root + 0x37800 + 8 * levelIndex v 3) (root + rR + rW + 1)

def Nat.allDistinct : List Nat → Bool
  | [] => true
  | x :: l => !l.contains x && Nat.allDistinct l

/-- The new enclave: `b` is the parameter block, `qt` and `tl` its tables, `mk` and `kk` the keys drawn, `root` the frame of
the stage-1 root. -/
def newEnclave (b qt tl : List Byte) (id : BitVec 16) (mk kk root : Nat) : Enclave :=
  let w := fun k => wordAt b (8 * k)
  let nq := fieldN (w 0) 8 8
  { id, part := fieldN (w 0) 42 6, nct := fieldN (w 0) 0 8, m := measure0 b qt tl nq, memKey := mk, kemKey := kk
    timelines := tl.map fun x => Timeline.ofByte x.toNat
    queues := (List.range nq).map fun i => Queue.ofWords (wordAt qt (16 * i)) (wordAt qt (16 * i + 8))
    wslots := List.replicate (fieldN (w 0) 32 5) none, sslots := List.replicate (fieldN (w 0) 37 5) none
    ctEntry := w 7, objTab := w 8, xvec0 := bv64 (w 9), s1Root := root, s2Root := w 4 }

/-- The frames become the enclave's, zeroed and mapped by locked leaves at the ends of their paths; the service view's
tables are written; the enclave is BUILDING. -/
def State.addEnclave (s : State) (e : Enclave) (paths : List (Nat × List Nat)) : State :=
  let s := paths.foldl (fun s p => s.fillFrame p.1 .owned e.id []) s
  let s := paths.foldl (fun s p => s.mapLocked p.2 p.1 (rR + rW)) s
  let s := s.serviceTables e.s1Root
  { s with enclaves := s.enclaves ++ [e] }

def ecreate (va : Word) : Q Word := do
  Q.need (va.toNat % 64 == 0) eParam
  let b ← Q.block va 128
  Q.need (ecreateOk b) eParam
  let w := fun k => wordAt b (8 * k)
  let nq := fieldN (w 0) 8 8
  let part := fieldN (w 0) 42 6
  let fr ← Q.block (bv64 (w 2)) (8 * w 1)
  let qt ← Q.block (bv64 (w 5)) (16 * nq)
  let tl ← Q.block (bv64 (w 6)) (fieldN (w 0) 16 12 + 1)
  Q.need ((List.range nq).all fun i => qtabOk (wordAt qt (16 * i))) eParam
  Q.need (tl.all fun x => tltabOk x.toNat) eParam
  let s ← Q.state
  Q.need (decide (s.enclaves.length < 4096)) eNoSpace
  Q.need (decide (s.hwEntries part + (((List.range nq).map fun i => fieldN (wordAt qt (16 * i)) 16 13).foldl (· + ·) 0) ≤ 4096)) eNoSpace
  let frames := (List.range (w 1)).map fun i => wordAt fr (8 * i)
  Q.need (Nat.allDistinct frames && frames.all fun f => s.frameFree part f) eFrame
  let paths ← Q.of eState (frames.mapM fun f => (s.path2 f 4 0 (w 4)).map fun p => (f, p))
  let n ← Q.draw
  let mk ← Q.draw
  let kk ← Q.draw
  let id ← Q.of eNoSpace (s.newEncId n)
  Q.update fun s => s.addEnclave (newEnclave b qt tl id mk kk (frames.getD (w 3) 0)) paths
  pure (id.setWidth 64)

def execEcreate (d a : BitVec 6) (s : State) : Out := onLevels [.h] s (runX (encForm d (ecreate (s.cur.rs a))) s)

/-! ## `eaddpg` and `eextend` (R214, R215) -/

/-- A live enclave in one of the states, else STATE (R211). -/
def Q.enclave (id : Nat) (ok : EnclaveState → Bool) : Q Enclave := do
  let s ← Q.state
  let e ← Q.of eState (s.enclave? (BitVec.ofNat 16 id))
  Q.need (ok e.state) eState
  pure e

/-- The stage-1 path of a VA in the table arena: the pointers to write, the arena cursor after, and the entry of the leaf.
`loc` gives the physical address of a table of the root frame. -/
def arenaPath (s : State) (e : Enclave) (loc : Nat → Nat) (va : Nat) :
    Nat → Nat → Nat → Nat → Bool → Except Nat (List (Nat × Nat) × Nat × Nat)
  | 0, _, _, _, _ => .error eState
  | fuel + 1, level, table, cursor, fresh =>
    let pa := loc table + 8 * levelIndex va level
    if level = 3 then .ok ([], cursor, pa)
    else
      let en := if fresh then 0 else s.entryAt pa
      if bitN en 0 then
        if bitN en 1 then arenaPath s e loc va fuel (level + 1) (entryNext en) cursor false else .error eState
      else
        let size := tableSize (level + 1)
        let off := (cursor + size - 1) / size * size
        if 0x37800 < off + size then .error eNoSpace
        else
          match arenaPath s e loc va fuel (level + 1) (e.s1Root + off) (off + size) true with
          | .ok r => .ok ((pa, e.s1Root + off + 3) :: r.1, r.2)
          | .error n => .error n

def addpgVaOk (va : Nat) : Bool :=
  va % 0x40000 == 0 && decide (va < windowBase) && !(decide (serviceView ≤ va) && decide (va < serviceView + 0x40000))

/-- A page joins a building enclave: `w` are the words of the parameter block, `path` the stage-2 path, `t` the arena's
pointers to write, its cursor after, and the place of the stage-1 leaf. -/
def State.addPage (s : State) (e : Enclave) (w : Nat → Nat) (content : List Byte) (path : List Nat)
    (t : List (Nat × Nat) × Nat × Nat) : State :=
  let code := fieldN (w 0) 16 2
  let meas := bitN (w 0) 18
  let rec1 := natBytes (w 3) 8 ++ natBytes code 1 ++ natBytes (bit meas 0) 1
  let s := s.fillFrame (w 1) (if code = 1 then .code else .owned) e.id content
  let s := t.1.foldl (fun s p => s.putEntry p.1 p.2) s
  let s := s.putEntry t.2.2 (w 1 + 1 + rU + if code = 1 then rR + rX else rR + rW + rE)
  let s := s.mapLocked path (w 1) (if code = 1 then rR + rX + rE else rR + rW + rE)
  s.onEnclave e.id fun x => { x with arena := t.2.1, m := shake64 (x.m ++ [0x01] ++ rec1 ++ if meas then content else []) }

def eaddpg (va : Word) : Q Word := do
  let b ← Q.block va 32
  let w := fun k => wordAt b (8 * k)
  let code := fieldN (w 0) 16 2
  Q.need (decide (code ≤ 1) && fieldN (w 0) 19 45 == 0 && addpgVaOk (w 3)) eParam
  let e ← Q.enclave (fieldN (w 0) 0 16) fun t => decide (t = .building)
  let s ← Q.state
  Q.need (s.frameFree e.part (w 1)) eFrame
  let path ← Q.of eState (s.path2 (w 1) 4 0 e.s2Root)
  let root ← liftM (X.attempt (stage2 e.id serviceView e.s1Root .w))
  let root ← Q.of eState (match root with | .ok r => some r.1 | .error _ => none)
  let t ← match arenaPath s e (fun ipa => root + (ipa - e.s1Root)) (w 3) 4 0 e.s1Root e.arena false with
    | .ok t => pure t
    | .error n => Q.refuse n
  Q.need (!bitN (s.entryAt t.2.2) 0) eState
  let content ← if w 2 = 0 then pure (List.replicate 0x40000 0) else Q.block (bv64 (w 2)) 0x40000
  Q.update fun s => s.addPage e w content path t
  pure 0

def execEaddpg (d a : BitVec 6) (s : State) : Out := onLevels [.h] s (runX (encForm d (eaddpg (s.cur.rs a))) s)

/-- Control thread `j` of an enclave as it starts (R215); 64 threads stand on each base die (R36). DESIGN CHOICE: its WGIDX, LAUNCHID
and HERDMAP, for which Table 4.7 gives `launch` alone and R117's sentence on control threads no value, read zero (log 84). -/
def Enclave.thread (e : Enclave) (j id : Nat) : Agent :=
  ({ id, kind := .control, enc := e.id, part := e.part, die := 4 + j / 64, core := j % 64, status := .ready, level := .s
     pc := bv64 e.ctEntry, slotIdx := j, trap := { vec := e.xvec0 &&& ~~~ 0xFFF } } : Agent).setS 1 (bv64 j)

def State.startThreads (s : State) (e : Enclave) : State :=
  (List.range e.nct).foldl (fun s j => { s with nextId := s.nextId + 1 }.addAgent (e.thread j s.nextId)) s

def eextend (va : Word) : Q Word := do
  let b ← Q.block va 72
  let w0 := wordAt b 0
  Q.need (fieldN w0 17 47 == 0) eParam
  let e ← Q.enclave (fieldN w0 0 16) fun t => decide (t = .building)
  let m := shake64 (e.m ++ [0x02] ++ b.drop 8)
  if bitN w0 16 then
    Q.update fun s => (s.onEnclave e.id fun x => { x with m := shake64 (m ++ [0x03]), state := .running }).startThreads e
  else Q.update fun s => s.onEnclave e.id fun x => { x with m }
  pure 0

def execEextend (d a : BitVec 6) (s : State) : Out := onLevels [.h] s (runX (encForm d (eextend (s.cur.rs a))) s)

/-! ## `edestroy` (R216) -/

/-- The enclave goes to DYING: its agents stop unsaved, its engine work is gone unsignalled, its keys are erased, its
streams go down, its attachments are freed, and its frames go to SCRUBBING. -/
def State.destroy (s : State) (id : BitVec 16) : State :=
  let s := s.dropAgents fun a => decide (a.kind ≠ .host) && a.enc == id
  let ws := (s.wgs.filter fun w => w.enc == id).map (·.id)
  let s := { s with
    ops := s.ops.filter fun o => o.enc != id
    launches := s.launches.filter fun l => l.enc != id
    fills := s.fills.filter fun f => f.enc != id
    chunks := s.chunks.filter fun c => (s.agent? c.agent).isSome
    wgs := s.wgs.filter fun w => !ws.contains w.id
    pot := s.pot.map fun (p : Nat × PotEntry) =>
      if p.2.owner = id ∧ p.2.state ≠ FrameState.free then (p.1, { p.2 with state := .scrubbing }) else p
    links := { s.links with
      attachments := s.links.attachments.map fun (x : Nat × Attachment) => if x.2.encid = id then (x.1, { x.2 with state := 0 }) else x } }
  let s := (s.links.streams.filter fun (x : Nat × Stream) => x.2.lenc == id || (x.2.penc == id && x.2.pmid == Config.mid)).foldl
    (fun (s : State) (x : Nat × Stream) => s.streamDown x.1 cEngine) s
  s.onEnclave id fun e =>
    { e with
      state := .dying, memKey := 0, kemKey := 0, wslots := e.wslots.map fun _ => none, sslots := e.sslots.map fun _ => none
      queues := [], tables := [], held := [], session := none, launches := 0 }

def edestroy (x : Word) : Q Word := do
  Q.need (decide (x.toNat < 2 ^ 16)) eParam
  let e ← Q.enclave x.toNat fun t => decide (t ≠ .dying)
  Q.update fun s => s.destroy e.id
  pure 0

def execEdestroy (d a : BitVec 6) (s : State) : Out := onLevels [.h] s (runX (encForm d (edestroy (s.cur.rs a))) s)

/-! ## Thatch (R335)

Memory holds plaintext in this model; what a Thatch unit stores of a line is a function of it, of the owner's key and of the line's
address. -/

/-- The partition that holds a frame: none of its children holds it (R343). -/
def State.holderOf (s : State) (i : Nat) : Option Nat :=
  (List.range 40).find? fun k =>
    let q := s.layout.entryAt k none
    q.valid && q.hasFrame i && !(childrenOf s.layout.entries k).any (·.hasFrame i)

/-- The host key of a frame (R288): of the partition that holds it, else the device's own. -/
def State.hostKey (s : State) (pa : Nat) : Nat :=
  match (potIndex pa).bind s.holderOf with
  | some k => (alook s.layout.hostKeys k).getD s.layout.deviceHostKey
  | none => s.layout.deviceHostKey

/-- The key of a frame (R288): the owner's enclave key, or the host key of one that is HOSTSHARED or of owner 0. -/
def State.ownerKey (s : State) (pa : Nat) : Nat :=
  let p := s.potOf pa
  if p.owner = 0 ∨ p.state = .hostShared then s.hostKey pa
  else match s.enclave? p.owner with | some e => e.memKey | none => 0

/-- The ciphertext of line `l`, one AES-256-XTS data unit with PA[51:8] as the tweak. -/
def State.lineCipher (s : State) (l : Nat) : List Byte := Config.xtsEnc (s.ownerKey (l * 256)) l (s.mem.homeBytes (l * 256) 256)

/-- Its tag: 64 bits of KMAC256 over the ciphertext, PA[51:8] and OWNER. -/
def State.lineTag (s : State) (l : Nat) : List Byte :=
  (Config.kmac (s.ownerKey (l * 256)) (s.lineCipher l ++ natBytes l 8 ++ natBytes (s.potOf (l * 256)).owner.toNat 2)).take 8

/-! ## `eevict` and `eload` (R217, R218) -/

/-- The block names an enclave, with the bits above ENCID zero. -/
def Q.runningOf (w : Nat) : Q Enclave := do
  Q.need (decide (w < 2 ^ 16)) eParam
  Q.enclave w fun t => decide (t = .running)

/-- The trailer of an evicted page. -/
def evictTrailer (version ipa type : Nat) (tag : List Byte) : List Byte :=
  natBytes version 8 ++ natBytes ipa 8 ++ natBytes type 8 ++ tag ++ List.replicate 24 0

/-- What a read of a whole frame meets (R335, R379; log 91). -/
def State.badPage (s : State) (pa : Nat) : Option Cause := (List.range 1024).findSome? fun k => badData s (s.redirect (pa + 256 * k))

def eevict (va : Word) : Q Word := do
  let b ← Q.block va 32
  let w := fun k => wordAt b (8 * k)
  let e ← Q.runningOf (w 0)
  let i ← Q.of eFrame (if w 1 % 0x40000 = 0 then potIndex (w 1) else none)
  let s ← Q.state
  let p := s.potAt i
  Q.need ((decide (p.state = .owned) || decide (p.state = .code)) && p.owner == e.id) eState
  let maps := s.mapsFrame e (w 1)
  Q.need (!maps.any fun l => bitN l.2 62) eState
  Q.need maps.isEmpty eBusy
  let ipa := (alook e.frameIpa i).getD (w 1)
  let version := e.version + 1
  let s := s.gather (w 1) 0x40000
  let key := pagingKey e.memKey
  let iv := natBytes version 12
  match s.badPage (w 1) with
  | some k => liftM (X.trap k (bv64 (w 1)) : X Unit)
  | none => pure ()
  let c := gcmCrypt key iv (s.pageBytes (w 1) 0x40000)
  Q.update fun _ => s
  liftM (storeBlock (bv64 (w 2)) (c ++ evictTrailer version ipa (if p.state = .code then 1 else 0) (gcmTag16 key iv [] c)))
  Q.update fun s =>
    (s.setPot i { p with state := .scrubbing }).onEnclave e.id fun x =>
      { x with version, latest := aput x.latest ipa version, frameIpa := adel x.frameIpa i
               latestType := aput x.latestType ipa (if p.state = .code then 1 else 0) }
  pure (bv64 (version % 2 ^ 56))

def execEevict (d a : BitVec 6) (s : State) : Out := onLevels [.h] s (runX (encForm d (eevict (s.cur.rs a))) s)

def eload (va : Word) : Q Word := do
  let b ← Q.block va 24
  let w := fun k => wordAt b (8 * k)
  let e ← Q.runningOf (w 0)
  let s ← Q.state
  Q.need (s.frameFree e.part (w 1)) eFrame
  let i ← Q.of eFrame (potIndex (w 1))
  let c ← Q.block (bv64 (w 2)) 0x40000
  let t ← Q.block (bv64 (w 2) + 0x40000) 64
  let version := wordAt t 0
  let ipa := wordAt t 8
  let page ← Q.of eAuth (gcmOpen (pagingKey e.memKey) (natBytes version 12) [] c ((t.drop 24).take 16))
  Q.need (alook e.latest ipa == some version) eAuth
  Q.update fun s =>
    (s.fillFrame (w 1) (if alook e.latestType ipa = some 1 then .code else .owned) e.id page).onEnclave e.id fun x =>
      { x with frameIpa := aput x.frameIpa i ipa }
  pure 0

def execEload (d a : BitVec 6) (s : State) : Out := onLevels [.h] s (runX (encForm d (eload (s.cur.rs a))) s)

/-! ## Key slots (R219, R220) -/

def asciiKek : List Byte := [0x4E, 0x5A, 0x39, 0x36, 0x4B, 0x45, 0x4B]

/-- KEK, and the imported key that it opens. -/
def openImported (e : Enclave) (b : List Byte) : Option Nat :=
  let ss := Config.kemDecaps e.kemKey (b.drop 0x40)
  let kek := Config.keyOf (shake32 (ss ++ asciiKek ++ natBytes e.id.toNat 2 ++ b.take 1 ++ (b.drop 8).take 8))
  (gcmOpen kek (List.replicate 12 0) (b.take 16) ((b.drop 0x10).take 32) ((b.drop 0x30).take 16)).map Config.keyOf

def Enclave.slots (e : Enclave) (storage : Bool) : List (Option Nat) := if storage then e.sslots else e.wslots
def Enclave.setSlot (e : Enclave) (storage : Bool) (k : Nat) (x : Option Nat) : Enclave :=
  if storage then { e with sslots := e.sslots.set k x } else { e with wslots := e.wslots.set k x }

def kimport (va : Word) : Q Word := do
  Q.need (va.toNat % 64 == 0) eParam
  let b ← Q.block va 1632
  let s ← Q.state
  liftM (X.check (wordAt b 8 == s.layout.gen.toNat) cLayoutStale s.layout.gen)
  let w0 := wordAt b 0
  Q.need (decide (w0 < 32)) eParam
  let e ← Q.of eState (s.enclave? s.cur.enc)
  let st := bitN w0 4
  match (e.slots st)[w0 % 16]? with
  | none => Q.refuse eParam
  | some (some _) => Q.refuse eState
  | some none => do
    let k ← Q.of eAuth (openImported e b)
    Q.update fun s => s.onEnclave e.id fun x => x.setSlot st (w0 % 16) (some k)
    pure 0

def execKimport (d a : BitVec 6) (s : State) : Out := onLevels [.s] s (runX (encForm d (kimport (s.cur.rs a))) s)

def execKerase (a : BitVec 6) (s : State) : Out :=
  onLevels [.s] s (
    let x := s.cur.rs a
    if x.toNat / 32 ≠ 0 then trapOut s cSoftware x
    else .next (s.onEnclave s.cur.enc fun e => e.setSlot (x.getLsbD 4) (x.toNat % 16) none).advance)

/-! ## `potq` (R221) -/

def potqWord (s : State) (x : Word) : Word :=
  match potIndex x.toNat with
  | none => BitVec.allOnes 64
  | some i =>
    let p := s.potAt i
    if s.cur.level = .s ∧ p.owner ≠ s.cur.enc then { p with owner := 0 }.word else p.word

def execPotq (d a : BitVec 6) (s : State) : Out := onLevels [.s, .h] s (.next (s.write d (potqWord s (s.cur.rs a))))

end Sys2Proof.Machine
end

