-- ==== Sys2Proof/Machine/FrameEvents.lean ====
section
/-!
DEFINITION. Frames as Ridgepole handles them: the scrub (spec/11 R290 to R292), page migration through the channels
(R305 to R307), and the end of a DYING enclave (07 R210).
-/
namespace Sys2Proof.Machine

/-! ## The scrub -/

/-- The first of `n` indices from `i` on of which `p` holds. -/
def firstFrom (p : Nat → Bool) : Nat → Nat → Option Nat
  | 0, _ => none
  | n + 1, i => if p i then some i else firstFrom p n (i + 1)

/-- The frames of the part. -/
def potFrames : Nat := 6291456

/-- A frame that no entry lists and that the scrubber has yet to take. -/
def State.lateScrubbing (s : State) (i : Nat) : Bool :=
  (alook s.pot i).isNone && decide ((s.potBase i).state = .scrubbing) && s.trainedFrame i

/-- The least SCRUBBING frame from an index on whose memory has trained. -/
def State.scrubFrom (s : State) (lo : Nat) : Option Nat :=
  let listed := (s.pot.filter fun x => decide (x.2.state = .scrubbing) && s.trainedFrame x.1 && decide (lo ≤ x.1)).map (·.1)
  let from' := max lo 524288
  let late := if s.rp.lateScrub then firstFrom s.lateScrubbing (potFrames - from') from' else none
  (late.toList ++ listed).min?

/-- The next SCRUBBING frame in ascending index from the cursor, wrapping to index 0. -/
def State.nextScrub (s : State) : Option Nat := (s.scrubFrom s.rp.scrubCursor).or (s.scrubFrom 0)

/-- The scrubber takes a frame when it has none. -/
def execScrubFrameStart (s : State) : Out :=
  .next (if s.rp.scrubbing.isNone then { s with rp := { s.rp with scrubbing := s.nextScrub } } else s)

/-- A DYING enclave leaves when the last of its frames is FREE: its ID is free, and LK clears wherever it stood for it
(R210, R285). -/
def State.freeIds (s : State) : State :=
  let gone := (s.enclaves.filter fun e => decide (e.state = .dying)
    && !s.pot.any fun x => x.2.owner == e.id && decide (x.2.state ≠ .free)).map (·.id)
  if gone.isEmpty then s
  else
    (s.pot.filter fun x => x.2.lk && gone.contains x.2.lkFor).foldl (fun s x => s.setPot x.1 { x.2 with lk := false, lkFor := 0 })
      { s with enclaves := s.enclaves.filter fun e => !gone.contains e.id }

/-- The scrub of a frame: every copy of its lines is dropped, it is written with zeros that carry no valid tag, and it is
FREE; the cursor goes to the next index. -/
def State.scrub (s : State) (i : Nat) : State :=
  let base := frameAddr i
  let s := s.mapAgents fun a =>
    { a with leaving := a.leaving.map fun w => { w with bytes := w.bytes.filter fun b => !Nat.inRange b.1 base 0x40000 } }
  let m := s.mem.wipe base 0x40000 []
  let m := { m with
    untagged := if m.untagged.contains (base / 0x40000) then m.untagged else base / 0x40000 :: m.untagged }
  ({ s with mem := m, rp := { s.rp with scrubbing := none, scrubCursor := i + 1 } }.setPot i {}).freeIds

/-- A chunk that has not landed touches the frame: its scrub waits (05 R151). -/
def State.chunkIn (s : State) (i : Nat) : Bool :=
  let hit := fun (loc : Option Nat) (l : List Nat) => loc.isNone && l.any fun p => Nat.inRange p (frameAddr i) 0x40000
  s.chunks.any fun c => hit c.srcLocal c.src || hit c.dstLocal c.dst

def execScrubFrameEnd (s : State) : Out :=
  .next (match s.rp.scrubbing with
    | some i => if (s.potAt i).state = .scrubbing then (if s.chunkIn i then s else s.scrub i) else { s with rp := { s.rp with scrubbing := none } }
    | none => s)

/-! ## Page migration -/

def State.channel (s : State) (k : Nat) : MigChannel := s.channels.toList.getD k {}
def State.onChannel (s : State) (k : Nat) (f : MigChannel → MigChannel) : State :=
  { s with channels := s.channels.setIfInBounds k (f (s.channel k)) }

/-- Whether a word is a valid 256 KiB leaf, of stage 2 or of the host table, whose OA is the frame. -/
def leafOf (en src : Nat) : Bool :=
  bitN en 0 && !bitN en 1 && fieldN en 18 34 == src && (!malformed true 3 en || !malformed false 3 en)

/-- The two frames of a migration, or none where it is refused (R305). -/
def State.migrationFrames (s : State) (c : MigChannel) : Option (Nat × Nat) :=
  match potIndex (c.src.toNat * 0x40000), potIndex (c.dst.toNat * 0x40000) with
  | some i, some j =>
    let a := s.potAt i
    let leaf := c.leaf.toNat * 8
    if decide (a.state ≠ .free) && decide (a.state ≠ .scrubbing) && decide (a.state ≠ .save) && !a.migrating && !ridgepoleFrame i
        && decide ((s.potAt j).state = .free) && !(s.potAt j).migrating && hostTable s leaf && leafOf (s.entryAt leaf) c.src.toNat then
      some (i, j)
    else none
  | _, _ => none

/-- GO: refused, or DST takes the STATE and the OWNER of SRC and both set MIG (R306 step 1). DESIGN CHOICE: SRC, LEAF and DST are read
when the channel acts on GO, not when GO was written (log 96). -/
def State.migrationGo (s : State) (k : Nat) : State :=
  let c := s.channel k
  if !c.go then s
  else match s.migrationFrames c with
    | none => s.onChannel k fun c => { c with go := false, status := 3 }
    | some (i, j) =>
      let p := s.potAt i
      let s := (s.setPot i { p with migrating := true }).setPot j { s.potAt j with state := p.state, owner := p.owner, migrating := true }
      let s := { s with mem := s.mem.clearFrame (frameAddr j) }
      s.onChannel k fun c => { c with go := false, status := 1, copied := 0, run := some (c.src.toNat, c.dst.toNat, c.leaf.toNat * 8) }

def execMigrationGo (ch : Nat) (s : State) : Out := .next (s.migrationGo ch)

/-- The place of an address once the line at `a` has moved to `b`. -/
def moved (a b p : Nat) : Nat := if Nat.inRange p a 256 then b + (p - a) else p

/-- A mark on line `a` goes to line `b`, which is written whole (R379). -/
def moveMark (a b : Nat) (l : List Nat) : List Nat :=
  let l' := l.filter fun x => x != a && x != b
  if l.contains a then b :: l' else l'

/-- One line moves: its home value, the copies of it, and every write to it still on its way, which home forwards (R307). -/
def MemSys.moveLine (m : MemSys) (a b : Nat) : MemSys :=
  let keep := fun p => !Nat.inRange p a 256 && !Nat.inRange p b 256
  let at' := moved a b
  { m with
    home := writeCells (m.home.filter fun c => keep c.1) ((m.home.filter fun c => Nat.inRange c.1 a 256).map fun c => (at' c.1, c.2))
    homeMeta := (m.homeMeta.filter fun c => Nat.inRange c.1 a 256).foldl (fun l c => aput l (at' c.1) c.2)
      (m.homeMeta.filter fun c => keep c.1)
    dies := m.dies.map fun d => d.mapCopies fun c => { c with addr := at' c.addr }
    flight := m.flight.map fun f => { f with bytes := f.bytes.map fun x => (at' x.1, x.2) }
    poison := moveMark (a / 256) (b / 256) m.poison
    badTags := moveMark (a / 256) (b / 256) m.badTags }

/-- The line moves for what still has to reach it: the writes of agents, chunks that have not landed, and fills whose leaf it
holds. A line of a retired stack gives no data, and its place is poisoned (R379). -/
def State.moveLine (s : State) (a b : Nat) : State :=
  let gone := s.retired a
  let s := s.mapAgents fun g => { g with leaving := g.leaving.map fun w => { w with bytes := w.bytes.map fun x => (moved a b x.1, x.2) } }
  let at' := fun (loc : Option Nat) (l : List Nat) => if loc.isNone then l.map (moved a b) else l
  { s with
    mem := let m := s.mem.moveLine a b; if gone && !m.poison.contains (b / 256) then { m with poison := b / 256 :: m.poison } else m
    chunks := s.chunks.map fun (c : Chunk) => { c with src := at' c.srcLocal c.src, dst := at' c.dstLocal c.dst }
    fills := s.fills.map fun (f : Fill) => { f with leaf := moved a b f.leaf } }.markDirty b

/-- The end of a migration (R306 steps 3 to 6): the leaf swings, keeping L, and the copies of the frame are written back and
dropped. -/
def State.migrationEnds (s : State) (k i j src dst leaf : Nat) : State :=
  let en := s.entryAt leaf
  let s := if leafOf en src then
      { s with mem := s.mem.hwWrite 4 (natCells (s.redirect leaf) (en - src * 2 ^ 18 + dst * 2 ^ 18) 8) }
    else s
  let inside := fun p => Nat.inRange p (frameAddr j) 0x40000
  let m := (List.range 6).foldl (fun m d => (m.writeBack d inside).drop d fun c => inside c.addr) s.mem
  let ipa := frameAddr i
  let s := ({ s with mem := m }.setPot i { s.potAt i with state := .scrubbing }).setPot j { s.potAt j with migrating := false }
  (s.onEnclave (s.potAt j).owner fun e =>
    { e with frameIpa := aput (adel e.frameIpa i) j ((alook e.frameIpa i).getD ipa) }).onChannel k fun c => { c with status := 2, run := none }

/-- A migration whose frames have been given up meanwhile ends where it stands. -/
def State.migrationLapses (s : State) (k j : Nat) : State :=
  (s.setPot j { s.potAt j with migrating := false }).onChannel k fun c => { c with status := 2, run := none }

/-- One line is copied to DST and marked copied; after the last the migration ends. -/
def State.migrationLine (s : State) (k : Nat) : State :=
  let c := s.channel k
  let r := c.run.getD (0, 0, 0)
  match potIndex (r.1 * 0x40000), potIndex (r.2.1 * 0x40000) with
  | some i, some j =>
    if decide ((s.potAt i).state = .scrubbing) || !(s.potAt i).migrating || !(s.potAt j).migrating then s.migrationLapses k j
    else
      let s := (s.moveLine (frameAddr i + 256 * c.copied) (frameAddr j + 256 * c.copied)).onChannel k fun c => { c with copied := c.copied + 1 }
      if c.copied + 1 < 1024 then s else s.migrationEnds k i j r.1 r.2.1 r.2.2
  | _, _ => s

def execMigrationLineCopy (ch : Nat) (s : State) : Out :=
  .next (if (s.channel ch).status = 1 then s.migrationLine ch else s)

end Sys2Proof.Machine
end

