-- ==== Sys2Proof/Machine/Save.lean ====
section
/-!
DEFINITION. The save and restore instructions (spec/07 R222 to R224).
-/
namespace Sys2Proof.Machine

/-- The size of the acting group's save area (R311). -/
def areaOf (s : State) : Nat := match (s.enclave? s.cur.enc).bind (·.save) with | some f => areaSize f | none => 0

/-- The offset operand: a multiple of 8, at or past the group record. -/
def saveOffsetOk (x : Word) : Bool := x.toNat % 8 == 0 && decide (0x400 ≤ x.toNat)

/-- A write of `savev` or `sdone` that meets a STAGE2 fault blocks the save (R317); any other trap is one in the routine
(R310). -/
def runSave (x : X Unit) (s : State) : Out :=
  match x s with
  | .error (.trap c v ipa) t =>
    if c = cStage2 then .next ((s.keepClaims t).blockSave s.cur.id ipa)
    else .next (s.stopped t (.trap c v ipa))
  | r => .next (s.after r)

/-! ## `savev` (R222) -/

/-- `savev` writes one save record; run at level S (R187), inside the save routine (R224). -/
def execSavev (d a b : BitVec 6) (s : State) : Out := onLevels [.s] s <|
  if !s.cur.trap.inSave then illegal (.savev d a b) s
  else
    let x := (s.cur.rs a).toNat
    let o := s.cur.rs b
    let first := fieldN x 0 8
    let n := fieldN x 8 8 + 1
    let cls := fieldN x 16 2
    if x / 2 ^ 18 ≠ 0 ∨ !saveRangeOk s.cur.budget first n cls then trapOut s cSoftware (s.cur.rs a)
    else if !saveOffsetOk o then trapOut s cSoftware o
    else
      let bs := saveRecord s.cur.regs s.cur.gsize (s.cur.snapshot.getD s.cur.regs.s) first n cls
      if areaOf s < o.toNat + bs.length then trapOut s cPermission o
      else runSave (do
        saveWrite s.cur.enc s.cur.die (s.cur.trap.saveBase.toNat + o.toNat) bs
        X.finish d (bv64 bs.length)) s

/-! ## `restv` (R223) -/

/-- The bytes of a lane register's body by its tag; a tag of 3 is none. -/
def bodyLength (g tag : Nat) : Option Nat := match tag with | 0 => some 8 | 1 => some 8 | 2 => some (4 * g) | _ => none

def laneOfBytes (tag g : Nat) (bs : List Byte) : LaneReg :=
  let h := fun k => BitVec.ofNat 32 (bytesNat ((bs.drop (4 * k)).take 4))
  match tag with
  | 0 => .u (h 0)
  | 1 => .a (h 0) (h 1)
  | _ => .g ((List.range g).map h)

/-- Cuts the bodies of lane registers out of a record. -/
def laneBodies (g : Nat) : List Nat → List Byte → List LaneReg
  | [], _ => []
  | t :: ts, bs =>
    let n := (bodyLength g t).getD 0
    laneOfBytes t g (bs.take n) :: laneBodies g ts (bs.drop n)

/-- The length of a record's part after the header and its tag words, with its tags. -/
def recordBody (g n cls tags : Nat) : Option (Nat × List Nat) :=
  match cls with
  | 0 =>
    let ts := (List.range n).map fun i => fieldN tags (2 * i) 2
    (ts.mapM (bodyLength g)).map fun l => (l.foldl (· + ·) 0, ts)
  | 1 => some (n * maskBytes g, [])
  | 2 => some (n * 16, [])
  | _ => some (n * 8, [])

def setFrom {α : Type} {k : Nat} (v : Vector α k) (first : Nat) (l : List α) : Vector α k :=
  l.zipIdx.foldl (fun v x => v.setIfInBounds (first + x.2) x.1) v

/-- The registers of a record take their values (R223); scalars go to the pending copy (R315). -/
def Agent.restore (a : Agent) (first n cls : Nat) (tags : List Nat) (bs : List Byte) : Agent :=
  let piece := fun w i => (bs.drop (w * i)).take w
  match cls with
  | 0 => { a with regs := { a.regs with v := setFrom a.regs.v first (laneBodies a.gsize tags bs) } }
  | 1 =>
    let w := maskBytes a.gsize
    let ms := (List.range n).map fun i => BitVec.ofNat 1024 (bytesNat (piece w i)) &&& allLive a.gsize
    { a with regs := { a.regs with m := setFrom a.regs.m first ms } }
  | 2 =>
    let q := (List.range n).map fun i =>
      { val := bv64 (bytesNat ((piece 16 i).take 8)), seq := BitVec.ofNat 16 (bytesNat ((piece 16 i).drop 8)) : QReg }
    { a with regs := { a.regs with q := setFrom a.regs.q first q } }
  | _ =>
    let l := (List.range n).map fun i => bv64 (bytesNat (piece 8 i))
    { a with pendingScalars := some (setFrom (a.pendingScalars.getD (.replicate 64 0)) first l) }

/-- One record of the save area of the acting group: reads it, checks it and restores its registers. -/
def restoreRecord (d : BitVec 6) (o : Word) : X Unit := do
  let s ← get
  let a := s.cur
  let area := areaOf s
  let base := a.trap.saveBase.toNat + o.toNat
  X.check (saveOffsetOk o) cSoftware o
  X.check (decide (o.toNat + 8 ≤ area)) cPermission o
  let h := bytesNat (← saveRead a.enc base 8)
  let first := fieldN h 0 8
  let n := fieldN h 8 8 + 1
  let cls := fieldN h 16 2
  X.check (fieldN h 32 11 == a.gsize && fieldN h 18 14 == 0 && fieldN h 43 21 == 0) cSoftware o
  X.check (saveRangeOk a.budget first n cls) cSoftware o
  let tw := if cls = 0 then 8 * ((n + 31) / 32) else 0
  X.check (decide (o.toNat + 8 + tw ≤ area)) cPermission o
  let tagBytes ← if tw = 0 then pure [] else saveRead a.enc (base + 8) tw
  let tags := bytesNat tagBytes
  match recordBody a.gsize n cls tags with
  | none => X.trap cSoftware o
  | some (len, ts) => do
    X.check (decide (o.toNat + 8 + tw + len ≤ area)) cPermission o
    let bs ← saveRead a.enc (base + 8 + tw) len
    X.onCur fun a => a.restore first n cls ts bs
    X.finish d (bv64 (8 + tw + len))

/-- `restv` restores one record; run at level S (R187), inside a restore routine (R224). -/
def execRestv (d b : BitVec 6) (s : State) : Out := onLevels [.s] s <|
  if !s.cur.trap.inRestore then illegal (.restv d b) s else runX (restoreRecord d (s.cur.rs b)) s

/-! ## `sdone` (R224) -/

/-- The group leaves its core (R310, R315); what it stood for is in its save area. -/
def Agent.leaveSaved (a : Agent) : Agent :=
  { a with
    status := .saved false none
    savedWidth := a.width
    snapshot := none
    pc := a.trap.spc
    level := a.trap.level
    trap := { a.trap with inSave := false, used := 0, forced := false } }

/-- `sdone` ends the save routine; run at level S (R187), inside the save routine (R224). -/
def execSdone (a : BitVec 6) (s : State) : Out := onLevels [.s] s <|
  if !s.cur.trap.inSave then illegal (.sdone a) s
  else
    let x := s.cur.rs a
    if !saveOffsetOk x || decide (areaOf s < x.toNat) then trapOut s cSoftware
    else runSave (do
      let t := s.cur.trap
      saveWrite s.cur.enc s.cur.die t.saveBase.toNat (groupRecord s.cur (resumeWord t.spc t.level) x.toNat false)
      X.onCur (·.leaveSaved)) s

end Sys2Proof.Machine
end

