-- ==== Sys2Proof/Machine/BlockEvents.lean ====
section
/-!
DEFINITION. The copy and the swing of `btcow` (spec/07 R203), block moves (R204), and `eresume` (R207).
-/
namespace Sys2Proof.Machine

/-! ## `btcow` -/

/-- Pins the old descriptor of a copy as a reader, once PINS has room: its address and size, or none while it waits. A FREE
descriptor faults ENGINE (R205). -/
def pinFor (c : Ctx) (table i : Nat) : X (Option (Desc × Nat)) := do
  let s ← get
  match boundTable s c.enc table with
  | none => pure none
  | some h => do
    let r ← B.step c 6 (do
      let t ← btHeader c h
      btPin c t table i false) .r
    match r with
    | .ok _ _ d n => pure (some (d, n))
    | .wait => pure none
    | .fault => do
      let v ← openVa
      X.trap cEngine v

/-- The popped descriptor goes back to its stack as FREE. -/
def pushBack (c : Ctx) (t : Tab) (j : Nat) : B Unit := do
  let e ← btDesc c t j
  btSetDesc t j { e with state := dFree, ref := 0, pins := 0, drain := false, mate := 0 }
  btPush c t e.tier j

/-- The swing: the map entry goes from old to new; where the entry has changed, or the name no longer leads to one, the new
descriptor is pushed back. -/
def cowSwing (c : Ctx) (x : Word) (old new : Nat) : B (Nat × Nat) := do
  let r ← btName c x
  match r with
  | .error e => do
    let s ← liftM (get : X State)
    match boundTable s c.enc (nameTable x) with
    | none => btFail e
    | some h =>
      let t ← btHeader c h
      pushBack c t new
      btFail e
  | .ok n =>
    let i ← btMap c n
    if i ≠ old then
      pushBack c n.tab new
      btFail btState
    else
      let e ← btDesc c n.tab new
      let d ← btDesc c n.tab old
      btSetMap n new
      btSetDesc n.tab new { e with ref := 1, gen := e.gen + 1 }
      btSettle c n.tab old { d with ref := d.ref - 1 }
      pure (btOk, new)

/-- A copy or a swing that faults: the popped descriptor goes back (R304). -/
def cowUndo (c : Ctx) (table new : Nat) : X Unit := do
  let s ← get
  match boundTable s c.enc table with
  | none => pure ()
  | some h => B.step c 6 do
    let t ← btHeader c h
    pushBack c t new

/-- The copy of the old block to the new one, with its pin; false while it waits for the pin. -/
def cowCopy (c : Ctx) (table old new : Nat) : X Bool := do
  let p ← pinFor c table old
  let s ← get
  match p, boundTable s c.enc table with
  | some (d, size), some h => do
    let e ← B.step c 6 (do
      let t ← btHeader c h
      btDesc c t new) .r
    let r ← copyBlock c d.addr e.addr (size / 256) 0
    match r.2 with
    | some f => throw f
    | none => do
      unpinBlock c table old
      pure true
  | _, _ => pure false

/-- All of the effects, or none of them but what walks have claimed and locked, with the reason. -/
def X.whole {α : Type} (x : X α) : X (Except Stop α) := fun s =>
  match x s with
  | .ok a t => .ok (.ok a) t
  | .error e t => .ok (.error e) (s.keepClaims t)

/-- A `btcow` whose copy or swing has faulted: D′ goes back, and the fault is taken precisely at the instruction (R304). -/
def faultCow (o : Op) (x : Word) (new : Nat) (e : Cause) (v : Word) (ipa : Nat) : X Unit := do
  let _ ← X.whole (cowUndo (engineCtx o.enc o.die 0) (nameTable x) new)
  X.update fun s => ((s.dropOp o.id).onCur fun a => { a with status := .ready }).takeTrap e v ipa

/-- Ends the `btcow` of the acting agent, or leaves it waiting for a pin. -/
def finishCow (o : Op) (x : Word) (old new : Nat) (d : BitVec 6) : X Unit := do
  let p ← X.whole (cowCopy (engineCtx o.enc o.die 0) (nameTable x) old new)
  match p with
  | .ok false => pure ()
  | .error (.trap e v ipa) => faultCow o x new e v ipa
  | .error e => throw e
  | .ok true => do
    let s ← get
    let r ← X.whole (B.step s.cur.ctx (s.clampFor s.cur.part 6) (cowSwing s.cur.ctx x old new))
    match r with
    | .ok r => do
      X.update fun s => (s.dropOp o.id).onCur fun a => { a with status := .ready }
      X.finish d (btWord r)
    | .error (.trap e v ipa) => faultCow o x new e v ipa
    | .error e => throw e

/-- What a step of the part did; where one of its own accesses stopped, the state before. -/
def eventX (x : X Unit) (s : State) : State :=
  match x s with
  | .ok _ t => t
  | .error (.fill ..) t => s.keepWalk t
  | .error _ t => s.keepClaims t

/-- The `btcow` of an agent ends, if it waits for one. -/
def State.endCow (s : State) (id : Nat) : State :=
  let t := s.focus id
  match t.cur.status with
  | .waiting (.btcow k) =>
    match t.op? k with
    | some o =>
      match o.kind with
      | .cow x old new _ d => if t.cur.id = id then eventX (finishCow o x old new d) t else s
      | _ => s
    | none => s
  | _ => s

def execBtcowCopyDone (id : Nat) (s : State) : Out := .next (s.endCow id)

/-! ## Block moves -/

/-- Whether the copy of a move has landed before: a move resumed after a fault of its swing has only that to do. -/
def landedMove (c : Ctx) (table i : Nat) : X Bool := do
  let s ← get
  match boundTable s c.enc table with
  | none => pure false
  | some h => B.step c 6 (do
      let t ← btHeader c h
      let d ← btDesc c t i
      pure d.drain) .r

/-- The copy of a move: the source is pinned as a reader while it runs; where a byte of it faults the move suspends at the bytes
that have landed, else DRAIN is set. -/
def moveBytes (o : Op) (table i m : Nat) : X Unit := do
  let c := engineCtx o.enc o.die 0
  if ← landedMove c table i then X.update fun s => s.onOp o.id fun o => { o with state := .waiting }
  else
  let p ← pinFor c table i
  let s ← get
  match p, boundTable s o.enc table with
  | some (d, size), some h => do
    let e ← B.step c 6 (do
      let t ← btHeader c h
      btDesc c t m) .r
    let r ← copyBlock c d.addr e.addr ((size - o.progress) / 256) o.progress
    B.step c 6 (do
      let t ← btHeader c h
      let d ← btDesc c t i
      btSettle c t i { d with pins := d.pins - 1, drain := r.2.isNone }) .r
    X.update fun s => s.onOp o.id fun o => { o with progress := r.1 }
    match r.2 with
    | some (.trap e v _) => X.update fun s => s.suspendOp o.id e v
    | _ => X.update fun s => s.onOp o.id fun o => { o with state := .waiting }
  | _, _ => pure ()

/-- The same, where an access to the table itself may fault too: then nothing has landed, and the move suspends (R204). -/
def State.moveCopy (s : State) (o : Op) (table i m : Nat) : State :=
  match moveBytes o table i m s with
  | .ok _ t => t
  | .error (.trap e v _) t => (s.keepClaims t).suspendOp o.id e v
  | .error (.fill ..) t => s.keepWalk t
  | .error (.wait _) _ => s

def execBlockMoveCopyLanded (id : Nat) (s : State) : Out :=
  match s.op? id with
  | some o =>
    match o.kind with
    | .move t i m .. => .next (if o.state = .running then s.moveCopy o t i m else s)
    | _ => .next s
  | none => .next s

/-- The swing of a move, when DRAIN is set and PINS is 0: whether it happened. -/
def moveSwing (c : Ctx) (h i m : Nat) : B Bool := do
  let t ← btHeader c h
  let d ← btDesc c t i
  if !(d.drain && d.pins == 0) then pure false
  else
    let e ← btDesc c t m
    btSetDesc t m { e with state := dFree, addr := d.addr, tier := d.tier, ref := 0, pins := 0, mate := 0, drain := false }
    btPush c t d.tier m
    btSettle c t i { d with state := dValid, addr := e.addr, tier := e.tier, drain := false, mate := 0, gen := d.gen + 1 }
    pure true

/-- The end of a move: its timeline takes the value, with a release at the timeline's scope (R204, step 4). -/
def State.endMove (s : State) (o : Op) (tl : Nat) (val : Word) : State :=
  let scope := match (s.enclave? o.enc).bind fun e => e.timeline? tl with | some t => o.clamp t.scope | none => 0
  ((s.engineRelease scope (s.clockOf o.die)).signal o.enc tl val (s.clockOf o.die)).dropOp o.id

/-- The swing of a move and its end; a fault of the swing's own accesses suspends the move (R204). -/
def State.moveEnd (s : State) (o : Op) (h i m tl : Nat) (val : Word) : State :=
  let c := engineCtx o.enc o.die 0
  match B.step c 6 (moveSwing c h i m) .a s with
  | .ok true t => t.endMove o tl val
  | .ok false t => t
  | .error (.trap e v _) t => (s.keepClaims t).suspendOp o.id e v
  | .error (.fill ..) t => s.keepWalk t
  | .error (.wait _) _ => s

def execBlockMoveSwing (id : Nat) (s : State) : Out :=
  match s.op? id with
  | some o =>
    match o.kind, boundTable s o.enc (match o.kind with | .move t .. => t | _ => 0) with
    | .move _ i m _ tl val, some h =>
      .next (if o.state = .waiting then s.moveEnd o h i m tl val else s)
    | _, _ => .next s
  | none => .next s

/-- Abandoning a move: the mate goes back, the descriptor is VALID in its old tier, whatever REFCNT holds (R331), and the
timeline is signalled. -/
def abandonMove (o : Op) (table i m tl : Nat) (val : Word) : X Unit := do
  let s ← get
  match boundTable s o.enc table with
  | none => pure ()
  | some h => do
    let c := engineCtx o.enc o.die 0
    B.step c 6 do
      let t ← btHeader c h
      pushBack c t m
      let d ← btDesc c t i
      btSetDesc t i { d with state := dValid, drain := false, mate := 0 }
    X.update fun s => s.endMove o tl val

/-! ## `eresume` (R207) -/

/-- The suspended operation of the acting agent's enclave that a token names. -/
def State.suspendedOp (s : State) (e : BitVec 16) (x : Word) : Option Op :=
  s.ops.find? fun o => o.enc == e && decide (o.state = .suspended) && o.token == x

/-- The queue whose refill is suspended under a token. -/
def State.suspendedRefill (s : State) (e : BitVec 16) (x : Word) : Option (Nat × Queue) :=
  let qi := (x.extractLsb' 32 16).toNat
  match s.queue? e qi with
  | some q => if x.toNat < 2 ^ 48 && q.refillFault == some (x.toNat % 2 ^ 32) then some (qi, q) else none
  | none => none

/-- The operation of a record that its queue's refill abandons: it only completes, with an error. -/
def abandonedRecord (s : State) (e : BitVec 16) (qi : Nat) (q : Queue) (r : Rec) : Op :=
  { id := s.nextId, enc := e, queue := qi, kind := .record q.kind, record := r, state := .done, die := r.die, error := cEngine }

def State.abandonRefill (s : State) (e : BitVec 16) (qi : Nat) (q : Queue) : State :=
  match q.spill with
  | [] => s.onQueue e qi fun q => { q with refillFault := none }
  | r :: rs =>
    let s := s.onQueue e qi fun q => { q with refillFault := none, spill := rs, refilled := q.refilled + 1 }
    { s with ops := s.ops ++ [abandonedRecord s e qi q r], nextId := s.nextId + 1 }

/-- Abandons an operation: it completes with error ENGINE, releasing what it wrote (R190); the block that a copy has pinned is unpinned. -/
def abandonOp (o : Op) : X Unit :=
  match o.kind with
  | .move t i m _ tl val => abandonMove o t i m tl val
  | _ => do
    match o.pin with
    | some (t, i) => unpinBlock (engineCtx o.enc o.die 0) t i
    | none => pure ()
    X.update fun s => ((s.reportFlags o).finishOp o.id cEngine).onOp o.id fun o =>
      { o with pin := none, blocks := [], record := { o.record with clock := s.clockOf o.die } }

def execEresume (d a b : BitVec 6) (s : State) : Out :=
  onLevels [.s] s (
    let x := s.cur.rs a
    let y := s.cur.rs b
    if y.toNat / 2 ≠ 0 then trapOut s cSoftware y
    else
      match s.suspendedOp s.cur.enc x with
      | some o =>
        if y = 0 then .next ((s.onOp o.id fun o =>
            { o with state := if o.kind = .record 2 then .window else .running, cause := 0 }).write d 0)
        else runX (do
          abandonOp o
          X.finish d 2) s
      | none =>
        match s.suspendedRefill s.cur.enc x with
        | some (qi, q) =>
          if y = 0 then .next ((s.onQueue s.cur.enc qi fun q => { q with refillFault := none }).write d 0)
          else .next ((s.abandonRefill s.cur.enc qi q).write d 2)
        | none => .next (s.write d 1))

end Sys2Proof.Machine
end

