-- ==== Sys2Proof/Machine/Operands.lean ====
section
/-!
DEFINITION. The operands of lane instructions (spec/05 R122 to R124): the block's scalar copy and masks (01 R17, R18),
lane sources and their shape (R23, R24), reads of registers with a pending write (R20), result writes, the issue of a
lane instruction with its counters and park marker (R19, R21), and lane traps (02 R54; 05 R154; 11 R296).
-/
namespace Sys2Proof.Machine

/-! ## Landing a write (R18, R24, R28) -/

/-- A lane register after the live threads have taken `new`; the tag of `new` stands when all threads are live. -/
def LaneReg.land (g : Nat) (old : LaneReg) (live : Mask) (all : Bool) (new : LaneReg) : LaneReg :=
  if all then new else .g ((List.range g).map fun t => if live.getLsbD t then new.at t else old.at t)

def Regs.setV (r : Regs) (n : Nat) (x : LaneReg) : Regs := { r with v := r.v.setIfInBounds n x }
def Regs.getV (r : Regs) (n : Nat) : LaneReg := r.v[n]?.getD (.u 0)

def Regs.land (r : Regs) (g : Nat) : PendWrite → Regs
  | .lane n live all new => r.setV n ((r.getV n).land g live all new)
  | .mask k live new => { r with m := r.m.setIfInBounds k ((r.m[k]?.getD 0 &&& ~~~ live) ||| (new &&& live)) }
  | .q n val => { r with q := r.q.setIfInBounds n { val, seq := (r.q[n]?.getD {}).seq + 1 } }

/-! ## What an instruction sees when it issues -/

structure LaneCtx where
  regs : Regs
  s : Vector Word 64
  g : Nat
  w : Nat
  live : Mask
  thrBase : Nat := 0
  rmode : BitVec 3 := 0
  flush : BitVec 6 := 0

def LaneCtx.all (c : LaneCtx) : Bool := c.live == allLive c.g
def LaneCtx.isLive (c : LaneCtx) (t : Nat) : Bool := c.live.getLsbD t

/-- The part of a pending write that a read meets as returned, by the threads in `got`; none where it meets nothing of
it, so that the old value stands with its tag (R20). -/
def PendWrite.part (w : PendWrite) (g : Nat) (got : Mask) : Option PendWrite :=
  match w with
  | .lane n live all new =>
    if live &&& got == 0 then none
    else if all && got &&& allLive g == allLive g then some w
    else some (.lane n (live &&& got) false new)
  | .mask k live new => some (.mask k (live &&& got) new)
  | .q .. => none

/-- A result of fixed latency that is tagged U or A, so that its instruction executed in one beat (R21, R25): it has reached its
register when the group's next lane instruction issues (R392, R394; log 95). -/
def PendWrite.oneBeat (cls : Option OutClass) : PendWrite → Bool
  | .lane _ _ all (.u _) | .lane _ _ all (.a _ _) => cls.isNone && all
  | _ => false

/-- The registers as a lane instruction reads them: of every pending write but those of one beat, each thread's part has returned
or not, by an open choice of 1,024 bits a write (R20). A q register is read by no lane instruction. -/
def viewWrites (r : Regs) (g d : Nat) : List (Option OutClass × PendWrite) → Regs
  | [] => r
  | (k, w) :: ws =>
    let got := if w.oneBeat k then allLive 1024 else BitVec.ofNat 1024 d
    let r := match w.part g got with | some p => r.land g p | none => r
    viewWrites r g (d / 2 ^ 1024) ws

/-- The registers that an instruction reads, and the state with the choice used; none is used when nothing is pending. -/
def State.laneView (s : State) : Regs × State :=
  let ws := (s.cur.lane.pend.map fun p => p.writes.map (p.cls, ·)).flatten
  if ws.isEmpty then (s.cur.regs, s)
  else let d := s.draw; (viewWrites s.cur.regs s.cur.gsize d.1 ws, d.2)

/-- The block in progress; the group's own registers where none is. -/
def Agent.block (a : Agent) : Block :=
  a.lane.active.getD { lidx := 0, mask := allLive a.gsize, s := a.regs.s, level := a.level }

def Regs.maskOf (r : Regs) (g : Nat) (k : BitVec 4) : Mask := if k = 0 then allLive g else r.m[k.toNat]

/-- The effective mask (R18); a replay after a fill takes its threads instead (R302). -/
def effMask (r : Regs) (g : Nat) (b : Block) (f : Lane) : Mask :=
  match b.only with
  | some m => m &&& allLive g
  | none =>
    let m := r.maskOf g f.mk
    b.mask &&& (if f.mi then ~~~ m else m) &&& allLive g

/-- The context in which the acting group's next lane instruction issues. -/
def State.laneCtx (s : State) (f : Lane) : LaneCtx :=
  let a := s.cur
  let r := s.laneView.1
  { regs := r, s := a.block.s, g := a.gsize, w := a.width, live := effMask r a.gsize a.block f
    thrBase := a.ids.thrBase, rmode := a.rmode, flush := a.flush }

/-! ## Sources (R47, R122) -/

/-- A source: its shape where it is a 32-bit register, whether it counts as U (R24), and its value by thread. -/
structure Src where
  reg : LaneReg
  uni : Bool
  get : Nat → Nat

def LaneCtx.scalar (c : LaneCtx) (r : BitVec 8) : Word := if r.toNat % 64 = 0 then 0 else c.s.toList.getD (r.toNat % 64) 0

def LaneReg.isU : LaneReg → Bool | .u _ => true | _ => false

/-- A source field of a form of element width 64 (`pair`) or narrower. -/
def LaneCtx.src (c : LaneCtx) (pair flag : Bool) (r : BitVec 8) : Src :=
  if flag then
    let x := c.scalar r
    { reg := .u (x.setWidth 32), uni := true, get := fun _ => if pair then x.toNat else x.toNat % 2 ^ 32 }
  else if pair then
    let lo := c.regs.getV r.toNat
    let hi := c.regs.getV (r.toNat + 1)
    { reg := .g [], uni := lo.isU && hi.isU, get := fun t => (lo.at t).toNat + (hi.at t).toNat * 2 ^ 32 }
  else
    let x := c.regs.getV r.toNat
    { reg := x, uni := x.isU, get := fun t => (x.at t).toNat }

/-- The sources A, B and C of class A and M forms. -/
def LaneCtx.srcA (c : LaneCtx) (pair : Bool) (f : Lane) : Src := c.src pair (f.aux.getLsbD 2) f.va
def LaneCtx.srcB (c : LaneCtx) (pair : Bool) (f : Lane) : Src := c.src pair (f.aux.getLsbD 1) f.vb
def LaneCtx.srcC (c : LaneCtx) (pair : Bool) (f : Lane) : Src := c.src pair (f.aux.getLsbD 0) f.vc
def LaneCtx.maskOf (c : LaneCtx) (r : BitVec 8) : Mask := c.regs.maskOf c.g (r.setWidth 4)

/-! ## Results -/

structure LaneRes where
  cls : Option OutClass := none
  writes : List PendWrite := []
  flags : Flags := 0

/-- A 32-bit result register of given contents. -/
def LaneCtx.put (c : LaneCtx) (n : Nat) (x : LaneReg) : PendWrite := .lane n c.live c.all x

/-- A 32-bit result of the uniform-preserving class: U when every input is U and every thread is live (Table 1.3). -/
def LaneCtx.put32 (c : LaneCtx) (n : Nat) (uni : Bool) (f : Nat → Nat) : PendWrite :=
  c.put n (if uni && c.all then .u (BitVec.ofNat 32 (f 0)) else .g ((List.range c.g).map fun t => BitVec.ofNat 32 (f t)))

/-- A result of element width 64 (`pair`) or 32; both registers of a pair take the same tag (R24). -/
def LaneCtx.putW (c : LaneCtx) (pair : Bool) (n : Nat) (uni : Bool) (f : Nat → Nat) : List PendWrite :=
  if pair then [c.put32 n uni f, c.put32 (n + 1) uni fun t => f t / 2 ^ 32] else [c.put32 n uni f]

/-- A result of the per-thread class, G whatever the inputs. -/
def LaneCtx.putG (c : LaneCtx) (pair : Bool) (n : Nat) (f : Nat → Nat) : List PendWrite := c.putW pair n false f

def maskOfFn (g : Nat) (p : Nat → Bool) : Mask := BitVec.ofNat 1024 ((List.range g).foldl (fun m t => m + if p t then 2 ^ t else 0) 0)

/-- A mask result for the live threads (R129). -/
def LaneCtx.putMask (c : LaneCtx) (r : BitVec 8) (p : Nat → Bool) : List PendWrite :=
  [.mask (r.toNat % 16) c.live (maskOfFn c.g p)]

/-- The flags of the live threads, ORed (R81). -/
def LaneCtx.flagsOf (c : LaneCtx) (f : Nat → Flags) : Flags :=
  (List.range c.g).foldl (fun x t => if c.isLive t then x ||| f t else x) 0

/-! ## Issue -/

/-- The block after one instruction: past its end nothing is in progress (R16); a park marker parks the stream while
results are outstanding (R19). -/
def LaneStream.issued (l : LaneStream) (f : Lane) : LaneStream :=
  { l with
    active := if f.last then none else l.active.map fun b => { b with lidx := b.lidx + 1, issued := b.issued + 1, only := none }
    parked := f.park && !l.pend.isEmpty
    stalled := false }

/-- The group after a lane instruction that raises no trap: its results are outstanding until they return (R19 to R21). -/
def Agent.laneDone (a : Agent) (f : Lane) (r : LaneRes) (addr : Word) : Agent :=
  let p : Pend := { cls := r.cls, writes := r.writes, flags := r.flags, addr }
  { a with lane := { a.lane with pend := a.lane.pend ++ [p] }.issued f }

/-- The address of a lane instruction (02 R56, 08 Table 8.1). -/
def Agent.laneAddr (a : Agent) : Word :=
  match a.code with
  | some v => bv64 (v.code + v.laneOff + 12 * a.block.lidx)
  | none => 0

/-- Whether an instruction of a class would raise its counter to 64 (R21). -/
def Agent.counterFull (a : Agent) (k : Option OutClass) : Bool :=
  match k with | some k => decide (63 ≤ a.lane.count k) | none => false

/-- Whether every lane register that an instruction names lies below the budget (R22, R122). -/
def inBudget (i : Instr) (n : Nat) : Bool :=
  match laneUse i with
  | none => true
  | some (f, u) =>
    let fl := u.aux.flags f.aux
    let rs := u.vd.regs false f.vd ++ u.va.regs fl.1 f.va ++ u.vb.regs fl.2.1 f.vb ++ u.vc.regs fl.2.2 f.vc
    let scales := match i with
      | .vdot .narrow f | .vdoth .narrow f => [(f.imm.toNat % 256, 1), (f.imm.toNat / 256 % 256, 1)]
      | _ => []
    (rs ++ scales).all fun r => decide (r.1 + r.2 ≤ n)

/-- The bits [95:32] of a lane instruction, which XVAL receives (R54). -/
def laneVal (i : Instr) : Word :=
  match encode i with
  | [_, m, h] => (h ++ m : BitVec 64)
  | _ => 0

/-! ## Lane traps -/

/-- Trap entry for a lane trap (R296). After an ILLEGAL the rest of the block is dropped and XLANE.FV stays clear; else
the faulters enter m15, and the rest of the block is held with the blocks not begun. -/
def State.enterLaneTrap (s : State) (cause : Cause) (val addr : Word) (faulters : Mask) (rest : Option Block) : State :=
  s.onCur fun a =>
    let ill := cause == cIllegal
    { a with
      status := .ready
      trap := { a.trap with
        cause, causeLane := true, val, spc := a.pc, hm := true, level := a.level
        xlane := addr &&& ~~~ 3, fv := !ill }
      regs := if ill then a.regs else { a.regs with m := a.regs.m.set 15 (faulters &&& allLive a.gsize) }
      lane := { a.lane with
        active := none, queue := [], stalled := false
        held := some { active := if ill then none else rest, queue := a.lane.queue } }
      level := .s
      pc := a.trap.vec }

/-- A fault raised while the lane stream drains before a save is held, with the lane work behind it (R308). In a handler
the instruction has not executed, and raises it again after the resume. -/
def Agent.holdTrap (a : Agent) (cause : Cause) (val addr : Word) (faulters : Mask) (rest : Option Block) (ipa : Nat) : Agent :=
  { a with lane := { a.lane with
      active := if a.trap.hm then a.lane.active else rest
      drainTrap := some { cause, val, addr, faulters, ipa } } }

/-- A lane trap, wherever the group stands: while its lane stream drains before a save it is held (R308); in a handler the group exits, and the instruction executes again on its
return, so `before` is the state it leaves (R297); elsewhere trap entry acts on `after`, in which the other threads
have completed. -/
def laneTrap (before after : State) (cause : Cause) (val addr : Word) (faulters : Mask) (rest : Option Block)
    (ipa : Nat := 0) : State :=
  let mark := fun (s : State) => if cause = cStage2 then s.onCur fun a => { a with trap := { a.trap with s2ipa := ipa } } else s
  if before.cur.preempting then (if before.cur.trap.hm then before else after).onCur fun a => a.holdTrap cause val addr faulters rest ipa
  else if before.cur.trap.hm then (mark before).exitAgent cause
  else (mark after).enterLaneTrap cause val addr faulters rest

/-- ILLEGAL of a lane instruction at its issue (R54). -/
def laneIllegal (i : Instr) (s : State) : Out :=
  .next (laneTrap s s cIllegal (laneVal i) s.cur.laneAddr 0 none)

/-- The state after a lane instruction that does not touch memory. -/
def State.laneNext (s : State) (f : Lane) (r : LaneRes) : State :=
  s.laneView.2.onCur fun a => a.laneDone f r s.cur.laneAddr

/-- Issues a lane instruction that does not touch memory: the checks of the register budget and of what `ok` adds, the
stall of a full counter, then its results. -/
def issueLane (i : Instr) (f : Lane) (ok : Agent → Bool) (cls : Option OutClass) (body : LaneCtx → List PendWrite × Flags)
    (s : State) : Out :=
  if !(inBudget i s.cur.budget && ok s.cur) then laneIllegal i s
  else if s.cur.counterFull cls then .next (s.onCur fun a => { a with lane := { a.lane with stalled := true } })
  else
    let r := body (s.laneCtx f)
    .next (s.laneNext f { cls, writes := r.1, flags := r.2 })

def noCheck (_ : Agent) : Bool := true

end Sys2Proof.Machine
end

