-- ==== Sys2Proof/Machine/LaneEvents.lean ====
section
/-!
DEFINITION. The steps of the lane stream beside its instructions (spec/01 R16 to R21, R28; 04 R106, R110, R111, R114; 05
R155): a block begins, results return, and the waits for them end.
-/
namespace Sys2Proof.Machine

/-! ## Who can take a turn -/

/-- Whether the workgroup of a group is resident: no swap-out of it has begun (R261). -/
def State.resident (s : State) (a : Agent) : Bool :=
  match s.wg? a.wg with
  | some g => decide (a.kind ≠ .group) || decide (g.state = .resident)
  | none => true

/-- The time slice of a partition in windows; 0: no slicing. -/
def State.tslice (s : State) (part : Nat) : Nat := fieldN ((s.part part).budget[0]).toNat 0 16

/-- Whether the slices of its partition run the agent's enclave (10 R275); a save routine runs on when its slice has ended, and the
host agent runs always. -/
def State.inSlice (s : State) (a : Agent) : Bool :=
  a.isH || a.trap.inSave || s.tslice a.part == 0 || (s.part a.part).slice == some a.enc

/-- Whether the scalar stream of an agent can issue (R270). -/
def State.canScalar (s : State) (a : Agent) : Bool :=
  decide (a.status = .ready) && s.resident a && !a.preempting && s.inSlice a

/-- Whether the lane stream of a group can issue: it is neither parked nor stalled, and the group is neither descheduled
nor off its core (R19, R21, R260, R270). -/
def laneAwake : Status → Bool
  | .ready => true
  | .waiting .lrunRoom | .waiting .drain | .waiting (.bmask _) | .waiting (.qread ..) => true
  | _ => false

def State.canLane (s : State) (a : Agent) : Bool :=
  laneAwake a.status && s.resident a && a.lane.active.isSome && !a.lane.parked && !a.lane.stalled
    && a.lane.drainTrap.isNone

/-! ## A block begins (R110) -/

/-- The first block not begun begins: its mask is read now, under the rule of R20. -/
def State.beginBlock (s : State) : State :=
  match s.cur.lane.queue with
  | [] => s
  | b :: bs =>
    let v := s.laneView
    let m := v.1.maskOf s.cur.gsize b.sel
    let b := { b with mask := (if b.inv then ~~~ m else m) &&& allLive s.cur.gsize }
    v.2.onCur fun a => { a with lane := { a.lane with active := some b, queue := bs } }

def State.canBegin (s : State) (a : Agent) : Bool :=
  laneAwake a.status && s.resident a && a.lane.active.isNone && !a.lane.parked

def execLaneBlockIssueStart (id : Nat) (s : State) : Out :=
  let t := s.focus id
  .next (if t.cur.id = id && t.canBegin t.cur then t.beginBlock else s)

/-! ## Results return (R19 to R21, R28) -/

/-- A stop of the acting agent's wait: its instruction executes again (R90). -/
def Agent.wake (a : Agent) : Agent := { a with status := .ready }

def PendWrite.isQ (n : Nat) : PendWrite → Bool | .q k _ => k == n | _ => false

/-- Whether the next write of entry `which` is held: an earlier entry still has to write the same q register (R28), or
the `qread` that the group waits at has its sequence number and has not read yet (R114). -/
def Agent.qHeld (a : Agent) (which : Nat) : PendWrite → Bool
  | .q n _ =>
    (a.lane.pend.take which).any (fun p => p.writes.any (PendWrite.isQ n)) ||
      (match a.status with
        | .waiting (.qread q _ want) => q.toNat == n && (a.regs.q[n]?.getD {}).seq == want
        | _ => false)
  | _ => false

/-- The entry leaves the outstanding ones; with the last of them a park ends (R19). -/
def LaneStream.dropPend (l : LaneStream) (which : Nat) : LaneStream :=
  let ps := l.pend.eraseIdx which
  { l with pend := ps, parked := l.parked && !ps.isEmpty }

/-- Every write of an entry lands, with its flags. -/
def Agent.landEntry (a : Agent) (which : Nat) (p : Pend) : Agent :=
  ({ a with regs := p.writes.foldl (fun r w => r.land a.gsize w) a.regs, lane := a.lane.dropPend which } : Agent).raiseFlags p.flags

/-- The first write of an entry that has more of them lands: row after row of `rred` (R141). -/
def Agent.landFirst (a : Agent) (which : Nat) (p : Pend) (w : PendWrite) (ws : List PendWrite) : Agent :=
  { a with regs := a.regs.land a.gsize w, lane := { a.lane with pend := a.lane.pend.set which { p with writes := ws } } }

/-- Entry `which` of the acting group returns. Where its data came back bad the trap is taken now (R155); the block in
progress is held at its next instruction. -/
def State.returnEntry (s : State) (which : Nat) (p : Pend) : State :=
  match p.writes with
  | .q n v :: w :: ws =>
    if s.cur.qHeld which (.q n v) then s else s.onCur fun a => a.landFirst which p (.q n v) (w :: ws)
  | ws =>
    if ws.any (s.cur.qHeld which) then s
    else
      let t := s.onCur fun a => a.landEntry which p
      if p.bad = 0 then t else laneTrap s t p.badCause p.badVal p.addr p.bad t.cur.lane.active

/-- An agent that stands on its core and executes, or waits there. -/
def Status.standing : Status → Bool
  | .ready | .waiting _ => true
  | _ => false

def execLaneResultReturn (id which : Nat) (s : State) : Out :=
  let t := s.focus id
  .next (if t.cur.id = id && t.cur.status.standing then
    match t.cur.lane.pend[which]? with
    | some p => t.returnEntry which p
    | none => s
  else s)

/-! ## Waits of the lane and the scalar stream end -/

/-- The wait of an agent ends where `p` holds of it. -/
def State.wakeIf (s : State) (id : Nat) (p : Agent → Bool) : State := s.onAgent id fun a => if p a then a.wake else a

def execLrunDispatchRoom (id : Nat) (s : State) : Out :=
  .next (s.wakeIf id fun a => decide (a.status = .waiting .lrunRoom) && decide (a.lane.queue.length < 8))

def execCounterStallEnd (id : Nat) (s : State) : Out :=
  .next (s.onAgent id fun a => { a with lane := { a.lane with stalled := false } })

def execBmaskWaitEnd (id : Nat) (s : State) : Out :=
  let t := s.focus id
  .next (match t.cur.status with
    | .waiting (.bmask k) => if t.cur.id = id && !t.maskPending k then s.onAgent id (·.wake) else s
    | _ => s)

/-- The waiting `qread` reads the value with its sequence number; with no write of the register to come, it executes
again and traps (R114). -/
def Agent.qreadChecks (a : Agent) (pending : Nat → Bool) : Agent :=
  match a.status with
  | .waiting (.qread q d want) =>
    let r := a.regs.q[q.toNat]
    if r.seq = want then (a.wake.setS d r.val).advance
    else if pending q.toNat then a else a.wake
  | _ => a

def execQreadSequenceReached (id : Nat) (s : State) : Out :=
  let t := s.focus id
  .next (if t.cur.id = id then s.onAgent id (·.qreadChecks t.qPending) else s)

end Sys2Proof.Machine
end

