-- ==== Sys2Proof/Machine/LaneFloat.lean ====
section
/-!
DEFINITION. Floating-point lane instructions, conversions, narrow packing and dot products (spec/05 R131 to R137, with
the arithmetic of spec/03).
-/
namespace Sys2Proof.Machine

/-! ## Rounding and flushing of an instruction (R50, R72, R78, R79) -/

/-- The rounding mode, with `.dyn` resolved. -/
def LaneCtx.rm (c : LaneCtx) (f : Lane) : Nat :=
  let m := (f.rm.extractLsb' 0 3).toNat
  if m = 5 then c.rmode.toNat else m

def Fmt.is32 (f : Fmt) : Bool := f.ieee && f.width == 32

/-- Input and output flushing of a format class by FLUSH (Table 3.9). -/
def flushIn (fl : BitVec 6) (f : Fmt) : Bool := if !f.ieee then fl.getLsbD 4 else if f.is32 then fl.getLsbD 0 else fl.getLsbD 2
def flushOut (fl : BitVec 6) (f : Fmt) : Bool := if !f.ieee then fl.getLsbD 5 else if f.is32 then fl.getLsbD 1 else fl.getLsbD 3

/-- RM[75] is FZ unless the destination is narrow, where it is SAT. -/
def LaneCtx.fz (_ : LaneCtx) (f : Lane) (dst : Fmt) : Bool := f.rm.getLsbD 3 && dst.ieee
def LaneCtx.mode (c : LaneCtx) (f : Lane) (dst : Fmt) : RMode :=
  { rm := c.rm f, sat := f.rm.getLsbD 3 && !dst.ieee, flush := c.fz f dst || flushOut c.flush dst }
/-- Reads a source element in `src` of an instruction whose destination is `dst`. -/
def LaneCtx.readAs (c : LaneCtx) (f : Lane) (dst src : Fmt) (x : Nat) : FV := src.read (c.fz f dst || flushIn c.flush src) x

/-! ## Elements of a word (R64) -/

def elemOf (w k x : Nat) : Nat := x / 2 ^ (w * k) % 2 ^ w
/-- The word of `n` elements of width `w`, with their flags. -/
def packElems (w : Nat) (r : Nat → Nat × Flags) (n : Nat) : Nat × Flags :=
  (List.range n).foldl (fun x k => let e := r k; (x.1 + e.1 % 2 ^ w * 2 ^ (w * k), x.2 ||| e.2)) (0, 0)

/-- A result word per thread, uniform where the class keeps it, with the flags of the live threads. -/
def LaneCtx.words (c : LaneCtx) (n : Nat) (uni : Bool) (r : Nat → Nat × Flags) : List PendWrite × Flags :=
  if uni && c.all then let x := r 0; ([c.put n (.u (BitVec.ofNat 32 x.1))], x.2)
  else
    let xs := (List.range c.g).map r
    ([c.put n (.g (xs.map fun x => BitVec.ofNat 32 x.1))],
      xs.zipIdx.foldl (fun fl x => if c.isLive x.2 then fl ||| x.1.2 else fl) 0)

/-! ## FALU (R131, Table 5.3) -/

/-- An element operation: the rounding context, then the values of the operands and, for forms that need them, the raw
elements. -/
def laneFloat1 (i : Instr) (t : FTy) (f : Lane) (cls : Option OutClass) (op : RMode → FV → Nat → Nat × Flags) (s : State) : Out :=
  issueLane i f noCheck cls (fun c =>
    let m := FTy.fmt t
    let a := c.srcA false f
    c.words f.vd.toNat a.uni fun x => packElems m.width (fun k =>
      let e := elemOf m.width k (a.get x)
      op (c.mode f m) (c.readAs f m m e) e) (32 / m.width)) s
def laneFloat2 (i : Instr) (t : FTy) (f : Lane) (cls : Option OutClass) (op : RMode → FV → FV → Nat → Nat × Flags) (s : State) : Out :=
  issueLane i f noCheck cls (fun c =>
    let m := FTy.fmt t
    let a := c.srcA false f
    let b := c.srcB false f
    c.words f.vd.toNat (a.uni && b.uni) fun x => packElems m.width (fun k =>
      let e := elemOf m.width k (b.get x)
      op (c.mode f m) (c.readAs f m m (elemOf m.width k (a.get x))) (c.readAs f m m e) e) (32 / m.width)) s

/-- RoundTo of an exact result with the flags it already has. -/
def finishFloat (t : FTy) (m : RMode) (v : FV × Flags) : Nat × Flags :=
  let r := roundTo (FTy.fmt t) v.1 m
  (r.1, v.2 ||| r.2)

def execFadd (t : FTy) (f : Lane) (s : State) : Out :=
  laneFloat2 (.fadd t f) t f none (fun m a b _ => finishFloat t m (FV.add m.rm a b)) s
def execFsub (t : FTy) (f : Lane) (s : State) : Out :=
  laneFloat2 (.fsub t f) t f none (fun m a b _ => finishFloat t m (FV.add m.rm a b.negate)) s
def execFmul (t : FTy) (f : Lane) (s : State) : Out :=
  laneFloat2 (.fmul t f) t f none (fun m a b _ => finishFloat t m (a.mul b)) s
def execFdiv (t : FTy) (f : Lane) (s : State) : Out :=
  laneFloat2 (.fdiv t f) t f (some .long) (fun m a b _ => finishFloat t m (a.div b)) s
def execFmin (t : FTy) (f : Lane) (s : State) : Out :=
  laneFloat2 (.fmin t f) t f none (fun m a b _ => finishFloat t m (a.min2 b, 0)) s
def execFmax (t : FTy) (f : Lane) (s : State) : Out :=
  laneFloat2 (.fmax t f) t f none (fun m a b _ => finishFloat t m (a.max2 b, 0)) s

def execFfma (t : FTy) (f : Lane) (s : State) : Out :=
  issueLane (.ffma t f) f noCheck none (fun c =>
    let m := FTy.fmt t
    let a := c.srcA false f
    let b := c.srcB false f
    let d := c.srcC false f
    c.words f.vd.toNat (a.uni && b.uni && d.uni) fun x => packElems m.width (fun k =>
      let e := fun (y : Src) => c.readAs f m m (elemOf m.width k (y.get x))
      finishFloat t (c.mode f m) (FV.fma (c.rm f) (e a) (e b) (e d))) (32 / m.width)) s

/-- `fabs` and `fneg` act on the code: no flag, no flushing, a NaN gives the canonical NaN (R66). -/
def signForm (t : FTy) (g : Nat → Nat) (_ : RMode) (_ : FV) (e : Nat) : Nat × Flags :=
  let m := FTy.fmt t
  (if m.decode e = .nan then m.nanCode else g e, 0)
def execFabs (t : FTy) (f : Lane) (s : State) : Out :=
  laneFloat1 (.fabs t f) t f none (signForm t fun e => e % (FTy.fmt t).signBit) s
def execFneg (t : FTy) (f : Lane) (s : State) : Out :=
  laneFloat1 (.fneg t f) t f none (signForm t fun e => (e + (FTy.fmt t).signBit) % 2 ^ (FTy.fmt t).width) s

def execFrcp (t : FTy) (f : Lane) (s : State) : Out :=
  laneFloat1 (.frcp t f) t f (some .long) (fun m a _ => finishFloat t m ((FV.num false 1 1).div a)) s
def execFrsq (t : FTy) (f : Lane) (s : State) : Out := laneFloat1 (.frsq t f) t f (some .long) (fun m a _ => rsqrtTo (FTy.fmt t) a m) s
def execFsqrt (t : FTy) (f : Lane) (s : State) : Out := laneFloat1 (.fsqrt t f) t f (some .long) (fun m a _ => sqrtTo (FTy.fmt t) a m) s
def execFexp2 (t : FTy) (f : Lane) (s : State) : Out := laneFloat1 (.fexp2 t f) t f (some .long) (fun m a _ => exp2To (FTy.fmt t) a m) s
def execFlog2 (t : FTy) (f : Lane) (s : State) : Out := laneFloat1 (.flog2 t f) t f (some .long) (fun m a _ => log2To (FTy.fmt t) a m) s
def execFtanh (t : FTy) (f : Lane) (s : State) : Out := laneFloat1 (.ftanh t f) t f (some .long) (fun m a _ => tanhTo (FTy.fmt t) a m) s

/-- a · 2^n. Beyond 2,000 in either direction every finite a lies past every format, where one n stands for all. -/
def scaleBy (a : FV) (n : Int) : FV :=
  match a with
  | .num s x d =>
    let k := max (-2000) (min 2000 n)
    if 0 ≤ k then .num s (x * 2 ^ k.toNat) d else .num s x (d * 2 ^ (-k).toNat)
  | v => v
def execFscale (t : FTy) (f : Lane) (s : State) : Out :=
  laneFloat2 (.fscale t f) t f none (fun m a _ e =>
    finishFloat t m (scaleBy a (BitVec.ofNat (FTy.fmt t).width e).toInt, 0)) s

/-! ## R132, R133 -/

/-- A compare by the predicate of IMM[2:0], with NV for an ordering of a NaN (Table 3.8). -/
def floatCompare (p : Nat) (a b : FV) : Bool × Flags :=
  if a = .nan ∨ b = .nan then (p == 1, if 2 ≤ p then flagNV else 0)
  else
    (match p with
      | 0 => a.eq b | 1 => !a.eq b | 2 => a.lt b | 3 => a.lt b || a.eq b | 4 => b.lt a | _ => b.lt a || a.eq b, 0)

def execFcmp (t : FTy) (f : Lane) (s : State) : Out :=
  issueLane (.fcmp t f) f noCheck none (fun c =>
    let m := FTy.fmt t
    let a := c.srcA false f
    let b := c.srcB false f
    let k := if f.imm.getLsbD 4 then 1 else 0
    let r := fun x => floatCompare (f.imm.extractLsb' 0 3).toNat (c.readAs f m m (elemOf m.width k (a.get x)))
      (c.readAs f m m (elemOf m.width k (b.get x)))
    (c.putMask f.vd fun x => (r x).1, c.flagsOf fun x => (r x).2)) s

/-- The class word of an element; `sub` tells a subnormal code that is not flushed. -/
def classWord (v : FV) (sub : Bool) : Nat :=
  match v with
  | .nan => 2 ^ 8
  | .inf s => if s then 1 else 2 ^ 7
  | .num s n _ =>
    let k := if n = 0 then 0 else if sub then 1 else 2
    if s then 2 ^ (3 - k) else 2 ^ (4 + k)
def execFclass (t : FTy) (f : Lane) (s : State) : Out :=
  laneFloat1 (.fclass t f) t f none (fun _ a e => (classWord a ((FTy.fmt t).isSubnormal e), 0)) s

/-! ## Conversions (R134 to R136) -/

/-- The format of a type that is not an integer. -/
def CTy.fmt (t : CTy) (nf : BitVec 8) : Fmt := match t with | .bf16 => .bf16 | .f16 => .f16 | .narrow => .narrow nf | _ => .f32
def CTy.signed : CTy → Bool | .i32 | .i64 => true | _ => false
def CTy.width : CTy → Nat | .i64 | .n64 => 64 | _ => 32

/-- A source element of width `w`; integers of R63 keep their value. -/
def intValue (t : CTy) (x : Nat) : Int := if CTy.signed t then (BitVec.ofNat (CTy.width t) x).toInt else (x % 2 ^ CTy.width t : Nat)

/-- One conversion: the result bits and the flags. -/
def LaneCtx.convert (c : LaneCtx) (f : Lane) (dst src : CTy) (x : Nat) : Nat × Flags :=
  let d := CTy.fmt dst f.aux
  if src.isInt then
    if dst.isInt then ((intValue src x % (2 ^ CTy.width dst : Nat)).toNat, 0)
    else roundTo d (FV.ofInt (intValue src x)) (c.mode f d)
  else
    let m := CTy.fmt src f.aux
    if dst.isInt then
      let r := floatToInt (CTy.signed dst) (CTy.width dst) (c.rm f) (m.read (flushIn c.flush m) x)
      ((r.1 % (2 ^ CTy.width dst : Nat)).toNat, r.2)
    else roundTo d (c.readAs f d m x) (c.mode f d)

def execCvt (dst src : CTy) (f : Lane) (s : State) : Out :=
  issueLane (.cvt dst src f) f noCheck none (fun c =>
    let narrowed := dst == .narrow || src == .narrow
    let a := c.src src.is64 (!narrowed && f.aux.getLsbD 2) f.va
    let m := CTy.fmt src f.aux
    let r := fun t => c.convert f dst src (if src.isInt then a.get t else elemOf m.width f.imm.toNat (a.get t))
    let u := a.uni && c.all
    let xs := (List.range (if u then 1 else c.g)).map r
    let fl := xs.zipIdx.foldl (fun fl x => if c.isLive x.2 then fl ||| x.1.2 else fl) 0
    (c.putW dst.is64 f.vd.toNat a.uni (fun t => (xs.getD t (0, 0)).1), fl)) s

/-- Whether every register of a range is U. -/
def LaneCtx.allU (c : LaneCtx) (r n : Nat) : Bool := (List.range n).all fun k => (c.regs.getV (r + k)).isU
def LaneCtx.wordAt (c : LaneCtx) (r t : Nat) : Nat := ((c.regs.getV r).at t).toNat

def execNpack (bf : Bool) (f : Lane) (s : State) : Out :=
  issueLane (.npack bf f) f noCheck none (fun c =>
    let d := Fmt.narrow f.aux
    let e := nfCount f.aux
    let va := f.va.toNat
    let src := if bf then Fmt.bf16 else .f32
    let el := fun t j => if bf then elemOf 16 (j % 2) (c.wordAt (va + j / 2) t) else c.wordAt (va + j) t
    c.words f.vd.toNat (c.allU va (if bf then e / 2 else e)) fun t =>
      packElems d.width (fun j => roundTo d (c.readAs f d src (el t j)) (c.mode f d)) e) s

def execNunpack (bf : Bool) (f : Lane) (s : State) : Out :=
  issueLane (.nunpack bf f) f noCheck none (fun c =>
    let src := Fmt.narrow f.aux
    let d := if bf then Fmt.bf16 else .f32
    let a := c.regs.getV f.va.toNat
    let per := if bf then 2 else 1
    let rs := (List.range (nfCount f.aux / per)).map fun r =>
      c.words (f.vd.toNat + r) a.isU fun t => packElems d.width (fun k =>
        roundTo d (c.readAs f d src (elemOf src.width (r * per + k) (a.at t).toNat)) (c.mode f d)) per
    ((rs.map (·.1)).flatten, rs.foldl (fun fl r => fl ||| r.2) 0)) s

/-! ## Dot products (R137, R83, R84) -/

/-- One K-block per live thread; `half` tells `vdoth`, whose scales are bf16. -/
def dotForm (half : Bool) (k : DotTy) (f : Lane) (c : LaneCtx) : List PendWrite × Flags :=
  let m := match k with | .narrow => Fmt.narrow (nfOfDot f.aux) | .bf16 => .bf16 | .f16 => .f16
  let n := dotRegs k f.aux
  let per := 32 / m.width
  let va := f.va.toNat
  let vb := f.vb.toNat
  let sel := (f.aux.extractLsb' 6 2).toNat
  let sa := f.imm.toNat % 256
  let sb := f.imm.toNat / 256 % 256
  let el := fun r t i => c.readAs f .f32 m (elemOf m.width (i % per) (c.wordAt (r + i / per) t))
  let scale := fun r t =>
    if k ≠ .narrow then FV.num false 1 1
    else if half then c.readAs f .f32 .bf16 (elemOf 16 (sel / 2) (c.wordAt r t))
    else (Fmt.narrow 0x01).decode (elemOf 8 sel (c.wordAt r t))
  let uni := c.allU va n && c.allU vb n && c.allU f.vc.toNat 1 && (k ≠ .narrow || (c.allU sa 1 && c.allU sb 1))
  c.words f.vd.toNat uni fun t =>
    blockAccumulate (c.mode f .f32) (c.fz f .f32 || flushIn c.flush .f32) (c.wordAt f.vc.toNat t)
      [((List.range (n * per)).map fun i => (el va t i, el vb t i), scale sa t, scale sb t)]

def execVdot (k : DotTy) (f : Lane) (s : State) : Out :=
  issueLane (.vdot k f) f noCheck (some .long) (dotForm false k f) s
def execVdoth (k : DotTy) (f : Lane) (s : State) : Out :=
  issueLane (.vdoth k f) f noCheck (some .long) (dotForm true k f) s

end Sys2Proof.Machine
end

