-- ==== Sys2Proof/Machine/LaneInt.lean ====
section
/-!
DEFINITION. Integer lane instructions, compares and the forms that generate values (spec/05 R126 to R130), with the shape
classes of 01 Table 1.3.
-/
namespace Sys2Proof.Machine

/-! ## Element operations (Tables 5.1 and 5.2), of width `w`; results are kept modulo 2^w -/

def sx (w x : Nat) : Int := (BitVec.ofNat w x).toInt
def wrapInt (w : Nat) (x : Int) : Nat := (x % (2 ^ w : Nat)).toNat
def wrapNat (w x : Nat) : Nat := x % 2 ^ w

def popcount : Nat → Nat → Nat
  | 0, _ => 0
  | w + 1, x => x % 2 + popcount w (x / 2)

def laneMulHigh (signed : Bool) (w a b : Nat) : Nat :=
  if signed then wrapInt w (sx w a * sx w b / (2 ^ w : Nat)) else a * b / 2 ^ w
def minBy (signed : Bool) (w a b : Nat) : Nat :=
  if (if signed then decide (sx w a ≤ sx w b) else decide (a ≤ b)) then a else b
def maxBy (signed : Bool) (w a b : Nat) : Nat :=
  if (if signed then decide (sx w b ≤ sx w a) else decide (b ≤ a)) then a else b
def shiftLeft (w a b : Nat) : Nat := wrapNat w (a * 2 ^ (b % w))
def shiftRight (w a b : Nat) : Nat := a / 2 ^ (b % w)
def shiftRightS (w a b : Nat) : Nat := wrapInt w (sx w a / (2 ^ (b % w) : Nat))

/-- IMM of `vbfx` and `vbfi`: position and length (R127). -/
def bfPos (f : Lane) : Nat := (f.imm.extractLsb' 0 6).toNat
def bfLen (f : Lane) : Nat := (f.imm.extractLsb' 6 6).toNat + 1

def bitfield (signed : Bool) (w pos len a : Nat) : Nat :=
  let v := a / 2 ^ pos % 2 ^ len
  if signed then wrapInt w (sx len v) else v
def insertField (pos len a b : Nat) : Nat := b - b / 2 ^ pos % 2 ^ len * 2 ^ pos + a % 2 ^ len * 2 ^ pos

def condInt (c : VCond) (a b : Int) : Bool :=
  match c with
  | .eq => a == b | .ne => a != b | .lt => decide (a < b) | .le => decide (a ≤ b) | .gt => decide (b < a) | .ge => decide (b ≤ a)

/-! ## Shapes: the affine-preserving class (Table 1.3) -/

/-- The result register where the inputs are U and A, not both U; none where the class gives another tag. -/
def affAdd : LaneReg → LaneReg → Option LaneReg
  | .a b d, .u x => some (.a (b + x) d)
  | .u x, .a b d => some (.a (x + b) d)
  | _, _ => none
def affSub : LaneReg → LaneReg → Option LaneReg
  | .a b d, .u x => some (.a (b - x) d)
  | .u x, .a b d => some (.a (x - b) (-d))
  | _, _ => none
def affMul : LaneReg → LaneReg → Option LaneReg
  | .a b d, .u x => some (.a (b * x) (d * x))
  | .u x, .a b d => some (.a (x * b) (x * d))
  | _, _ => none
def affShl : LaneReg → LaneReg → Option LaneReg
  | .a b d, .u x => some (.a (b <<< (x.toNat % 32)) (d <<< (x.toNat % 32)))
  | _, _ => none
def affNeg : LaneReg → Option LaneReg
  | .a b d => some (.a (-b) (-d))
  | _ => none
def noAff (_ _ : LaneReg) : Option LaneReg := none

/-! ## The common forms -/

/-- Two sources of width 64 (`pair`) or 32. -/
def LaneCtx.int2 (c : LaneCtx) (pair : Bool) (f : Lane) (aff : LaneReg → LaneReg → Option LaneReg) (op : Nat → Nat → Nat) :
    List PendWrite × Flags :=
  let a := c.srcA pair f
  let b := c.srcB pair f
  match if c.all && !pair then aff a.reg b.reg else none with
  | some r => ([c.put f.vd.toNat r], 0)
  | none => (c.putW pair f.vd.toNat (a.uni && b.uni) fun t => op (a.get t) (b.get t), 0)

/-- One source. -/
def LaneCtx.int1 (c : LaneCtx) (pair : Bool) (f : Lane) (op : Nat → Nat) : List PendWrite × Flags :=
  let a := c.srcA pair f
  (c.putW pair f.vd.toNat a.uni fun t => op (a.get t), 0)

def laneInt2 (i : Instr) (t : ITy) (f : Lane) (aff : LaneReg → LaneReg → Option LaneReg) (op : Nat → Nat → Nat) (s : State) : Out :=
  issueLane i f noCheck none (fun c => c.int2 t.is64 f aff op) s
def laneInt1 (i : Instr) (w : Bool) (f : Lane) (op : Nat → Nat) (s : State) : Out :=
  issueLane i f noCheck none (fun c => c.int1 w f op) s

/-! ## R126, R127 -/

def execVadd (t : ITy) (f : Lane) (s : State) : Out :=
  laneInt2 (.vadd t f) t f affAdd (fun a b => wrapNat t.width (a + b)) s
def execVsub (t : ITy) (f : Lane) (s : State) : Out :=
  laneInt2 (.vsub t f) t f affSub (fun a b => wrapNat t.width (a + (2 ^ t.width - b))) s
def execVmul (t : ITy) (f : Lane) (s : State) : Out :=
  laneInt2 (.vmul t f) t f affMul (fun a b => wrapNat t.width (a * b)) s
def execVmulh (t : ITy) (f : Lane) (s : State) : Out := laneInt2 (.vmulh t f) t f noAff (laneMulHigh t.signed t.width) s
def execVmin (t : ITy) (f : Lane) (s : State) : Out := laneInt2 (.vmin t f) t f noAff (minBy t.signed t.width) s
def execVmax (t : ITy) (f : Lane) (s : State) : Out := laneInt2 (.vmax t f) t f noAff (maxBy t.signed t.width) s
def execVand (t : ITy) (f : Lane) (s : State) : Out := laneInt2 (.vand t f) t f noAff (fun a b => a &&& b) s
def execVor (t : ITy) (f : Lane) (s : State) : Out := laneInt2 (.vor t f) t f noAff (fun a b => a ||| b) s
def execVxor (t : ITy) (f : Lane) (s : State) : Out := laneInt2 (.vxor t f) t f noAff (fun a b => a ^^^ b) s
def execVshl (t : ITy) (f : Lane) (s : State) : Out := laneInt2 (.vshl t f) t f affShl (shiftLeft t.width) s
def execVshr (t : ITy) (f : Lane) (s : State) : Out := laneInt2 (.vshr t f) t f noAff (shiftRight t.width) s
def execVsra (t : ITy) (f : Lane) (s : State) : Out := laneInt2 (.vsra t f) t f noAff (shiftRightS t.width) s

def execVmad (t : ITy) (f : Lane) (s : State) : Out :=
  issueLane (.vmad t f) f noCheck none (fun c =>
    let a := c.srcA t.is64 f
    let b := c.srcB t.is64 f
    let x := c.srcC t.is64 f
    (c.putW t.is64 f.vd.toNat (a.uni && b.uni && x.uni) fun i => wrapNat t.width (a.get i * b.get i + x.get i), 0)) s

def execVbfx (t : ITy) (f : Lane) (s : State) : Out :=
  laneInt1 (.vbfx t f) t.is64 f (bitfield t.signed t.width (bfPos f) (bfLen f)) s
def execVbfi (t : ITy) (f : Lane) (s : State) : Out := laneInt2 (.vbfi t f) t f noAff (insertField (bfPos f) (bfLen f)) s

/-- The selector counts as an input: U when its bits for all threads are equal (R24). -/
def execVsel (t : ITy) (f : Lane) (s : State) : Out :=
  issueLane (.vsel t f) f noCheck none (fun c =>
    let a := c.srcA t.is64 f
    let b := c.srcB t.is64 f
    let m := c.regs.maskOf c.g (f.imm.extractLsb' 0 4)
    let uni := m &&& allLive c.g == 0 || m &&& allLive c.g == allLive c.g
    (c.putW t.is64 f.vd.toNat (a.uni && b.uni && uni) fun i => if m.getLsbD i then a.get i else b.get i, 0)) s

/-! ## R128 -/

def wid (w : Bool) : Nat := if w then 64 else 32

def execVabs (w : Bool) (f : Lane) (s : State) : Out :=
  laneInt1 (.vabs w f) w f (fun a => wrapNat (wid w) (sx (wid w) a).natAbs) s
def execVneg (w : Bool) (f : Lane) (s : State) : Out :=
  issueLane (.vneg w f) f noCheck none (fun c =>
    match if c.all && !w then affNeg (c.srcA w f).reg else none with
    | some r => ([c.put f.vd.toNat r], 0)
    | none => c.int1 w f fun a => wrapNat (wid w) (2 ^ wid w - a)) s
def execVnot (w : Bool) (f : Lane) (s : State) : Out := laneInt1 (.vnot w f) w f (fun a => 2 ^ wid w - 1 - a) s
def execVclz (w : Bool) (f : Lane) (s : State) : Out :=
  laneInt1 (.vclz w f) w f (fun a => if a = 0 then wid w else wid w - 1 - Nat.log2 a) s
def execVpopc (w : Bool) (f : Lane) (s : State) : Out := laneInt1 (.vpopc w f) w f (popcount (wid w)) s

/-- With an all-live mask the registers are copied with their own tags (R24, R128). -/
def execVmov (w : Bool) (f : Lane) (s : State) : Out :=
  issueLane (.vmov w f) f noCheck none (fun c =>
    if c.all && !f.aux.getLsbD 2 then
      ((List.range (if w then 2 else 1)).map fun k => c.put (f.vd.toNat + k) (c.regs.getV (f.va.toNat + k)), 0)
    else c.int1 w f fun a => a) s

/-! ## R129, R130 -/

def execVcmp (t : ITy) (k : VCond) (f : Lane) (s : State) : Out :=
  issueLane (.vcmp t k f) f noCheck none (fun c =>
    let a := c.srcA t.is64 f
    let b := c.srcB t.is64 f
    let x := fun n => if t.signed then sx t.width n else (n : Int)
    (c.putMask f.vd fun i => condInt k (x (a.get i)) (x (b.get i)), 0)) s

/-- A generated register: its tag stands under an all-live mask, else the result is G (R24). -/
def laneGen (i : Instr) (f : Lane) (r : LaneCtx → LaneReg) (s : State) : Out :=
  issueLane i f noCheck none (fun c => ([c.put f.vd.toNat (r c)], 0)) s

def execVimm (f : Lane) (s : State) : Out := laneGen (.vimm f) f (fun _ => .u f.imm) s
def execVtid (f : Lane) (s : State) : Out := laneGen (.vtid f) f (fun _ => .a 0 1) s
def execVtidWg (f : Lane) (s : State) : Out := laneGen (.vtidWg f) f (fun c => .a (BitVec.ofNat 32 c.thrBase) 1) s
def execVaff (f : Lane) (s : State) : Out :=
  laneGen (.vaff f) f (fun c =>
    .a (BitVec.ofNat 32 ((c.srcA false f).get 0)) (BitVec.ofNat 32 ((c.srcB false f).get 0))) s

end Sys2Proof.Machine
end

