-- ==== Sys2Proof/Machine/LaneMem.lean ====
section
/-!
DEFINITION. Lane memory access (spec/05 R148 to R156): addresses by thread, translation of every live thread before any
access, loads, stores, asynchronous chunks and lane atomics, and the threads that fault or await a fill.
-/
namespace Sys2Proof.Machine

/-! ## Addresses (Table 5.7) -/

def laneDisp (f : Lane) : Word := f.imm.signExtend 64
def LaneCtx.offset (c : LaneCtx) (f : Lane) (t : Nat) : Word := sext 32 ((c.srcB false f).get t)

/-- `[sA + #imm]` with a stride. -/
def LaneCtx.strided (c : LaneCtx) (f : Lane) (stride : Word) (t : Nat) : Word :=
  c.scalar f.va + laneDisp f + bv64 t * stride
/-- `[base + vB + #imm]`, the base a scalar or an even lane pair. -/
def LaneCtx.indexed (c : LaneCtx) (f : Lane) (t : Nat) : Word :=
  bv64 ((c.srcA true f).get t) + c.offset f t + laneDisp f

/-! ## Threads that fault -/

/-- The threads that a list names, as a mask. -/
def threadMask (l : List Nat) : Mask := BitVec.ofNat 1024 (l.foldl (fun m t => m ||| 2 ^ t) 0)

/-- Finds the places of every thread in turn; each thread's faults are its own (R154). -/
def laneFind (find : Nat → X (List Place)) : List Nat → X (List (Nat × Except Stop (List Place)))
  | [] => pure []
  | t :: ts => do
    let r ← X.attempt (find t)
    let l ← laneFind find ts
    pure ((t, r) :: l)

def foundPlaces (l : List (Nat × Except Stop (List Place))) : List (Nat × List Place) :=
  l.filterMap fun x => match x.2 with | .ok p => some (x.1, p) | .error _ => none
def foundTraps (l : List (Nat × Except Stop (List Place))) : List (Nat × Cause × Word × Nat) :=
  l.filterMap fun x => match x.2 with | .error (.trap c v i) => some (x.1, c, v, i) | _ => none
def foundFills (l : List (Nat × Except Stop (List Place))) : List (Nat × Nat × Word) :=
  l.filterMap fun x => match x.2 with | .error (.fill k va) => some (x.1, k, va) | _ => none

/-- What the accesses of an instruction give: its register writes, and the threads whose data came back bad (R155). -/
structure LaneData where
  writes : List PendWrite := []
  bad : List (Nat × Cause × Word) := []

/-- The outstanding instruction. -/
def LaneData.pend (d : LaneData) (addr : Word) : Pend :=
  let b := d.bad.headD (0, 0, 0)
  { cls := some .mem, writes := d.writes, addr, bad := threadMask (d.bad.map (·.1)), badCause := b.2.1, badVal := b.2.2 }

/-- What remains of the block after the instruction. -/
def Agent.restOfBlock (a : Agent) (f : Lane) : Option Block :=
  if f.last then none else a.lane.active.map fun b => { b with lidx := b.lidx + 1, issued := b.issued + 1, only := none }

/-- The group with one more outstanding instruction. -/
def Agent.addPend (a : Agent) (p : Pend) : Agent := { a with lane := { a.lane with pend := a.lane.pend ++ [p] } }

/-- The group parks behind a memory instruction with a park marker, some of whose threads have faulted, while results are
outstanding (R19). -/
def Agent.parkIf (a : Agent) (f : Lane) : Agent := { a with lane := { a.lane with parked := f.park && !a.lane.pend.isEmpty } }

/-- The instruction executes again for the threads in `m`, when a fill has ended (R302). -/
def Agent.againFor (a : Agent) (m : Mask) : Agent :=
  { a with lane := { a.lane with active := a.lane.active.map fun b => { b with only := some m } } }

/-- Ends a memory instruction whose threads have been translated and whose accesses have been made: `before` is the
state before any of them, `after` the state with them. -/
def laneMemEnd (f : Lane) (before after : State) (rs : List (Nat × Except Stop (List Place))) (d : LaneData) : State :=
  let addr := before.cur.laneAddr
  let traps := foundTraps rs
  let fills := foundFills rs
  let after := after.onCur fun a => a.addPend (d.pend addr)
  match fills with
  | (_, k, va) :: _ =>
    let t := { after with fills := before.fills }.beginFills (after.fills.drop before.fills.length)
    (t.onCur fun a => a.againFor (threadMask (traps.map (·.1) ++ fills.map (·.1)))).awaitFill k va
  | [] =>
    match traps with
    | (_, c, v, i) :: _ =>
      laneTrap (before.keepClaims after) (after.onCur fun a => a.parkIf f) c v addr
        (threadMask (traps.map (·.1))) (before.cur.restOfBlock f) i
    | [] => after.onCur fun a => { a with lane := a.lane.issued f }

/-- A lane memory instruction: `scope` where its AUX gives one, `find` the places of a thread, `perform` the accesses of
the threads found, in increasing thread order, with the clamped scope. -/
def laneMemory (i : Instr) (f : Lane) (scope : Option (BitVec 4)) (find : LaneCtx → Ctx → Nat → X (List Place))
    (perform : LaneCtx → Ctx → Nat → List (Nat × List Place) → X LaneData) (s : State) : Out :=
  if !inBudget i s.cur.budget then laneIllegal i s
  else if s.cur.counterFull (some .mem) then .next (s.onCur fun a => { a with lane := { a.lane with stalled := true } })
  else
    let c := s.laneCtx f
    let ctx := s.cur.laneCtx
    let s0 := s.laneView.2
    match (match scope with | some k => checkScope k.toNat s0 | none => .ok 0 s0) with
    | .error (.trap e v _) _ => .next (laneTrap s s0 e v s.cur.laneAddr c.live (s.cur.restOfBlock f))
    | .error e t => .next (s.stopped t e)
    | .ok k s1 =>
      match laneFind (find c ctx) ((List.range c.g).filter c.isLive) s1 with
      | .error e t => .next (s.stopped t e)
      | .ok rs s2 =>
        match perform c ctx k (foundPlaces rs) s2 with
        | .error e t => .next (s.stopped t e)
        | .ok d s3 => .next (laneMemEnd f s s3 rs d)

/-! ## Loads (R149) -/

def findOne (va : Word) (n : Nat) (k : Kind) (c : Ctx) : X (List Place) := do
  X.aligned va n
  let p ← translateRange c va k n
  pure [p]

/-- Reads one place for each thread: the values, and the threads whose data is bad. -/
def readThreads (c : Ctx) (n : Nat) : List (Nat × List Place) → X (List (Nat × Nat) × List (Nat × Cause × Word))
  | [] => pure ([], [])
  | (t, ps) :: l => do
    let r ← X.attempt (readPlace c (ps.headD (.dev 0)) 0 n)
    let q ← readThreads c n l
    match r with
    | .ok bs => pure ((t, bytesNat bs) :: q.1, q.2)
    | .error (.trap e _ _) => pure (q.1, (t, e, 0) :: q.2)
    | .error _ => pure q

/-- The result of a load or of `vatom` in the threads that have one: `vals` is by thread. -/
def LaneCtx.putLoaded (c : LaneCtx) (z : Size) (r : Nat) (vals : List (Nat × Nat)) : List PendWrite :=
  let live := threadMask (vals.map (·.1))
  let val := fun t => match vals.find? (·.1 == t) with
    | some x => if z.signed then (sext (8 * z.bytes) x.2).toNat else x.2
    | none => 0
  let word := fun k => LaneReg.g ((List.range c.g).map fun t => BitVec.ofNat 32 (val t / 2 ^ (32 * k)))
  let all := live == allLive c.g
  if z.is64 then [.lane r live all (word 0), .lane (r + 1) live all (word 1)] else [.lane r live all (word 0)]

def loadLanes (i : Instr) (z : Size) (f : Lane) (addr : LaneCtx → Nat → Word) (s : State) : Out :=
  laneMemory i f none (fun c x t => findOne (addr c t) z.bytes .r x)
    (fun c x _ ps => do
      let r ← readThreads x z.bytes ps
      pure { writes := c.putLoaded z f.vd.toNat r.1, bad := r.2.map fun b => (b.1, b.2.1, addr c b.1) }) s

def execVld (z : Size) (f : Lane) (s : State) : Out :=
  loadLanes (.vld z f) z f (fun c t => c.strided f (bv64 z.bytes) t) s
def execVldx (z : Size) (f : Lane) (s : State) : Out := loadLanes (.vldx z f) z f (fun c t => c.indexed f t) s
def execVlds (z : Size) (f : Lane) (s : State) : Out :=
  loadLanes (.vlds z f) z f (fun c t => c.strided f (c.offset f t) t) s

/-! ## Stores (R149, R150) -/

/-- The bytes that lie in lines which the writes together cover leave as one write of the line (R379); every other
thread's write leaves on its own. -/
def fullLine (cells : List Host.Cell) (l : Nat) : Bool :=
  (List.range 256).all fun k => cells.any fun b => b.1 == l * 256 + k

/-- One write of each address, the last. -/
def lastWrites (cells : List Host.Cell) : List Host.Cell := cells.foldl (fun l b => aput l b.1 b.2) []

def mergeLeaving (l : List Leaving) : List Leaving :=
  let cells := (l.map (·.bytes)).flatten
  let lines := (l.foldl (fun k w => match w.bytes with | b :: _ => if k.contains (b.1 / 256) then k else k ++ [b.1 / 256] | [] => k) []).filter
    (fullLine cells)
  let rest := l.filter fun w => !w.bytes.any fun b => lines.contains (b.1 / 256)
  let whole := lines.map fun k =>
    { bytes := lastWrites (cells.filter fun b => b.1 / 256 == k)
      smr := l.any fun w => w.smr && w.bytes.any fun b => b.1 / 256 == k
      uncached := l.any fun w => w.uncached && w.bytes.any fun b => b.1 / 256 == k : Leaving }
  rest ++ whole

/-- Writes one place for each thread, in order. -/
def writeThreads (c : Ctx) (n : Nat) (v : Nat → Nat) : List (Nat × List Place) → X Unit
  | [] => pure ()
  | (t, ps) :: l => do
    writePlace c (ps.headD (.dev 0)) 0 (natBytes (v t) n)
    writeThreads c n v l

def storeLanes (i : Instr) (z : Size) (f : Lane) (addr : LaneCtx → Nat → Word) (s : State) : Out :=
  laneMemory i f none (fun c x t => findOne (addr c t) z.bytes .w x)
    (fun c x _ ps => do
      X.update fun s => ps.foldl (fun s q => s.landAt x.agent (q.2.headD (.dev 0)) z.bytes) s
      let old ← X.cur
      writeThreads x z.bytes (c.srcC z.is64 f).get ps
      X.onCur fun a => { a with leaving := old.leaving ++ mergeLeaving (a.leaving.drop old.leaving.length) }
      pure {}) s

def execVst (z : Size) (f : Lane) (s : State) : Out :=
  storeLanes (.vst z f) z f (fun c t => c.strided f (bv64 z.bytes) t) s
def execVstx (z : Size) (f : Lane) (s : State) : Out := storeLanes (.vstx z f) z f (fun c t => c.indexed f t) s

/-! ## Asynchronous copies (R151) -/

def chunkSize (f : Lane) : Nat := 4 * 2 ^ (f.imm.toNat % 8)

/-- The addresses of a thread: source, destination. -/
def LaneCtx.chunkSrc (c : LaneCtx) (f : Lane) (t : Nat) : Word :=
  bv64 ((c.srcB true f).get t) + sext 32 ((c.srcC false f).get t)
def LaneCtx.chunkDst (c : LaneCtx) (f : Lane) (t : Nat) : Word := c.scalar f.va + bv64 (t * chunkSize f)

/-- The bytes of one side of a chunk: their addresses, the workgroup whose scratchpad holds them, SMR, and whether an
access there keeps no copy. -/
def chunkSide (s : State) (c : Ctx) (n : Nat) : Place → List Nat × Option Nat × Bool × Bool
  | .mem pa smr ap => ((List.range n).map (pa + ·), none, smr, uncachedFor s c pa smr ap)
  | .scr w o => ((List.range n).map (o + ·), some w, false, false)
  | .dev pa => ((List.range n).map (pa + ·), none, false, true)

/-- A chunk joins the open batch, whose number the next `cbatch` gives (R177). -/
def addChunk (instr : Nat) (c : Ctx) (n : Nat) (ps : List Place) : X Unit := do
  let s ← get
  match ps with
  | [p, q] =>
    let x := chunkSide s c n p
    let y := chunkSide s c n q
    let k : Chunk :=
      { id := s.nextId, agent := s.cur.id, batch := s.cur.sync.lastBatch + 1, die := s.cur.die, instr
        src := x.1, srcLocal := x.2.1, srcSmr := x.2.2.1, srcUncached := x.2.2.2
        dst := y.1, dstLocal := y.2.1, dstSmr := y.2.2.1, dstUncached := y.2.2.2 }
    set { s with nextId := s.nextId + 1, chunks := s.chunks ++ [k] }
  | _ => pure ()

def execAcpy (f : Lane) (s : State) : Out :=
  laneMemory (.acpy f) f (some (f.aux.extractLsb' 4 4))
    (fun c x t => do
      let n := chunkSize f
      X.aligned (c.chunkSrc f t) n
      X.aligned (c.chunkDst f t) n
      let p ← translateRange x (c.chunkSrc f t) .r n
      let q ← translateRange x (c.chunkDst f t) .w n
      pure [p, q])
    (fun _ x k ps => do
      let s ← get
      ps.forM fun p => addChunk s.nextId x (chunkSize f) p.2
      if !ps.isEmpty then X.onCur fun a => { a with sync := { a.sync with openScope := max a.sync.openScope k } }
      pure {}) s

/-! ## Lane atomics (R152, R153) -/

/-- f32 addition, rounded to nearest even, without flushing or flags (R153). -/
def atomicFadd (x y : Nat) : Nat := (roundTo .f32 (FV.add 0 (Fmt.f32.decode x) (Fmt.f32.decode y)).1 {}).1

def VAtomOp.apply (op : VAtomOp) (z : Size) (x y : Nat) : Nat :=
  let w := 8 * z.bytes
  match op with
  | .add => wrapNat w (x + y) | .and => x &&& y | .or => x ||| y | .xor => x ^^^ y
  | .min => minBy z.signed w x y | .max => maxBy z.signed w x y | .swap => y | .fadd => atomicFadd x y

/-- The operations that AP 10 admits (Table 6.5). -/
def VAtomOp.pcie : VAtomOp → Bool | .add | .swap => true | _ => false

/-- One atomic for each thread, in increasing thread order: the old values. -/
def atomicThreads (n : Nat) (op : Nat → Nat → Nat) : List (Nat × List Place) → X (List (Nat × Nat) × List (Nat × Cause × Word))
  | [] => pure ([], [])
  | (t, ps) :: l => do
    let r ← X.attempt (atomicRmw (ps.headD (.dev 0)) 0 n false false 0 (op t))
    let q ← atomicThreads n op l
    match r with
    | .ok x => pure ((t, x) :: q.1, q.2)
    | .error (.trap e _ _) => pure (q.1, (t, e, 0) :: q.2)
    | .error _ => pure q

def atomicLanes (i : Instr) (op : VAtomOp) (z : Size) (f : Lane) (out : Bool) (s : State) : Out :=
  laneMemory i f (some (f.aux.extractLsb' 4 4))
    (fun c x t => do
      let va := c.indexed f t
      X.aligned va z.bytes
      let p ← atomicPlaceFor x va z.bytes (VAtomOp.pcie op)
      pure [p])
    (fun c _ _ ps => do
      let v := fun t => (c.srcC z.is64 f).get t % 2 ^ (8 * z.bytes)
      let r ← atomicThreads z.bytes (fun t x => VAtomOp.apply op z x (v t)) ps
      pure { writes := if out then c.putLoaded z f.vd.toNat r.1 else []
             bad := r.2.map fun b => (b.1, b.2.1, c.indexed f b.1) }) s

def execVatom (op : VAtomOp) (z : Size) (f : Lane) (s : State) : Out := atomicLanes (.vatom op z f) op z f true s
def execVred (op : VAtomOp) (z : Size) (f : Lane) (s : State) : Out := atomicLanes (.vred op z f) op z f false s

end Sys2Proof.Machine
end

