-- ==== Sys2Proof/Machine/SyncEvents.lean ====
section
/-!
DEFINITION. Steps that end the waits of synchronisation (spec/06 R175, R177, R181 to R183), the landing of chunks (05
R151), and the end of a storage-backed fill (11 R302).
-/
namespace Sys2Proof.Machine

/-! ## Timelines and barriers -/

/-- Whether the acting agent's timeline wait is satisfied; a handle that is no longer valid ends it too. -/
def State.twaitMet (s : State) (h n : Word) : Bool :=
  match timelineOf s h with
  | .ok t => decide (n.toNat ≤ (s.counterOf t).toNat)
  | .error _ => true

def execTwaitSatisfied (id : Nat) (s : State) : Out :=
  let t := s.focus id
  .next (match t.cur.status with
    | .waiting (.twait h n) => if t.cur.id = id && t.twaitMet h n then t.onCur (·.wake) else s
    | _ => s)

/-- Whether the acting agent's barrier wait is satisfied, or its instruction would trap. -/
def State.awaitMet (s : State) (va n : Word) : Bool :=
  match (X.run' (do
    let p ← barrierPlace va
    readBarrier p va) s).1 with
  | .ok r => r.1.ovf || r.1.malformed || decide (n.toNat ≤ r.1.complete)
  | .error _ => true

def execAwaitSatisfied (id : Nat) (s : State) : Out :=
  let t := s.focus id
  .next (match t.cur.status with
    | .waiting (.await va n) => if t.cur.id = id && t.awaitMet va n then t.onCur (·.wake) else s
    | _ => s)

/-! ## `wgbar` and `hbar` complete (R182, R183) -/

/-- The wait that an agent stands at, on its core or saved. -/
def Status.wait? : Status → Option Wait
  | .waiting w => some w
  | .saved _ w => w
  | .blocked w => w
  | _ => none

/-- The arrival of an agent that waits at barrier `w`. -/
def Agent.arrivedAt (a : Agent) (w : Wait) (herd : Option Nat) : Option BarArrival :=
  if a.status.wait? = some w then a.sync.arrival.filter fun x => x.herd == herd else none

/-- The members of a barrier with their arrivals, when every one that has not ended has arrived for the same time. -/
def barMembers (w : Wait) (herd : Option Nat) (as : List Agent) : Option (List (Agent × BarArrival)) :=
  let live := as.filter fun a => decide (a.status ≠ .ended)
  match live.mapM fun a => (a.arrivedAt w herd).map fun x => (a, x) with
  | some ((a, x) :: l) => if l.all fun y => y.2.k == x.k then some ((a, x) :: l) else none
  | _ => none

def firstArrival (a b : Agent × BarArrival) : Agent × BarArrival :=
  if b.1.ids.wgIdx < a.1.ids.wgIdx ∨ (b.1.ids.wgIdx = a.1.ids.wgIdx ∧ b.1.ids.grpIdx < a.1.ids.grpIdx) then b else a

/-- The reduction, under the operation of the lowest participant. -/
def barResult (l : List (Agent × BarArrival)) : Word :=
  match l with
  | [] => 0
  | p :: ps => barReduce (ps.foldl firstArrival p).2.op (l.map fun y => y.2.val)

/-- The agent has the result in sD and goes on. -/
def Agent.passBarrier (a : Agent) (x : BarArrival) (r : Word) : Agent :=
  { (a.setS x.sd r).advance with
    sync := { a.sync with arrival := none }
    status := match a.status with | .saved f _ => .saved f none | .blocked _ => .blocked none | _ => .ready }

/-- Every participant releases and then acquires, each at its scope (R183). -/
def State.completeBarrier (s : State) (l : List (Agent × BarArrival)) : State :=
  let r := barResult l
  let c := l.foldl (fun c y => c.join y.2.clock) Clock.zero
  l.foldl (fun s y => (s.acquire y.1.die y.2.scope c).onAgent y.1.id fun a => a.passBarrier y.2 r) s

def State.groupsOf (s : State) (w : Nat) : List Agent := (s.cur :: s.others).filter fun a => decide (a.kind = .group) && a.wg == w

def execWgbarComplete (wg : Nat) (s : State) : Out :=
  .next (match barMembers .wgbar none (s.groupsOf wg) with
    | some l => s.completeBarrier l
    | none => s)

/-- Whether a workgroup index of a launch has completed (R266). -/
def Launch.hasCompleted (l : Launch) (i : Nat) : Bool := decide (i < l.head) || l.completed.contains i

/-- The groups of a herd, when every workgroup of it that has not completed stands on the part or is swapped out. -/
def State.herdGroups (s : State) (l : Launch) (herd : Nat) : Option (List Agent) :=
  ((l.herds.getD herd []).filter fun i => !l.hasCompleted i).foldr (fun i o =>
    match o, s.wgs.find? (fun w => w.launch == l.id && w.index == i) with
    | some as, some w => some (s.groupsOf w.id ++ as)
    | _, _ => none) (some [])

def execHbarComplete (launch herd : Nat) (s : State) : Out :=
  .next (match s.launch? launch with
    | none => s
    | some l =>
      match (s.herdGroups l herd).bind (barMembers .hbar (some herd)) with
      | some m => s.completeBarrier m
      | none => s)

/-! ## Chunks land (R151) -/

/-- Whether an earlier chunk of the agent still has to land that this one follows (R150, R151). -/
def State.chunkHeld (s : State) (c : Chunk) : Bool := s.chunks.any fun x => decide (x.id < c.id) && x.meets c

/-- Some of the bytes land now, by an open choice; the chunk is done with the last of them. -/
def State.landChunk (s : State) (c : Chunk) : State :=
  let d := s.draw
  let now := (List.range c.src.length).filter fun i => !d.1.testBit i
  let later := (List.range c.src.length).filter fun i => d.1.testBit i
  let pick := fun (l : List Nat) (is : List Nat) => is.map fun i => l.getD i 0
  let s := d.2.moveChunk { c with src := pick c.src now, dst := pick c.dst now }
  { s with chunks := if later.isEmpty then s.chunks.filter (·.id != c.id)
      else s.chunks.map fun (x : Chunk) => if x.id = c.id then { x with src := pick c.src later, dst := pick c.dst later } else x }

def execAcpyChunkLands (chunk : Nat) (s : State) : Out :=
  .next (match s.chunks.find? (·.id == chunk) with
    | some c => if s.chunkHeld c then s else s.landChunk c
    | none => s)

/-! ## A storage-backed fill ends (R301, R302) -/

/-- The attachment in RUN at a drive slot of an enclave (14 R372). -/
def State.driveOf (s : State) (e : BitVec 16) (slot : Nat) : Option Attachment :=
  (s.links.attachments.map (·.2)).find? fun a => a.encid == e && a.slot.toNat == slot && decide (a.state = 2)

def storageKey (slots : List (Option Nat)) (k : Nat) : Option Nat := (slots[k]?).join

/-- Blocks of `n` bytes decrypted, or encrypted, each under its LBA as tweak (R373). -/
def xtsBlocks (f : Nat → Nat → List Byte → List Byte) (key n : Nat) : Nat → Nat → List Byte → List Byte
  | 0, _, _ => []
  | k + 1, lba, bs => ((f key lba (bs.take n)) ++ List.replicate n 0).take n ++ xtsBlocks f key n k (lba + 1) (bs.drop n)

/-- The page that the drive's answer gives under the backing entry of a fill, decrypted with the key that its slot held when the
fill began (07 R220); a bad entry or a failed read refuses. -/
def fillBytes (f : Fill) (drive : Option (List Byte)) : X (List Byte) := do
  let c := hwCtx f.enc f.die
  let idx := fieldN f.old.toNat 18 32
  let base ← svcRead f.enc f.die 0x38 8
  let n ← svcRead f.enc f.die 0x40 4
  X.check (decide (idx < n)) cEngine
  let b ← readVa c (bv64 (base + 32 * idx)) 32
  let w := wordAt b 0
  let nlb := fieldN (wordAt b 0x10) 0 32
  let s ← get
  match s.driveOf f.enc (fieldN w 0 8), drive with
  | some a, some bs => do
    let n := 2 ^ a.lbas.toNat
    X.check (nlb * n == 0x40000 && bs.length == 0x40000) cEngine
    if bitN w 12 then
      match storageKey f.keys (fieldN w 8 4) with
      | some k => pure (xtsBlocks Config.xtsDec k n nlb (wordAt b 8) bs)
      | none => X.trap cIntegrity
    else pure bs
  | _, _ => X.trap cEngine

/-- The leaf of a filled page: V = 1, FILL = 0, SB = 1, OA = IPA. -/
def filledLeaf (old ipa : Nat) : Nat := old - fieldN old 18 34 * 2 ^ 18 - bit (bitN old 11) 11 + ipa + 1

/-- The leaf of a fill swings from `f.old`, or the fill fails. -/
def swingLeaf (f : Fill) (new : Nat) : X Unit := do
  let s ← get
  X.check (s.entryAt f.leaf == f.old.toNat) cEngine
  let pa := s.redirect f.leaf
  set { s.markDirty pa with mem := s.mem.hwWrite f.die (natCells pa new 8) }

/-- Steps 3 to 6 once a page's bytes stand ready. -/
def fillPage (f : Fill) (bs : List Byte) (ipa : Nat) : X Unit := do
  X.check (ipa % 0x40000 == 0) cStage2
  let r ← stage2 f.enc f.va.toNat ipa .w
  let s ← get
  X.check (ownerAdmits s (hwCtx f.enc f.die) r.1 .w) cOwner
  set (s.writePage f.die r.1 bs)
  swingLeaf f (filledLeaf f.old.toNat ipa)
  let n ← svcRead f.enc f.die 0x48 8
  svcWrite f.enc f.die 0x48 (n + 1) 8

/-- A fill from its drive's answer on, with the page that its pop gave; what a walk has claimed stays claimed, and a page popped
for a fill that fails goes back. -/
def runFill (f : Fill) (drive : Option (List Byte)) : X Unit := do
  match f.page with
  | none => X.trap cEngine
  | some ipa => do
    let r ← X.attempt (do
      let bs ← fillBytes f drive
      fillPage f bs ipa)
    match r with
    | .ok _ => pure ()
    | .error e => do
      pushPool f ipa
      throw e

/-- A fill that fails: the leaf returns to FILL = 0 if it still holds the value with FILL = 1. -/
def unfill (f : Fill) : X Unit := swingLeaf f (f.old.toNat - 0x800)

/-- A waiter is ready again, or saved with no wait (R262). -/
def Agent.endWait (a : Agent) (w : Wait) : Agent :=
  let a := { a with lane := { a.lane with fetchWait := a.lane.fetchWait && !(a.status.wait? == some w) } }
  match a.status with
  | .waiting x => if x = w then { a with status := .ready } else a
  | .saved f (some x) => if x = w then { a with status := .saved f none } else a
  | .blocked (some x) => if x = w then { a with status := .blocked none } else a
  | _ => a

/-- What is left of a block after the instruction that waits for a fill. -/
def State.restAfterFill (s : State) : Option Block :=
  match s.cur.lane.active with
  | none => none
  | some b =>
    match fetchLane b.lidx s with
    | .ok (.ok i) _ =>
      match laneUse i with
      | some (f, _) => s.cur.restOfBlock f
      | none => none
    | _ => none

/-- A waiter of a fill that failed raises NOTPRESENT at the address that brought it there: a lane waiter with its threads in m15,
one whose lane fetch waits with none, a `fret` again in its handler, any other one as a scalar trap. -/
def State.fillFault (s : State) (va : Word) : State :=
  let a := s.cur
  let s := s.onCur fun a => { a with lane := { a.lane with fetchWait := false } }
  match a.lane.replay, a.lane.active.bind (·.only) with
  | some m, _ => s.onCur fun a =>
      { a with
        trap := { a.trap with cause := cNotPresent, causeLane := true, val := va, fv := true, hm := true }
        regs := { a.regs with m := a.regs.m.set 15 (m &&& allLive a.gsize) }
        lane := { a.lane with replay := none }
        pc := a.trap.vec }
  | none, some m => laneTrap s s cNotPresent va a.laneAddr m (if a.lane.fetchWait then a.lane.active else s.restAfterFill)
  | none, none =>
    if a.lane.fetchWait then laneTrap s s cNotPresent va a.laneAddr 0 a.lane.active else s.takeTrap cNotPresent va

/-- After its fault a waiter that is off its core stays off it. -/
def Agent.asHeld (a : Agent) (held : Option Wait → Status) : Agent :=
  match a.status with
  | .ready => { a with status := held none }
  | .exited => { a with status := held (some .exitDone) }
  | _ => a

/-- A waiter of a failed fill takes its fault where it stands, on its core or saved. -/
def State.failWaiter (s : State) (f : Fill) (id : Nat) (va : Word) : State :=
  let t := s.focus id
  match t.cur.status with
  | .waiting (.fill k) => if t.cur.id = id ∧ k = f.id then (t.onCur (·.wake)).fillFault va else s
  | .saved forced (some (.fill k)) =>
    if t.cur.id = id ∧ k = f.id then ((t.onCur (·.wake)).fillFault va).onCur fun a => a.asHeld (.saved forced) else s
  | .blocked (some (.fill k)) =>
    if t.cur.id = id ∧ k = f.id then ((t.onCur (·.wake)).fillFault va).onCur fun a => a.asHeld .blocked else s
  | _ => s

/-- An engine operation waits at its load pipe for a fill (R302). -/
def State.joinFill (s : State) (fill op : Nat) (va : Word) : State :=
  { s with fills := s.fills.map fun (f : Fill) => if f.id = fill then { f with engineWaiters := f.engineWaiters ++ [(op, va)] } else f }.onOp op
    fun o => { o with state := .waiting }

/-- Engine waiter `o` of a failed fill faults ENGINE; a launch completes with that cause instead (08 R232). -/
def State.failEngine (s : State) (o : Nat) (va : Word) : State :=
  match s.op? o with
  | some x => if x.kind = .record 0 then s.finishOp o cEngine else s.faultOp o cEngine va
  | none => s

/-- Each engine waiter goes on, or faults ENGINE at its own address. -/
def State.engineWaiters (s : State) (f : Fill) (ok : Bool) : State :=
  f.engineWaiters.foldl (fun s o =>
    if ok then s.onOp o.1 fun x => if x.state = .waiting then { x with state := .running } else x else s.failEngine o.1 o.2) s

def State.fillEnds (s : State) (f : Fill) (drive : Option (List Byte)) : State :=
  let s := { s with fills := s.fills.filter (·.id != f.id) }
  match runFill f drive s with
  | .ok _ t => (t.mapAgents fun a => a.endWait (.fill f.id)).engineWaiters f true
  | .error _ t =>
    let s := eventX (unfill f) t
    (f.waiters.foldl (fun s w => s.failWaiter f w.1 w.2) s).engineWaiters f false

def execStorageFillEnd (fill : Nat) (drive : Option (List Byte)) (s : State) : Out :=
  .next (match s.fills.find? (·.id == fill) with
    | some f => s.fillEnds f drive
    | none => s)

end Sys2Proof.Machine
end

