-- ==== Sys2Proof/Machine/LaunchEvents.lean ====
section
/-!
DEFINITION. Launches and workgroups as the hardware schedules them (spec/08 R232 to R235; 10 R257 to R268; 11 R311 to R316):
spill refill, dispatch, ranges, admission with save slots, swap-out and the way back.
-/
namespace Sys2Proof.Machine

/-! ## Partitions and enclaves that may run -/

/-- The layout that a slice acts by (13 R346). -/
def LayoutState.tableOf (l : LayoutState) (slice : Nat) : List PartEntry :=
  if decide (l.journal = .committing) && !l.flipped.contains slice then l.old else l.entries

/-- A partition's own slices: those that none of its children holds (13 R343). -/
def State.ownsSlice (s : State) (part slice : Nat) : Bool :=
  let t := s.layout.tableOf slice
  let p := t.getD part {}
  p.valid && p.slices.getLsbD slice && !(childrenOf t part).any (fun c => c.slices.getLsbD slice)

/-- A live compute die on which the partition holds a slice. -/
def State.partOnDie (s : State) (part die : Nat) : Bool :=
  decide (die < 4) && s.dieLive die && (List.range 10).any fun k => s.ownsSlice part (die * 10 + k)

/-- The die of the master distributor (R263). -/
def State.masterDie (s : State) (part : Nat) : Option Nat := (List.range 4).find? fun d => s.partOnDie part d

/-- MIGSTOP is bringing the enclave to rest: nothing of it starts (13 R354). -/
def Enclave.stopping (e : Enclave) : Bool := match e.session with | some m => m.stopping | none => false

/-- An enclave whose agents run, and whose slice it is (07 R211; 10 R275). -/
def EnclaveState.runs : EnclaveState → Bool
  | .running | .migrating => true
  | _ => false

/-- Whether an enclave's agents run and the slices are its own now: without slicing those of every enclave, else those of the one
whose slice it is (R275). -/
def State.hasSlice (s : State) (e : Enclave) : Bool :=
  EnclaveState.runs e.state && !e.stopping && (decide (s.tslice e.part = 0) || (s.part e.part).slice == some e.id)

/-! ## SPILL_REFILL (R258, R259) -/

/-- The oldest spilled record moves into a hardware entry, its bytes read from the spill area. -/
def refill (e : BitVec 16) (qi : Nat) (q : Queue) (r : Rec) (rs : List Rec) : X Unit := do
  let bs ← readVa (hwCtx e r.die) (q.spillSlot q.refilled) (recordSize q.kind)
  X.update fun s => s.onQueue e qi fun q =>
    { q with hw := q.hw ++ [{ r with bytes := bs }], spill := rs, refilled := q.refilled + 1 }

/-- A refill read that faults suspends the queue, and a fault record carries its token. -/
def State.refillFaults (s : State) (e : BitVec 16) (qi die : Nat) (c : Cause) (va : Word) : State :=
  let slot := s.nextId % 2 ^ 32
  let s := { s with nextId := s.nextId + 1 }.onQueue e qi fun q => { q with refillFault := some slot }
  s.postFault e die { token := bv64 (slot + qi * 2 ^ 32), word1 := bv64 (c.toNat + 256 * 6), va, progress := 0 }

def State.spillRefill (s : State) (e : BitVec 16) (qi : Nat) (q : Queue) : State :=
  match q.spill with
  | r :: rs =>
    if q.hwFree && q.refillFault.isNone then
      match refill e qi q r rs s with
      | .ok _ t => t
      | .error (.trap c v _) t => (s.keepClaims t).refillFaults e qi r.die c v
      | .error _ t => s.keepWalk t
    else s
  | [] => s

def execSpillRefill (enc queue : Nat) (s : State) : Out :=
  let e := BitVec.ofNat 16 enc
  .next (match s.queue? e queue with
    | some q => s.spillRefill e queue q
    | none => s)

/-! ## The object of a launch (R226, R232, R233) -/

/-- The parts of an object with their lengths in bytes (Table 8.1; R399). -/
def objectParts (h : List Byte) : List (Nat × Nat) :=
  let f := fun o lo n => fieldN (wordAt h o) lo n
  [(0, 256), (f 0x18 0 32, f 0x18 32 32), (f 0x20 0 32, 12 * f 0x20 32 20), (f 0x28 0 32, f 0x28 32 32),
   (f 0x30 0 32, f 0x30 32 32), (f 0x38 0 32, f 0x38 32 32), (f 0x40 0 32, 8 * f 0x40 32 32),
   (f 0x48 0 32, f 0x48 32 32), (f 0x50 0 32, 4 * f 0x50 32 17), (f 0x58 0 32, 4 * f 0x08 48 16),
   (f 0x60 0 32, 72 * f 0x60 32 32)].filter fun p => p.2 != 0

def apart : List (Nat × Nat) → Bool
  | [] => true
  | p :: l => l.all (fun q => decide (p.1 + p.2 ≤ q.1) || decide (q.1 + q.2 ≤ p.1)) && apart l

/-- The unnamed bits of the header. -/
def headerReserved (h : List Byte) : Bool :=
  let f := fun o lo n => fieldN (wordAt h o) lo n
  f 0 47 1 == 0 && f 0 53 11 == 0 && f 8 13 3 == 0 && f 8 31 1 == 0 && f 8 41 7 == 0 && f 0x10 32 32 == 0 && f 0x20 52 12 == 0
    && f 0x50 49 15 == 0 && f 0x58 32 32 == 0 && (h.drop 0x70).all (· == 0)

/-- The limits and alignments of Table 8.1. -/
def headerLimits (h : List Byte) : Bool :=
  let f := fun o lo n => fieldN (wordAt h o) lo n
  decide (f 0 44 3 ≤ 4) && contractFits (f 0 44 3) (8 * 2 ^ f 0 41 3) && decide (f 8 0 13 ≤ 4096) && decide (f 8 16 15 ≤ 20480)
    && decide (f 8 32 9 ≤ 256) && f 0x18 0 32 % 128 == 0 && f 0x18 32 32 % 4 == 0 && f 0x20 0 32 % 64 == 0
    && f 0x40 0 32 % 8 == 0 && f 0x48 0 32 % 4 == 0 && f 0x50 0 32 % 4 == 0 && decide (f 0x50 32 17 ≤ 65536)
    && f 0x60 0 32 % 8 == 0
    && (f 0 40 1 == 1 || (wordAt h 0x40 == 0 && wordAt h 0x48 == 0 && wordAt h 0x50 == 0))

/-- The contract in force, or none where the two disagree or it exceeds G (R233). -/
def contractRule (obj rec g : Nat) : Option (Option Nat) :=
  if obj ≠ 0 ∧ rec ≠ 0 ∧ obj ≠ rec then none
  else
    let w := if obj = 0 then rec else obj
    if contractFits w g then some (contractOf w) else none

def Rec.scr (r : Rec) : Nat := r.f 0x20 32 13
def Rec.accum (r : Rec) : Nat := r.f 0x20 48 15
def Rec.code (r : Rec) : Nat := r.w 0x10
def Rec.nherd (r : Rec) : Nat := r.f 0x38 0 9

/-- The checks of R232 on the header against the record. -/
def objectOk (h : List Byte) (r : Rec) : Bool :=
  let f := fun o lo n => fieldN (wordAt h o) lo n
  f 0 0 32 == 0x4F4C5641 && f 0 32 8 == 1 && headerReserved h && headerLimits h
    && (objectParts h).all (fun p => decide (p.1 + p.2 ≤ wordAt h 0x68)) && apart (objectParts h)
    && f 0 41 3 == r.f 0x20 13 3 && decide (8 * (f 0 48 5 + 1) ≤ r.budget) && decide (f 8 0 13 ≤ r.scr)
    && decide (f 8 16 15 ≤ r.accum) && decide (f 8 32 9 ≤ r.nherd) && decide (r.f 0x18 0 32 < f 0x18 32 32)
    && (contractRule (f 0 44 3) (r.f 0x20 16 3) r.g).isSome

/-! ## The herd table (R264) -/

def strictlyRising : List Nat → Bool
  | x :: y :: l => decide (x < y) && strictlyRising (y :: l)
  | _ => true

/-- The list of one herd, or none where it breaks R264; a list of more than 256 indices spans more than 256. -/
def readHerd (c : Ctx) (grid : Nat) (list w : Nat) : X (Option (List Nat)) := do
  let n := fieldN w 0 32
  if list % 4 ≠ 0 ∨ n = 0 ∨ w / 2 ^ 32 ≠ 0 ∨ 256 < n then pure none
  else do
    let bs ← readVa c (bv64 list) (4 * n)
    let l := (List.range n).map fun i => bytesNat ((bs.drop (4 * i)).take 4)
    let first := l.headD 0
    let last := l.getLastD 0
    pure (if strictlyRising l && decide (last < grid) && decide (last - first + 1 ≤ 256) then some l else none)

def readHerds (c : Ctx) (grid tab : Nat) : Nat → X (Option (List (List Nat)))
  | 0 => pure (some [])
  | n + 1 => do
    let bs ← readVa c (bv64 tab) 16
    match ← readHerd c grid (wordAt bs 0) (wordAt bs 8) with
    | none => pure none
    | some l => do
      let rest ← readHerds c grid (tab + 16) n
      pure (rest.map (l :: ·))

def herdsOfIndex (hs : List (List Nat)) (i : Nat) : List Nat := (hs.zipIdx.filter fun h => h.1.contains i).map (·.2)
def herdsOk (hs : List (List Nat)) : Bool := hs.flatten.all fun i => decide ((herdsOfIndex hs i).length ≤ 4)

/-- HERDMAP of a workgroup: its herds in increasing order, byte 0 first. -/
def herdMapOf (hs : List (List Nat)) (i : Nat) : BitVec 36 :=
  BitVec.ofNat 36 (((herdsOfIndex hs i).zipIdx.map fun x => x.1 * 2 ^ (8 * x.2) + 2 ^ (32 + x.2)).foldl (· + ·) 0)

/-! ## Room on the cores (R265, R267, R268) -/

/-- What a workgroup takes: group slots, words of registers, 4 KiB units of scratchpad, accumulator banks. -/
structure Need where
  groups : Nat
  words : Nat
  scr : Nat
  banks : Nat
deriving DecidableEq, Repr

def Rec.need (r : Rec) : Need :=
  { groups := r.wgSize / r.g, words := r.wgSize * r.budget, scr := (r.scr + 15) / 16, banks := (r.accum + 511) / 512 }

/-- What a core has, and the accumulator banks of a die. -/
def coreRoom : Need := { groups := 64, words := 131072, scr := 256, banks := 40 }

/-- Matrix engines that a partition holds on a die, four in each slice. -/
def State.enginesOn (s : State) (part die : Nat) : Nat := 4 * ((List.range 10).filter fun k => s.ownsSlice part (die * 10 + k)).length

/-- An empty core of the partition can admit a workgroup (R265). -/
def State.coreFits (s : State) (part : Nat) (n : Need) : Bool :=
  decide (n.groups ≤ coreRoom.groups) && decide (n.words ≤ coreRoom.words) && decide (n.scr ≤ coreRoom.scr)
    && (List.range 4).any fun d => s.partOnDie part d && decide (n.banks ≤ s.enginesOn part d)

def Status.isSaved : Status → Bool | .saved .. => true | _ => false
def Status.isBlocked : Status → Bool | .blocked _ => true | _ => false
/-- Whether a workgroup holds its core: it is not swapped out, and not all of its groups are saved. -/
def State.onCore (s : State) (w : Workgroup) : Bool :=
  (decide (w.state = .resident) || decide (w.state = .swapping)) && (s.groupsOf w.id).any fun a => !Status.isSaved a.status

def State.needOf (s : State) (w : Workgroup) : Need :=
  match s.launch? w.launch with | some l => l.record.need | none => { groups := 0, words := 0, scr := 0, banks := 0 }

/-- The accumulator banks of a die that tasks of completed workgroups still hold: a task that is neither resumed nor abandoned
holds its bank until its enclave is destroyed (12 R330). -/
def State.heldBanks (s : State) (die : Nat) : Nat :=
  (((s.ops.filter fun o => decide (o.kind = .record 2) && o.started && decide (o.state ≠ .done) && o.die == die
    && (s.wg? o.record.wg).isNone).map fun o => (o.record.wg, o.record.bank)).eraseDups).length

/-- Whether a core of a die has room for a workgroup beside those in `ws`. -/
def State.roomOn (s : State) (ws : List Workgroup) (die core : Nat) (n : Need) : Bool :=
  let here := (ws.filter fun w => decide (w.die = die) && decide (w.core = core)).map s.needOf
  let sum := fun (f : Need → Nat) (l : List Need) => (l.map f).foldl (· + ·) 0
  decide (sum (·.groups) here + n.groups ≤ coreRoom.groups) && decide (sum (·.words) here + n.words ≤ coreRoom.words)
    && decide (sum (·.scr) here + n.scr ≤ coreRoom.scr)
    && decide (sum (·.banks) ((ws.filter fun w => decide (w.die = die)).map s.needOf) + s.heldBanks die + n.banks ≤ coreRoom.banks)

/-- The cores of a partition on a die, from the one after the core last used (R267); held slices admit nothing (13 R344). -/
def State.coresFrom (s : State) (part die : Nat) : List Nat :=
  let last := (alook (s.part part).lastCore die).getD 39
  ((List.range 40).map fun k => (last + 1 + k) % 40).filter fun c =>
    s.ownsSlice part (die * 10 + c / 4) && !s.layout.held.contains (die * 10 + c / 4)

def State.coreFor (s : State) (ws : List Workgroup) (part die : Nat) (n : Need) : Option Nat :=
  (s.coresFrom part die).find? fun c => s.roomOn ws die c n

def State.onCores (s : State) : List Workgroup := s.wgs.filter fun w => s.onCore w

/-! ## LAUNCH_DISPATCH_START (R263 to R265) -/

/-- The LAUNCH records at the heads of a partition's queues: enclave, queue and record. -/
def State.launchHeads (s : State) (part : Nat) : List (Enclave × Nat × Rec) :=
  ((s.enclaves.filter fun e => e.part == part && s.hasSlice e).map fun e =>
    e.queues.zipIdx.filterMap fun q => if q.1.kind = 0 then q.1.hw.head?.map fun r => (e, q.2, r) else none).flatten

/-- The record that starts first: the highest PRI, then the oldest `kick`. -/
def firstRecord (l : List (Enclave × Nat × Rec)) : Option (Enclave × Nat × Rec) :=
  l.foldl (fun o x => match o with
    | none => some x
    | some y => if y.2.2.pri < x.2.2.pri ∨ (x.2.2.pri = y.2.2.pri ∧ x.2.2.order < y.2.2.order) then some x else some y) none

/-- The master takes a record from its queue: the operation stands, running. -/
def State.takeRecord (s : State) (e : BitVec 16) (qi kind die : Nat) (r : Rec) : Nat × State :=
  let o : Op := { id := s.nextId, enc := e, queue := qi, kind := .record kind, record := r, die, maxScope := (s.layout.entryAt (s.partOf e) none).maxScope }
  (s.nextId, { s with nextId := s.nextId + 1, ops := s.ops ++ [o] }.onQueue e qi fun q => { q with hw := q.hw.drop 1 })

/-- A kind X read of the header as the distributor makes it, on its die. -/
def readHeader (e : BitVec 16) (die : Nat) (code : Nat) : X (List Byte) := readVa (hwCtx e die) (bv64 code) 256 .x

/-- The launch that a record and its object describe, or the cause of its refusal. -/
def openLaunch (e : Enclave) (r : Rec) (die op : Nat) : X (Except Cause Launch) := do
  let h ← readHeader e.id die r.code
  if !objectOk h r then pure (.error cIllegal)
  else do
    let hs ← readHerds (hwCtx e.id die) r.grid (r.w 0x28) r.nherd
    let s ← get
    match hs, contractRule (fieldN (wordAt h 0) 44 3) (r.f 0x20 16 3) r.g with
    | some hs, some contract =>
      let small := match e.save with | some f => decide (areaSize f < saveSize r.g r.budget) | none => false
      if !herdsOk hs || !s.coreFits e.part r.need || small then pure (.error cIllegal)
      else pure (.ok { id := op, op, enc := e.id, part := e.part, record := r, view := viewOf h r.code r.snap, contract, herds := hs
                       number := e.launches + 1 })
    | _, _ => pure (.error cIllegal)

/-- The opening of a launch whose operation stands: it may wait for a page of its object to be filled. DESIGN CHOICE: LAUNCHID counts
records as their dispatch begins, those refused or faulted there among them (R117; log 98). -/
def State.openOp (s : State) (e : Enclave) (o : Op) : State :=
  match openLaunch e o.record o.die o.id s with
  | .ok (.ok l) v => { v with launches := v.launches ++ [l] }.onEnclave e.id fun x => { x with launches := x.launches + 1 }
  | .ok (.error c) v => (v.finishOp o.id c).onEnclave e.id fun x => { x with launches := x.launches + 1 }
  | .error (.trap c _ _) v => ((s.keepClaims v).finishOp o.id c).onEnclave e.id fun x => { x with launches := x.launches + 1 }
  | .error (.fill k va) v => (s.keepWalk v).joinFill k o.id va
  | .error _ _ => s

/-- The operation of a LAUNCH record that the master has taken and not yet opened. -/
def State.unopened (s : State) (part : Nat) : Option Op :=
  s.ops.find? fun o => decide (o.kind = .record 0) && decide (o.state = .running) && (s.launches.all fun l => l.op != o.id)
    && match s.enclave? o.enc with | some e => e.part == part | none => false

/-- The launches of a partition in dispatch (R263). -/
def State.inDispatch (s : State) (part : Nat) : Nat :=
  (s.ops.filter fun o => decide (o.kind = .record 0) && decide (o.state ≠ .done)
    && match s.enclave? o.enc with | some e => e.part == part | none => false).length

/-- Whether the compute dies of a partition's slices are all fenced (R269). -/
def State.partitionGone (s : State) (part : Nat) : Bool :=
  (s.masterDie part).isNone && (List.range 40).any fun k => s.ownsSlice part k && !s.dieLive (k / 10)

/-- A record that a partition with no surviving slice takes completes with DIELOST (R269). -/
def State.loseRecord (s : State) (e : Enclave) (qi : Nat) (r : Rec) : State :=
  let t := s.takeRecord e.id qi 0 r.die r
  (t.2.finishOp t.1 cDieLost).onEnclave e.id fun x => { x with launches := x.launches + 1 }

def execLaunchDispatchStart (part : Nat) (s : State) : Out :=
  .next (match s.unopened part with
    | some o => match s.enclave? o.enc with | some e => if s.hasSlice e then s.openOp e o else s | none => s
    | none =>
      match firstRecord (s.launchHeads part), s.masterDie part with
      | some (e, qi, r), none => if s.partitionGone part then s.loseRecord e qi r else s
      | some (e, qi, r), some d =>
        if s.inDispatch part < 64 then
          let t := s.takeRecord e.id qi 0 d r
          let u := t.2.acquire d 6 r.clock
          match u.op? t.1 with | some o => u.openOp e o | none => u
        else s
      | _, _ => s)

/-! ## RANGE_DEAL (R266, R269) -/

/-- The first `n` of a list that are consecutive. -/
def consecutive : Nat → List Nat → List Nat
  | 0, _ => []
  | _, [] => []
  | _, [x] => [x]
  | n + 1, x :: y :: l => if y = x + 1 then x :: consecutive n (y :: l) else [x]

/-- A distributor that asks gets a range of up to 16 consecutive indices, lost ones first; how long it is below that is
open. -/
def State.dealRange (s : State) (l : Launch) (die : Nat) : State :=
  let d := s.draw
  let n := 16 - d.1 % 16
  if l.redeal.isEmpty then
    let hi := min (min (l.dealt + n) (l.head + 256)) l.record.grid
    let is := (List.range (hi - l.dealt)).map (l.dealt + ·)
    d.2.onLaunch l.id fun x => { x with ranges := x.ranges ++ is.map fun i => (die, i), dealt := max l.dealt hi }
  else
    let is := consecutive n l.redeal
    d.2.onLaunch l.id fun x => { x with ranges := x.ranges ++ is.map fun i => (die, i), redeal := x.redeal.drop is.length }

/-- Whether an agent is descheduled (R260, R302; 11 R299). -/
def Status.descheduled : Status → Bool
  | .waiting (.twait ..) | .waiting (.await ..) | .waiting .wgbar | .waiting .hbar | .waiting (.fill _) => true
  | .exited => true
  | _ => false

/-- A waiting workgroup: its groups are all descheduled, or have halted. -/
def State.allDescheduled (s : State) (w : Workgroup) : Bool :=
  (s.groupsOf w.id).all fun a => Status.descheduled a.status || decide (a.status = .ended)

/-- Whether the distributor of a die has room for a workgroup of a launch: a core admits it, or would when a waiting workgroup of
the partition left it (R261, R266; log 78). -/
def State.asks (s : State) (l : Launch) (die : Nat) : Bool :=
  (s.coreFor s.onCores l.part die l.record.need).isSome
    || s.wgs.any fun w => decide (w.state = .resident) && w.part == l.part && w.die == die && s.allDescheduled w
      && (s.coreFor (s.onCores.filter (·.id != w.id)) l.part die l.record.need).isSome

def execRangeDeal (launch die : Nat) (s : State) : Out :=
  .next (match s.launch? launch with
    | some l => if s.partOnDie l.part die && !l.dead && s.asks l die then s.dealRange l die else s
    | none => s)

/-! ## Save slots at admission (R311 to R313) -/

/-- The group slots of an enclave that no group holds, from an open starting point. -/
def State.freeSlots (s : State) (e : BitVec 16) (nslot d : Nat) : List Nat :=
  let used := ((s.cur :: s.others).filter fun a => decide (a.kind = .group) && a.enc == e && decide (a.status ≠ .ended)
    && decide (a.status ≠ .absent)).map (·.slotIdx)
  ((List.range nslot).map fun k => (d + k) % nslot).filter fun j => !used.contains j

/-- The slot map and the chosen slots are reached with kind W, their frames claimed; the map is cleared the first time,
and the bits of the slots are set. -/
def takeSlots (e : BitVec 16) (die : Nat) (f : SaveFields) (js : List Nat) : X Unit := do
  let _ ← saveRange e f.ipa (saveBase f) .w
  js.forM fun j => do
    let _ ← saveRange e (groupSlot f j) f.slotSz .w
    pure ()
  let s ← get
  match s.enclave? e with
  | some x =>
    if !x.mapCleared then do
      saveWrite e die f.ipa (List.replicate (saveBase f) 0)
      X.update fun s => s.onEnclave e fun x => { x with mapCleared := true }
  | none => pure ()
  js.forM fun j => markSlot e die j true

/-! ## WORKGROUP_ADMIT (R191, R267, R312, R313) -/

/-- The groups that stand on a core: of the workgroups there, those that have neither ended nor been saved. -/
def State.groupsOn (s : State) (die core : Nat) : List Agent :=
  s.agents.filter fun a => decide (a.kind = .group) && a.die == die && a.core == core && !Status.isSaved a.status
    && decide (a.status ≠ .ended)

/-- The issue slot of a core that holds the fewest groups. -/
def State.leastSlot (s : State) (die core : Nat) : Nat :=
  let n := fun k => ((s.groupsOn die core).filter (·.sched.slot == k)).length
  [1, 2, 3].foldl (fun b k => if n k < n b then k else b) 0

/-- The issue slot that a group is bound to: under a contract below 64, that of a group on the core which it can be packed with,
one that runs the same object under the same contract; else the one with the fewest groups (R267, R234). -/
def State.slotFor (s : State) (die core : Nat) (contract : Option Nat) (code : Option CodeView) : Nat :=
  match if contract.getD 64 < 64 then (s.groupsOn die core).find? fun a => a.contract == contract && a.code.map (·.code) == code.map (·.code)
    else none with
  | some a => a.sched.slot
  | none => s.leastSlot die core

/-- A group that comes to a core is bound to an issue slot there. -/
def State.bindSlot (s : State) (id core : Nat) : State :=
  match s.agent? id with
  | some a =>
    if a.kind = .group then
      s.onAgent id fun a => { a with core, sched := { a.sched with slot := s.slotFor a.die core a.contract a.code } }
    else s
  | none => s

/-- Group `j` of a workgroup as it starts (R191; 11 R295). -/
def newGroup (l : Launch) (e : Enclave) (f : SaveFields) (wg index die core j slot issue width id : Nat) : Agent :=
  let r := l.record
  let g := r.g
  ({ id, kind := .group, enc := e.id, part := e.part, wg, die, core, status := .ready
     level := if r.f 0 33 1 = 1 then .s else .u
     pc := bv64 (l.view.code + l.view.textOff + r.f 0x18 0 32)
     gsize := g, width, seenWidth := width, contract := l.contract, budget := r.budget
     ids := { grpIdx := j, wgIdx := index, thrBase := j * g, launchId := l.number, herdMap := herdMapOf l.herds index }
     trap := { vec := e.xvec0 &&& ~~~ 0xFFF, saveBase := bv64 (groupSlot f slot) }
     sched := { slot := issue, pri := r.pri }
     code := some l.view, slotIdx := slot } : Agent).setS 1 (bv64 (r.w 0x30))

/-- Adds the groups of a workgroup, each with its width, slot and issue slot. -/
def State.addGroups (s : State) (l : Launch) (e : Enclave) (f : SaveFields) (wg index die core : Nat) :
    List (Nat × Nat) → State
  | [] => s
  | (j, slot) :: js =>
    let c := chooseWidth s l.contract l.record.g
    let s := c.2
    let issue := s.slotFor die core l.contract (some l.view)
    let a := newGroup l e f wg index die core j slot issue c.1 s.nextId
    let s := ({ s with nextId := s.nextId + 1 }.addAgent a).onWg wg fun w => { w with groups := w.groups ++ [a.id] }
    s.addGroups l e f wg index die core js

/-- A launch is refused: it completes with a cause, and starts nothing more (R312). -/
def State.refuseLaunch (s : State) (l : Launch) (c : Cause) : State :=
  { s.finishOp l.op c with launches := s.launches.filter (·.id != l.id) }

/-- The workgroup takes its place: its groups are ready on the core (R267, R268). -/
def State.placeWorkgroup (s : State) (l : Launch) (e : Enclave) (f : SaveFields) (index die core : Nat) (js : List Nat) : State :=
  let id := s.nextId
  let r := l.record
  let w : Workgroup := { id, launch := l.id, index, enc := e.id, part := e.part, die, core, groups := [], scr := r.scr, accRows := r.accum
                         banks := List.range r.need.banks }
  let s := { s with nextId := id + 1, wgs := s.wgs ++ [w] }.onLaunch l.id fun x =>
    { x with ranges := x.ranges.erase (die, index), running := x.running ++ [index] }
  let s := s.onPart l.part fun p => { p with lastCore := aput p.lastCore die core }
  (s.acquire die 6 r.clock).addGroups l e f id index die core ((List.range js.length).zip js)

/-- The admission of a workgroup not yet started: the save fields are sampled (R312), group slots chosen, their frames
reached and claimed; where that fails, admission is blocked with an exit record of KIND 2 (R313). -/
def State.admitFresh (s : State) (l : Launch) (e : Enclave) (index die core : Nat) : State :=
  let sampled : Except Stop (Option SaveFields) × State := match e.save with
    | some f => (.ok (some f), s)
    | none => X.run' (sampleFields e.id die l.record.clock) s
  match sampled.1 with
  | .ok (some f) =>
    let s := sampled.2.onEnclave e.id fun x => { x with save := some f }
    if areaSize f < saveSize l.record.g l.record.budget then s.refuseLaunch l cIllegal
    else
      let d := s.draw
      let free := s.freeSlots e.id f.nslot d.1
      let k := l.record.need.groups
      if free.length < k then s
      else
        let js := free.take k
        match X.run' (takeSlots e.id die f js) d.2 with
        | (.ok _, t) => t.placeWorkgroup l e f index die core js
        | (.error (.trap c v ipa), t) =>
          let ipa := if ipa = 0 then v.toNat else ipa
          let s := (s.keepClaims t).onEnclave e.id fun x => { x with admitBlocked := some (c, ipa) }
          s.exitRecord e.part e.id c ipa 2 (.blockedAdmission e.id l.id)
        | (.error _, _) => s
  | .ok none => s.refuseLaunch l cIllegal
  | .error _ => s.refuseLaunch l cIllegal

/-! ## The way back of a saved group (R315, R316; 01 R12) -/

/-- The grant at a resume: GCHG is set, and RESLICED reads 1, when it differs from the grant at the save (Table 11.8). -/
def State.regrant (s : State) (id : Nat) : State :=
  match s.agent? id with
  | some a =>
    if a.kind = .group then
      let c := chooseWidth s a.contract a.gsize
      c.2.onAgent id fun a =>
        let a := a.setGrant c.1
        { a with gchg := a.gchg || decide (c.1 ≠ a.savedWidth), trap := { a.trap with resliced := decide (c.1 ≠ a.savedWidth) } }
    else s
  | none => s

/-- A fault held from the drain before the save is delivered (R308). -/
def State.deliverHeld (s : State) : State :=
  match s.cur.lane.drainTrap with
  | none => s
  | some t =>
    let s := s.onCur fun a => { a with lane := { a.lane with drainTrap := none } }
    if s.cur.trap.hm then s else laneTrap s s t.cause t.val t.addr t.faulters s.cur.lane.active t.ipa

/-- The status of an agent that the context engine has restored. -/
def resumedStatus : Option Wait → Status
  | none => .ready
  | some .exitDone => .exited
  | some w => .waiting w

/-- The slot that holds an agent's saved state (R311). -/
def State.slotOf (s : State) (a : Agent) : Option (Nat × SaveFields) :=
  match (s.enclave? a.enc).bind (·.save) with
  | some f => some (if a.kind = .control then controlSlot f a.slotIdx else a.trap.saveBase.toNat, f)
  | none => none

/-- The context engine reads an agent's slot: the first `n` bytes of its save area, and its context tail. It answers those `n`
bytes (R311, R314). -/
def readSlot (a : Agent) (n : Nat) : X (List Byte) := do
  let s ← get
  match s.slotOf a with
  | none => pure []
  | some (ipa, f) => do
    let b ← saveRead a.enc ipa n
    let _ ← saveRead a.enc (ipa + areaSize f) 8192
    pure b

/-- Saved state that cannot be read back, its tag failing, makes the group exit (R314), with the IPA of its last STAGE2 fault (Table
11.9). -/
def State.exitUnread (s : State) (a : Agent) (forced : Bool) (c : Cause) (ipa : Nat) : State :=
  let ipa := if c = cStage2 then ipa else a.trap.s2ipa
  (s.onAgent a.id fun a => { a with status := .saved forced (some .exitDone), trap := { a.trap with s2ipa := ipa } }).exitRecord
    a.part a.enc c ipa 0 (.agent a.id)

/-- The full restore after a forced save. -/
def State.resumeForced (s : State) (id core : Nat) (w : Option Wait) : State :=
  let s := s.focus id
  match X.run' (readSlot s.cur (forcedBytes s.cur).length) s with
  | (.ok _, t) =>
    let t := (t.regrant id).bindSlot id core
    (t.onCur fun a => { a with status := resumedStatus w, core, trap := { a.trap with forced := true } }).deliverHeld
  | (.error (.trap c _ ipa), t) => (s.keepClaims t).exitUnread s.cur true c ipa
  | (.error _, _) => s

/-- A word of the group record. -/
def Agent.loadRecord (a : Agent) (b : List Byte) : Agent :=
  let w0 := wordAt b 0
  let f := wordAt b 0x10
  let n := fieldN (wordAt b 0x18) 0 7
  { a with
    rmode := BitVec.ofNat 3 (fieldN f 0 3), flush := BitVec.ofNat 6 (fieldN f 8 6), fflags := BitVec.ofNat 5 (fieldN f 16 5)
    gchg := bitN f 24, clamped := bitN f 25
    shadow := (List.range n).map fun i => bv64 (wordAt b (0x100 + 8 * i))
    sync := { a.sync with
      lastBatch := wordAt b 0x20, wgbarK := wordAt b 0x28
      hbarK := Vector.ofFn fun i : Fin 4 => bytesNat ((b.drop (0x30 + 4 * i.val)).take 4) }
    trap := { a.trap with spc := bv64 (w0 / 4 * 4), level := if bitN w0 0 then .s else .u } }

/-- The entry of the restore routine after `sdone`: the fields of the group record, and every register at its launch
value. -/
def Agent.enterRestore (a : Agent) (b : List Byte) (core : Nat) : Agent :=
  let a := a.loadRecord b
  { a with
    core, status := .ready, level := .s, regs := .launch, lane := {}, snapshot := none, pendingScalars := some (.replicate 64 0)
    trap := { a.trap with inRestore := true, inSave := false, used := 0, forced := false }
    pc := a.trap.vec + 0x200 }

/-- The resume of a group that `sdone` has saved; an area that fails its tag makes the group exit with INTEGRITY (R314). -/
def State.resumeRoutine (s : State) (id core : Nat) : State :=
  let s := s.focus id
  match X.run' (readSlot s.cur 0x400) s with
  | (.ok b, t) => ((t.onCur fun a => a.enterRestore b core).regrant id).bindSlot id core
  | (.error (.trap c _ ipa), t) => (s.keepClaims t).exitUnread s.cur false c ipa
  | (.error _, _) => s

/-- A saved agent comes back to a core. -/
def State.resumeAgent (s : State) (id core : Nat) : State :=
  match s.agent? id with
  | some a =>
    match a.status with
    | .saved true w => s.resumeForced id core w
    | .saved false none => s.resumeRoutine id core
    | _ => s
  | none => s

/-- A swapped-out workgroup that is dispatchable returns to a core of its die (R262). -/
def State.readmit (s : State) (w : Workgroup) (core : Nat) : State :=
  let s := (s.onWg w.id fun x => { x with state := .resident, core }).onPart w.part fun p => { p with lastCore := aput p.lastCore w.die core }
  w.groups.foldl (fun s id => s.resumeAgent id core) s

/-- The lowest index of a launch that a die still has to admit. -/
def Launch.nextFor (l : Launch) (die : Nat) : Option Nat :=
  (l.ranges.filter fun x => x.1 == die).foldl (fun o x => match o with | none => some x.2 | some i => some (min i x.2)) none

/-- The dispatchable workgroup of a partition on a die that goes before a fresh one of priority `pri`. -/
def State.dispatchable (s : State) (part die : Nat) (p : Launch → Bool) : Option Workgroup :=
  s.wgs.find? fun w => decide (w.state = .dispatchable) && w.part == part && w.die == die &&
    match s.launch? w.launch with | some l => p l | none => false

/-- Whether it is the slice of a launch's enclave. -/
def State.sliceOfLaunch (s : State) (l : Launch) : Bool := match s.enclave? l.enc with | some e => s.hasSlice e | none => false

/-- The next workgroup of a launch that a die admits: a dispatchable one that was swapped out first, and a fresh one only where no
swapped one of its priority may go before it (R262). -/
def State.admitNext (s : State) (l : Launch) (e : Enclave) (die : Nat) : State :=
  match s.dispatchable l.part die (fun x => x.id == l.id) with
  | some w =>
    match s.coreFor s.onCores l.part die l.record.need with
    | some c => s.readmit w c
    | none => s
  | none =>
    if (s.dispatchable l.part die fun x => x.record.pri == l.record.pri && s.sliceOfLaunch x).isSome || e.admitBlocked.isSome then s
    else match l.nextFor die, s.coreFor s.onCores l.part die l.record.need with
      | some i, some c => s.admitFresh l e i die c
      | _, _ => s

def execWorkgroupAdmit (launch die : Nat) (s : State) : Out :=
  .next (match s.launch? launch with
    | some l =>
      match s.enclave? l.enc with
      | some e => if s.hasSlice e && s.partOnDie l.part die then s.admitNext l e die else s
      | none => s
    | none => s)

/-! ## SWAP_OUT and SWAPPED_WORKGROUP_READY (R260 to R262) -/

/-- Whether a workgroup of the partition waits for room on the die that the release of `w` would make (R261). -/
def State.wantsRoom (s : State) (w : Workgroup) : Bool :=
  let fits := fun (n : Need) => (s.coreFor s.onCores w.part w.die n).isNone
    && (s.coreFor (s.onCores.filter (·.id != w.id)) w.part w.die n).isSome
  s.launches.any (fun l => l.part == w.part && l.ranges.any (·.1 == w.die) && fits l.record.need)
    || s.wgs.any fun x => decide (x.state = .dispatchable) && x.part == w.part && x.die == w.die && fits (s.needOf x)

/-- When a waiting workgroup began to wait: at the last issue of its groups. -/
def State.waitsSince (s : State) (w : Workgroup) : Nat := (s.groupsOf w.id).foldl (fun m a => max m a.sched.lastIssue) 0

/-- Whether a workgroup waits and its release would make room (R261). -/
def State.swappable (s : State) (w : Workgroup) : Bool := decide (w.state = .resident) && s.allDescheduled w && s.wantsRoom w

/-- Of the workgroups of the partition on the die that could go out, none has waited longer (R261). -/
def State.waitedLongest (s : State) (w : Workgroup) : Bool :=
  s.wgs.all fun x => !(x.part == w.part && x.die == w.die && s.swappable x) || decide (s.waitsSince w ≤ s.waitsSince x)

/-- Whether a tile task of a workgroup runs. -/
def State.tileRuns (s : State) (w : Nat) : Bool :=
  s.ops.any fun o => decide (o.kind = .record 2) && o.record.wg == w && (decide (o.state = .running) || decide (o.state = .waiting))

/-- The forced save of an agent; `btcow` takes it only after its swing (R199). -/
def State.saveUncopied (s : State) (id : Nat) : State :=
  let s := s.endCow id
  match s.agent? id with
  | some a => match a.status with | .waiting (.btcow _) => s | _ => s.forcedSave id
  | none => s

/-- The forced save of every group of a workgroup; it is out when all of them are saved. A group whose save is blocked
keeps the workgroup on its core (R317). -/
def State.saveWorkgroup (s : State) (w : Workgroup) : State :=
  let gs := (s.groupsOf w.id).filter fun a => decide (a.status ≠ .ended) && !Status.isSaved a.status && !Status.isBlocked a.status
  let s := gs.foldl (fun s a => s.saveUncopied a.id) s
  if (s.groupsOf w.id).all fun a => decide (a.status = .ended) || Status.isSaved a.status then
    s.onWg w.id fun x => { x with state := .swapped }
  else s

/-- A swap-out begins, and is done once no task of the workgroup runs and no lane result is outstanding. -/
def State.swapOut (s : State) (w : Workgroup) : State :=
  let s := s.onWg w.id fun x => { x with state := .swapping }
  if s.tileRuns w.id || (s.groupsOf w.id).any (fun a => !a.lane.pend.isEmpty) then s else s.saveWorkgroup w

def execSwapOut (wg : Nat) (s : State) : Out :=
  .next (match s.wg? wg with
    | some w =>
      if w.state = .swapping then s.swapOut w
      else if s.swappable w && s.waitedLongest w then s.swapOut w
      else s
    | none => s)

/-- The wait of a saved group is satisfied. -/
def State.savedReady (s : State) (id : Nat) : Bool :=
  let t := s.focus id
  match t.cur.status with
  | .ended => true
  | .saved _ none => true
  | .saved _ (some (.twait h n)) => t.twaitMet h n
  | .saved _ (some (.await va n)) => t.awaitMet va n
  | .saved _ (some .lrunRoom) | .saved _ (some .drain) | .saved _ (some (.bmask _)) | .saved _ (some (.qread ..)) => true
  | _ => false

/-- A group that waits at a barrier for others. -/
def Status.atBarrier : Status → Bool
  | .saved _ (some .wgbar) | .saved _ (some .hbar) => true
  | _ => false

/-- Whether a swapped-out workgroup can go on: the wait of every group is satisfied, where one at a barrier waits for the groups of
the workgroup that can go on themselves (R262; log 94). -/
def State.wgReady (s : State) (w : Workgroup) : Bool :=
  let at' := fun id => match s.agent? id with | some a => Status.atBarrier a.status | none => false
  let ended := fun id => match s.agent? id with | some a => decide (a.status = .ended) | none => true
  w.groups.all (fun id => s.savedReady id)
    || (w.groups.all (fun id => s.savedReady id || at' id) && w.groups.any fun id => s.savedReady id && !ended id)

def Agent.clearSavedWait (a : Agent) : Agent :=
  if Status.atBarrier a.status then a
  else match a.status with | .saved f _ => { a with status := .saved f none } | _ => a

def execSwappedWorkgroupReady (wg : Nat) (s : State) : Out :=
  .next (match s.wg? wg with
    | some w =>
      if w.state = .swapped ∧ s.wgReady w = true then
        (w.groups.foldl (fun s id => s.onAgent id (·.clearSavedWait)) s).onWg wg fun x => { x with state := .dispatchable }
      else s
    | none => s)

end Sys2Proof.Machine
end

