-- ==== Sys2Proof/Machine/Mailbox.lean ====
section
/-!
DEFINITION. The Ridgepole mailbox (spec/13 R332, R333) with its firmware and attestation commands: SPDM (R337 to R339),
FWSTAGE, MANIFEST and SVNCOMMIT (R347 to R349).
-/
namespace Sys2Proof.Machine

/-! ## Codes (Table 13.1) -/

def mbOk : Nat := 0
def mbParam : Nat := 2
def mbState : Nat := 3
def mbAuth : Nat := 4
def mbBusy : Nat := 5
def mbSpace : Nat := 6
def mbRestarted : Nat := 7

/-! ## Requests and responses -/

/-- A range of physical addresses that the host agent may reach, outside device register space. -/
def State.hostRange (s : State) (pa n : Nat) : Bool :=
  n == 0 || (List.range ((pa + n - 1) / 0x40000 - pa / 0x40000 + 1)).all fun k => s.hostFrame ((pa / 0x40000 + k) * 0x40000)

/-- Whether every line of a range gives data. -/
def State.rangeReads (s : State) (pa n : Nat) : Bool :=
  n == 0 || (List.range ((pa + n - 1) / 256 - pa / 256 + 1)).all fun k => (badData s (s.redirect ((pa / 256 + k) * 256))).isNone

/-- The request bytes, as home holds them. -/
def State.mbRequest (s : State) : List Byte :=
  let ps := (List.range s.rp.mailbox.len.toNat).map fun k => s.redirect (s.rp.mailbox.buf * 64 + k)
  ps.map (s.mem.settle 4 ps).homeByte

def State.onMailbox (s : State) (f : Mailbox → Mailbox) : State := { s with rp := { s.rp with mailbox := f s.rp.mailbox } }

/-- A command ends: its response stands at RBUF, CODE and RLEN say how it went. -/
def State.mbEnd (s : State) (code : Nat) (resp : List Byte) : State :=
  let pa := s.rp.mailbox.rbuf * 64
  let cells := (cellsAt pa resp).map fun (x : Host.Cell) => (s.redirect x.1, x.2)
  { s with mem := if s.hostRange pa resp.length then s.mem.hwWrite 4 cells else s.mem }.onMailbox fun m =>
    { m with busy := false, code := BitVec.ofNat 8 code, rlen := BitVec.ofNat 32 resp.length, pendingCommit := false, pendingPrepare := false }

/-- What a command does: a code, or its response and the state it leaves. -/
abbrev Cmd := Except Nat (List Byte × State)

/-- The code that refuses a command, if one does: its own, or that of a response which does not fit. -/
def State.mbRefuses (s : State) : Cmd → Option Nat
  | .error c => some c
  | .ok (resp, _) =>
    if s.rp.mailbox.rcap.toNat < resp.length then some mbSpace
    else if !s.hostRange (s.rp.mailbox.rbuf * 64) resp.length then some mbParam
    else none

/-- The response fits, or the command has no effect. -/
def State.mbFinish (s : State) (c : Cmd) : State :=
  match s.mbRefuses c, c with
  | none, .ok (resp, t) => t.mbEnd mbOk resp
  | some k, _ => s.mbEnd k []
  | none, .error k => s.mbEnd k []

/-- The command that the mailbox holds and Ridgepole has not yet performed. DESIGN CHOICE: the fields that steer it (OP, TARGET, LEN,
BUF, RBUF, RCAP) are read when it is performed, not when GO was written (log 96). -/
def State.mbHolds (s : State) (op : Nat) : Bool :=
  let m := s.rp.mailbox
  m.busy && m.op.toNat == op && !m.pendingCommit && !m.pendingPrepare && decide (s.health.service ≠ .reset)

/-- What recovery service accepts (R348). -/
def Mailbox.inRecovery (m : Mailbox) : Bool := m.op == 0x20 || m.op == 0x21 || (m.op == 0x01 && m.target == 0)

/-- The checks before every command: the service level, and that the host agent may read the request. -/
def State.mbAdmit (s : State) : Except Nat Unit :=
  if decide (s.health.service = .recovery) && !s.rp.mailbox.inRecovery then .error mbState
  else if !s.hostRange (s.rp.mailbox.buf * 64) s.rp.mailbox.len.toNat then .error mbParam
  else if !s.rangeReads (s.rp.mailbox.buf * 64) s.rp.mailbox.len.toNat then .error mbParam
  else .ok ()

/-- Performs a command: one step of the Ridgepole order (R333). -/
def State.mbRun (s : State) (op : Nat) (run : State → Cmd) : State :=
  if s.mbHolds op then s.mbFinish (do s.mbAdmit; run s) else s

def Cmd.need (b : Bool) (code : Nat) : Except Nat Unit := if b then .ok () else .error code

/-- A TARGET that a command leaves no choice of. -/
def State.mbTarget0 (s : State) : Except Nat Unit := Cmd.need (s.rp.mailbox.target == 0) mbParam

/-! ## The layout as bytes (R342) -/

def PartEntry.bytes (p : PartEntry) : List Byte :=
  natBytes ((if p.valid then 1 else 0) + p.parent * 2 ^ 8 + p.maxScope * 2 ^ 16 + (if p.clampTrap then 2 ^ 20 else 0)
      + p.vf * 2 ^ 24 + p.pbudget * 2 ^ 32) 8
    ++ natBytes p.slices.toNat 8
    ++ natBytes (p.hbase + p.hcnt * 2 ^ 32) 8
    ++ natBytes (p.lbase + p.lcnt * 2 ^ 32) 8
    ++ natBytes p.hostCo 8
    ++ natBytes p.tenantTag.toNat 8
    ++ natBytes (p.exitBase * 2 ^ 12) 8
    ++ natBytes (p.exitN + p.rdvto * 2 ^ 32) 8
    ++ (p.budget.toList.map fun w => natBytes w.toNat 8).flatten
    ++ List.replicate 32 0

/-- The committed layout block, with a header. -/
def LayoutState.block (l : LayoutState) (expgen : Nat) : List Byte :=
  natBytes expgen 8 ++ List.replicate 56 0 ++ (l.entries.map (·.bytes)).flatten

/-! ## Measurement blocks (Table 13.5) -/

def Firmware.bank (f : Firmware) (c : Nat) : Bank :=
  let b := f.banks.toList.getD c ({}, {})
  if f.active.getLsbD c then b.2 else b.1
/-- The bank that is not active. -/
def Firmware.spare (f : Firmware) (c : Nat) : Bank :=
  let b := f.banks.toList.getD c ({}, {})
  if f.active.getLsbD c then b.1 else b.2

def Firmware.fuseBytes (f : Firmware) : List Byte := f.fuses.toList

/-- Bytes cut, or filled with zeros, to a length. -/
def fitTo (n : Nat) (bs : List Byte) : List Byte := (bs ++ List.replicate n 0).take n
/-- An ML-DSA-65 signature by the Alias key: 3,309 bytes (Tables 13.4 and 13.9). -/
def aliasSig (key : Nat) (b : List Byte) : List Byte := fitTo 3309 (Config.aliasSign key b)
/-- An ML-KEM-1024 key or ciphertext: 1,568 bytes (PRESUMED: log 6). -/
def kemBytes : Nat := 1568
def kemPublicKey (k : Nat) : List Byte := fitTo kemBytes (Config.kemPublic k)

/-- Blocks 1 to 9; `part` is the partition of an enclave, none at endpoint 0. -/
def State.deviceBlocks (s : State) (part : Option Nat) : List (List Byte) :=
  let f := s.rp.firmware
  ((List.range 7).map fun c => shake64 (f.bank c).image ++ [(f.bank c).svn])
    ++ [shake64 f.manifestBytes ++ natBytes f.msvn.toNat 1 ++ f.fuseBytes,
        natBytes s.layout.gen.toNat 8 ++ natBytes (part.getD 0xFF) 1
          ++ (match part with | some p => (s.layout.entries.getD p {}).bytes | none => List.replicate 128 0)
          ++ shake64 (s.layout.block 0)]

/-- Blocks 1 to 9 and 16 to 18 of an enclave. -/
def State.enclaveBlocks (s : State) (e : Enclave) : List (List Byte) :=
  s.deviceBlocks (some e.part)
    ++ [e.m, kemPublicKey e.kemKey, natBytes e.id.toNat 2 ++ natBytes e.migrations 4 ++ natBytes 1 1]

/-! ## SPDM (R337 to R339) -/

/-- The requests that the responder supports, by their SPDM codes (log 24): GET_VERSION, GET_CAPABILITIES,
NEGOTIATE_ALGORITHMS, GET_DIGESTS, GET_CERTIFICATE, CHALLENGE, GET_MEASUREMENTS. -/
def spdmSupported : List Nat := [0x84, 0xE1, 0xE3, 0x81, 0x82, 0x83, 0xE0]

/-- An ERROR message, with its code and data (log 24). -/
def spdmError (code data : Nat) : List Byte := natBytes (0x14 + 0x7F * 2 ^ 8 + code * 2 ^ 16 + data * 2 ^ 24) 4

/-- What an SPDM responder answers with, beside ERROR (R337). -/
inductive SpdmAnswer where
  /-- The versions that it reports. -/
  | version (l : List Nat)
  /-- The capabilities that it advertises: certificates, challenge, signed measurements, sessions, mutual authentication, key
  update. -/
  | capabilities (cert chal meas session mutualAuth keyUpdate : Bool)
  /-- ML-DSA-65 and SHAKE256 are agreed. -/
  | algorithms
  | digests (chain : List Byte)
  | certificate (chain : List Byte)
  | challengeAuth (chain summary : List Byte)
  /-- Measurement blocks with their indices. -/
  | measurements (blocks : List (Nat × List Byte))
deriving DecidableEq, Repr

/-- The bytes of an answer to a request, by the SPDM 1.4 standard (log 24). -/
opaque Config.spdmBytes : List Byte → SpdmAnswer → List Byte

def SpdmAnswer.signed : SpdmAnswer → Bool
  | .challengeAuth .. | .measurements _ => true
  | _ => false

/-- The indices of Table 13.5 on the blocks of an endpoint. -/
def blockIndices (bs : List (List Byte)) : List (Nat × List Byte) := bs.zipIdx.map fun b => (if b.2 < 9 then b.2 + 1 else b.2 + 7, b.1)

/-- The blocks that a GET_MEASUREMENTS asks for: by its operation none, all, or the one with that index (log 24). -/
def askedBlocks (op : Nat) (bs : List (List Byte)) : List (Nat × List Byte) :=
  if op = 0 then [] else if op = 0xFF then blockIndices bs else (blockIndices bs).filter (·.1 == op)

/-- What a responder makes of a supported request in negotiation state `st`: an answer and the next state, or ERROR: a request out
of order is unexpected, one that offers what is not accepted is invalid (R337; log 24). `session`: the responder that advertises
sessions, and takes ML-KEM-1024 key exchange only (14 R370). -/
def spdmAnswer (session : Bool) (st : Nat) (req chain : List Byte) (bs : List (List Byte)) : Except Nat (SpdmAnswer × Nat) :=
  match (req.getD 1 0).toNat with
  | 0x84 => .ok (.version [0x14], 1)
  | 0xE1 => if 1 ≤ st then .ok (.capabilities true true true session false session, 2) else .error 0x04
  | 0xE3 =>
    if st < 2 then .error 0x04
    else if (Config.spdmOffers req).1 && (if session then Config.spdmKex req else (Config.spdmOffers req).2) then .ok (.algorithms, 3) else .error 0x01
  | 0x81 => if st = 3 then .ok (.digests chain, st) else .error 0x04
  | 0x82 => if st = 3 then .ok (.certificate chain, st) else .error 0x04
  | 0x83 => if st = 3 then .ok (.challengeAuth chain (shake64 bs.flatten), st) else .error 0x04
  | _ => if st = 3 then .ok (.measurements (askedBlocks (req.getD 3 0).toNat bs), st) else .error 0x04

/-- The bytes of an answer, those of a signed one with the signature of the Alias key. -/
def spdmReply (key : Nat) (req : List Byte) (a : SpdmAnswer) : List Byte :=
  let b := Config.spdmBytes req a
  if a.signed then b ++ aliasSig key (req ++ b) else b

/-- The blocks of an endpoint; none where it answers ERROR (R338). -/
def State.endpointBlocks (s : State) (ep : Nat) : Option (List (List Byte)) :=
  if ep = 0 then some (s.deviceBlocks none)
  else match s.enclave? (BitVec.ofNat 16 ep) with
    | some e => if EnclaveState.runs e.state then some (s.enclaveBlocks e) else none
    | none => none

def State.spdmCmd (s : State) : Cmd :=
  let ep := s.rp.mailbox.target.toNat
  let req := s.mbRequest
  match s.endpointBlocks ep with
  | none => .ok (spdmError 0x01 0, s)
  | some bs =>
    let code := (req.getD 1 0).toNat
    if !spdmSupported.contains code then .ok (spdmError 0x07 code, s)
    else
      match spdmAnswer false ((alook s.rp.spdm ep).getD 0) req s.rp.chain bs with
      | .error c => .ok (spdmError c 0, s)
      | .ok (a, st) => .ok (spdmReply s.rp.aliasKey req a, { s with rp := { s.rp with spdm := aput s.rp.spdm ep st } })

def execSpdm (s : State) : Out := .next (s.mbRun 0x01 State.spdmCmd)

/-! ## Firmware (R347, R349) -/

def State.onFirmware (s : State) (f : Firmware → Firmware) : State := { s with rp := { s.rp with firmware := f s.rp.firmware } }

def Firmware.stage (f : Firmware) (c : Nat) (image : List Byte) : Firmware :=
  let b := f.banks.toList.getD c ({}, {})
  let n : Bank := { image, version := Config.imageVersion image, svn := Config.imageSvn image }
  { f with
    banks := f.banks.setIfInBounds c (if f.active.getLsbD c then (n, b.2) else (b.1, n))
    staged := f.staged ||| BitVec.ofNat 7 (2 ^ c) }

def Firmware.fuse (f : Firmware) (c : Nat) : Nat := (f.fuses.toList.getD c 0).toNat

/-- Whether an image passes R347 for its component. -/
def Firmware.imageOk (f : Firmware) (c : Nat) (image : List Byte) : Bool :=
  Config.signatureOk image && decide (f.fuse c ≤ (Config.imageSvn image).toNat)

def State.fwstageCmd (s : State) : Cmd := do
  let c := s.rp.mailbox.target.toNat
  Cmd.need (decide (c ≤ 6)) mbParam
  let image := s.mbRequest
  Cmd.need (s.rp.firmware.imageOk c image) mbAuth
  pure ([], s.onFirmware fun f => f.stage c image)

def execFwstage (s : State) : Out := .next (s.mbRun 0x20 State.fwstageCmd)

/-- "NZMF". -/
def manifestMagic : Nat := 0x464D5A4E

def manifestOk (b : List Byte) : Bool :=
  let n := fieldN (wordAt b 0) 32 16
  fieldN (wordAt b 0) 0 32 == manifestMagic && decide (1 ≤ n) && decide (n ≤ 1024) && b.length == 0x10 + 56 * n + 3309

def State.manifestCmd (s : State) : Cmd := do
  s.mbTarget0
  let b := s.mbRequest
  Cmd.need (manifestOk b) mbParam
  Cmd.need (Config.signatureOk b && decide (s.rp.firmware.msvnFuse.toNat ≤ wordAt b 8)) mbAuth
  let n := fieldN (wordAt b 0) 32 16
  pure ([], s.onFirmware fun f =>
    { f with
      manifest := (List.range n).map fun c => (List.range 7).map fun k => bv64 (wordAt b (0x10 + 56 * c + 8 * k))
      manifestBytes := b, msvn := bv64 (wordAt b 8) })

def execManifest (s : State) : Out := .next (s.mbRun 0x21 State.manifestCmd)

def maxByte (a b : Byte) : Byte := if a.toNat < b.toNat then b else a

/-- The fuses rise to the SVNs of the running images, and the manifest fuse to MSVN. -/
def Firmware.commitSvn (f : Firmware) : Firmware :=
  { f with
    fuses := Vector.ofFn fun c : Fin 7 => maxByte f.fuses[c] (f.bank c).svn
    msvnFuse := if f.msvnFuse.toNat < f.msvn.toNat then f.msvn else f.msvnFuse }

def State.svncommitCmd (s : State) : Cmd := do
  s.mbTarget0
  let t := s.onFirmware (·.commitSvn)
  pure (t.rp.firmware.fuseBytes, t)

def execSvncommit (s : State) : Out := .next (s.mbRun 0x22 State.svncommitCmd)

end Sys2Proof.Machine
end

