-- ==== Sys2Proof/Machine/LayoutEvents.lean ====
section
/-!
DEFINITION. Partition layouts (spec/13 R342 to R346): the checks of PREPARE, the journal, COMMIT and the flips of the slices,
ABORT and LAYOUTQ.
-/
namespace Sys2Proof.Machine

/-! ## Reading a layout block (R342) -/

def PartEntry.ofBytes (b : List Byte) : PartEntry :=
  let f := fun o lo n => fieldN (wordAt b o) lo n
  { valid := f 0 0 1 == 1, parent := f 0 8 6, maxScope := f 0 16 4, clampTrap := f 0 20 1 == 1, vf := f 0 24 8, pbudget := f 0 32 32
    slices := BitVec.ofNat 40 (f 8 0 40), hbase := f 0x10 0 32, hcnt := f 0x10 32 32, lbase := f 0x18 0 32, lcnt := f 0x18 32 32
    hostCo := f 0x20 0 32, tenantTag := bv64 (wordAt b 0x28), exitBase := f 0x30 12 40, exitN := f 0x38 0 16, rdvto := f 0x38 32 16
    budget := Vector.ofFn fun i : Fin 4 => bv64 (wordAt b (0x40 + 8 * i.val)) }

/-- No reserved bit of an entry is set: the entry is the one that its fields spell (Tables 13.7 and 10.3). -/
def reservedClear (b : List Byte) : Bool :=
  (PartEntry.ofBytes b).bytes == b && fieldN (wordAt b 0x40) 25 39 == 0 && wordAt b 0x58 == 0

/-- The fields of an entry lie within their limits. -/
def PartEntry.limitsOk (p : PartEntry) : Bool :=
  (decide (p.parent < 40) || p.parent == 0x3F) && decide (6 ≤ p.maxScope) && decide (p.maxScope ≤ 10) && decide (p.vf ≤ 40)
    && (p.pbudget == 0 || (decide (1024 ≤ p.pbudget) && decide (p.pbudget ≤ 1048576)))

/-! ## R343 -/

/-- Two ranges of frames meet. -/
def framesOverlap (a n b m : Nat) : Bool := decide (0 < n) && decide (0 < m) && decide (a < b + m) && decide (b < a + n)

def PartEntry.framesMeet (p q : PartEntry) : Bool :=
  let rs := fun (e : PartEntry) => [(e.hbase, e.hcnt), (e.lbase, e.lcnt)]
  (rs p).any fun x => (rs q).any fun y => framesOverlap x.1 x.2 y.1 y.2

def PartEntry.meets (p q : PartEntry) : Bool := p.slices &&& q.slices != 0 || p.framesMeet q

/-- A range lies inside one of the parent's two. -/
def PartEntry.holdsRange (p : PartEntry) (a n : Nat) : Bool :=
  n == 0 || (decide (p.hbase ≤ a) && decide (a + n ≤ p.hbase + p.hcnt)) || (decide (p.lbase ≤ a) && decide (a + n ≤ p.lbase + p.lcnt))

/-- A child's slices and frames are its parent's, none of them in the parent's carve-out (log 26), and it has no wider
MAXSCOPE. -/
def PartEntry.childOk (p c : PartEntry) : Bool :=
  c.slices &&& ~~~ p.slices == 0 && p.holdsRange c.hbase c.hcnt && p.holdsRange c.lbase c.lcnt
    && !framesOverlap c.hbase c.hcnt p.hbase p.hostCo && !framesOverlap c.lbase c.lcnt p.hbase p.hostCo && decide (c.maxScope ≤ p.maxScope)

/-- Every pair of two entries at different places. -/
def pairwise {α : Type} (ok : α → α → Bool) : List α → Bool
  | [] => true
  | x :: l => l.all (ok x) && pairwise ok l

/-- A frame that every POT has, and that no partition may name otherwise (R287). -/
def PartEntry.namesRidgepole (p : PartEntry) : Bool :=
  framesOverlap p.hbase p.hcnt 2095872 1280 || framesOverlap p.lbase p.lcnt 2095872 1280

/-- The frames of an entry are HBM frames and LPDDR-6 frames with POT entries. -/
def PartEntry.framesExist (p : PartEntry) : Bool :=
  (p.hcnt == 0 || decide (p.hbase + p.hcnt ≤ 2097152))
    && (p.lcnt == 0 || (decide (2097152 ≤ p.lbase) && decide (p.lbase + p.lcnt ≤ 6291456)))

/-- The checks hold for every entry, but for those whose words name VALID entries. -/
def layoutOk (t : List PartEntry) : Bool :=
  t.all (fun p => p.limitsOk && (!p.valid || p.slices != 0) && p.framesExist && !p.namesRidgepole && decide (p.hostCo ≤ p.hcnt)
      && (p.parent == 0x3F || (t.getD p.parent {}).valid))
    && t.zipIdx.all (fun x => !x.1.valid || x.1.parent == 0x3F || (childrenOf t x.2).isEmpty)
    && pairwise (fun p q => p.vf == 0 || p.vf != q.vf) t
    && pairwise (fun p q => p.parent != q.parent || !p.meets q) t
    && t.all fun c => c.parent == 0x3F || (t.getD c.parent {}).childOk c

/-! ## R344 -/

/-- The partition whose own a slice is. -/
def sliceOwner (t : List PartEntry) (slice : Nat) : Option Nat :=
  (t.zipIdx.find? fun x => x.1.valid && x.1.slices.getLsbD slice && !(childrenOf t x.2).any fun c => c.slices.getLsbD slice).map (·.2)

/-- The partition whose own a frame is, and whether a carve-out holds it. -/
def frameOwner (t : List PartEntry) (i : Nat) : Option Nat × Bool :=
  ((t.zipIdx.find? fun x => x.1.valid && x.1.hasFrame i && !(childrenOf t x.2).any fun c => c.hasFrame i).map (·.2),
   t.any fun p => p.valid && Nat.inRange i p.hbase p.hostCo)

/-- The slices that change partition between two layouts. -/
def changing (old new : List PartEntry) : List Nat := (List.range 40).filter fun k => sliceOwner old k != sliceOwner new k

/-- Whether a slice is idle: no resident group, no tile task that runs on one of its engines or holds a bank, no queued record
of an enclave of the partition that loses it. -/
def State.sliceIdle (s : State) (k : Nat) : Bool :=
  let loser := sliceOwner s.layout.entries k
  !(s.agents.any fun a => decide (a.kind = .group) && decide (a.status ≠ .ended) && !Status.isSaved a.status && a.slice == k)
    && !(s.ops.any fun o => decide (o.kind = .record 2) && o.started && decide (o.state ≠ .done)
        && o.die * 10 + o.engine.getD 0 / 4 == k)
    && !(s.enclaves.any fun e => some e.part == loser && e.queues.any fun q => !q.hw.isEmpty || !q.spill.isEmpty)

/-- The frames that the valid entries of a layout name. -/
def layoutFrames (t : List PartEntry) : List Nat :=
  ((t.filter (·.valid)).map fun p => (List.range p.hcnt).map (p.hbase + ·) ++ (List.range p.lcnt).map (p.lbase + ·)).flatten

/-- The frames that change partition, or enter or leave a carve-out, are FREE. -/
def State.framesIdle (s : State) (new : List PartEntry) : Bool :=
  (layoutFrames s.layout.entries ++ layoutFrames new).all fun i =>
    decide ((s.potAt i).state = .free) || frameOwner s.layout.entries i == frameOwner new i

/-- The entries whose VALID, PARENT or TENANTTAG changes have no live enclave. -/
def State.entriesIdle (s : State) (new : List PartEntry) : Bool :=
  s.enclaves.all fun e =>
    let p := s.layout.entries.getD e.part {}
    let q := new.getD e.part {}
    p.valid == q.valid && p.parent == q.parent && p.tenantTag == q.tenantTag

def layoutBytes : Nat := 64 + 128 * 40

def State.prepareCmd (s : State) : Cmd := do
  s.mbTarget0
  Cmd.need (s.rp.mailbox.len.toNat == layoutBytes) mbParam
  let b := s.mbRequest
  let es := (List.range 40).map fun p => (b.drop (64 + 128 * p)).take 128
  let new := es.map PartEntry.ofBytes
  Cmd.need (((b.drop 8).take 56).all (· == 0) && es.all reservedClear && layoutOk new) mbParam
  Cmd.need (wordAt b 0 == s.layout.gen.toNat && decide (s.layout.journal = .idle)) mbState
  let ch := changing s.layout.entries new
  Cmd.need (ch.all s.sliceIdle && s.framesIdle new && s.entriesIdle new) mbBusy
  pure ([], { s with layout := { s.layout with
    shadow := new, shadowDigest := shake64 b, journal := .preparing
    held := s.layout.held ++ ch.filter fun k => !s.layout.held.contains k } })

/-- PREPARE that passes goes on until every shadow is written: BUSY stays set. -/
def execPrepare (s : State) : Out :=
  .next (if s.mbHolds 0x10 then
    match (do s.mbAdmit; s.prepareCmd) with
    | .ok (_, t) => t.onMailbox fun m => { m with pendingPrepare := true }
    | .error c => s.mbEnd c []
  else s)

/-- Every slice has its shadow: PREPARED, and CODE 0 (Table 13.8). -/
def execShadowsWritten (s : State) : Out :=
  .next (if s.layout.journal = .preparing then
    let t := { s with layout := { s.layout with journal := .prepared } }
    if t.rp.mailbox.pendingPrepare then t.mbEnd mbOk [] else t
  else s)

/-! ## COMMIT, flips, ABORT -/

/-- The slices held outside a layout change: those that have not trained (15 R377). -/
def State.untrainedSlices (s : State) : List Nat := if s.health.untrained then (List.range 30).map (10 + ·) else []

/-- The TDI of a locked VF goes to ERROR when the entry of its partition changes (14 R369). -/
def State.tdiCommit (s : State) (old new : List PartEntry) : State :=
  let vfs := ((old.zip new).filter fun x => decide (x.1 ≠ x.2)).map fun x => x.1.vf
  let hit := fun (x : Nat × TdiEntry) => vfs.contains x.1 && (decide (x.2.state = .locked) || decide (x.2.state = .run))
  let tdis := s.links.tdis.map fun (x : Nat × TdiEntry) => if hit x then (x.1, { x.2 with state := .error }) else x
  { s with links := { s.links with tdis } }

/-- PREPARED enters COMMITTING: LAYOUTGEN + 1 (R345). -/
def State.enterCommit (s : State) : State :=
  let l := s.layout
  { s.tdiCommit l.entries l.shadow with
    layout := { l with journal := .committing, gen := l.gen + 1, old := l.entries, entries := l.shadow, flipped := [] } }

def State.commitCmd (s : State) : Cmd := do
  s.mbTarget0
  Cmd.need (decide (s.layout.journal = .prepared)) mbState
  pure (List.replicate 8 0, s.enterCommit)

/-- COMMIT is answered when the last slice has flipped. -/
def execCommit (s : State) : Out :=
  .next (if s.mbHolds 0x11 then
    match (do s.mbAdmit; s.commitCmd) with
    | .error c => s.mbEnd c []
    | .ok (resp, t) =>
      if s.rp.mailbox.rcap.toNat < resp.length then s.mbEnd mbSpace []
      else if !s.hostRange (s.rp.mailbox.rbuf * 64) resp.length then s.mbEnd mbParam []
      else t.onMailbox fun m => { m with pendingCommit := true }
  else s)

/-- A new entry draws its host key; a deleted one loses it. -/
def State.hostKeys (s : State) (old new : List PartEntry) : State :=
  (List.range 40).foldl (fun s p =>
    match (old.getD p {}).valid, (new.getD p {}).valid with
    | false, true => let d := s.draw; { d.2 with layout := { d.2.layout with hostKeys := aput d.2.layout.hostKeys p d.1 } }
    | true, false => { s with layout := { s.layout with hostKeys := adel s.layout.hostKeys p } }
    | _, _ => s) s

/-- The frames of the host carve-outs. -/
def State.carveOutFrames (s : State) : List Nat :=
  ((s.layout.entries.filter (·.valid)).map fun p => (List.range p.hostCo).map (p.hbase + ·)).flatten

/-- The frames of the carve-outs are OWNED by owner 0 (11 R287), holding zeros (log 26). -/
def State.ownCarveOuts (s : State) : State :=
  s.carveOutFrames.foldl
    (fun s i => if (s.potAt i).state = .free then s.claimFrame i .owned 0 else s) s

/-- Every slice has flipped: IDLE (Table 13.8). -/
def State.commitEnds (s : State) : State :=
  let l := s.layout
  let t := ({ s with layout := { l with journal := .idle, old := l.entries, shadow := [], shadowDigest := [], flipped := []
                                        held := s.untrainedSlices } }.hostKeys l.old l.entries).ownCarveOuts
  if t.rp.mailbox.pendingCommit then t.mbEnd mbOk (natBytes t.layout.gen.toNat 8) else t

/-- One slice flips; a flip is idempotent (R346). -/
def execSliceFlip (slice : Nat) (s : State) : Out :=
  .next (if s.layout.journal = .committing ∧ slice < 40 then
    let l := s.layout
    let t := { s with layout := { l with flipped := if l.flipped.contains slice then l.flipped else slice :: l.flipped } }
    if (List.range 40).all t.layout.flipped.contains then t.commitEnds else t
  else s)

/-- The shadows are discarded and the held slices released. -/
def State.rollBack (s : State) : State :=
  { s with layout := { s.layout with journal := .idle, shadow := [], shadowDigest := [], held := s.untrainedSlices } }

def State.abortCmd (s : State) : Cmd := do
  s.mbTarget0
  Cmd.need (decide (s.layout.journal = .prepared)) mbState
  pure ([], s.rollBack)

def execAbort (s : State) : Out := .next (s.mbRun 0x12 State.abortCmd)

/-- The committed block; its header names the generation that its submitter expected (log 26). -/
def State.layoutqCmd (s : State) : Cmd := do
  s.mbTarget0
  pure (s.layout.block (s.layout.gen.toNat - 1), s)

def execLayoutq (s : State) : Out := .next (s.mbRun 0x13 State.layoutqCmd)

end Sys2Proof.Machine
end

