-- ==== Sys2Proof/Machine/EngineEvents.lean ====
section
/-!
DEFINITION. Tile tasks (spec/12 R318 to R331; 07 R193, R195, R196; 10 R272), the suspension of engine operations (11 R303,
R304; 12 R329) and the completion of records (07 R190).
-/
namespace Sys2Proof.Machine

/-! ## The effects of an engine in one step -/

/-- An engine acts at the level of the agent that kicked its record, on its own die, with that agent's window (log 20). -/
def Op.ctx (o : Op) : Ctx := { engineCtx o.enc o.die o.record.wg with level := o.record.level }

/-- What an operation did in one step: a fault stops it, and a storage-backed absent page makes it wait (R302, R329). -/
def State.opEvent (s : State) (id : Nat) (x : X Unit) : State :=
  match x s with
  | .ok _ t => t
  | .error (.trap c v _) t => { s.keepClaims t with free := t.free, choices := t.choices }.faultOp id c v
  | .error (.fill k va) t => (s.keepWalk t).joinFill k id va
  | .error (.wait _) _ => s

/-- A fault whose address the spec does not give: an open value (log 2). -/
def openFault {α : Type} (c : Cause) : X α := do
  let v ← openVa
  X.trap c v

/-- A record's work has ended: its clock is that of its die, for the release that its completion makes (R190). -/
def State.endWork (s : State) (id : Nat) (error : Cause) : State :=
  (s.finishOp id error).onOp id fun o =>
    { o with stationary := none, record := { o.record with clock := s.clockOf o.die } }

/-! ## TILE_RECORD_TAKE (R272) -/

/-- The records in the window of a die that have not been issued. -/
def State.windowOn (s : State) (die : Nat) : Nat :=
  (s.ops.filter fun o => decide (o.kind = .record 2) && o.die == die && decide (o.state = .window) && !o.started).length

def State.takeTile (s : State) (e : BitVec 16) (queue : Nat) (r : Rec) : State :=
  let t := s.takeRecord e queue 2 r.die r
  t.2.onOp t.1 fun o => { o with state := .window }

def execTileRecordTake (enc queue : Nat) (s : State) : Out :=
  let e := BitVec.ofNat 16 enc
  .next (match s.enclave? e, s.queue? e queue with
    | some x, some q =>
      match q.hw.head? with
      | some r => if q.kind = 2 ∧ s.hasSlice x = true ∧ s.windowOn r.die < 64 then s.takeTile e queue r else s
      | none => s
    | _, _ => s)

/-! ## TILE_TASK_ISSUE (R193, R272, R319) -/

/-- The wait conditions of a TILE record: timeline and value. -/
def Rec.waits (r : Rec) : List (Nat × Nat) :=
  (if r.f 0x20 12 1 = 1 then [(r.f 0x20 0 12, r.w 0x10)] else []) ++ (if r.f 0x20 28 1 = 1 then [(r.f 0x20 16 12, r.w 0x18)] else [])

/-- The timelines that a record waits for. -/
def State.waitLines (s : State) (o : Op) : List (Timeline × Nat) :=
  o.record.waits.filterMap fun w => (s.enclave? o.enc).bind fun e => (e.timeline? w.1).map fun t => (t, w.2)

def State.waitsMet (s : State) (o : Op) : Bool := (s.waitLines o).all fun w => decide (w.2 ≤ w.1.count.toNat)

/-- No other task holds the bank of a task's rows. -/
def State.bankFree (s : State) (o : Op) : Bool :=
  s.ops.all fun x => x.id == o.id || !(decide (x.kind = .record 2) && x.started && decide (x.state ≠ .done)
    && x.record.wg == o.record.wg && x.record.bank == o.record.bank)

/-- The partition's engines on a die, on the slices that are not held (13 R344). -/
def State.openEngines (s : State) (part die : Nat) : Nat :=
  4 * ((List.range 10).filter fun k => s.ownsSlice part (die * 10 + k) && !s.layout.held.contains (die * 10 + k)).length

/-- Whether an operation is a tile task that occupies an engine. -/
def Op.onEngine (o : Op) : Bool := decide (o.kind = .record 2) && (decide (o.state = .running) || decide (o.state = .waiting))

/-- The tasks of a partition that occupy an engine of a die. -/
def State.tasksOn (s : State) (part die : Nat) : Nat :=
  (s.ops.filter fun o => o.onEngine && o.die == die
    && match s.enclave? o.enc with | some e => e.part == part | none => false).length

/-- The free engine of a partition's slices on a die that comes next round-robin; slice `k` has the engines 4k to 4k + 3 (R272; log
80). -/
def State.nextEngine (s : State) (part die : Nat) : Option Nat :=
  let last := (alook (s.part part).lastEngine die).getD 39
  ((List.range 40).map fun k => (last + 1 + k) % 40).find? fun k =>
    s.ownsSlice part (die * 10 + k / 4) && !s.layout.held.contains (die * 10 + k / 4)
      && !(s.ops.any fun o => o.onEngine && o.die == die && o.engine == some k)

def State.taskReady (s : State) (o : Op) : Bool :=
  decide (o.state = .window) && (o.started || (s.waitsMet o && s.bankFree o)) &&
    match s.wg? o.record.wg, s.enclave? o.enc with
    | some w, some e => decide (w.state = .resident) && s.onCore w && s.hasSlice e && s.dieLive o.die
        && decide (s.tasksOn e.part o.die < s.openEngines e.part o.die) && (s.nextEngine e.part o.die).isSome
    | _, _ => false

/-- Whether a record goes before another: the higher PRI, then the older `kick` (R263, R272). -/
def Rec.before (x r : Rec) : Bool := decide (r.pri < x.pri) || (x.pri == r.pri && decide (x.order < r.order))

/-- No ready task of the partition on the die goes before this one (R272). -/
def State.taskFirst (s : State) (o : Op) : Bool :=
  s.ops.all fun x => !(decide (x.kind = .record 2) && x.die == o.die && s.partOf x.enc == s.partOf o.enc && s.taskReady x
    && x.record.before o.record)

/-- The shape indices that a record names, but for "none". -/
def Rec.shapes (r : Rec) : List Nat :=
  (match r.task with
    | 0 => [r.f 0x28 0 16, r.f 0x30 0 16, r.f 0x38 0 16, r.f 0x38 16 16]
    | 1 => [r.f 0x28 0 16]
    | _ => [r.f 0x28 0 16, r.f 0x30 0 16]).filter (· != 0xFFFF)

/-- Reads the object-table entries that an operation names and has not read, as an S-level agent with kind R (R195, R256). -/
def loadEntries (o : Op) : X Unit :=
  o.record.shapes.forM fun i => do
    let s ← get
    match s.op? o.id, s.enclave? o.enc with
    | some p, some e =>
      if (alook p.entries i).isNone then do
        let bs ← readVa { hwCtx o.enc o.die with direct := true } (bv64 (e.objTab + 64 * i)) 64
        X.update fun s => s.onOp o.id fun p => { p with entries := aput p.entries i bs }
    | _, _ => pure ()

/-- Issue is an acquire of what the conditions cover, and of the release of the `kick` (R193, R256). -/
def State.issueAcquire (s : State) (o : Op) : State :=
  (s.waitLines o).foldl (fun s w => s.acquire o.die (o.clamp w.1.scope) w.1.clock) (s.acquire o.die 6 o.record.clock)

/-- What the walks of the pages of `n` bytes from `va` claim and lock before dispatch: they never fault, and end at a page that
cannot be translated and after 16 physical extents; `next` is where the last one ends (R272, R285, R289). -/
def State.walkExtents (c : Ctx) (k : Kind) : Nat → Nat → Nat → Nat → Option Place → State → State
  | 0, _, _, _, _, s => s
  | fuel + 1, va, n, ext, next, s =>
    if n = 0 then s
    else match translate c (bv64 va) k s with
      | .error _ t => s.keepClaims t
      | .ok p t =>
        let len := min n (0x40000 - va % 0x40000)
        let ext := if next = some p then ext else ext + 1
        if 16 < ext then t else State.walkExtents c k fuel (va + len) (n - len) ext (some (p.plus len)) t

/-- The declared range of an object-table entry: BASE and LIMIT (Table 7.10). -/
def entryRange (b : List Byte) : Nat × Nat := (wordAt b 0, wordAt b 0x38)

/-- The scheduler translates each operand's declared range before dispatch (R272); an EPI task writes its first. -/
def State.walkOperands (s : State) (id : Nat) : State :=
  match s.op? id with
  | none => s
  | some o =>
    if !o.live then s
    else o.record.shapes.zipIdx.foldl (fun s x =>
      match alook o.entries x.1 with
      | some b =>
        let r := entryRange b
        s.walkExtents o.ctx (if o.record.task = 2 ∧ x.2 = 0 then .w else .r) (r.2 / 0x40000 + 2) r.1 r.2 0 none
      | none => s) s

/-- A ready task goes to its engine, under the policy of the engine's slice (R272; 13 R346). -/
def State.issueTask (s : State) (o : Op) : State :=
  let part := s.partOf o.enc
  let k := (s.nextEngine part o.die).getD 0
  let ms := (s.layout.entryAt part (some (o.die * 10 + k / 4))).maxScope
  let o := { o with state := .running, started := true, engine := some k, maxScope := ms }
  let s := (s.onPart part fun p => { p with lastEngine := aput p.lastEngine o.die k }).onOp o.id fun _ => o
  ((s.issueAcquire o).opEvent o.id (loadEntries o)).walkOperands o.id

def execTileTaskIssue (op : Nat) (s : State) : Out :=
  .next (match s.op? op with
    | some o => if o.kind = .record 2 ∧ s.taskReady o = true ∧ s.taskFirst o = true then s.issueTask o else s
    | none => s)

/-! ## Shapes (R195, R196, R320) -/

/-- An object-table entry. An absent dimension has the one index 0. -/
structure Shape where
  base : Nat
  cls : Nat
  nf : Nat
  rights : Nat
  slot : Nat
  objid : Nat
  ext0 : Nat
  ext1 : Nat
  stride1 : Int
  limit : Nat
deriving DecidableEq, Repr

def Shape.width (h : Shape) : Nat :=
  match h.cls with | 0 | 4 => 32 | 1 | 2 => 16 | 3 => nfWidth (BitVec.ofNat 8 h.nf) | _ => 8
def Shape.fmt (h : Shape) : Fmt :=
  match h.cls with | 1 => .bf16 | 2 => .f16 | 3 => .narrow (BitVec.ofNat 8 h.nf) | _ => .f32
def Shape.weight (h : Shape) : Bool := bitN h.rights 4

/-- The bytes of an entry; none where a reserved bit is set, CLASS is 111, D0's stride is not 1, an index of 0 reaches an
extent, or (DESIGN CHOICE: R196 names no cause for it; log 102) a WE entry's BASE is misaligned. -/
def Shape.ofBytes (b : List Byte) : Option Shape :=
  let f := fun o lo n => fieldN (wordAt b o) lo n
  let nd := f 8 16 2
  let cls := f 8 0 3
  let dims := (List.range 4).all fun k => if k ≤ nd then f (0x18 + 8 * k) 0 24 != 0 else f (0x18 + 8 * k) 0 24 == 0
  if f 8 3 5 = 0 ∧ f 8 18 6 = 0 ∧ f 8 29 3 = 0 ∧ f 8 36 28 = 0 ∧ cls ≠ 7 ∧ (cls = 3 ∨ f 8 8 8 = 0) ∧ f 0x18 24 40 = 1 ∧ dims = true
      ∧ (f 8 28 1 = 0 ∨ wordAt b 0 % 4096 = 0) then
    some { base := wordAt b 0, cls, nf := f 8 8 8, rights := f 8 24 5, slot := f 8 32 4, objid := wordAt b 0x10
           ext0 := f 0x18 0 24, ext1 := if nd = 0 then 1 else f 0x20 0 24
           stride1 := if nd = 0 then 0 else (BitVec.ofNat 40 (f 0x20 24 40)).toInt, limit := wordAt b 0x38 }
  else none

/-- A run of `n` elements from (i0, i1): its offset in bytes from BASE and its length in bytes. -/
def Shape.run (h : Shape) (i0 i1 n : Nat) : Option (Nat × Nat) :=
  let off : Int := ((i0 : Int) + i1 * h.stride1) * h.width
  let len := (n * h.width + 7) / 8
  if i0 + n ≤ h.ext0 ∧ i1 < h.ext1 ∧ 0 ≤ off ∧ off % 8 = 0 ∧ off.toNat / 8 + len ≤ h.limit then some (off.toNat / 8, len) else none

/-- The entry that an operation has read for a shape index; SHAPE where there is none. WE is for an MMA B operand alone. -/
def Op.shape (o : Op) (i : Nat) (weight : Bool) : X Shape :=
  match (if i = 0xFFFF then none else alook o.entries i).bind Shape.ofBytes with
  | some h => if h.weight && !weight then openFault cShape else pure h
  | none => openFault cShape

def X.shape (b : Bool) : X Unit := if b then pure () else openFault cShape

/-- The place of a run that is read, or written. -/
def Shape.place (h : Shape) (write : Bool) (i0 i1 n : Nat) : X (Nat × Nat) := do
  X.shape (if write then bitN h.rights 1 || bitN h.rights 3 else bitN h.rights 0 || bitN h.rights 2)
  match h.run i0 i1 n with
  | some r => pure r
  | none => openFault cShape

/-- The elements of packed bytes (03 R64). -/
def unpack (w n : Nat) (bs : List Byte) : List Nat := (List.range n).map fun i => elemOf w i (bytesNat bs)
def packBytes (w : Nat) (l : List Nat) : List Byte :=
  natBytes ((l.zipIdx.map fun x => x.1 * 2 ^ (w * x.2)).foldl (· + ·) 0) (l.length * w / 8)

def readRun (c : Ctx) (h : Shape) (i0 i1 n : Nat) : X (List Nat) := do
  let r ← h.place false i0 i1 n
  let bs ← readVa c (bv64 (h.base + r.1)) r.2
  pure (unpack h.width n bs)

/-- An operand word (R193): shape index, C0 and C1. -/
def Rec.operand (r : Rec) (o : Nat) : Nat × Nat × Nat := (r.f o 0 16, r.f o 16 24, r.f o 40 24)

/-- The rounding mode of a task: RM, or the captured mode (R321). -/
def Rec.mode (r : Rec) (rm : Nat) : Nat := if rm = 5 then r.rmode.toNat else rm
def Rec.f32Mode (r : Rec) (rm : Nat) : RMode := { rm, flush := flushOut r.flush .f32 }
/-- An operand element after input flushing (R78, R321; log 21). -/
def Rec.read (r : Rec) (f : Fmt) (x : Nat) : FV := f.read (flushIn r.flush f) x

/-! ## The workgroup's rows -/

/-- What a task whose workgroup has completed keeps of it. -/
def State.leftOf (s : State) (o : Op) : Option (Nat × List AccRow) := (s.op? o.id).bind (·.left)

/-- The rows of the reservation of a task. -/
def State.accumOf (s : State) (o : Op) : Option Nat :=
  match s.wg? o.record.wg with | some w => some w.accRows | none => (s.leftOf o).map (·.1)

def Op.row (o : Op) (k : Nat) : X (List Half) := do
  let s ← get
  pure (match s.wg? o.record.wg with
    | some w => w.accRow k
    | none => accRowIn (match s.leftOf o with | some x => x.2 | none => []) k)
def Op.onRows (o : Op) (f : List AccRow → List AccRow) : X Unit := X.update fun s =>
  match s.wg? o.record.wg with
  | some _ => s.onWg o.record.wg fun w => { w with acc := f w.acc }
  | none => s.onOp o.id fun o => { o with left := o.left.map fun x => (x.1, f x.2) }
def Op.setRow (o : Op) (k : Nat) (l : List Half) : X Unit := o.onRows (setAccRow k l)
def Op.clearRow (o : Op) (k : Nat) : X Unit := o.onRows (clearAccRow k)

/-- A task has done row or block `k`; the flags it has raised so far. -/
def Op.did (o : Op) (k : Nat) (f : Flags) : X Unit := X.update fun s => s.onOp o.id fun o => { o with progress := k, flags := o.flags ||| f }

/-! ## Completion and flag records (R321) -/

/-- A task completes: its claim ends, and its flags are reported. -/
def endTask (o : Op) : X Unit := X.update fun s =>
  match s.op? o.id with
  | some p => (s.reportFlags p).endWork o.id 0
  | none => s

/-! ## MMA (R322, R323) -/

/-- The class that CLA or CLB names. -/
def mmaClass (c : Nat) : Nat := if c = 0 then 3 else c

/-- An operand of an MMA task with its checks: the shape, C0 and C1. -/
def mmaOperand (o : Op) (off cls nf : Nat) (b : Bool) : X (Shape × Nat × Nat) := do
  let w := o.record.operand off
  let h ← o.shape w.1 b
  X.shape (h.cls == mmaClass cls && (cls != 0 || (h.nf == nf && nfOk (BitVec.ofNat 8 nf) && w.2.2 % 32 == 0)))
  pure (h, w.2)

/-- A scale operand; none for scales of 1. -/
def mmaScale (o : Op) (i cls : Nat) : X (Option Shape) :=
  if i = 0xFFFF then pure none
  else do
    let h ← o.shape i false
    X.shape (cls == 0 && (h.cls == 1 || (h.cls == 3 && h.nf == 1)))
    pure (some h)

def readScales (c : Ctx) (h : Option Shape) (j0 i1 n : Nat) : X (List Nat) :=
  match h with
  | none => pure []
  | some h => readRun c h j0 i1 n

/-- A 4 KiB chunk of a weight operand, opened by the eave port. -/
def openChunk (o : Op) (h : Shape) (c : Nat) : X (List Byte) := do
  let va := bv64 (h.base + 4096 * c)
  let ct ← readVa o.ctx va 4096
  let tag ← readVa o.ctx (bv64 (h.base + 4096 * ((h.limit + 4095) / 4096) + 16 * c)) 16
  let s ← get
  let key := (s.enclave? o.enc).bind fun e => (e.wslots[h.slot]?).join
  match key.bind fun k => gcmOpen k (natBytes (h.objid * 2 ^ 32 + c % 2 ^ 32) 12) [] ct tag with
  | some bs => pure bs
  | none => X.trap cWeightTag va

/-- The runs of a weight operand out of its opened chunks. -/
def eaveRuns (o : Op) (h : Shape) (runs : List (Nat × Nat)) : X (List (List Byte)) := do
  let all := (runs.map fun r => (List.range ((r.1 + r.2 - 1) / 4096 + 1 - r.1 / 4096)).map (r.1 / 4096 + ·)).flatten
  let cs := all.foldl (fun l c => if l.contains c then l else l ++ [c]) ([] : List Nat)
  let pt ← cs.mapM fun c => do
    let bs ← openChunk o h c
    pure (c, bs)
  pure (runs.map fun r => (List.range r.2).map fun i =>
    ((alook pt ((r.1 + i) / 4096)).getD []).getD ((r.1 + i) % 4096) 0)

/-- The B operand and its scales enter the stationary buffer whole, every chunk of a weight operand checked. -/
def mmaLoad (o : Op) : X Unit := do
  let r := o.record
  let ca := r.f 0x38 48 2
  let cb := r.f 0x38 50 2
  let l := (tileK ca (r.f 0x38 32 8)).2
  let klen := r.f 0x40 0 10
  let ncol := r.f 0x40 10 7
  let _ ← mmaOperand o 0x28 ca (r.f 0x38 32 8) false
  let b ← mmaOperand o 0x30 cb (r.f 0x38 40 8) true
  let _ ← mmaScale o (r.f 0x38 0 16) ca
  let sb ← mmaScale o (r.f 0x38 16 16) cb
  let runs ← (List.range ncol).mapM fun n => b.1.place false b.2.2 (b.2.1 + n) klen
  let bytes ← if b.1.weight then eaveRuns o b.1 runs
    else runs.mapM fun x => readVa o.ctx (bv64 (b.1.base + x.1)) x.2
  let cols ← (bytes.zipIdx).mapM fun x => do
    let sc ← readScales o.ctx sb (b.2.2 / l) (b.2.1 + x.2) (klen / l)
    pure (unpack b.1.width klen x.1, sc)
  X.update fun s => s.onOp o.id fun o => { o with stationary := some cols }

/-- The blocks of a row and a column: products with their scales. -/
def mmaBlocks (r : Rec) (fa fb : Fmt) (l k : Nat) (a b : List Nat) (sfa sfb : Fmt) (sa sb : List Nat) :
    List (List (FV × FV) × FV × FV) :=
  (List.range k).map fun j =>
    let el := fun (f : Fmt) (x : List Nat) i => r.read f (x.getD (j * l + i) 0)
    let sc := fun (f : Fmt) (x : List Nat) => match x[j]? with | some y => r.read f y | none => FV.num false 1 1
    ((List.range l).map fun i => (el fa a i, el fb b i), sc sfa sa, sc sfb sb)

/-- One row of A streams past the stationary operand and is added as a whole. -/
def mmaRow (o : Op) (cols : List (List Nat × List Nat)) : X Unit := do
  let r := o.record
  let m := o.progress
  let ca := r.f 0x38 48 2
  let l := (tileK ca (r.f 0x38 32 8)).2
  let klen := r.f 0x40 0 10
  let a ← mmaOperand o 0x28 ca (r.f 0x38 32 8) false
  let b ← mmaOperand o 0x30 (r.f 0x38 50 2) (r.f 0x38 40 8) true
  let sa ← mmaScale o (r.f 0x38 0 16) ca
  let sb ← mmaScale o (r.f 0x38 16 16) (r.f 0x38 50 2)
  let xs ← readRun o.ctx a.1 a.2.2 (a.2.1 + m) klen
  let sx ← readScales o.ctx sa (a.2.2 / l) (a.2.1 + m) (klen / l)
  let old ← o.row (r.accRow + m)
  let fmtOf := fun (h : Option Shape) => match h with | some h => Shape.fmt h | none => Fmt.bf16
  let c := r.f32Mode (r.mode (r.f 0x38 52 3))
  let news := cols.zipIdx.map fun (x : (List Nat × List Nat) × Nat) =>
    blockAccumulate c (flushIn r.flush .f32) (if r.f 0x38 55 1 = 1 then (old.getD x.2 0).toNat else 0)
      (mmaBlocks r a.1.fmt b.1.fmt l (klen / l) xs x.1.1 (fmtOf sa) (fmtOf sb) sx x.1.2)
  o.setRow (r.accRow + m) (news.map (fun x => BitVec.ofNat 32 x.1) ++ old.drop news.length)
  o.did (m + 1) (news.foldl (fun f x => f ||| x.2) 0)
  if m + 1 = r.m then endTask o

/-- One step of an MMA task: the entries it lacks, its B operand, or one row. -/
def mmaStep (o : Op) : X Unit :=
  if o.record.shapes.any fun i => (alook o.entries i).isNone then loadEntries o
  else match o.stationary with
    | none => mmaLoad o
    | some cols => mmaRow o cols

def State.runTask (s : State) (op task : Nat) (f : Op → X Unit) : State :=
  match s.op? op with
  | some o => if o.kind = .record 2 ∧ o.record.task = task ∧ o.live = true then s.opEvent op (f o) else s
  | none => s

def execMmaTask (op : Nat) (s : State) : Out := .next (s.runTask op 0 mmaStep)

/-! ## EPI (R324) -/

/-- The activation of R324 on an f32 code. -/
def activate (act : Nat) (c : RMode) (y : Nat) : Nat × Flags :=
  match act, Fmt.f32.decode y with
  | 0, _ => (y, 0)
  | _, .nan => (Fmt.f32.nanCode, 0)
  | 1, v => if FV.lt (FV.zero false) v then (y, 0) else (0, 0)
  | 2, v => tanhTo .f32 v c
  | _, v => siluTo .f32 v c

/-- One output element: scaled, biased, activated, rounded to the output format. -/
def epiElem (r : Rec) (rm : Nat) (out : Fmt) (acc : Half) (bias : Option FV) : Nat × Flags :=
  let c := r.f32Mode rm
  let p := (r.read .f32 acc.toNat).mul (r.read .f32 (r.f 0x30 32 32))
  let y := roundTo .f32 p.1 c
  let b := match bias with
    | none => (y.1, (0 : Flags))
    | some v =>
      let q := FV.add rm (Fmt.f32.decode y.1) v
      let z := roundTo .f32 q.1 c
      (z.1, q.2 ||| z.2)
  let a := activate (r.f 0x38 0 3) c b.1
  let z := roundTo out (Fmt.f32.decode a.1) { rm, sat := r.f 0x38 18 1 == 1, flush := flushOut r.flush out }
  (z.1, p.2 ||| y.2 ||| b.2 ||| a.2 ||| z.2)

/-- One row read, computed and stored through OPD. -/
def epiRow (o : Op) : X Unit := do
  let r := o.record
  let m := o.progress
  let ncol := r.f 0x38 24 7
  let d := r.operand 0x28
  let h ← o.shape d.1 false
  X.shape (h.cls == r.f 0x38 16 2 && (h.cls != 3 || h.nf == r.f 0x38 8 8))
  X.shape (h.width != 4 || (d.2.2 % 2 == 0 && ncol % 2 == 0))
  let bias ← if r.f 0x30 0 16 = 0xFFFF then pure none else do
    let b ← o.shape (r.f 0x30 0 16) false
    X.shape (b.cls == 0 || b.cls == 1)
    let l ← readRun o.ctx b d.2.2 0 ncol
    pure (some (l.map fun x => r.read b.fmt x))
  let p ← h.place true d.2.2 (d.2.1 + m) ncol
  let row ← o.row (r.accRow + m)
  let ys := (List.range ncol).map fun n =>
    epiElem r (r.mode (r.f 0x38 20 3)) h.fmt (row.getD n 0) (bias.map fun l => l.getD n (FV.zero false))
  writeVa o.ctx (bv64 (h.base + p.1)) (packBytes h.width (ys.map (·.1)))
  if r.f 0x38 23 1 = 1 then o.clearRow (r.accRow + m)
  o.did (m + 1) (ys.foldl (fun f y => f ||| y.2) 0)
  if m + 1 = r.m then endTask o

def epiStep (o : Op) : X Unit :=
  if o.record.shapes.any fun i => (alook o.entries i).isNone then loadEntries o else epiRow o

def execEpiTask (op : Nat) (s : State) : Out := .next (s.runTask op 2 epiStep)

/-! ## ATTN (R325 to R328) -/

def Rec.hd (r : Rec) : Nat := match r.f 0x38 16 2 with | 0 => 64 | 1 => 96 | _ => 128
def Rec.kvnf (r : Rec) : Nat := r.f 0x38 24 8
def Rec.eb (r : Rec) : Nat := if r.kvnf = 0 then 2 else 1
def Rec.slab (r : Rec) : Nat := 2 * 64 * r.hd * r.eb
def Rec.nlb (r : Rec) : Nat := r.f 0x38 0 16
def Rec.kvFmt (r : Rec) : Fmt := if r.kvnf = 0 then .bf16 else .narrow (BitVec.ofNat 8 r.kvnf)
/-- The rows that an ATTN task names. -/
def Rec.attnRows (r : Rec) : Nat := if 96 < r.hd then 2 * r.m else r.m

/-- Row and column of Out(m, d) (R328). -/
def Rec.outAt (r : Rec) (m d : Nat) : Nat × Nat := (if d < 96 then r.accRow + m else r.accRow + r.m + m, d % 96)

/-- The checks made when the task starts (R325, R328). -/
def attnCheck (o : Op) : X Unit := do
  let r := o.record
  let s ← get
  match boundTable s o.enc (nameTable (bv64 (r.w 0x30))), s.accumOf o with
  | some h, some accum => do
    let t ← B.step o.ctx 6 (btHeader o.ctx h)
    let nf := BitVec.ofNat 8 r.kvnf
    if (r.f 0x38 32 16 + 1) * r.slab ≤ t.size ∧ (r.kvnf = 0 ∨ (nfOk nf = true ∧ nfWidth nf = 8)) ∧ r.f 0x40 32 32 ≤ 64
        ∧ r.accRow + r.attnRows ≤ accum ∧ r.accRow / 512 = (r.accRow + r.attnRows - 1) / 512 then pure ()
    else openFault cEngine
  | _, _ => openFault cEngine

def negInf : Nat := 0xFF800000

/-- The running state of row `m` at the start. -/
def attnInit (o : Op) (m : Nat) : X (AttnRow × Flags) := do
  let r := o.record
  let st := r.w 0x48
  let b ← if st = 0 then pure (natBytes negInf 8) else readVa o.ctx (bv64 (st + 8 * m)) 8
  let mx := fieldN (bytesNat b) 0 32
  let sum := fieldN (bytesNat b) 32 32
  let os ← (List.range r.hd).mapM fun d => do
    let p := r.outAt m d
    let row ← o.row p.1
    if mx = negInf then pure (0, (0 : Flags))
    else
      let q := (r.read .f32 (row.getD p.2 0).toNat).mul (r.read .f32 sum)
      let z := roundTo .f32 q.1 (r.f32Mode r.rmode.toNat)
      pure (z.1, q.2 ||| z.2)
  pure ({ mx := BitVec.ofNat 32 mx, sum := BitVec.ofNat 32 sum, o := os.map fun x => BitVec.ofNat 32 x.1 },
    os.foldl (fun f x => f ||| x.2) 0)

/-- The task starts, or takes Q again after a suspension. -/
def attnStart (o : Op) : X Unit := do
  let r := o.record
  if o.attn.isEmpty then attnCheck o
  let w := r.operand 0x28
  let h ← o.shape w.1 false
  X.shape (h.cls == 1)
  let q ← (List.range r.m).mapM fun m => do
    let l ← readRun o.ctx h w.2.2 (w.2.1 + m) r.hd
    pure (l, ([] : List Nat))
  if o.attn.isEmpty then do
    let rows ← (List.range r.m).mapM fun m => attnInit o m
    X.update fun s => s.onOp o.id fun o =>
      { o with stationary := some q, attn := rows.map (·.1), flags := o.flags ||| rows.foldl (fun f x => f ||| x.2) 0 }
  else X.update fun s => s.onOp o.id fun o => { o with stationary := some q }

/-- Resolves and pins logical block `j` (R326); a block whose move drains makes the task wait at its load pipe. -/
def attnPin (o : Op) (j : Nat) : X Unit := do
  let kv := o.record.w 0x30
  if 65535 < fieldN kv 0 16 + j then openFault cEngine
  let p ← B.step o.ctx 6 (resolveBlock o.ctx (bv64 (kv + j)) false)
  match p with
  | .ok t i d n => X.update fun s => s.onOp o.id fun o => { o with blocks := o.blocks ++ [(t, i, d.addr, n)] }
  | .wait => pure ()
  | .fault => openFault cEngine

/-- Bytes of a block at their physical address, in units of 32. -/
def readSlab (c : Ctx) (pa n : Nat) : X (List Byte) := do
  let l ← (List.range (n / 32)).mapM fun k => physRead c (pa + 32 * k) 32
  pure l.flatten

/-- 2^(x − y) rounded to a format. -/
def pow2Diff (f : Fmt) (c : RMode) (x y : FV) : Nat × Flags :=
  let d := FV.add c.rm x y.negate
  let r := exp2To f d.1 c
  (r.1, d.2 ||| r.2)

/-- Blocks of 16 products with scales of 1. -/
def plainBlocks (l : List (FV × FV)) : List (List (FV × FV) × FV × FV) :=
  (List.range ((l.length + 15) / 16)).map fun j =>
    let b := (l.drop (16 * j)).take 16
    (b ++ List.replicate (16 - b.length) (FV.zero false, FV.zero false), FV.num false 1 1, FV.num false 1 1)

def mulTo (c : RMode) (x y : FV) : Nat × Flags :=
  let p := x.mul y
  let r := roundTo .f32 p.1 c
  (r.1, p.2 ||| r.2)

/-- One row over one block of `t` tokens (R327): `k` and `v` give element d of token u. -/
def attnRow (r : Rec) (t : Nat) (q : List Nat) (k v : Nat → Nat → FV) (x : AttnRow) : AttnRow × Flags :=
  let c := r.f32Mode r.rmode.toNat
  let f := fun n => Fmt.f32.decode n
  let us := List.range t
  let ss := us.map fun u =>
    let a := blockAccumulate c false 0 (plainBlocks ((List.range r.hd).map fun d => (r.read .bf16 (q.getD d 0), k u d)))
    let y := mulTo c (f a.1) (r.read .f32 (r.f 0x40 0 32))
    (y.1, a.2 ||| y.2)
  let mx := f x.mx.toNat
  let nm := ss.foldl (fun n s => FV.max2 n (f s.1)) mx
  let fl := ss.foldl (fun a s => a ||| s.2) (0 : Flags)
  if nm = .inf true then (x, fl)
  else
    let sc := pow2Diff .f32 c mx nm
    let s0 := mulTo c (f x.sum.toNat) (f sc.1)
    let ps := ss.map fun s => pow2Diff .bf16 { c with flush := flushOut r.flush .bf16 } (f s.1) nm
    let sum := ps.foldl (fun (a : Nat × Flags) p =>
      let y := FV.add c.rm (f a.1) (Fmt.bf16.decode p.1)
      let z := roundTo .f32 y.1 c
      (z.1, a.2 ||| y.2 ||| z.2)) (s0.1, sc.2 ||| s0.2)
    let os := x.o.zipIdx.map fun (e : Half × Nat) =>
      let y := mulTo c (f e.1.toNat) (f sc.1)
      let z := blockAccumulate c false y.1 (plainBlocks (us.map fun u => (Fmt.bf16.decode (ps.getD u (0, 0)).1, v u e.2)))
      (z.1, y.2 ||| z.2)
    ({ mx := BitVec.ofNat 32 (roundTo .f32 nm { c with flush := false }).1, sum := BitVec.ofNat 32 sum.1, o := os.map fun z => BitVec.ofNat 32 z.1 },
      os.foldl (fun a z => a ||| z.2) (ps.foldl (fun a p => a ||| p.2) (fl ||| sum.2)))

/-- The block in use is read, added to every row, and unpinned. -/
def attnBlock (o : Op) (q : List (List Nat × List Nat)) (b : Nat × Nat × Nat × Nat) : X Unit := do
  let r := o.record
  let t := if o.progress + 1 = r.nlb then r.f 0x40 32 32 else 64
  let base := b.2.2.1 + r.f 0x38 32 16 * r.slab
  let kb ← readSlab o.ctx base (t * r.hd * r.eb)
  let vb ← readSlab o.ctx (base + r.slab / 2) (t * r.hd * r.eb)
  let w := 8 * r.eb
  let ks := unpack w (t * r.hd) kb
  let vs := unpack w (t * r.hd) vb
  let rows := o.attn.zipIdx.map fun (x : AttnRow × Nat) =>
    attnRow r t (q.getD x.2 ([], [])).1 (fun u d => r.read r.kvFmt (ks.getD (u * r.hd + d) 0))
      (fun u d => r.read r.kvFmt (vs.getD (u * r.hd + d) 0)) x.1
  unpinBlock o.ctx b.1 b.2.1
  X.update fun s => s.onOp o.id fun o => { o with attn := rows.map (·.1), blocks := o.blocks.drop 1 }
  o.did (o.progress + 1) (rows.foldl (fun f x => f ||| x.2) 0)

/-- Row `m` ends: its rows and STATS are written. -/
def attnWrite (o : Op) (m : Nat) (x : AttnRow) : X Unit := do
  let r := o.record
  let c := r.f32Mode r.rmode.toNat
  x.o.zipIdx.forM fun (e : Half × Nat) => do
    let d := FV.div (Fmt.f32.decode e.1.toNat) (Fmt.f32.decode x.sum.toNat)
    let z := roundTo .f32 d.1 c
    let p := r.outAt m e.2
    let row ← o.row p.1
    o.setRow p.1 (row.set p.2 (BitVec.ofNat 32 z.1))
    o.did o.progress (d.2 ||| z.2)
  if r.w 0x48 ≠ 0 then writeVa o.ctx (bv64 (r.w 0x48 + 8 * m)) (natBytes x.mx.toNat 4 ++ natBytes x.sum.toNat 4)

def attnEnd (o : Op) : X Unit := do
  (o.attn.zipIdx).forM fun (x : AttnRow × Nat) => attnWrite o x.2 x.1
  endTask o

/-- Whether the next block is pinned while one is in use: an open choice (R326). -/
def attnAhead (o : Op) : X Bool := do
  let s ← get
  let d := s.draw
  set d.2
  pure (o.blocks.length == 1 && decide (o.progress + 1 < o.record.nlb) && d.1 % 2 == 1)

/-- The pin of the next block, which meets no fault before it is in use. -/
def attnPinNext (o : Op) : X Unit := do
  let s ← get
  match attnPin o (o.progress + 1) s with
  | .ok _ t => set t
  | .error _ _ => pure ()

/-- One step of an ATTN task: entries, start, a pin, a block, or the end. -/
def attnStep (o : Op) : X Unit :=
  if o.record.shapes.any fun i => (alook o.entries i).isNone then loadEntries o
  else match o.stationary, o.blocks with
    | none, _ => attnStart o
    | some _, [] => if o.progress < o.record.nlb then attnPin o o.progress else attnEnd o
    | some q, b :: _ => do
      let ahead ← attnAhead o
      if ahead then attnPinNext o else attnBlock o q b

def execAttnTask (op : Nat) (s : State) : Out := .next (s.runTask op 1 attnStep)

/-! ## ENGINE_FAULT_SUSPEND (R303, R329) -/

/-- The blocks that a task has pinned are unpinned (R329); a copy keeps the block that it writes pinned (log 53). -/
def State.unpinAll (s : State) (o : Op) : State :=
  if o.kind = .record 2 then
    (o.blocks.foldl (fun s b => eventX (unpinBlock o.ctx b.1 b.2.1) s) s).onOp o.id fun o => { o with blocks := [], stationary := none }
  else s

/-- A fault suspends an operation once every flit that it has sent is acknowledged, so that PROGRESS is exact (R304, R365). -/
def execEngineFaultSuspend (op : Nat) (s : State) : Out :=
  .next (match s.op? op with
    | some o => if o.state = .running ∧ o.cause ≠ 0 ∧ s.unacked op = false then (s.unpinAll o).suspendOp op o.cause o.va else s
    | none => s)

/-! ## HELD_FAULT_RECORD_WRITE (R303) -/

def State.writeHeld (s : State) (e : BitVec 16) (r : FaultRec) (rs : List FaultRec) : State :=
  match writeFault e r.die r s with
  | .ok true t => t.onEnclave e fun e => { e with held := rs }
  | .error (.fill ..) t => s.keepWalk t
  | _ => s

def execHeldFaultRecordWrite (enc : Nat) (s : State) : Out :=
  let e := BitVec.ofNat 16 enc
  .next (match (s.enclave? e).map (·.held) with
    | some (r :: rs) => s.writeHeld e r rs
    | _ => s)

/-! ## RECORD_COMPLETE_SIGNAL (R190) -/

/-- An earlier record of the queue that names the same timeline has still to signal. -/
def State.signalsBefore (s : State) (o : Op) : Bool :=
  let earlier := fun (r : Rec) => r.tlv && r.tl == o.record.tl && decide (r.slot < o.record.slot)
  (s.ops.any fun x => x.enc == o.enc && x.queue == o.queue && x.kind == o.kind && earlier x.record)
    || match s.queue? o.enc o.queue with | some q => (q.hw ++ q.spill).any earlier | none => false

/-- The record signals its timeline, reports its error and is gone; with a LAUNCH goes its launch. -/
def State.completeRecord (s : State) (o : Op) : State :=
  let scope := match (s.enclave? o.enc).bind fun e => e.timeline? o.record.tl with | some t => o.clamp t.scope | none => 0
  let s := if o.record.tlv then
      (s.engineRelease scope o.record.clock).signal o.enc o.record.tl (bv64 o.record.sigval) (if 5 ≤ scope then o.record.clock else .zero)
    else s
  { (s.queueError o.enc o.queue o.error).dropOp o.id with launches := s.launches.filter (·.op != o.id) }

def execRecordCompleteSignal (op : Nat) (s : State) : Out :=
  .next (match s.op? op with
    | some o =>
      match o.kind with
      | .record _ => if o.state = .done ∧ ¬ (o.record.tlv = true ∧ s.signalsBefore o = true) then s.completeRecord o else s
      | _ => s
    | none => s)

end Sys2Proof.Machine
end

