-- ==== Sys2Proof/Machine/Links.lean ====
section
/-!
DEFINITION. Flits (spec/14 R362 to R365): sealing and opening under the keys of a stream, the order of each direction,
answers, the retry buffer; and arrivals that engines make on barriers (06 R180).
-/
namespace Sys2Proof.Machine

/-! ## Arrivals of engines -/

/-- The place, the barrier and the clock of its arrivals, read at its home by an engine; what comes from a peer translates it
with W and E (R366). -/
def engineBarrier (c : Ctx) (va : Word) (kind : Kind := .a) : X (Place × Barrier × Clock) := do
  X.aligned va 32
  let p ← atomicPlaceFor c va 32 false kind
  let s ← get
  match p with
  | .mem pa smr _ =>
    let r := (s.mem.beforeAtomic c.die ((List.range 32).map (pa + ·)) smr).homeRead c.die pa 32 smr
    let s := { s with mem := r.2.2 }
    match badData s pa with
    | some k => X.trap k va
    | none => do
      set s
      pure (p, .ofNat (bytesNat r.1), r.2.1)
  | .scr w _ => do
    let bs ← readPlace c p va 32
    pure (p, .ofNat (bytesNat bs), match s.wg? w with | some g => g.clock | none => .zero)
  | .dev _ => X.trap cPermission va

/-- The clock of a release by an engine at a scope. -/
def State.engineClock (s : State) (die k : Nat) : Clock := if 5 ≤ k then s.clockOf die else .zero

/-- An arrival of an engine that releases at a scope. -/
def engineArrive (c : Ctx) (va : Word) (r : Place × Barrier × Clock) (count : Nat) (tag : Bool) (scope : Nat) : X Unit := do
  let b := r.2.1.arrive count tag
  let s ← get
  let k := s.engineClock c.die scope
  set (s.engineRelease scope k)
  match r.1 with
  | .mem pa _ _ => X.update fun s =>
      let s := s.markDirty pa
      { s with mem := s.mem.homeWrite 0 c.die (natCells pa b.toNat 32) (r.2.2.join k) }
  | .scr w _ => do
    writePlace c r.1 va (natBytes b.toNat 32)
    X.update fun s => s.onWg w fun g => { g with clock := g.clock.join k }
  | .dev _ => pure ()

/-- What a record that counts arrivals does when `n` bytes have landed: a barrier in byte mode counts them, one in arrival
mode counts once, after the last (R192, R366). -/
def arriveBytes (c : Ctx) (bar : Word) (phase : Bool) (scope part n : Nat) (isLast : Bool)
    (kind : Kind := .a) : X Unit := do
  let r ← engineBarrier c bar kind
  let s ← get
  let k := s.clampFor part scope
  if r.2.1.bytesMode then engineArrive c bar r n phase k
  else if isLast then engineArrive c bar r 1 phase k
  else pure ()

/-! ## Sealing (R362) -/

def tIdle : BitVec 4 := 0
def tData : BitVec 4 := 1
def tArrive : BitVec 4 := 2
def tMarker : BitVec 4 := 3
def tRdv : BitVec 4 := 4
def tFault : BitVec 4 := 5
def tAck : BitVec 4 := 8
def tNak : BitVec 4 := 9

/-- The header of a flit. -/
def Flit.header (f : Flit) : List Byte :=
  natBytes (f.typ.toNat + bit f.slot 4 + f.rstream.toNat * 2 ^ 16 + f.ctr.toNat * 2 ^ 32) 8 ++ natBytes f.epoch.toNat 8
/-- The IV of a stream flit, 0x0000 ++ RSTREAM ++ EPOCH ++ CTR. -/
def Flit.iv (f : Flit) : List Byte := natBytes (f.ctr.toNat + f.epoch.toNat * 2 ^ 32 + f.rstream.toNat * 2 ^ 64) 12
/-- The IV of an ACK or a NAK: 0xFFFF_FFFF, then the control counter, which its CTR and EPOCH fields carry (log 22). -/
def Flit.controlIv (f : Flit) : List Byte := natBytes (f.ctr.toNat + f.epoch.toNat * 2 ^ 32 + 0xFFFFFFFF * 2 ^ 64) 12

/-- Payloads fill 224 bytes. -/
def padPayload (bs : List Byte) : List Byte := (bs ++ List.replicate 224 0).take 224

def Flit.sealWith (f : Flit) (key : Nat) (iv payload : List Byte) : Flit :=
  let c := gcmCrypt key iv (padPayload payload)
  { f with body := c, tag := gcmTag16 key iv (Flit.header f) c }

def Flit.openWith (f : Flit) (key : Nat) (iv : List Byte) : Option (List Byte) := gcmOpen key iv (Flit.header f) f.body f.tag

/-! ## Sending (R363, R364) -/

def markerCtr : BitVec 32 := 0xFFFFF000

/-- The flits in the retry buffer of a port. -/
def State.portKept (s : State) (p : Nat) : Nat :=
  ((s.links.streams.filter fun x => x.2.port.toNat == p).map fun x => x.2.kept.length).foldl (· + ·) 0

/-- A stream may send a flit: it is UP, its port's retry buffer has room, and no MARKER is due. -/
def State.canSend (s : State) (k : Nat) : Bool :=
  let st := s.stream k
  decide (st.state = stUp) && st.txCur.isSome && st.ctr != markerCtr && decide (s.portKept st.port.toNat < 1024)

/-- Seals and sends the next flit of a stream, and keeps it. -/
def State.sendFlit (s : State) (k : Nat) (typ : BitVec 4) (payload : List Byte) (op : Option Nat := none) (nbytes : Nat := 0)
    (isLast : Bool := false) : State :=
  let st := s.stream k
  let f : Flit := { port := st.port.toNat, typ, slot := st.epoch.getLsbD 0, rstream := st.pidx.setWidth 16, ctr := st.ctr
                    epoch := st.epoch, body := [], tag := [] }
  let g := Flit.sealWith f (st.txCur.getD 0) (Flit.iv f) payload
  s.onStream k fun x =>
    { x with ctr := x.ctr + 1, flits := x.flits + 1, kept := x.kept ++ [{ flit := g, op, nbytes, isLast }] }

def State.onPort (s : State) (p : Nat) (f : PortEntry → PortEntry) : State :=
  { s with links := { s.links with ports := s.links.ports.setIfInBounds p (f (s.links.ports.toList.getD p {})) } }

/-- The receiver's answer for a flit, sealed under the link key of the port. -/
def State.answer (s : State) (k : Nat) (typ : BitVec 4) (epoch ctr : BitVec 32) : State :=
  let st := s.stream k
  let p := s.links.ports.toList.getD st.port.toNat {}
  let n : Nat := p.control
  let f : Flit := { port := st.port.toNat, typ, slot := false, rstream := 0, ctr := BitVec.ofNat 32 n, epoch := BitVec.ofNat 32 (n / 2 ^ 32)
                    body := [], tag := [] }
  let g := Flit.sealWith f p.linkKey (Flit.controlIv f) (natBytes (st.pidx.toNat) 8 ++ natBytes (ctr.toNat + epoch.toNat * 2 ^ 32) 8)
  (s.onStream k fun x => { x with replies := x.replies ++ [g] }).onPort st.port.toNat fun p => { p with control := p.control + 1 }

/-! ## Receiving (R363, R365) -/

/-- Whether a flit is the one that its stream expects next. -/
def State.expected (s : State) (f : Flit) : Bool :=
  let st := s.stream f.rstream.toNat
  decide (st.state = stUp) && st.port.toNat == f.port && f.epoch == st.rxEpoch && f.ctr == st.rxCtr

/-- The expected flit fails: it is discarded with a NAK, and the third failure in a row takes the stream down. -/
def State.rxFail (s : State) (f : Flit) : State :=
  let k := f.rstream.toNat
  let s := (s.onStream k fun x => { x with failures := x.failures + 1 }).answer k tNak f.epoch f.ctr
  if 3 ≤ (s.stream k).failures then s.streamDown k cIntegrity else s

/-- A port that runs as a fabric port: its MODE, and not one of the pair that runs as the host port (R357, R358). -/
def State.fabricPort (s : State) (p : Nat) : Bool :=
  decide (p < 18) && !(Config.bridge && decide (p < 2)) && decide ((s.links.ports.toList.getD p {}).mode = 0)

/-- A flit of a fabric port counts in its FECUNC (R358, R362). -/
def State.bumpFec (s : State) (p : Nat) : State := if s.fabricPort p then s.onPort p fun p => { p with fecUnc := p.fecUnc + 1 } else s

/-- A flit that forward error correction could not correct counts in FECUNC (R358). -/
def State.countFec (s : State) (f : Flit) : State := if f.fecBad then s.bumpFec f.port else s

/-- The payload of an expected stream flit whose tag passes. -/
def State.rxPayload (s : State) (f : Flit) : Option (List Byte) :=
  let st := s.stream f.rstream.toNat
  if f.fecBad || f.slot != f.epoch.getLsbD 0 then none else st.rxCur.bind fun key => Flit.openWith f key (Flit.iv f)

/-- A flit is accepted: the expected value advances, and ACK goes once its effects are applied. -/
def State.rxAccept (s : State) (f : Flit) : State :=
  let k := f.rstream.toNat
  (s.onStream k fun x => { x with rxCtr := x.rxCtr + 1, failures := 0 }).answer k tAck f.epoch f.ctr

/-- A stream flit: `apply` gives its effects from its stream and payload, none where it has to wait. -/
def State.receive (s : State) (f : Flit) (apply : State → Nat → List Byte → Option State) : State :=
  let s := s.countFec f
  if !s.expected f then s
  else match s.rxPayload f with
    | none => s.rxFail f
    | some b =>
      match apply s f.rstream.toNat b with
      | some t => t.rxAccept f
      | none => s

/-- The engine that applies what comes from a peer follows what the remote copies of this module's agents follow (18 R388; log
82). -/
def State.fromPeers (s : State) (die : Nat) : State :=
  if s.links.sentClock = .zero then s else s.acquire die 6 s.links.sentClock

/-- The base die of a port (R357). -/
def portDie (p : Nat) : Nat := if p < 9 then 4 else 5


end Sys2Proof.Machine
end

