-- ==== Sys2Proof/Machine/SchedEvents.lean ====
section
/-!
DEFINITION. Pre-emption, resume and the steps of time (spec/10 R270 to R275; 11 R299, R308 to R317): slices, windows,
overruns, the saves of agents, exit records that come back, and the resumes of saved groups.
-/
namespace Sys2Proof.Machine

/-! ## The pick of a slot (R270) -/

/-- An agent is ready when its next scalar instruction or its next lane beat can issue (R270). -/
def State.isReady (s : State) (a : Agent) : Bool := s.canScalar a || s.canLane a

def State.noted (s : State) (a : Agent) : Agent :=
  if s.isReady a then (if a.sched.ready then a else { a with sched := { a.sched with ready := true, since := s.lastIssue } })
  else { a with sched := { a.sched with ready := false } }

/-- Notes the agents that have become ready, and those that are so no more. -/
def State.noteReady (s : State) : State := s.mapAgents s.noted

/-- The time from which an agent has waited to issue: its last issue, or its becoming ready. -/
def Agent.waitsFrom (a : Agent) : Nat := max a.sched.lastIssue a.sched.since

/-- Whether agent `b` goes before agent `a` on a slot on which agent `last` has issued last: aged first, then by PRI, by time, and
round-robin in order of residence (R270). -/
def outranks (last : Nat) (b a : Agent) : Bool :=
  if b.sched.aged != a.sched.aged then b.sched.aged
  else if b.sched.pri ≠ a.sched.pri then decide (a.sched.pri < b.sched.pri)
  else if b.waitsFrom ≠ a.waitsFrom then decide (b.waitsFrom < a.waitsFrom)
  else if decide (b.id ≤ last) != decide (a.id ≤ last) then decide (last < b.id)
  else decide (b.id < a.id)

/-- Whether two agents issue from one slot; a control thread and the host agent have theirs alone. -/
def sameSlot (a b : Agent) : Bool :=
  a.id == b.id || (decide (a.kind = .group) && decide (b.kind = .group) && a.die == b.die && a.core == b.core && a.sched.slot == b.sched.slot)

/-- The best of a list by a relation that says which goes before which. -/
def bestOf (before : Agent → Agent → Bool) (l : List Agent) : Option Agent :=
  l.foldl (fun o b => match o with | none => some b | some a => if before b a then some b else o) none

/-- The agent that the slot of `a` picks among its ready ones, those that `late` names not being ready in time (R270; log 4). -/
def State.slotPick (s : State) (late : List Nat) (a : Agent) : Option Agent :=
  let l := (s.cur :: s.others).filter (sameSlot a)
  let after := fun (b a : Agent) =>
    decide (a.sched.lastIssue < b.sched.lastIssue) || (a.sched.lastIssue == b.sched.lastIssue && decide (b.id < a.id))
  let last := match bestOf after (l.filter fun b => decide (b.sched.lastIssue ≠ 0)) with | some x => x.id | none => 0
  bestOf (outranks last) (l.filter fun b => s.isReady b && !late.contains b.id)

/-- Whether the slot of the acting agent picks it. -/
def State.picks (s : State) (late : List Nat) : Bool := (s.slotPick late s.cur).any fun a => a.id == s.cur.id

/-- Where the schedule says nothing, the slot goes next one of whose agents has waited longest, and it picks (log 4). -/
def State.pick (s : State) : Option Agent :=
  (bestOf (fun b a => decide (b.waitsFrom < a.waitsFrom)) ((s.cur :: s.others).filter s.isReady)).bind (s.slotPick [])

/-- The turn where the schedule names none: the next scalar instruction or lane beat of the agent that a slot picks, else a block
that begins, or an outstanding result (log 4). -/
def State.ownTurn (s : State) : Option Turn :=
  match s.pick with
  | some a => some (if s.canScalar a then .scalar a.id else .lane a.id)
  | none =>
    match (s.cur :: s.others).find? fun a => laneAwake a.status && a.lane.active.isNone && !a.lane.queue.isEmpty with
    | some a => some (.event (.laneBlockIssueStart a.id))
    | none =>
      match (s.cur :: s.others).find? fun a => !a.lane.pend.isEmpty with
      | some a => some (.event (.laneResultReturn a.id 0))
      | none => none

/-- A group that has been ready for 2,048 cycles without issuing is aged until it next issues (R270). -/
def execGroupAged (id : Nat) (s : State) : Out :=
  .next (s.onAgent id fun a => if s.isReady a then { a with sched := { a.sched with aged := true } } else a)

/-! ## Windows (R273 to R275) -/

/-- A new window of a partition starts: its budget entry comes into force (13 R346), and its slice is a window older; without
slicing no slice runs. -/
def PartState.newWindow (x : PartState) (b : Vector Word 4) : PartState :=
  let x := { x with budget := b }
  if fieldN (b[0]).toNat 0 16 = 0 then { x with slice := none, windows := 0 } else { x with windows := x.windows + 1 }

/-! ## Saving an agent at the end of a slice (R308, R309) -/

/-- An agent that may stand on the part and can be pre-empted. -/
def Status.preemptible : Status → Bool
  | .ready | .waiting _ | .exited => true
  | _ => false

/-- The point at which a pre-empted agent can be saved: its lane stream has drained, or stopped at a fault, and none of its lane
instructions is in flight (R12). A descheduled agent issues nothing more. -/
def Agent.savePoint (a : Agent) : Bool :=
  a.preempting && a.lane.pend.isEmpty && (a.lane.drainTrap.isSome || a.laneDrained || !laneAwake a.status)

/-- Entry of the save routine (R309). -/
def Agent.enterSave (a : Agent) : Agent :=
  { a with
    status := .ready, preempting := false, snapshot := some a.regs.s
    trap := { a.trap with
      cause := cPreempt, causeLane := false, val := 0, spc := a.pc, level := a.level, hm := false, inSave := true, used := 0 }
    level := .s
    pc := a.trap.vec + 0x100 }

/-- Whether MIGSTOP saves the agent: then no save routine runs (13 R354). -/
def State.migStops (s : State) (a : Agent) : Bool := match s.enclave? a.enc with | some e => e.stopping | none => false

/-- Whether the save routine runs: in every other case the context engine saves by force. -/
def Agent.savesItself (a : Agent) : Bool :=
  decide (a.kind = .group) && !a.trap.hm && a.lane.drainTrap.isNone && !a.inRoutine && laneAwake a.status

/-- `btcow` takes a pre-emption only after its swing (07 R199). -/
def Agent.inCopy (a : Agent) : Bool := match a.status with | .waiting (.btcow _) => true | _ => false

/-- The save of a pre-empted agent that has reached its save point. -/
def State.savePreempted (s : State) (id : Nat) : State :=
  let s := s.endCow id
  match s.agent? id with
  | none => s
  | some a =>
    if !(a.savePoint && Status.preemptible a.status) || a.inCopy then s
    else if a.savesItself && !s.migStops a then s.onAgent id (·.enterSave)
    else (s.onAgent id fun a => { a with preempting := false }).forcedSave id

/-- The agents of a partition that a change of slice pre-empts. -/
def State.preempted (s : State) (part : Nat) (next : BitVec 16) : List Nat :=
  (s.agents.filter fun a => decide (a.kind ≠ .host) && a.part == part && a.enc != next && Status.preemptible a.status).map (·.id)

def State.sliceEnds (s : State) (part : Nat) (next : BitVec 16) : State :=
  let ids := s.preempted part next
  let s := s.onPart part fun p => { p with slice := some next, windows := 0 }
  let s := s.mapAgents fun a => if ids.contains a.id then { a with preempting := true } else a
  ids.foldl (fun s id => s.savePreempted id) s

/-- Where a window brings slicing and no slice runs, one of the partition's enclaves that run is chosen, by an open choice; every
agent of another one is pre-empted (R275; log 93). -/
def State.beginSlice (s : State) (part : Nat) : State :=
  if s.tslice part = 0 ∨ (s.part part).slice.isSome then s
  else
    match s.enclaves.filter fun e => e.part == part && EnclaveState.runs e.state with
    | [] => s
    | e :: es =>
      let d := s.draw
      d.2.sliceEnds part (((e :: es).getD (d.1 % (es.length + 1)) e).id)

/-- A new window starts for every partition. Budgets change only timing (R274), so what it changes is the budget in force, the
count of windows of each slice, and the slice that begins with slicing. -/
def execBudgetWindow (s : State) : Out :=
  let s := (List.range 40).foldl (fun s p => s.onPart p fun x => x.newWindow (s.layout.ruling p).budget) s
  .next ((List.range 40).foldl (fun s p => s.beginSlice p) s)

def execTimeSliceEnd (part next : Nat) (s : State) : Out :=
  let n := BitVec.ofNat 16 next
  let p := s.part part
  .next (match s.enclave? n with
    | some e =>
      if s.tslice part ≠ 0 ∧ e.part = part ∧ EnclaveState.runs e.state ∧ p.slice ≠ some n ∧ (p.slice = none ∨ s.tslice part ≤ p.windows)
      then s.sliceEnds part n else s
    | none => s)

/-- The lane stream of a group has drained: the instruction that waits for it executes again, and a pre-empted group is
saved (04 R111; 11 R308). -/
def execLaneStreamDrained (id : Nat) (s : State) : Out :=
  let t := s.wakeIf id fun a => decide (a.status = .waiting .drain) && a.laneDrained
  .next (t.savePreempted id)

/-! ## Overruns (R310, R315) -/

def execSaveRoutineOverrun (id : Nat) (s : State) : Out :=
  .next (match s.agent? id with
    | some a => if a.trap.inSave && Status.preemptible a.status then s.forcedSave id else s
    | none => s)

def execRestoreRoutineOverrun (id : Nat) (s : State) : Out :=
  let t := s.focus id
  .next (if t.cur.id = id && t.cur.trap.inRestore && Status.preemptible t.cur.status then t.restoreFails else s)

/-! ## GROUP_RESUME (R315, R316) -/

/-- Whether a saved group can be loaded on a core: its workgroup has its room there, or finds it. -/
def State.coreTakes (s : State) (a : Agent) (core : Nat) : Bool :=
  match s.wg? a.wg with
  | none => false
  | some w =>
    decide (w.state = .resident) && (if s.onCore w then core == w.core
      else (s.coresFrom w.part w.die).contains core && s.roomOn s.onCores w.die core (s.needOf w))

def State.groupResume (s : State) (a : Agent) (core : Nat) : State :=
  match s.enclave? a.enc with
  | none => s
  | some e =>
    if !s.hasSlice e then s
    else if a.kind = .control then s.resumeAgent a.id a.core
    else if s.coreTakes a core then (s.onWg a.wg fun w => { w with core }).resumeAgent a.id core
    else s

def execGroupResume (id core : Nat) (s : State) : Out :=
  .next (match s.agent? id with
    | some a => if Status.isSaved a.status then s.groupResume a core else s
    | none => s)

/-! ## DONE_POLL (R299, R312, R313, R317) -/

/-- An exit record that has come back. -/
def Agent.returned (a : Agent) : Agent :=
  match a.status with
  | .exited => { a with status := .ready }
  | .saved f (some .exitDone) => { a with status := .saved f none }
  | .blocked (some .exitDone) => { a with status := .blocked none }
  | _ => a

/-- A save that was blocked restarts from the beginning. -/
def State.retrySave (s : State) (id : Nat) : State :=
  match s.agent? id with
  | some a =>
    match a.status with
    | .blocked w =>
      let s := (s.onPart a.part fun p => { p with saveBlocked := false }).onAgent id fun a => { a with status := resumedStatus w }
      let s := s.forcedSave id
      if s.agents.any fun b => Status.isBlocked b.status && b.part == a.part then
        s.onPart a.part fun p => { p with saveBlocked := true }
      else s
    | _ => s
  | none => s

def State.exitReturns (s : State) : ExitWhat → State
  | .agent id => s.onAgent id (·.returned)
  | .blockedSave id => s.retrySave id
  | .blockedAdmission e _ => s.onEnclave e fun x => { x with admitBlocked := none }

/-- The master reads the DONE bytes of the outstanding records of its partition. -/
def execDonePoll (part : Nat) (s : State) : Out :=
  let done := s.exits.filter fun x => x.part == part && s.exitDone x
  let s := { s with exits := s.exits.filter fun x => !done.contains x }
  .next (done.foldl (fun s x => s.exitReturns x.what) s)

end Sys2Proof.Machine
end

