-- ==== Sys2Proof/Machine/RasEvents.lean ====
section
/-!
DEFINITION. Errors, fencing and power (spec/15 R378 to R381; 10 R269; 14 R357, R358): poisoned lines, retired stacks, fenced
dies, ports, and the power cap.
-/
namespace Sys2Proof.Machine

/-! ## The health block -/

def State.onHealth (s : State) (f : Health → Health) : State := { s with health := f s.health }

/-- A reason event: the latest code, the count, and REPLACEREQ unless the event only moves Ridgepole (Tables 15.2, 15.3). -/
def State.reason (s : State) (code : BitVec 8) : State :=
  s.onHealth fun h => { h with reason := code, events := h.events + 1, replaceReq := h.replaceReq || code != 0x07 }

/-! ## Poison and stacks -/

/-- An HBM stack is retired: every line of it reads as poisoned. -/
def State.retireStack (s : State) (k : Nat) : State :=
  if s.health.stackRet.getLsbD k || decide (8 ≤ k) then s
  else (s.onHealth fun h => { h with stackRet := h.stackRet ||| BitVec.ofNat 8 (2 ^ k) }).reason 0x02

/-- A line is poisoned. -/
def State.poisonLine (s : State) (l : Nat) : State :=
  if s.mem.poison.contains l then s
  else { s with mem := { s.mem with poison := l :: s.mem.poison } }.onHealth fun h => { h with poisonCnt := h.poisonCnt + 1 }

/-- An uncorrectable error; `inSecond` lines of the stack have been poisoned in the last second, this one included. -/
def execLinePoison (line inSecond : Nat) (s : State) : Out :=
  let pa := line * 256
  .next (if regionOf pa = .hbm ∨ regionOf pa = .lpddr then
    let t := s.poisonLine line
    if 64 < inSecond ∧ regionOf pa = .hbm then t.retireStack (pa / 0x1000000000) else t
  else s)

/-- A group exits with POISON (11 R299). -/
def execUncorrectableRegisterError (agent : Nat) (s : State) : Out :=
  let t := s.focus agent
  .next (if t.cur.id = agent ∧ t.cur.kind ≠ .host ∧ Status.preemptible t.cur.status ∧ t.cur.status ≠ .exited then t.exitAgent cPoison
    else s)

/-! ## A fenced die (R380, 10 R269) -/

/-- Whether another die holds the value of a die's write for a byte, or of a write after it: one of the other die's own, or one that a
copy there shows. -/
def MemSys.elsewhere (m : MemSys) (d : Nat) (f : Flight) (p : Nat) : Bool :=
  m.flight.any fun g => !g.origin && !g.atHome && covers g.clock f && g.touches p
    && (g.die != d || (List.range 6).any fun e => e != d && (m.die e).copies.any fun c => c.addr == p && c.shows g)

/-- The bytes whose newest value lies in a die's caches alone: of its writes that home has not applied, and dirty bytes of
software-managed lines. -/
def MemSys.onlyOn (m : MemSys) (d : Nat) : List Nat :=
  ((m.flight.filter fun f => decide (f.die = d) && !f.atHome && !f.origin).map fun f =>
    (f.bytes.map (·.1)).filter fun p => !m.elsewhere d f p).flatten
    ++ ((m.die d).copies.filter fun c => c.smr && c.dirty).map (·.addr)

/-- The memory of the part after a die is gone: its writes take their place at home, where `State.loseLines` poisons those that
stood nowhere else; the clocks of the others no longer wait for it. -/
def MemSys.loseDie (m : MemSys) (d : Nat) : MemSys :=
  let v := (m.die d).clock.at d
  let m := m.toHome fun f => decide (f.die = d)
  { m with
    flight := (m.flight.map fun f => { f with todo := f.todo.filter (· != d) }).filter (!·.done)
    dies := (m.dies.setIfInBounds d { clock := (m.die d).clock, copies := [] }).map fun x =>
      { x with clock := x.clock.setAt d (max (x.clock.at d) v) } }

/-- The lines that are poisoned at their new homes. -/
def State.loseLines (s : State) (d : Nat) : State :=
  let ls := (s.mem.onlyOn d).map (· / 256)
  ls.foldl (fun s l => s.poisonLine l) { s with mem := s.mem.loseDie d }

/-- A numbered list in ascending order. -/
def sortUp (l : List Nat) : List Nat := l.mergeSort (· ≤ ·)

/-- A launch that had work on the die: the lost indices are dealt again, or nothing more is dispatched. -/
def Launch.lose (l : Launch) (d : Nat) (lost : List Nat) : Launch :=
  let gone := (l.ranges.filter fun x => x.1 == d).map (·.2) ++ lost
  let l' := { l with running := l.running.filter fun i => !lost.contains i }
  if gone.isEmpty then l
  else if l.record.f 0 32 1 = 1 then
    { l' with ranges := l.ranges.filter fun x => x.1 != d, redeal := sortUp (l.redeal ++ gone) }
  else { l' with ranges := [], redeal := [], dead := true }

/-- A launch of a partition with no surviving slice completes with DIELOST. -/
def State.launchGone (s : State) (l : Launch) : State :=
  { s.finishOp l.op cDieLost with launches := s.launches.filter (·.id != l.id) }

/-- The LAUNCH records of a queue that wait: each becomes a completed operation, in order. -/
def State.queueGone (s : State) (e : Enclave) (qi : Nat) (q : Queue) : State :=
  let rs := q.hw ++ q.spill
  let s := rs.foldl (fun s r =>
    let o : Op := { id := s.nextId, enc := e.id, queue := qi, kind := .record 0, record := r, state := .done, error := cDieLost, die := 4 }
    { s with nextId := s.nextId + 1, ops := s.ops ++ [o] }) s
  s.onQueue e.id qi fun q => { q with hw := [], spill := [], refilled := q.spilled }

/-- The partition has no surviving slice: all its launches complete with DIELOST. -/
def State.partGone (s : State) (p : Nat) : State :=
  let s : State := (s.launches.filter fun l => l.part == p).foldl (fun s l => s.launchGone l) s
  let ends := fun (o : Op) =>
    if o.kind = .record 0 ∧ o.state ≠ .done ∧ s.partOf o.enc = p then { o with state := .done, error := cDieLost } else o
  let s : State := { s with ops := s.ops.map ends }
  (s.enclaves.filter fun e => e.part == p).foldl (fun (s : State) (e : Enclave) =>
    (e.queues.zipIdx.filter fun q => q.1.kind == 0).foldl (fun s q => s.queueGone e q.2 q.1) s) s

/-- Whether a partition held a slice of the die and holds none that survives. -/
def State.partLost (s : State) (p d : Nat) : Bool :=
  ((List.range 10).any fun k => s.ownsSlice p (d * 10 + k)) && (s.masterDie p).isNone

/-- The compute of the die is gone: its groups and workgroups, the tile tasks of those, and what was dealt to it; its other
engine work stands still for good (log 27). -/
def State.loseCompute (s : State) (d : Nat) : State :=
  let gone : List Workgroup := s.wgs.filter fun w => w.die == d
  let ids := gone.map (·.id)
  let s : State := s.dropAgents fun a => decide (a.kind = .group) && ids.contains a.wg
  let lostTile := fun (o : Op) => decide (o.kind = .record 2) && ids.contains o.record.wg && decide (o.state ≠ .done)
  let still := fun (o : Op) =>
    if o.die = d ∧ o.kind ≠ .record 0 ∧ (o.state = .running ∨ o.state = .waiting) then { o with state := .stopped } else o
  let s : State := { s with
    wgs := s.wgs.filter fun w => w.die != d
    ops := (s.ops.filter fun o => !lostTile o).map still
    chunks := s.chunks.filter fun c => (s.agent? c.agent).isSome
    launches := s.launches.map fun (l : Launch) => l.lose d ((gone.filter fun w => w.launch == l.id).map (·.index)) }
  s.launches.foldl (fun (s : State) (l : Launch) => s.launchEnds l.id) s

/-- The deputy is master of what the die held: dispatch goes on from the mirrored state (10 R263). -/
def State.newMasters (s : State) (d : Nat) : State :=
  let move := fun (o : Op) =>
    if o.kind = .record 0 ∧ o.die = d then { o with die := (s.masterDie (s.partOf o.enc)).getD 4 } else o
  { s with ops := s.ops.map move }

/-- Ridgepole fences compute die `d`. -/
def State.fenceDie (s : State) (d : Nat) : State :=
  if s.health.dieFence.getLsbD d || decide (4 ≤ d) then s
  else
    let s := s.loseLines d
    let s := (s.onHealth fun h =>
      { h with
        dieFence := h.dieFence ||| BitVec.ofNat 4 (2 ^ d)
        stackRet := h.stackRet ||| BitVec.ofNat 8 (3 * 2 ^ (2 * d)) }).reason 0x01
    let s := (s.loseCompute d).newMasters d
    ((List.range 40).filter fun p => s.partLost p d).foldl (fun s p => s.partGone p) s

def execDieFence (die : Nat) (s : State) : Out := .next (s.fenceDie die)

/-! ## Ports (14 R357, R358; R379) -/

def State.portState (s : State) (p : Nat) : BitVec 2 := (s.links.ports.toList.getD p {}).state

def State.setPortDeg (s : State) (p : Nat) (b : Bool) : State :=
  s.onHealth fun h => { h with portDeg := if b then h.portDeg ||| BitVec.ofNat 18 (2 ^ p) else h.portDeg &&& ~~~ BitVec.ofNat 18 (2 ^ p) }

/-- A port goes down: its streams go DOWN (R360). -/
def State.portDown (s : State) (p : Nat) : State :=
  let s := ((s.onPort p fun e => { e with state := 0, peerMid := 0, linkKey := 0 }).setPortDeg p true).reason 0x04
  (s.links.streams.filter fun x => decide (x.2.state = stUp) && x.2.port.toNat == p).foldl (fun s x => s.streamDown x.1 cEngine) s

/-- Lanes fail: with four to seven working the port runs on four, with fewer it goes down. -/
def execPortDegrade (port lanes : Nat) (s : State) : Out :=
  let st := s.portState port
  .next (if !s.fabricPort port || !(decide (st = 2) || decide (st = 3)) then s
    else if lanes < 4 then s.portDown port
    else if lanes < 8 ∧ st = 2 then ((s.onPort port fun e => { e with state := 3 }).setPortDeg port true).reason 0x03
    else s)

/-- A port trains: while it has found no module at its far end, `mid` 0, it is training; then it is up, knows that module, and gets
a link key (R358, R362). -/
def execPortTrained (port : Nat) (mid : BitVec 8) (s : State) : Out :=
  let st := s.portState port
  .next (if s.fabricPort port && (decide (st = 0) || decide (st = 1)) then
    if mid = 0 then s.onPort port fun e => { e with state := 1 }
    else
    let d := s.draw
    (d.2.onPort port fun e => { e with state := 2, peerMid := mid, linkKey := d.1, control := 0 }).setPortDeg port false
  else s)

/-- On the bridging module ports 0 and 1 report the state of the host link. -/
def execHostLinkStateChange (st : BitVec 2) (s : State) : Out :=
  .next (if Config.bridge then (s.onPort 0 fun e => { e with state := st, peerMid := 0 }).onPort 1 fun e => { e with state := st, peerMid := 0 }
    else s)

/-! ## Power (R381) -/

/-- The compute clock when nothing is capped (Table 15.1). -/
def Health.fullClock (h : Health) : Nat := if h.service = .full then 1800 else 1200

/-- One comparison of PWRW with CAPW. -/
def Health.capStep (h : Health) (pwr : BitVec 16) : Health :=
  let h := { h with pwrW := pwr }
  let clk := h.clkMhz.toNat
  if h.capW.toNat < pwr.toNat then
    if 900 < clk then { h with clkMhz := BitVec.ofNat 16 (max 900 (clk - 100)) } else { h with matrixHalf := true }
  else if pwr.toNat * 100 < 95 * h.capW.toNat then
    if h.matrixHalf then { h with matrixHalf := false }
    else { h with clkMhz := BitVec.ofNat 16 (min h.fullClock (clk + 100)) }
  else h

def execPowerCapCheck (pwr : BitVec 16) (s : State) : Out := .next (s.onHealth fun h => h.capStep pwr)

def execCapwWrite (w : BitVec 16) (s : State) : Out := .next (s.setCap w.toNat)

end Sys2Proof.Machine
end

