-- ==== Sys2Proof/Machine/AttachEvents.lean ====
section
/-!
DEFINITION. Drives and the host port (spec/14 R368 to R372): attachments, the TDIs of the virtual functions, and the SPDM
responder behind the DOE mailbox.
-/
namespace Sys2Proof.Machine

/-! ## Attachments (R372) -/

/-- An entry that holds a function and a drive slot. -/
def Attachment.holds (a : Attachment) : Bool := decide (a.state = 2) || decide (a.state = 3)

/-- Step 1: the enclave is RUNNING, its SLOT is free, and FUNC is not attached elsewhere. -/
def State.attachFree (s : State) (k : Nat) (a : Attachment) : Bool :=
  (match s.enclave? a.encid with | some e => decide (e.state = .running) | none => false)
    && s.links.attachments.all fun x => x.1 == k || !x.2.holds
      || (!(x.2.encid == a.encid && x.2.slot == a.slot) && !(x.2.port == a.port && x.2.func == a.func))

/-- ATTACH, with what the drive function answers to steps 2 to 5: REFUSED, or RUN with its block size and certificate. -/
def execAttach (k : Nat) (drive : DriveAnswer) (s : State) : Out :=
  let a := s.attachment k
  .next (if a.state ≠ 1 then s
    else if s.attachFree k a && drive.ok && (drive.lbas == 9 || drive.lbas == 12) then
      s.onAttachment k fun a => { a with state := 2, lbas := drive.lbas, certDig := (drive.certDigest ++ List.replicate 64 0).take 64 }
    else s.onAttachment k fun a => { a with state := 4 })

def execDetach (k : Nat) (s : State) : Out := .next (s.detach k)

def execAttachmentError (k : Nat) (s : State) : Out :=
  .next (if (s.attachment k).state = 2 then s.onAttachment k fun a => { a with state := 3 } else s)

/-! ## TDIs (R369) -/

def State.tdi (s : State) (vf : Nat) : TdiEntry := (alook s.links.tdis vf).getD {}
def State.setTdi (s : State) (vf : Nat) (t : TdiEntry) : State := { s with links := { s.links with tdis := aput s.links.tdis vf t } }

/-- A VF is enabled while a committed partition has it (R368). -/
def State.vfEnabled (s : State) (vf : Nat) : Bool := vf != 0 && s.layout.entries.any fun p => p.valid && p.vf == vf

/-- Where `n` bytes of BAR0 of a VF lie: the first 16 MiB of the host carve-out of the VF's partition, where its
frame belongs to owner 0 and they stay within 4 KiB (R288, R368; log 71). -/
def State.vfWindow (s : State) (vf off n : Nat) : Option Nat :=
  match s.layout.entries.find? fun p => p.valid && p.vf == vf with
  | none => none
  | some p =>
    let pa := s.redirect (frameAddr p.hbase + off)
    if vf ≠ 0 ∧ off + n ≤ min 0x1000000 (p.hostCo * 0x40000) ∧ off % 4096 + n ≤ 4096
      ∧ (s.potOf pa).state = .owned ∧ (s.potOf pa).owner = 0 then some pa else none

/-- Where a TLP writes: it changes no locked entry (R285). -/
def State.vfPlace (s : State) (vf off : Nat) (data : List Byte) : Option Nat :=
  if data = [] then none else (s.vfWindow vf off data.length).filter fun pa => !s.lockedWrite pa data

def State.vfWrite (s : State) (vf off : Nat) (data : List Byte) : State :=
  match s.vfPlace vf off data with
  | some pa => { s with mem := s.mem.hwWrite 4 (cellsAt pa data) }
  | none => s

/-- A TLP without data reads: from `off` to the end of its 4 KiB, of which the requester takes what it asked for; bytes that cannot
be read give none (R368; log 71). -/
def State.vfRead (s : State) (vf off : Nat) : State :=
  let n := 4096 - off % 4096
  let bs := match s.vfWindow vf off n with
    | some pa => if (s.spans (bv64 pa) n).any fun q => (badData s q.1.toNat).isSome then [] else s.mem.homeBytes pa n
    | none => []
  { s with links := { s.links with completion := bs } }

def State.vfAccess (s : State) (vf off : Nat) (data : List Byte) : State :=
  if data = [] then s.vfRead vf off else s.vfWrite vf off data

/-- The requester ID of an access to host memory: the VF of its partition; 0, PF0, for H agents and partitions without a VF
(R368). -/
def State.requester (s : State) (c : Ctx) : Nat := if c.host then 0 else (s.layout.entries.getD (s.partOf c.enc) {}).vf

/-- The selective IDE stream on which a VF emits while its TDI is in RUN (R369). -/
def State.emitStream (s : State) (vf : Nat) : Option Nat := if (s.tdi vf).state = .run then some (s.tdi vf).stream else none

/-- In RUN a TLP on a stream other than the one bound at lock is dropped, and the TDI goes to ERROR; a TDI in ERROR takes
none. There is a host port on the bridging module alone. -/
def execTdiTlpReceive (vf stream off : Nat) (data : List Byte) (s : State) : Out :=
  let t := s.tdi vf
  .next (if Config.bridge = false then s
  else if t.state = .run ∧ t.stream ≠ stream then
    { s.setTdi vf { t with state := .error } with
      links := { (s.setTdi vf { t with state := .error }).links with dropped := s.links.dropped + 1 } }
  else if t.state = .error then s else s.vfAccess vf off data)

/-- The selective IDE streams of the port (R369). -/
def ideStreams : Nat := 48

/-- What a TDISP message does to a TDI: lock, start, stop (log 24). -/
def TdiEntry.tdisp (t : TdiEntry) (op stream : Nat) : TdiEntry :=
  match op, t.state with
  | 1, .unlocked => if stream < ideStreams then { state := .locked, stream } else t
  | 2, .locked => { t with state := .run }
  | 3, _ => { state := .unlocked }
  | _, _ => t

/-- What an IDE_KM or TDISP message of a session asks: a key for one of the streams, or a change of an enabled VF's TDI (log 24). -/
def State.ideMessage (s : State) (b : List Byte) : State :=
  let q := Config.doeTdisp b
  if q.1 = 4 then
    if q.2.2 < ideStreams then { s with links := { s.links with ideKeys := aput s.links.ideKeys q.2.2 q.2.1 } } else s
  else if s.vfEnabled q.2.1 then s.setTdi q.2.1 ((s.tdi q.2.1).tdisp q.1 q.2.2) else s

def State.doeReply (s : State) (b : List Byte) : State := { s with rp := { s.rp with doeReply := b } }

/-- A message of the secure session with key `k`: FINISH completes the session; in it, END_SESSION, KEY_UPDATE, and IDE_KM and TDISP
(R370; log 24). -/
def State.doeSecured (s : State) (k : Nat) (b : List Byte) : State :=
  let t := s.doeReply (Config.doeAnswer k b)
  if (b.getD 1 0).toNat = 0xE5 then (if s.rp.doeUp then s.doeReply (spdmError 0x04 0) else { t with rp := { t.rp with doeUp := true } })
  else if !s.rp.doeUp then s.doeReply (spdmError 0x04 0)
  else match (b.getD 1 0).toNat with
    | 0xEC => { t with rp := { t.rp with doeKey := none, doeUp := false } }
    | 0xE9 => { t with rp := { t.rp with doeKey := some (Config.keyOf (shake32 (Config.keyBytes k ++ b))) } }
    | _ => t.ideMessage b

/-- A message outside a session, which the responder answers as endpoint 0 does, and KEY_EXCHANGE once the algorithms are agreed
(R370). -/
def State.doePlain (s : State) (b : List Byte) : State :=
  let code := (b.getD 1 0).toNat
  if code = 0xE4 then
    if s.rp.doe = 3 then
      let d := s.draw
      let k := Config.keyOf (Config.kemEncaps (Config.spdmKexKey b) d.1).2
      let a := Config.doeAnswer k b
      { d.2.doeReply (a ++ aliasSig s.rp.aliasKey (b ++ a)) with
        rp := { (d.2.doeReply (a ++ aliasSig s.rp.aliasKey (b ++ a))).rp with doeKey := some k, doeUp := false } }
    else s.doeReply (spdmError 0x04 0)
  else if !spdmSupported.contains code then s.doeReply (spdmError 0x07 code)
  else match spdmAnswer true s.rp.doe b s.rp.chain (s.deviceBlocks none) with
    | .error c => s.doeReply (spdmError c 0)
    | .ok (a, st) =>
      let t := s.doeReply (spdmReply s.rp.aliasKey b a)
      { t with rp := { t.rp with doe := st } }

/-- A message for the second responder (R370). -/
def execDoeSpdmMessage (msg : List Byte) (s : State) : Out :=
  .next (if Config.bridge = false then s
    else match s.rp.doeKey with
      | some k => match Config.doeOpen k msg with
        | some b => s.doeSecured k b
        | none => s.doePlain msg
      | none => s.doePlain msg)

end Sys2Proof.Machine
end

