-- ==== Sys2Proof/Machine/CopyEvents.lean ====
section
/-!
DEFINITION. COPY records (spec/07 R192; 14 R361, R366): their start, the landing of units on this module, and the sending
of DATA flits to a peer.
-/
namespace Sys2Proof.Machine

/-! ## Fields (Table 7.5) -/

def Rec.copyMode (r : Rec) : Nat := r.f 0 32 2
def Rec.rowLen (r : Rec) : Nat := if r.copyMode = 1 then r.f 0x20 0 32 else r.w 0x20
def Rec.copyLen (r : Rec) : Nat := if r.copyMode = 1 then r.f 0x20 0 32 * r.f 0x20 32 32 else r.w 0x20
/-- The peer module, none for this one (R357). -/
def Rec.peer (r : Rec) : Option Nat :=
  let p := r.f 0 40 8
  if p = 0 ∨ p = Config.mid.toNat then none else some p

/-- The address of byte `i` from a base, with the stride that stands at bit `lo` of 0x28. -/
def Rec.copyAt (r : Rec) (base lo i : Nat) : Word :=
  let st : Int := if r.copyMode = 1 then (BitVec.ofNat 32 (r.f 0x28 lo 32)).toInt else 0
  BitVec.ofInt 64 ((r.w base : Int) + (i / r.rowLen : Nat) * st + (i % r.rowLen : Nat))
def Rec.srcAt (r : Rec) (i : Nat) : Word := r.copyAt 0x10 0 i
def Rec.dstAt (r : Rec) (i : Nat) : Word := r.copyAt 0x18 32 i

/-- The `n` bytes from `i` on, cut at the ends of rows: start and length. -/
def rowCuts (row : Nat) : Nat → Nat → Nat → List (Nat × Nat)
  | 0, _, _ => []
  | k + 1, i, n => if n = 0 then [] else
    let c := min n (row - i % row)
    (i, c) :: rowCuts row k (i + c) (n - c)
def Rec.cuts (r : Rec) (i n : Nat) : List (Nat × Nat) := rowCuts r.rowLen n i n

/-! ## Start -/

/-- Whether an address names the local window (R242). -/
def inWindow (a : Nat) : Bool := decide (windowBase ≤ a) && decide (a < 2 ^ 57)

/-- A copy into a KV block pins it as a writer (R205); one to a peer finds its stream (R361), and may name no window there
(R243). -/
def copyStart (o : Op) : X Unit := do
  let r := o.record
  let go := fun (f : Op → Op) => X.update fun s => s.onOp o.id fun o => { f o with started := true }
  if r.copyMode = 2 then do
    let p ← B.step o.ctx 6 (resolveBlock o.ctx (bv64 (r.w 0x38)) true)
    match p with
    | .ok t i d n =>
      if n < r.w 0x18 + r.w 0x20 then openFault cEngine
      else go fun o => { o with pin := some (t, i), blocks := [(t, i, d.addr, n)] }
    | .wait => pure ()
    | .fault => openFault cEngine
  else match r.peer with
    | none => go id
    | some m => do
      X.check (!(inWindow (r.w 0x18) || (r.f 0 34 1 == 1 && inWindow (r.w 0x30)))) cEngine (bv64 (if inWindow (r.w 0x18) then r.w 0x18 else r.w 0x30))
      let s ← get
      match s.streamTo o.enc m with
      | some (k, _) => do
        set { s with nextId := s.nextId + 1 }
        go fun o => { o with stream := some k, rectag := s.nextId % 2 ^ 48, sent := o.progress }
      | none => openFault cEngine

def State.startRecord (s : State) (e : BitVec 16) (queue kind die : Nat) (r : Rec) (start : Op → X Unit) : State :=
  let t := s.takeRecord e queue kind die r
  let u := t.2.acquire die 6 r.clock
  match u.op? t.1 with
  | some o => u.opEvent t.1 (start o)
  | none => u

/-- The oldest record of a queue of a kind whose enclave may use its engines (10 R257, R275). -/
def State.headRecord (s : State) (e : BitVec 16) (queue kind : Nat) : Option Rec :=
  match s.enclave? e, s.queue? e queue with
  | some x, some q => if q.kind = kind ∧ s.hasSlice x = true then q.hw.head? else none
  | _, _ => none

def execCopyRecordStart (enc queue : Nat) (s : State) : Out :=
  let e := BitVec.ofNat 16 enc
  .next (match s.headRecord e queue 1 with
    | some r => if s.dieLive r.die then s.startRecord e queue 1 r.die r copyStart else s
    | none => s)

/-! ## A unit lands on this module -/

/-- Bytes at a physical address, cut at frames (R307: at lines, while a migration runs). -/
def physWriteAll (c : Ctx) (pa : Nat) (bs : List Byte) : X Unit := do
  let s ← get
  (s.spans (bv64 pa) bs.length).forM fun q => physWrite c q.1.toNat ((bs.drop (q.1.toNat - pa)).take q.2)

def copyWrite (o : Op) (i : Nat) (bs : List Byte) : X Unit :=
  if o.record.copyMode = 2 then
    match o.blocks with
    | b :: _ => physWriteAll o.ctx (b.2.2.1 + o.record.w 0x18 + i) bs
    | [] => openFault cEngine
  else (o.record.cuts i bs.length).forM fun q => writeVa o.ctx (o.record.dstAt q.1) ((bs.drop (q.1 - i)).take q.2)

/-- The next 256 bytes, with their arrivals; the copy ends after the last. -/
def copyUnit (o : Op) : X Unit := do
  let r := o.record
  let n := min 256 (r.copyLen - o.progress)
  let isLast := decide (r.copyLen ≤ o.progress + n)
  let bs ← (r.cuts o.progress n).mapM fun q => readVa o.ctx (r.srcAt q.1) q.2
  copyWrite o o.progress bs.flatten
  let s ← get
  if r.f 0 34 1 = 1 then arriveBytes o.ctx (bv64 (r.w 0x30)) (r.f 0 35 1 == 1) (r.f 0 36 4) (s.partOf o.enc) n isLast
  X.update fun s => s.onOp o.id fun o => { o with progress := o.progress + n }
  if isLast then do
    match o.pin with
    | some (t, i) => unpinBlock o.ctx t i
    | none => pure ()
    X.update fun s => (s.endWork o.id 0).onOp o.id fun o => { o with pin := none, blocks := [] }

/-! ## A flit to a peer (Table 14.5) -/

def dataPayload (r : Rec) (tag dst n : Nat) (isLast : Bool) (bs : List Byte) : List Byte :=
  natBytes dst 8
    ++ natBytes (n + r.f 0 34 1 * 2 ^ 8 + r.f 0 35 1 * 2 ^ 9 + bit isLast 10 + r.f 0 36 4 * 2 ^ 12 + tag * 2 ^ 16) 8
    ++ natBytes (r.w 0x30) 8 ++ natBytes 0 8 ++ bs

/-- Seals the next bytes of a copy into a flit; a row ends a flit. -/
def copySend (o : Op) (k : Nat) : X Unit := do
  let r := o.record
  let n := min (min 192 (r.copyLen - o.sent)) (r.rowLen - o.sent % r.rowLen)
  let isLast := decide (r.copyLen ≤ o.sent + n)
  let bs ← readVa o.ctx (r.srcAt o.sent) n
  X.update fun s => (s.sendFlit k tData (dataPayload r o.rectag (r.dstAt o.sent).toNat n isLast bs) (some o.id) n isLast).onOp o.id
    fun o => { o with sent := o.sent + n }

/-- A copy to a peer hands its next flit to the stream. A fault of its source suspends it once every flit that it has sent is
acknowledged, so that PROGRESS is exact (R304); while its enclave comes to rest for a migration it sends none (13 R354). -/
def State.copyFlit (s : State) (o : Op) (k : Nat) : State :=
  if o.record.copyLen ≤ o.sent ∨ s.canSend k = false ∨ (s.enclave? o.enc).any Enclave.stopping = true then s
  else match copySend o k s with
    | .error (.trap ..) _ => if o.sent = o.progress then s.opEvent o.id (copySend o k) else s
    | _ => s.opEvent o.id (copySend o k)

def State.copyStep (s : State) (o : Op) : State :=
  if !o.started then s.opEvent o.id (copyStart o)
  else match o.record.peer with
    | none => s.opEvent o.id (copyUnit o)
    | some _ =>
      match o.stream with
      | some k => s.copyFlit o k
      | none => s.opEvent o.id (copyStart o)

def execCopyUnitLands (op : Nat) (s : State) : Out :=
  .next (match s.op? op with
    | some o => if o.kind = .record 1 ∧ o.live = true then s.copyStep o else s
    | none => s)

end Sys2Proof.Machine
end

