-- ==== Sys2Proof/Machine/LaneCross.lean ====
section
/-!
DEFINITION. Row-relative and group-wide lane instructions: moves, canonical scans and reductions (spec/05 R139 to R147).
-/
namespace Sys2Proof.Machine

/-! ## Moves (R139, R146) -/

/-- A result of the per-thread class, tagged G. -/
def moveForm (i : Instr) (f : Lane) (ok : Agent → Bool) (r : LaneCtx → Nat → Nat) (s : State) : Out :=
  issueLane i f ok (some .xlane) (fun c => (c.putG false f.vd.toNat (r c), 0)) s

/-- The first thread of a thread's row, and its lane in it. -/
def LaneCtx.rowBase (c : LaneCtx) (t : Nat) : Nat := t / c.w * c.w

def execRshuf (f : Lane) (s : State) : Out :=
  moveForm (.rshuf f) f noCheck (fun c t => (c.srcA false f).get (c.rowBase t + (c.srcB false f).get t % c.w)) s
def execRshift (f : Lane) (s : State) : Out :=
  moveForm (.rshift f) f noCheck (fun c t =>
    let l : Int := (t % c.w : Nat) - (f.imm.extractLsb' 0 8).toInt
    if 0 ≤ l ∧ l < c.w then (c.srcA false f).get (c.rowBase t + l.toNat) else (c.srcB false f).get t) s
def execRbcast (f : Lane) (s : State) : Out :=
  moveForm (.rbcast f) f noCheck (fun c t => (c.srcA false f).get (c.rowBase t + f.imm.toNat % 64 % c.w)) s
def execGperm (f : Lane) (s : State) : Out :=
  moveForm (.gperm f) f noCheck (fun c t => (c.srcA false f).get ((c.srcB false f).get t % c.g)) s

/-- R146: an index at or above G is illegal; the result is U under an all-live mask. -/
def execGbcast (f : Lane) (s : State) : Out :=
  issueLane (.gbcast f) f (fun a => decide (f.imm.toNat % 1024 < a.gsize)) (some .xlane) (fun c =>
    ([c.put f.vd.toNat (.u (BitVec.ofNat 32 ((c.srcA false f).get (f.imm.toNat % 1024))))], 0)) s

/-! ## Combine and the canonical tree (R142 to R145) -/

/-- The operation and type of a scan or reduction (R52). -/
structure RedOp where
  op : Nat
  ty : CTy
  mode : RMode
  inFlush : Bool

def LaneCtx.redOp (c : LaneCtx) (f : Lane) : RedOp :=
  let t := (redType f.imm).getD .i32
  let m := CTy.fmt t 0
  { op := (f.imm.extractLsb' 0 3).toNat, ty := t, mode := c.mode f m, inFlush := c.fz f m || flushIn c.flush m }

/-- Combine of one floating-point element. -/
def RedOp.combineElem (r : RedOp) (l h : Nat) : Nat × Flags :=
  let m := CTy.fmt r.ty 0
  let a := m.read r.inFlush l
  let b := m.read r.inFlush h
  let v := match r.op with | 0 => FV.add r.mode.rm a b | 1 => (a.min2 b, 0) | _ => (a.max2 b, 0)
  let x := roundTo m v.1 r.mode
  (x.1, v.2 ||| x.2)

def RedOp.combine (r : RedOp) (l h : Nat) : Nat × Flags :=
  if r.ty.isInt then
    let w := CTy.width r.ty
    let sg := CTy.signed r.ty
    (match r.op with
      | 0 => wrapNat w (l + h) | 1 => minBy sg w l h | 2 => maxBy sg w l h
      | 3 => l &&& h | 4 => l ||| h | _ => l ^^^ h, 0)
  else
    let w := (CTy.fmt r.ty 0).width
    packElems w (fun k => r.combineElem (elemOf w k l) (elemOf w k h)) (32 / w)

/-- Identity(op, t), in both elements of a word of 16-bit types. -/
def RedOp.identity (r : RedOp) : Nat :=
  if r.ty.isInt then
    let w := CTy.width r.ty
    match r.op with
    | 1 => if CTy.signed r.ty then 2 ^ (w - 1) - 1 else 2 ^ w - 1
    | 2 => if CTy.signed r.ty then 2 ^ (w - 1) else 0
    | 3 => 2 ^ w - 1
    | _ => 0
  else
    let m := CTy.fmt r.ty 0
    let x := match r.op with | 0 => 0 | 1 => m.infCode false | _ => m.infCode true
    (packElems m.width (fun _ => (x, 0)) (32 / m.width)).1

/-- A value that no Combine has joined with another: its NaNs are canonical (R66). DESIGN CHOICE: neither FLUSH nor FZ flushes a
subnormal of it, since Join hands it over as it stands (R143; log 85). -/
def RedOp.lone (r : RedOp) (a : Nat) : Nat :=
  if r.ty.isInt then a
  else
    let m := CTy.fmt r.ty 0
    let clean := fun k => let e := elemOf m.width k a; (if m.decode e = .nan then m.nanCode else e, (0 : Flags))
    (packElems m.width clean (32 / m.width)).1

/-- A partial result: the value, ABSENT where no live thread has contributed, and the flags so far (R143). -/
abbrev Part := Option Nat × Flags

def RedOp.join (r : RedOp) (l h : Part) : Part :=
  match l.1, h.1 with
  | some a, some b => let x := r.combine a b; (some x.1, l.2 ||| h.2 ||| x.2)
  | some a, none => (some (r.lone a), l.2 ||| h.2)
  | none, b => (b.map r.lone, l.2 ||| h.2)

/-- TreeReduce over the 2^k indices from `lo` (R144). -/
def RedOp.tree (r : RedOp) (x : Nat → Option Nat) : Nat → Nat → Part
  | 0, lo => (x lo, 0)
  | k + 1, lo => r.join (r.tree x k lo) (r.tree x k (lo + 2 ^ k))

/-- Prefix over the `m` indices from `base`, by the bits of m below 2^k, highest first (R145). -/
def RedOp.prefixGo (r : RedOp) (x : Nat → Option Nat) (m : Nat) : Nat → Nat → Part → Part
  | 0, _, acc => acc
  | k + 1, base, acc =>
    if m.testBit k then r.prefixGo x m k (base + 2 ^ k) (r.join acc (r.tree x k base)) else r.prefixGo x m k base acc
def RedOp.prefix (r : RedOp) (x : Nat → Option Nat) (lo m : Nat) : Part := r.prefixGo x m 11 lo (none, 0)

/-- The value of a thread at an index (R143). -/
def LaneCtx.contrib (c : LaneCtx) (a : Src) (t : Nat) : Option Nat := if c.isLive t then some (a.get t) else none

def Part.value (p : Part) (r : RedOp) : Nat := p.1.getD r.identity

/-- The rows of the group: the first thread of each. -/
def LaneCtx.rows (c : LaneCtx) : List Nat := (List.range (c.g / c.w)).map (· * c.w)

def orFlags (l : List Part) : Flags := l.foldl (fun f p => f ||| p.2) 0

/-! ## Scans (R140, R146) -/

/-- A scan over blocks of `n` threads: a block is a row, or the whole group. Flags of the joins that make a live
thread's result. -/
def scanForm (i : Instr) (f : Lane) (block : LaneCtx → Nat) (s : State) : Out :=
  issueLane i f noCheck (some .xlane) (fun c =>
    let r := c.redOp f
    let pair := redPair f.imm
    let a := c.srcA pair f
    let n := block c
    let excl := f.imm.getLsbD 8
    let ps := (List.range c.g).map fun t =>
      if c.isLive t then r.prefix (c.contrib a) (t / n * n) (t % n + if excl then 0 else 1) else (none, 0)
    (c.putG pair f.vd.toNat fun t => (ps.getD t (none, 0)).value r, orFlags ps)) s

def execRscan (f : Lane) (s : State) : Out := scanForm (.rscan f) f (·.w) s
def execGscan (f : Lane) (s : State) : Out := scanForm (.gscan f) f (·.g) s

/-! ## Reductions (R140, R141, R146, R147) -/

/-- The reduction of the block of 2^k threads from `lo`. -/
def LaneCtx.reduce (c : LaneCtx) (f : Lane) (lo n : Nat) : Part :=
  (c.redOp f).tree (c.contrib (c.srcA (redPair f.imm) f)) (Nat.log2 n) lo

def execRred (f : Lane) (s : State) : Out :=
  issueLane (.rred f) f noCheck (some .xlane) (fun c =>
    let ps := c.rows.map fun lo => c.reduce f lo c.w
    (c.putG (redPair f.imm) f.vd.toNat fun t => (ps.getD (t / c.w) (none, 0)).value (c.redOp f), orFlags ps)) s

/-- Under an all-live mask a `gred` result is U (Table 1.3). -/
def execGred (f : Lane) (s : State) : Out :=
  issueLane (.gred f) f noCheck (some .xlane) (fun c =>
    let p := c.reduce f 0 c.g
    (c.putW (redPair f.imm) f.vd.toNat true fun _ => p.value (c.redOp f), p.2)) s

/-- The 64-bit value that a q register receives (R147). -/
def qValue (t : CTy) (x : Nat) : Word := match t with | .i32 => sext 32 x | _ => bv64 x

def execRredQ (f : Lane) (s : State) : Out :=
  issueLane (.rredQ f) f noCheck (some .xlane) (fun c =>
    let r := c.redOp f
    let ps := c.rows.map fun lo => c.reduce f lo c.w
    (ps.map fun p => .q (f.vd.toNat % 4) (qValue r.ty (p.value r)), orFlags ps)) s
def execGredQ (f : Lane) (s : State) : Out :=
  issueLane (.gredQ f) f noCheck (some .xlane) (fun c =>
    let r := c.redOp f
    let p := c.reduce f 0 c.g
    ([.q (f.vd.toNat % 4) (qValue r.ty (p.value r))], p.2)) s

end Sys2Proof.Machine
end

