-- ==== Sys2Proof/Machine/CollEvents.lean ====
section
/-!
DEFINITION. COLL records: the rendezvous (spec/13 R350, R351), and the reduction by the canonical tree (07 R194).
-/
namespace Sys2Proof.Machine

/-! ## Fields (Table 7.9) -/

def Rec.collOp (r : Rec) : Nat := r.f 0 32 3
def Rec.redop (r : Rec) : Nat := r.f 0 35 3
def Rec.collType (r : Rec) : Nat := r.f 0 40 3
def Rec.collLen (r : Rec) : Nat := r.w 0x20
def Rec.nmem (r : Rec) : Nat := r.f 0x28 0 8
def Rec.rank (r : Rec) : Nat := r.f 0x28 8 8
def Rec.other (r : Rec) : Nat := r.f 0x28 16 8
def Rec.lgen (r : Rec) : Nat := r.f 0x28 32 32

/-- The module of a rank, by the table that the engine has read. -/
def Op.member (o : Op) (rank : Nat) : Nat := (((alook o.entries 0).getD []).getD rank 0).toNat

def State.tenantTag (s : State) (e : BitVec 16) : BitVec 64 := (s.layout.entries.getD (s.partOf e) {}).tenantTag

/-! ## COLL_RENDEZVOUS (R350) -/

/-- The verdict at the moment of sending. -/
def State.verdict (s : State) (o : Op) : Verdict :=
  if o.record.lgen ≠ s.layout.gen.toNat % 2 ^ 32 then .stale
  else match s.enclave? o.enc with
    | some e => if s.hasSlice e then .ready else .wait
    | none => .wait

def State.rdvFlit (s : State) (o : Op) (v : Verdict) : RdvFlit :=
  let r := o.record
  { tag := s.tenantTag o.enc, sigval := bv64 r.sigval, op := BitVec.ofNat 3 r.collOp, redop := BitVec.ofNat 3 r.redop
    typ := BitVec.ofNat 3 r.collType, len := r.collLen, nmem := r.nmem, rank := r.rank, verdict := v }

/-- The streams toward every other member; none where one of them is missing (R361). -/
def State.memberStreams (s : State) (o : Op) : Option (List Nat) :=
  ((List.range o.record.nmem).filter (· != o.record.rank)).mapM fun k => (s.streamTo o.enc (o.member k)).map (·.1)

def verdictNum : Verdict → Nat | .ready => 0 | .stale => 1 | .wait => 2 | .abandon => 3
def verdictOf (n : Nat) : Verdict := match n % 4 with | 0 => .ready | 1 => .stale | 2 => .wait | _ => .abandon

/-- The payload of a rendezvous flit: the fields of R350, whose layout is the model's (log 22). -/
def rdvBytes (f : RdvFlit) : List Byte :=
  natBytes f.tag.toNat 8 ++ natBytes f.sigval.toNat 8
    ++ natBytes (f.op.toNat + f.redop.toNat * 8 + f.typ.toNat * 2 ^ 6 + verdictNum f.verdict * 2 ^ 9 + f.nmem % 256 * 2 ^ 16 + f.rank % 256 * 2 ^ 24) 8
    ++ natBytes f.len 8
def rdvOf (b : List Byte) : RdvFlit :=
  let w := wordAt b 0x10
  { tag := bv64 (wordAt b 0), sigval := bv64 (wordAt b 8), op := BitVec.ofNat 3 w, redop := BitVec.ofNat 3 (w / 8)
    typ := BitVec.ofNat 3 (w / 2 ^ 6), verdict := verdictOf (fieldN w 9 2), nmem := fieldN w 16 8, rank := fieldN w 24 8
    len := wordAt b 0x18 }

/-- A rendezvous flit goes to a stream, or waits behind those that have no room there yet. -/
def State.sendRdv (s : State) (k : Nat) (f : RdvFlit) : State :=
  if s.canSend k && !(s.links.rdvOut.any fun x => x.1 == k) then s.sendFlit k tRdv (rdvBytes f)
  else { s with links := { s.links with rdvOut := s.links.rdvOut ++ [(k, f)] } }

/-- The rendezvous flits that wait are sent, as far as there is room. -/
def State.flushRdv (s : State) : State :=
  s.links.rdvOut.foldl (fun s x => s.sendRdv x.1 x.2) { s with links := { s.links with rdvOut := [] } }

/-- The flits that a member holds for a collective of its own: those of its enclave's streams with its tag and number,
and its own. -/
def State.heldFlits (s : State) (o : Op) : List (Nat × RdvFlit) :=
  o.rdv.map (fun f => (o.member o.record.rank, f)) ++
    (s.links.rdvIn.filter fun x => (s.stream x.1).lenc == o.enc && x.2.tag == s.tenantTag o.enc && x.2.sigval.toNat == o.record.sigval).map
      fun x => ((s.stream x.1).pmid.toNat, x.2)

/-- Send and receive are the two sides of one operation. -/
def sameOp (a b : BitVec 3) : Bool := a == b || (decide (3 ≤ a.toNat) && decide (3 ≤ b.toNat))

def State.sameParams (s : State) (o : Op) (f : RdvFlit) : Bool :=
  let g := s.rdvFlit o .ready
  sameOp f.op g.op && f.redop == g.redop && f.typ == g.typ && f.len == g.len && f.nmem == g.nmem

/-- A collective ends, and the flits held for it are dropped. -/
def State.endColl (s : State) (o : Op) (c : Cause) : State :=
  let t := s.endWork o.id c
  { t with links := { t.links with rdvIn := t.links.rdvIn.filter fun x =>
      !((s.stream x.1).lenc == o.enc && x.2.tag == s.tenantTag o.enc && x.2.sigval.toNat == o.record.sigval) } }

/-! ## The result (R194) -/

def collCTy (t : Nat) : CTy := match t with | 0 => .f32 | 1 => .bf16 | 2 => .f16 | 3 => .i32 | _ => .n32

/-- One element of the result over the ranks, padded with ABSENT members. -/
def reduceElem (r : Rec) (x : Nat → Nat) : Nat :=
  let t := collCTy r.collType
  let op : RedOp := { op := r.redop, ty := t, mode := { rm := 0 }, inFlush := false }
  let k := Nat.log2 (2 * r.nmem - 1)
  let w := collSize r.collType
  let v := (op.tree (fun i => if i < r.nmem then some (x i) else none) k 0).1.getD 0
  v % 2 ^ (8 * w)

/-- The elements of the result from `off` on in every contribution. -/
def reduceBytes (r : Rec) (c : Nat → List Byte) (off n : Nat) : List Byte :=
  let w := collSize r.collType
  ((List.range (n / w)).map fun i =>
    natBytes (reduceElem r fun rank => bytesNat (((c rank).drop (off + w * i)).take w)) w).flatten

/-- What a member writes to DST: `c` gives each rank's contribution to it, LEN bytes (log 23). -/
def collResult (r : Rec) (c : Nat → List Byte) : List Byte :=
  match r.collOp with
  | 0 | 2 => reduceBytes r c 0 r.collLen
  | 1 => ((List.range r.nmem).map c).flatten
  | 3 => []
  | _ => c r.other

/-- Where in SRC a member's contribution to a rank begins: a reduce-scatter's SRC holds a share for every rank. -/
def Rec.shareAt (r : Rec) (rank : Nat) : Nat := if r.collOp = 2 then rank * r.collLen else 0

def Rec.others (r : Rec) : List Nat := (List.range r.nmem).filter (· != r.rank)
/-- The ranks that a member sends its contribution to, and those that it waits for. -/
def Rec.feeds (r : Rec) : List Nat := match r.collOp with | 3 => [r.other] | 4 => [] | _ => r.others
def Rec.needs (r : Rec) : List Nat := match r.collOp with | 3 => [] | 4 => [r.other] | _ => r.others

/-- The contribution of a rank that a member holds. -/
def Op.part (o : Op) (rank : Nat) : List Byte := (alook o.parts rank).getD []

/-- Writes the result from PROGRESS on, 256 bytes at a time. -/
def collWrite (o : Op) (bs : List Byte) : Nat → Nat → X Unit
  | 0, _ => pure ()
  | k + 1, i => do
    let r ← X.attempt (writeVa o.ctx (bv64 (o.record.w 0x18 + i)) ((bs.drop i).take 256))
    match r with
    | .ok _ => do
      X.update fun s => s.onOp o.id fun o => { o with progress := min bs.length (i + 256) }
      collWrite o bs k (i + 256)
    | .error (.trap c v _) => X.update fun s => s.faultOp o.id c v
    | .error e => throw e

/-- The payload of a DATA flit of a collective: DST is the offset in the contribution, and SIGVAL the record tag (log 23). -/
def collPayload (r : Rec) (off n : Nat) (bs : List Byte) : List Byte :=
  natBytes off 8 ++ natBytes (n + bit (decide (r.collLen ≤ off + n)) 10 + 2 ^ 11 + r.sigval % 2 ^ 48 * 2 ^ 16) 8
    ++ natBytes 0 16 ++ bs

/-- The next flit of a member's contribution; `sent` counts the bytes sent over the ranks that it feeds, `progress` those that
have been acknowledged. It goes on to a rank when the one before has acknowledged all, so that the count is contiguous (14
R365; log 23). -/
def collFlit (o : Op) : X Unit := do
  let r := o.record
  let s ← get
  let rank := r.feeds.getD (o.sent / r.collLen) 0
  let off := o.sent % r.collLen
  if off = 0 ∧ s.unacked o.id = true then pure () else
  let n := min 192 (r.collLen - off)
  match alook (r.others.zip o.streams) rank with
  | none => openFault cEngine
  | some k =>
    if s.canSend k then do
      let bs ← readVa o.ctx (bv64 (r.w 0x10 + r.shareAt rank + off)) n
      X.update fun s => (s.sendFlit k tData (collPayload r off n bs) (some o.id) n (decide (r.collLen ≤ off + n))).onOp o.id
        fun o => { o with sent := o.sent + n }

/-- The result, from the contributions and the member's own; PROGRESS counts the bytes of it from here on. -/
def collReduce (o : Op) : X Unit := do
  let r := o.record
  let own ← if r.collOp = 4 then pure [] else readVa o.ctx (bv64 (r.w 0x10 + r.shareAt r.rank)) r.collLen
  let c := fun k => if k = r.rank then own else (o.part k).take r.collLen
  X.update fun s => s.onOp o.id fun o => { o with result := some (collResult r c), progress := 0 }

/-- Writes the result, and ends the collective. -/
def collStore (o : Op) (bs : List Byte) : X Unit := do
  collWrite o bs ((bs.length - o.progress + 255) / 256) o.progress
  let s ← get
  match s.op? o.id with
  | some p => if p.live then set (s.endColl o 0)
  | none => pure ()

/-- A started collective goes on: it sends its contribution; once every contribution has come and its own has been acknowledged
it combines them, and then writes DST (log 23). -/
def collRun (o : Op) : X Unit := do
  let s ← get
  match o.result with
  | some bs => collStore o bs
  | none =>
    if o.streams.isEmpty then
      match s.memberStreams o with
      | none => openFault cEngine
      | some ks => if s.unacked o.id then pure () else X.update fun s => s.onOp o.id fun o => { o with streams := ks, sent := o.progress }
    else if o.sent < o.record.feeds.length * o.record.collLen then collFlit o
    else if o.record.needs.all (fun k => decide (o.record.collLen ≤ (o.part k).length)) && !s.unacked o.id then collReduce o
    else pure ()

def State.collStep (s : State) (id : Nat) : State :=
  match s.op? id with
  | some o => if o.live && o.started && decide (o.kind = .record 4) then s.opEvent id (collRun o) else s
  | none => s

/-- The collective of a DATA flit with COLL = 1: that of the stream's enclave with its number, and the rank of the sender. -/
def State.collOf (s : State) (k : Nat) (b : List Byte) : Option (Op × Nat) :=
  let st := s.stream k
  (s.ops.filter fun o => decide (o.kind = .record 4) && decide (o.state ≠ .done) && o.enc == st.lenc
      && o.record.sigval % 2 ^ 48 == fieldN (wordAt b 8) 16 48).findSome? fun o =>
    (o.record.others.find? fun j => o.member j == st.pmid.toNat).map fun j => (o, j)

/-- A piece of a contribution takes its place after what has come before. -/
def State.takeColl (s : State) (k : Nat) (b : List Byte) : State :=
  match s.collOf k b with
  | some (o, j) =>
    let off := wordAt b 0
    let n := fieldN (wordAt b 8) 0 8
    let put := fun (p : List Byte) => if off ≤ p.length then p.take off ++ (b.drop 0x20).take n ++ p.drop (off + n) else p
    (s.onOp o.id fun o => { o with parts := aput o.parts j (put (o.part j)) }).collStep o.id
  | none => s

/-! ## How a member proceeds (R351) -/

def State.collDecide (s : State) (id : Nat) : State :=
  match s.op? id with
  | none => s
  | some o =>
    if !(o.live && decide (o.kind = .record 4)) then s
    else if o.started then
      if (s.heldFlits o).any fun x => decide (x.2.verdict = .abandon) then s.endColl o cEngine else s.collStep id
    else
      let fs := s.heldFlits o
      let readyFrom := fun k => fs.any fun x => x.1 == o.member k && x.2.rank == k && decide (x.2.verdict = .ready)
      if o.rdv.isEmpty then s
      else if fs.any fun x => decide (x.2.verdict = .abandon) then s.endColl o cEngine
      else if fs.any fun x => decide (x.2.verdict = .stale) then s.endColl o cLayoutStale
      else if fs.any fun x => !s.sameParams o x.2 then s.endColl o cEngine
      else if (List.range o.record.nmem).all readyFrom then
        (s.onOp id fun o => { o with started := true }).collStep id
      else s

/-- What the engine sends: its verdict at this moment, and once it has sent another than WAIT the same again (log 83). -/
def State.rdvNow (s : State) (o : Op) : RdvFlit :=
  match o.rdv with
  | [f] => if f.verdict = .wait then s.rdvFlit o (s.verdict o) else f
  | _ => s.rdvFlit o (s.verdict o)

/-- The engine reads MEMBERS, and sends its flit to every other member; a missing stream suspends the record. -/
def collSend (o : Op) : X Unit := do
  if (alook o.entries 0).isNone then do
    let bs ← readVa o.ctx (bv64 (o.record.w 0x30)) o.record.nmem
    X.update fun s => s.onOp o.id fun o => { o with entries := [(0, bs)] }
  let s ← get
  match s.op? o.id with
  | none => pure ()
  | some o =>
    match s.memberStreams o with
    | none => openFault cEngine
    | some ks =>
      if ks.all s.canSend then do
        let f := s.rdvNow o
        let t := ks.foldl (fun s k => s.sendRdv k f) s
        set (t.onOp o.id fun o => { o with rdv := [f], streams := ks })

/-- Whether a member sends its flit: it has not sent one since it began or was resumed, or it holds WAIT (R351). -/
def State.mustSend (s : State) (o : Op) : Bool :=
  o.streams.isEmpty || (s.heldFlits o).any fun x => decide (x.2.verdict = .wait)

def State.rendezvous (s : State) (id : Nat) : State :=
  match s.op? id with
  | some o => if o.live && !o.started && s.mustSend o then (s.opEvent id (collSend o)).collDecide id else s.collDecide id
  | none => s

/-- The collective engine sends, again for an operation that stands (a retry of WAIT, a resumption), else for the record at
the head of the queue. -/
def execCollRendezvous (enc queue op : Nat) (s : State) : Out :=
  let e := BitVec.ofNat 16 enc
  .next (match s.op? op with
    | some o => if o.kind = .record 4 then s.rendezvous op else s
    | none =>
      match s.headRecord e queue 4 with
      | some r =>
        let d := s.draw
        let die := 4 + d.1 % 2
        let t := d.2.takeRecord e queue 4 die r
        (t.2.acquire die 6 r.clock).rendezvous t.1
      | none => s)

/-! ## RDV_FLIT_RECEIVE and RDVTO_EXPIRY -/

/-- The flit from a stream replaces an earlier one of its rank and number. -/
def State.holdRdv (s : State) (k : Nat) (f : RdvFlit) : State :=
  let l := s.links.rdvIn.filter fun x => !(x.1 == k && x.2.tag == f.tag && x.2.sigval == f.sigval && x.2.rank == f.rank)
  { s with links := { s.links with rdvIn := l ++ [(k, f)] } }

/-- A rendezvous flit takes effect by the fields of its payload; the instruction's second operand only names them. -/
def execRdvFlitReceive (flit : Flit) (_ : RdvFlit) (s : State) : Out :=
  .next (if flit.typ = tRdv then
      s.receive flit fun s k b =>
        let t := s.holdRdv k (rdvOf b)
        some ((t.ops.map (·.id)).foldl (fun s id =>
          match s.op? id with
          | some o => if o.kind = .record 4 then s.collDecide id else s
          | none => s) t)
    else s)

/-- RDVTO expires before the collective has started: the member completes with ENGINE and tells the others. -/
def execRdvtoExpiry (op : Nat) (s : State) : Out :=
  .next (match s.op? op with
    | some o =>
      if o.kind = .record 4 ∧ o.live = true ∧ !o.started ∧ (s.layout.entries.getD (s.partOf o.enc) {}).rdvto ≠ 0 then
        let f := s.rdvFlit o .abandon
        let t := ((s.memberStreams o).getD []).foldl (fun s k => s.sendRdv k f) s
        t.endColl o cEngine
      else s
    | none => s)

end Sys2Proof.Machine
end

