-- ==== Sys2Proof/Machine/Illegal.lean ====
section
/-!
DEFINITION. Words that name no instruction (02 R53 to R55).
-/
namespace Sys2Proof.Machine

/-- A scalar word or a lane instruction that names no instruction issues and raises ILLEGAL (R54): XVAL receives the word,
or bits [95:32] of the lane instruction; of a lane block the rest is dropped. -/
def execIllegalEncoding (lane : Bool) (bits : BitVec 96) (s : State) : Out :=
  if lane then .next (laneTrap s s cIllegal (bits.extractLsb' 32 64) s.cur.laneAddr 0 none)
  else trapOut s cIllegal ((bits.setWidth 32).setWidth 64)

end Sys2Proof.Machine
end

