-- ==== Sys2Proof/Machine/LaneMask.lean ====
section
/-!
DEFINITION. Mask operations (spec/05 R138).
-/
namespace Sys2Proof.Machine

/-- A mask result from the bits of its sources. -/
def maskForm (i : Instr) (f : Lane) (op : Mask → Mask → Mask) (s : State) : Out :=
  issueLane i f noCheck none (fun c =>
    ([.mask (f.vd.toNat % 16) c.live (op (c.maskOf f.va) (c.maskOf f.vb) &&& allLive c.g)], 0)) s

def execMand (f : Lane) (s : State) : Out := maskForm (.mand f) f (fun a b => a &&& b) s
def execMor (f : Lane) (s : State) : Out := maskForm (.mor f) f (fun a b => a ||| b) s
def execMxor (f : Lane) (s : State) : Out := maskForm (.mxor f) f (fun a b => a ^^^ b) s
def execMnot (f : Lane) (s : State) : Out := maskForm (.mnot f) f (fun a _ => ~~~ a) s
def execMmov (f : Lane) (s : State) : Out := maskForm (.mmov f) f (fun a _ => a) s

def execMcnt (f : Lane) (s : State) : Out :=
  issueLane (.mcnt f) f noCheck none (fun c =>
    let m := c.maskOf f.va &&& c.live
    let n := ((List.range c.g).filter m.getLsbD).length
    ([c.put f.vd.toNat (.u (BitVec.ofNat 32 n))], 0)) s

def execMfirst (f : Lane) (s : State) : Out :=
  issueLane (.mfirst f) f noCheck none (fun c =>
    let m := c.maskOf f.va &&& c.live
    let k := (List.range c.g).find? m.getLsbD
    (c.putMask f.vd fun t => k == some t, 0)) s

def execMfrom (f : Lane) (s : State) : Out :=
  issueLane (.mfrom f) f noCheck none (fun c =>
    let a := c.srcA false f
    (c.putMask f.vd fun t => a.get t != 0, 0)) s

end Sys2Proof.Machine
end

