-- ==== Sys2Proof/Machine/MemEvents.lean ====
section
/-!
DEFINITION. Steps of the memory system of their own (spec/09 R241, R246 to R249; 00 R4): writes that move, evictions, and
writes of device registers.
-/
namespace Sys2Proof.Machine

/-! ## WRITE_DELIVERY -/

/-- The first `n` of the writes that have not left an agent do not touch what write `n` touches: one agent's writes to one
location enter in program order (R246). -/
def mayEnter (l : List Leaving) (n : Nat) : Bool :=
  match l[n]? with
  | some w => (l.take n).all fun v => v.bytes.all fun b => !w.bytes.any (·.1 == b.1)
  | none => false

/-- A plain write of an agent enters the order of its die. -/
def State.enterOne (s : State) (a : Agent) (n : Nat) : State :=
  match a.leaving[n]? with
  | some w =>
    if mayEnter a.leaving n then
      { s with mem := s.mem.enterLeaving a w }.onAgent a.id fun x => { x with leaving := x.leaving.eraseIdx n }
    else s
  | none => s

/-- Whether a die holds a write until its predecessors have come (R247); a home update is never held. -/
def MemSys.held (m : MemSys) (e : Nat) (f : Flight) : Bool :=
  let v := (m.die e).clock
  !f.origin && !((List.range 6).all fun k => if k = f.die then decide (f.clock.at k ≤ v.at k + 1) else decide (f.clock.at k ≤ v.at k))

/-- A write in delivery reaches a die. -/
def MemSys.deliver (m : MemSys) (e n : Nat) : MemSys :=
  match m.flight[n]? with
  | some f => if f.todo.contains e && !m.held e f then m.toDie e (· == f) else m
  | none => m

/-- A write in delivery reaches home, behind the writes to its locations that its clock covers (R249). -/
def MemSys.deliverHome (m : MemSys) (n : Nat) : MemSys :=
  match m.flight[n]? with
  | some f => m.toHome (· == f)
  | none => m

def execWriteDelivery (d : Delivery) (s : State) : Out :=
  .next (match d with
    | .enter agent n => match s.agent? agent with | some a => s.enterOne a n | none => s
    | .toDie n e => { s with mem := s.mem.deliver e n }
    | .toHome n => { s with mem := s.mem.deliverHome n })

/-! ## EVICTION -/

/-- A die takes in what it has not of a software-managed line: nothing keeps a cache from fetching it at any moment (R255). -/
def MemSys.takeIn (m : MemSys) (e line : Nat) : MemSys :=
  if m.dies.toList.any fun d => d.copies.any fun c => c.smr && c.addr / 256 == line then
    let news := ((lineBytes (line * 256)).filter fun q => (findCopy (m.die e).copies q).isNone).map fun q =>
      ({ addr := q, val := m.homeByte q, smr := true } : CopyByte)
    m.onDie e fun d => { d with copies := d.copies ++ news }
  else m

/-- A die gives up its copies of a line; the dirty bytes among them are written at home (R241). Code lines that its L1 caches hold by
this number go too (08 R231). By an open choice the block that displaces them is of a software-managed line (log 88). -/
def execEviction (die line : Nat) (s : State) : Out :=
  let on := fun p => p / 256 == line
  let d := s.draw
  let m := (s.mem.writeBack die on).drop die fun c => on c.addr
  .next { d.2 with
    mem := if d.1 % 2 = 1 ∧ d.1 / 2 ≠ line then m.takeIn die (d.1 / 2) else m
    codeLines := s.codeLines.filter fun x => !(x.die == die && on x.addr) }

/-! ## REGISTER_WRITE -/

/-- A write to the device carve-out that H agents of a peer module make through their relay window, on an UP stream whose LENC and
PENC are 0 (R361); it changes no locked entry (R285; log 10). -/
def State.peerWrite (s : State) (pa : Nat) (bytes : List Byte) : State :=
  let up := s.links.streams.any fun x => decide (x.2.state = stUp) && x.2.lenc == 0 && x.2.penc == 0
  let to' := s.redirect pa
  if up ∧ bytes ≠ [] ∧ pa % 256 + bytes.length ≤ 256 ∧ (s.potOf pa).state = .owned ∧ (s.potOf pa).owner = 0 ∧ s.lockedWrite to' bytes = false then
    { s with mem := s.mem.hwWrite 4 (cellsAt to' bytes) }
  else s

/-- A write to one word of device register space, by the access codes of its fields, or a peer's write to the device carve-out. -/
def execRegisterWrite (pa : Nat) (bytes : List Byte) (s : State) : Out :=
  .next (if regionOf pa = .device ∧ deviceHole pa = false ∧ (relayModule (pa - devBase)).isNone ∧ pa % 8 + bytes.length ≤ 8 then
    s.devWrite pa bytes
  else if (potIndex pa).any deviceCarveOut then s.peerWrite pa bytes
  else s)

end Sys2Proof.Machine
end

