-- ==== Sys2Proof/Machine/MigrateEvents.lean ====
section
/-!
DEFINITION. Live migration (spec/13 R352 to R356; 07 R210, R211): the session, the dirty bitmap and the page records, the stop
and the state record, and the destination. The manual gives the records their fields and no full layout; the layouts here are
log 25.
-/
namespace Sys2Proof.Machine

/-! ## The session (R352) -/

def asciiMig : List Byte := [0x4E, 0x5A, 0x39, 0x36, 0x4D, 0x49, 0x47]

/-- The session key of a shared secret and both nonces, the source's first. -/
def sessionKey (ss nonceS nonceD : List Byte) : Nat := Config.keyOf (shake32 (ss ++ asciiMig ++ nonceS ++ nonceD))

/-- The enclave that TARGET names, in one of the states, else STATE (R211). -/
def State.mbEnclave (s : State) (ok : EnclaveState → Bool) : Except Nat Enclave :=
  match s.enclave? s.rp.mailbox.target with
  | some e => if ok e.state then .ok e else .error mbState
  | none => .error mbState

def State.onSession (s : State) (e : BitVec 16) (f : MigSession → MigSession) : State :=
  s.onEnclave e fun x => { x with session := some (f (x.session.getD {})) }

/-- An entry of the enclave's own tables, its table found through stage 2; none where that fails. -/
def State.ipaEntry (s : State) (e : Enclave) (ipa : Nat) : Option Nat :=
  match stage2 e.id ipa ipa .r s with
  | .ok r t => some (t.entryAt r.1)
  | .error _ _ => none

/-- Whether a level-3 entry is storage-backed, filled or absent (11 R301). -/
def storageBacked (en : Nat) : Bool := bitN en 9 && (if bitN en 0 then !bitN en 1 else fieldN en 12 2 == 0)

/-- Whether the stage-1 tables hold a storage-backed leaf. -/
def State.hasStorageLeaf (s : State) (e : Enclave) : Nat → Nat → Nat → Bool
  | 0, _, _ => false
  | fuel + 1, level, table =>
    let n := match level with | 0 => 8192 | 1 => 4096 | _ => 128
    (List.range n).any fun k =>
      match s.ipaEntry e (table + 8 * k) with
      | none => false
      | some en =>
        if level = 3 then storageBacked en
        else bitN en 0 && bitN en 1 && !malformed false level en && s.hasStorageLeaf e fuel (level + 1) (entryNext en)

def State.migopenCmd (s : State) : Cmd := do
  let e ← s.mbEnclave fun t => decide (t = .running)
  let attached := s.links.attachments.any fun x => x.2.encid == e.id && (decide (x.2.state = 1) || decide (x.2.state = 2) || decide (x.2.state = 3))
  Cmd.need (!attached && !s.hasStorageLeaf e 4 0 e.s1Root && e.session.isNone) mbState
  let d := s.draw
  let nonce := natBytes d.1 32
  let body := nonce ++ (s.enclaveBlocks e).flatten
  pure (body ++ aliasSig s.rp.aliasKey body ++ s.rp.chain,
    d.2.onEnclave e.id fun x => { x with state := .migrating, session := some { nonce } })

def execMigopen (s : State) : Out := .next (s.mbRun 0x30 State.migopenCmd)

/-! ## Page records (R353) -/

def stateRecordCode : Nat := 0xFF

/-- A record: its 64-byte header, with the tag, and its sealed body. -/
def sealRecord (key ipa code round seq : Nat) (body : List Byte) : List Byte :=
  let h := natBytes ipa 8 ++ natBytes code 8 ++ natBytes round 4 ++ natBytes seq 4
  let iv := natBytes seq 12
  let c := gcmCrypt key iv body
  h ++ gcmTag16 key iv h c ++ List.replicate 24 0 ++ c

/-- Where the enclave sees a frame. -/
def State.ipaOf (s : State) (e : Enclave) (i : Nat) : Nat :=
  match s.mapsFrame e (frameAddr i) with
  | x :: _ => x.1
  | [] => (alook e.frameIpa i).getD (frameAddr i)

/-- The frames of an enclave in some states, in index order. -/
def State.framesOf (s : State) (e : BitVec 16) (p : FrameState → Bool) : List Nat :=
  (s.pot.filter fun x => x.2.owner == e && p x.2.state).map (·.1)

def pageState : FrameState → Bool
  | .owned | .code | .pool => true
  | _ => false

/-- Every byte of the enclave's frames reaches home, so that a record holds what was last written. -/
def State.gatherFrames (s : State) (is : List Nat) : State := is.foldl (fun s i => s.gather (frameAddr i) 0x40000) s

/-- The records of frames, numbered from `seq` on. -/
def State.pageRecords (s : State) (e : Enclave) (key round : Nat) : Nat → List Nat → List Byte
  | _, [] => []
  | seq, i :: is =>
    sealRecord key (s.ipaOf e i) (s.potAt i).state.num round seq (s.mem.homeBytes (frameAddr i) 0x40000)
      ++ s.pageRecords e key round (seq + 1) is

/-- The first round takes the destination's answer, whose chain must hold and sign both nonces and the key, encapsulates to that
key, and gives the ciphertext. -/
def State.joinSession (s : State) (e : Enclave) (m : MigSession) : Except Nat (List Byte × Nat × State) :=
  if m.key ≠ 0 then .ok ([], m.key, s)
  else do
    let a := s.mbRequest
    let pub := (a.drop 32).take kemBytes
    let sig := a.drop (32 + kemBytes)
    Cmd.need (Config.chainOk (sig.drop 3309) && Config.signOk (sig.drop 3309) (m.nonce ++ a.take 32 ++ pub) (sig.take 3309)) mbAuth
    let d := s.draw
    let k := Config.kemEncaps pub d.1
    let key := sessionKey k.2 m.nonce (a.take 32)
    pure (fitTo kemBytes k.1, key, d.2.onSession e.id fun m => { m with key, peerNonce := a.take 32 })

def State.migroundCmd (s : State) : Cmd := do
  let e ← s.mbEnclave fun t => decide (t = .migrating)
  let m := e.session.getD {}
  Cmd.need (!m.stopping) mbState
  let j ← s.joinSession e m
  let s := j.2.2
  let all := s.framesOf e.id pageState
  let is := if m.round = 0 then all else all.filter m.dirty.contains
  let t := s.gatherFrames is
  pure (j.1 ++ t.pageRecords e j.2.1 m.round m.seq is,
    t.onSession e.id fun m => { m with round := m.round + 1, seq := m.seq + is.length, dirty := [] })

def execMiground (s : State) : Out := .next (s.mbRun 0x31 State.migroundCmd)

/-! ## The state record (R354) -/

/-- What the state record carries. The SAVE frames hold the state of the agents in no stated layout, so it stands here
(log 12, 25). -/
structure MigImage where
  enclave : Enclave
  agents : List Agent
  wgs : List Workgroup
  launches : List Launch
  ops : List Op
  top : Nat
deriving DecidableEq, Repr

/-- The bytes of a state record, and what a destination takes them for (log 25). -/
opaque Config.migEncode : MigImage → List Byte
opaque Config.migRead : List Byte → Option MigImage

/-- A destination reads a state record as an image that has exactly its bytes, or not at all (R355). -/
def migDecode (b : List Byte) : Option MigImage := (Config.migRead b).filter fun x => Config.migEncode x == b

def Op.ofEnclave (o : Op) (e : BitVec 16) : Bool := o.enc == e

/-- Whether an operation is at rest, or stops where it stands: a COPY or a block move at its 256-byte unit, and a STORE or
COLL record that has not started. -/
def Op.atRest (o : Op) : Bool :=
  match o.state with
  | .window | .suspended | .stopped | .done => true
  | .running | .waiting =>
    o.cause == 0 && match o.kind with
      | .record 0 | .record 1 | .move .. => true
      | .record 3 | .record 4 => !o.started
      | _ => false

/-- The agents of an enclave that still stand. -/
def State.standing (s : State) (e : BitVec 16) : List Agent :=
  s.agents.filter fun a => decide (a.kind ≠ .host) && a.enc == e && decide (a.status ≠ .ended)

/-- Everything of an enclave has come to rest. -/
def State.migQuiet (s : State) (e : BitVec 16) : Bool :=
  (s.standing e).all (fun a => Status.isSaved a.status)
    && s.ops.all (fun o => o.enc != e || o.atRest) && s.fills.all (fun f => f.enc != e)
    && s.chunks.all fun c => (s.standing e).all fun a => a.id != c.agent

/-- MIGSTOP begins: every agent is pre-empted, to be saved by force. -/
def State.migStopping (s : State) (e : BitVec 16) : State :=
  let s := s.onSession e fun m => { m with stopping := true }
  let ids := ((s.standing e).filter fun a => Status.preemptible a.status).map (·.id)
  let s := s.mapAgents fun a => if ids.contains a.id then { a with preempting := true } else a
  ids.foldl (fun s id => s.savePreempted id) s

/-- What runs on of an enclave stops, its workgroups are off their cores, dispatchable once it runs again (R355, R356), and its
streams go DOWN. -/
def State.migHalt (s : State) (e : BitVec 16) : State :=
  let stop := fun (o : Op) =>
    if o.enc = e ∧ o.kind ≠ .record 0 ∧ (o.state = .running ∨ o.state = .waiting) then { o with state := .stopped } else o
  let out := fun (w : Workgroup) =>
    if w.enc = e ∧ (w.state = .resident ∨ w.state = .swapping) then { w with state := .dispatchable } else w
  let s := { s with ops := s.ops.map stop, wgs := s.wgs.map out }
  (s.links.streams.filter fun x => x.2.lenc == e).foldl (fun s x => s.streamDown x.1 cEngine) s

/-- The memory key and the KEM key pair are never exported (R334, R354). -/
def State.migImage (s : State) (e : Enclave) : MigImage :=
  { enclave := { e with session := none, memKey := 0, kemKey := 0 }
    agents := s.agents.filter fun a => decide (a.kind ≠ .host) && a.enc == e.id
    wgs := s.wgs.filter fun w => w.enc == e.id
    launches := s.launches.filter fun l => l.enc == e.id
    ops := s.ops.filter fun o => o.enc == e.id
    top := s.nextId }

def State.migstopCmd (s : State) : Cmd := do
  let e ← s.mbEnclave fun t => decide (t = .migrating)
  let m := e.session.getD {}
  let j ← s.joinSession e m
  let s := j.2.2.migHalt e.id
  let all := s.framesOf e.id pageState
  let is := (if m.round = 0 then all else all.filter m.dirty.contains) ++ s.framesOf e.id fun t => decide (t = .save)
  let t := s.gatherFrames is
  let e' := (t.enclave? e.id).getD e
  pure (j.1 ++ t.pageRecords e' j.2.1 m.round m.seq is
      ++ sealRecord j.2.1 (2 ^ 64 - 1) stateRecordCode m.round (m.seq + is.length) (Config.migEncode (t.migImage e')),
    (t.onSession e.id fun m => { m with round := m.round + 1, seq := m.seq + is.length + 1, dirty := [] }).onEnclave e.id
      fun x => { x with state := .stopped })

/-- The agents that a MIGSTOP has stopped run on, where it is refused in the end (R332; log 63). -/
def State.migLetGo (s : State) (e : BitVec 16) : State :=
  (s.standing e).foldl (fun s a => match s.agent? a.id with
    | some b => if Status.isSaved b.status then s.groupResume b (match s.wg? b.wg with | some w => w.core | none => b.core) else s
    | none => s) s

/-- MIGSTOP brings the enclave to rest, and stays BUSY until it is; then it writes the records. Where they are refused it has no
effect: as things stand at its start it begins nothing, and in the end what it has stopped runs on (R332). -/
def execMigstop (s : State) : Out :=
  .next (if s.mbHolds 0x32 then
    match (do s.mbAdmit; s.mbEnclave fun t => decide (t = EnclaveState.migrating) : Except Nat Enclave) with
    | .error c => s.mbEnd c []
    | .ok e =>
      match if e.stopping then none else s.mbRefuses s.migstopCmd with
      | some c => s.mbEnd c []
      | none =>
        let t := if e.stopping then s else s.migStopping e.id
        if !t.migQuiet e.id then t
        else
          let t := t.onSession e.id fun m => { m with stopping := false }
          match t.mbRefuses t.migstopCmd with
          | some c => (t.migLetGo e.id).mbEnd c []
          | none => t.mbFinish t.migstopCmd
  else s)

/-! ## Tokens (R355, R356) -/

def tokenCommitted : Byte := 0x43
def tokenRefused : Byte := 0x52

/-- A token: its kind, both nonces, the source's first, the destination's signature and its chain. -/
def signToken (rp : Ridgepole) (kind : Byte) (nonceS nonceD : List Byte) : List Byte :=
  let b := kind :: (nonceS ++ nonceD)
  b ++ aliasSig rp.aliasKey b ++ rp.chain

/-- Whether a token's signature holds under a chain that leads to the root. -/
def tokenOk (b : List Byte) : Bool :=
  Config.chainOk (b.drop (65 + 3309)) && Config.signOk (b.drop (65 + 3309)) (b.take 65) ((b.drop 65).take 3309)

/-- The operations of an enclave that stopped go on from PROGRESS. -/
def State.opsContinue (s : State) (e : BitVec 16) : State :=
  { s with ops := s.ops.map fun o => if o.enc = e ∧ o.state = .stopped then { o with state := .running, stream := none, streams := [], sent := o.progress } else o }

def State.migendCmd (s : State) : Cmd := do
  let e ← s.mbEnclave fun t => decide (t = .migrating) || decide (t = .stopped)
  let m := e.session.getD {}
  let b := s.mbRequest
  let kind := b.headD 0
  Cmd.need (kind == tokenCommitted || kind == tokenRefused) mbParam
  let nonceD := (b.drop 33).take 32
  Cmd.need (tokenOk b && (b.drop 1).take 32 == m.nonce && (m.key == 0 || nonceD == m.peerNonce)) mbAuth
  if kind = tokenCommitted then do
    Cmd.need (decide (e.state = .stopped)) mbState
    pure ([], s.destroy e.id)
  else pure ([], (s.opsContinue e.id).onEnclave e.id fun x => { x with state := .running, session := none })

def execMigend (s : State) : Out := .next (s.mbRun 0x33 State.migendCmd)

/-! ## The destination (R352, R355) -/

/-- Offsets in a hello: the SVN of image `c`, and the Karlar level at the end of the blocks. -/
def helloSvn (c : Nat) : Nat := 32 + 65 * c + 64
def helloLevel : Nat := 32 + 7 * 65 + 72 + 201 + 64 + 1568 + 6

/-- Whether the signature of a hello holds under its chain, which leads to the root. -/
def helloOk (b : List Byte) : Bool :=
  let rest := b.drop (helloLevel + 1)
  Config.chainOk (rest.drop 3309) && Config.signOk (rest.drop 3309) (b.take (helloLevel + 1)) (rest.take 3309)

/-- MIGACCEPT: its session takes the place of one that no MIGAPPLY has begun (log 81). -/
def State.migacceptCmd (s : State) : Cmd := do
  s.mbTarget0
  let b := s.mbRequest
  let w0 := wordAt b 0
  let n := fieldN w0 0 32
  let frames := (List.range n).map fun i => wordAt b (16 + 8 * i)
  let hello := b.drop (16 + 8 * n)
  Cmd.need (decide (fieldN w0 32 6 < 40) && decide (w0 / 2 ^ 38 = 0) && decide (helloLevel < hello.length) && Nat.allDistinct frames) mbParam
  Cmd.need (helloOk hello && hello.getD helloLevel 0 == 1
    && (List.range 7).all fun c => decide ((hello.getD (helloSvn c) 0).toNat ≤ (s.rp.firmware.bank c).svn.toNat)) mbAuth
  let d := s.draw
  let k := d.2.draw
  let nonce := natBytes d.1 32
  let peerNonce := hello.take 32
  let pub := kemPublicKey k.1
  let m : MigSession := { nonce, peerNonce, kem := k.1, part := fieldN w0 32 6, s2Root := wordAt b 8, frames }
  pure (nonce ++ pub ++ aliasSig s.rp.aliasKey (peerNonce ++ nonce ++ pub) ++ s.rp.chain, { k.2 with rp := { k.2.rp with pendingSession := some m } })

def execMigaccept (s : State) : Out := .next (s.mbRun 0x38 State.migacceptCmd)

/-- The first MIGAPPLY of a session: a new enclave, ARRIVING, with keys of its own. -/
def State.arrive (s : State) (m : MigSession) (ct : List Byte) : Except Nat (BitVec 16 × State) := do
  Cmd.need (decide (s.enclaves.length < 4096)) mbState
  let n := s.draw
  let a := n.2.draw
  let b := a.2.draw
  match s.newEncId n.1 with
  | none => .error mbState
  | some id =>
    let key := sessionKey (Config.kemDecaps m.kem ct) m.peerNonce m.nonce
    let e : Enclave := { id, state := .arriving, part := m.part, memKey := a.1, kemKey := b.1, s2Root := m.s2Root, session := some { m with key } }
    pure (id, { b.2 with enclaves := b.2.enclaves ++ [e], rp := { b.2.rp with pendingSession := none } })

/-- The rights and the frame type of the locked leaf of an arriving page (log 25). -/
def arrivalRights : Nat → Nat
  | 2 => rR + rX + rE
  | 3 => rR + rW + 2 * 2 ^ 14
  | 4 => rR + rW + rE + 2 ^ 14
  | _ => rR + rW + rE

def frameStateOf : Nat → FrameState
  | 2 => .code
  | 3 => .save
  | 4 => .pool
  | _ => .owned

/-- A page record: the next frame of the list, or the frame that the IPA has already. -/
def State.applyPage (s : State) (e : Enclave) (ipa code : Nat) (page : List Byte) : Except Nat State := do
  Cmd.need (ipa % 0x40000 == 0 && decide (1 ≤ code) && decide (code ≤ 4) && page.length == 0x40000) mbParam
  let m := e.session.getD {}
  let bump := fun (m : MigSession) => { m with seq := m.seq + 1 }
  match alook m.mapped ipa with
  | some pa =>
    match potIndex pa with
    | none => .error mbState
    | some i =>
      pure (({ s with mem := s.mem.wipe pa 0x40000 (cellsAt pa page) }.setPot i { s.potAt i with state := frameStateOf code }).onSession e.id bump)
  | none =>
    match m.frames, s.path2 ipa 4 0 e.s2Root with
    | pa :: rest, some path => do
      Cmd.need (s.frameFree e.part pa) mbState
      let s := (s.fillFrame pa (frameStateOf code) e.id page).mapLocked path pa (arrivalRights code)
      pure (s.onSession e.id fun m => { bump m with frames := rest, mapped := aput m.mapped ipa pa })
    | _, _ => .error mbState

/-- The numbers of a record that travels. -/
def Rec.arrive (r : Rec) (d : Nat) (die : Nat → Nat) : Rec :=
  { r with agent := if r.agent = 0 then 0 else r.agent + d, wg := if r.wg = 0 then 0 else r.wg + d, die := die r.die, clock := .zero }

def Agent.arrive (a : Agent) (e : Enclave) (d : Nat) (die : Nat → Nat) : Agent :=
  { a with
    id := a.id + d, wg := if a.wg = 0 then 0 else a.wg + d, enc := e.id, part := e.part, die := die a.die
    leaving := [], homeSeen := .zero, relClock := .zero, preempting := false
    sync := { a.sync with arrival := a.sync.arrival.map fun x => { x with clock := .zero } } }

def Op.arrive (o : Op) (e : Enclave) (d : Nat) (die : Nat → Nat) : Op :=
  { o with
    id := o.id + d, tok := some (o.tok.getD o.id), enc := e.id, record := o.record.arrive d die, die := die o.die, stream := none, streams := [], rdv := [], sent := o.progress }

def Workgroup.arrive (w : Workgroup) (e : Enclave) (d : Nat) (die : Nat → Nat) : Workgroup :=
  { w with
    id := w.id + d, launch := w.launch + d, enc := e.id, part := e.part, die := die w.die, groups := w.groups.map (· + d), clock := .zero }

def Launch.arrive (l : Launch) (e : Enclave) (d : Nat) (die : Nat → Nat) : Launch :=
  { l with
    id := l.id + d, op := l.op + d, enc := e.id, part := e.part, record := l.record.arrive d die
    ranges := l.ranges.map fun x => (die x.1, x.2) }

/-- The enclave as it stands on the destination: a new ID and new keys, and one more migration. -/
def Enclave.arrive (x e : Enclave) (d : Nat) (die : Nat → Nat) (frameIpa : List (Nat × Nat)) : Enclave :=
  { x with
    id := e.id, state := .arriving, part := e.part, memKey := e.memKey, kemKey := e.kemKey, s2Root := e.s2Root, frameIpa
    timelines := x.timelines.map fun t => { t with clock := .zero }
    queues := x.queues.map fun q => { q with hw := q.hw.map fun r => r.arrive d die, spill := q.spill.map fun r => r.arrive d die }
    migrations := x.migrations + 1
    session := e.session.map fun m => { m with seq := m.seq + 1, stateDone := true } }

/-- The state record is installed; a die that the partition does not hold is replaced by its master's (log 25). -/
def State.applyImage (s : State) (e : Enclave) (x : MigImage) : State :=
  let d := s.nextId
  let die := fun k => if decide (4 ≤ k) || s.partOnDie e.part k then k else (s.masterDie e.part).getD k
  let m := e.session.getD {}
  let ipas := m.mapped.foldl (fun l y => match potIndex y.2 with | some i => aput l i y.1 | none => l) []
  let s := x.agents.foldl (fun s a => s.addAgent (a.arrive e d die)) s
  { s with
    wgs := s.wgs ++ x.wgs.map fun (w : Workgroup) => w.arrive e d die
    launches := s.launches ++ x.launches.map fun (l : Launch) => l.arrive e d die
    ops := s.ops ++ x.ops.map fun (o : Op) => o.arrive e d die
    nextId := d + x.top }.onEnclave e.id fun _ => x.enclave.arrive e d die ipas

/-- The records of a request, in order; the first that fails stops them all. -/
def State.applyRecords (s : State) (id : BitVec 16) : Nat → List Byte → Except Nat State
  | 0, _ => .ok s
  | fuel + 1, b =>
    if b.isEmpty then .ok s
    else
      match s.enclave? id with
      | none => .error mbState
      | some e =>
        let m := e.session.getD {}
        let n := if wordAt b 8 = stateRecordCode then b.length - 64 else 0x40000
        let round := bytesNat ((b.drop 16).take 4)
        let seq := bytesNat ((b.drop 20).take 4)
        let body := (b.drop 64).take n
        match gcmOpen m.key (natBytes seq 12) (b.take 24) body ((b.drop 24).take 16) with
        | none => .error mbAuth
        | some p => do
          Cmd.need (seq == m.seq && decide (m.round ≤ round) && !m.stateDone) mbAuth
          let s := s.onSession id fun m => { m with round }
          let e := (s.enclave? id).getD e
          let t ← if wordAt b 8 = stateRecordCode then
              match migDecode p with
              | some x => pure (s.applyImage e x)
              | none => .error mbAuth
            else s.applyPage e (wordAt b 0) (wordAt b 8) p
          t.applyRecords id fuel (b.drop (64 + n))

def State.migapplyCmd (s : State) : Cmd := do
  let b := s.mbRequest
  if s.rp.mailbox.target = 0 then
    match s.rp.pendingSession with
    | none => .error mbState
    | some m => do
      let r ← s.arrive m (b.take kemBytes)
      let t ← r.2.applyRecords r.1 b.length (b.drop kemBytes)
      pure (natBytes r.1.toNat 2, t)
  else do
    let e ← s.mbEnclave fun t => decide (t = .arriving)
    let t ← s.applyRecords e.id b.length b
    pure ([], t)

def execMigapply (s : State) : Out := .next (s.mbRun 0x39 State.migapplyCmd)

/-- An agent that had exited to the host agent: its exit is recorded again in the destination's ring (log 25). -/
def State.reExit (s : State) (a : Agent) : State :=
  match a.status with
  | .saved _ (some .exitDone) => s.exitRecord a.part a.enc a.trap.cause a.trap.s2ipa 0 (.agent a.id)
  | _ => s

/-- A blocked admission is recorded again likewise. -/
def State.reBlock (s : State) (e : BitVec 16) : State :=
  match s.enclave? e with
  | some x => match x.admitBlocked with
    | some (c, ipa) => s.exitRecord x.part e c ipa 2 (.blockedAdmission e 0)
    | none => s
  | none => s

def State.migresumeCmd (s : State) : Cmd := do
  let e ← s.mbEnclave fun t => decide (t = .arriving)
  let m := e.session.getD {}
  Cmd.need m.stateDone mbState
  let t := (s.opsContinue e.id).onEnclave e.id fun x => { x with state := .running, session := none }
  pure (signToken s.rp tokenCommitted m.peerNonce m.nonce, ((t.standing e.id).foldl (fun s a => s.reExit a) t).reBlock e.id)

def execMigresume (s : State) : Out := .next (s.mbRun 0x3A State.migresumeCmd)

def State.migrefuseCmd (s : State) : Cmd :=
  match (if s.rp.mailbox.target = 0 then s.rp.pendingSession else none) with
  | some m => .ok (signToken s.rp tokenRefused m.peerNonce m.nonce, { s with rp := { s.rp with pendingSession := none } })
  | none => do
    let e ← s.mbEnclave fun t => decide (t = .arriving)
    let m := e.session.getD {}
    pure (signToken s.rp tokenRefused m.peerNonce m.nonce, s.destroy e.id)

def execMigrefuse (s : State) : Out := .next (s.mbRun 0x3B State.migrefuseCmd)

end Sys2Proof.Machine
end

