-- ==== Sys2Proof/Machine/ResetEvents.lean ====
section
/-!
DEFINITION. Restart, reset and bring-up (spec/11 R292; 13 R333, R334, R345, R348; 15 R376, R377).
-/
namespace Sys2Proof.Machine

/-! ## RIDGEPOLE_RESTART (R333, Table 13.8) -/

/-- What a restart makes of the journal. -/
def State.journalRestart (s : State) : State :=
  match s.layout.journal with
  | .idle => s
  | .preparing | .prepared => s.rollBack
  | .committing => { s with layout := { s.layout with flipped := [] } }

/-- A command in flight ends with RESTARTED; a MIGSTOP that was bringing an enclave to rest lets it run. -/
def State.mailboxRestart (s : State) : State :=
  let s := { s with enclaves := s.enclaves.map fun (e : Enclave) => { e with session := e.session.map fun (m : MigSession) => { m with stopping := false } } }
  if s.rp.mailbox.busy then s.mbEnd mbRestarted [] else s

def execRidgepoleRestart (failover : Bool) (s : State) : Out :=
  .next (if s.health.service = .reset then s
    else
      let t := s.mailboxRestart.journalRestart
      let moved := failover && !t.health.rpStby
      let t := t.onHealth fun h => { h with rpStby := failover }
      if moved then t.reason 0x07 else t)

/-! ## PACKAGE_RESET -/

/-- The POT fails its check where a line of the Ridgepole region cannot be read. -/
def State.potLost (s : State) : Bool :=
  s.health.stackRet.getLsbD 7 || s.mem.poison.any fun l => ridgepoleFrame (l * 256 / 0x40000)

/-- Every frame outside the Ridgepole region that is not FREE, or every frame where the check fails, is SCRUBBING; bring-up
re-establishes the device carve-out (R287, R292). -/
def State.resetPot (s : State) : List (Nat × PotEntry) :=
  if s.potLost then
    (((List.range 6291456).filter fun i => !ridgepoleFrame i && !deviceCarveOut i).map fun i => (i, { state := .scrubbing : PotEntry }))
  else
    (s.pot.filter fun x => decide (x.2.state ≠ .free) && !ridgepoleFrame x.1 && !deviceCarveOut x.1).map fun x => (x.1, { x.2 with state := .scrubbing })

/-- Memory after a reset: what home holds, without any cache; the device carve-out holds zeros. -/
def State.resetMem (s : State) : MemSys :=
  let m : MemSys := { home := s.mem.home, poison := s.mem.poison.filter fun l => !ridgepoleFrame (l * 256 / 0x40000), untagged := s.mem.untagged }
  m.wipe 0x7FEC000000 0x10000000 []

/-- The journal and LAYOUTGEN stand in always-on storage; no slice but those of CD0 is live until FULL (15 R377), and a change that
was committing holds its slices until it ends (13 R344). -/
def LayoutState.reset (l : LayoutState) : LayoutState :=
  let held := (List.range 30).map (10 + ·)
  match l.journal with
  | .committing => { l with flipped := [], held := held ++ (changing l.old l.entries).filter (· < 10), hostKeys := [], deviceHostKey := 0 }
  | _ => { l with journal := .idle, shadow := [], shadowDigest := [], flipped := [], held, hostKeys := [], deviceHostKey := 0 }

/-- The banks of a choice; bit `c` names component `c`'s second bank. -/
def Firmware.bankAt (f : Firmware) (sel : BitVec 7) (c : Nat) : Bank := ({ f with active := sel } : Firmware).bank c

/-- A manifest that is not below its fuse lists the tuple, and every image passes R347 (R348, R349). -/
def Firmware.tupleOk (f : Firmware) (sel : BitVec 7) : Bool :=
  f.manifest.contains ((List.range 7).map fun c => (f.bankAt sel c).version) && decide (f.msvnFuse.toNat ≤ f.msvn.toNat)
    && (List.range 7).all fun c => f.imageOk c (f.bankAt sel c).image

/-- The banks that a reset boots (R348); none for recovery service. -/
def Firmware.bootTuple (f : Firmware) : Option (BitVec 7) :=
  let staged := f.active ^^^ f.staged
  if f.tupleOk staged then some staged else if f.tupleOk f.lastBooted then some f.lastBooted else none

def Firmware.boot (f : Firmware) (sel : BitVec 7) : Firmware :=
  { f with active := sel, lastBooted := sel, staged := if sel = f.active ^^^ f.staged then 0 else f.staged }

/-- Host keys are drawn at bring-up for the device carve-out and every valid entry (Table 13.3). -/
def State.bringUpKeys (s : State) : State :=
  let d := s.draw
  let s := { d.2 with layout := { d.2.layout with deviceHostKey := d.1 } }
  s.hostKeys (List.replicate 40 {}) s.layout.entries

/-- Bring-up re-establishes carve-out frames: OWNED by owner 0, LK, FOR and MIG clear, holding zeros (log 26). -/
def State.establish (s : State) (l : List Nat) : State := l.foldl (fun s i => (s.setPot i {}).claimFrame i .owned 0) s

/-- The carve-outs of the partitions whose memory has trained. -/
def State.resetCarveOuts (s : State) : State := s.establish (s.carveOutFrames.filter s.trainedFrame)

/-- The part after a reset, before the boot ROM has chosen: what always-on storage, flash and fuses hold stands. -/
def State.afterReset (s : State) : State :=
  { mem := s.resetMem, pot := s.resetPot, layout := s.layout.reset
    rp := { firmware := s.rp.firmware, scrubCursor := s.rp.scrubCursor }
    links := { ports := Vector.ofFn fun p => { mode := if Config.portOff p.val then 2 else 0 } }
    health := { replaceReq := s.health.replaceReq && decide (s.health.dieFence ≠ 0) }
    nextId := s.nextId, turns := s.turns, choices := s.choices, free := s.free }

/-- "NZ96DEVID". -/
def asciiDevid : List Byte := [0x4E, 0x5A, 0x39, 0x36, 0x44, 0x45, 0x56, 0x49, 0x44]

/-- The digests of the seven images. -/
def Firmware.digests (f : Firmware) : List (List Byte) := (List.range 7).map fun c => shake64 (f.bank c).image

/-- CDI (13 Table 13.4). -/
def Firmware.cdi (f : Firmware) : List Byte :=
  shake64 (Config.uds ++ f.digests.flatten ++ shake64 f.manifestBytes ++ f.fuseBytes)

/-- What the Alias certificate carries: the seven image digests and SVNs. -/
def Firmware.aliasClaims (f : Firmware) : List Byte := ((List.range 7).map fun c => shake64 (f.bank c).image ++ [(f.bank c).svn]).flatten

/-- The identity chain of a boot: the Alias key of CDI and a boot nonce, certified by the DeviceID key, which is not kept (13
R336). -/
def State.bootIdentity (s : State) : State :=
  let f := s.rp.firmware
  let d := s.draw
  let device := Config.dsaKey (shake64 (Config.uds ++ asciiDevid ++ Config.romDigest))
  let key := Config.dsaKey (shake64 (f.cdi ++ natBytes d.1 32))
  { d.2 with rp := { d.2.rp with
      aliasKey := key, chain := Config.rootCert ++ Config.deviceCert ++ Config.dsaCert device key f.aliasClaims } }

/-- The boot ROM's choice (Table 15.1). -/
def State.bootRom (s : State) : State :=
  match s.rp.firmware.bootTuple with
  | none => s.bootIdentity.onHealth fun h => { h with service := .recovery }
  | some sel =>
    let s := { s with rp := { s.rp with firmware := s.rp.firmware.boot sel } }.bootIdentity
    (s.onHealth fun h => { h with service := .reduced }).bringUpKeys.resetCarveOuts

def execPackageReset (s : State) : Out := .next s.afterReset.bootRom

/-! ## TRAINING_COMPLETE (Table 15.1) -/

/-- A part that fails to train is fenced or retired (R379). -/
def State.failPart (s : State) : Sys2Proof.Part → State
  | .die d => s.fenceDie d
  | .stack k => s.retireStack k
  | .channel _ => s.reason 0x05
  | .port p => (s.setPortDeg p true).reason 0x04
  | .nvme _ => s.reason 0x06

/-- The slices that a layout change holds once every part has trained. -/
def LayoutState.changeHolds (l : LayoutState) : List Nat :=
  match l.journal with
  | .idle => []
  | .preparing | .prepared => changing l.entries l.shadow
  | .committing => changing l.old l.entries

/-- The stacks among the parts that fail to train: their own, and those of a die that fails. -/
def lostStacks (failed : List Sys2Proof.Part) : BitVec 8 :=
  failed.foldl (fun m p => match p with
    | .die d => m ||| BitVec.ofNat 8 (3 * 2 ^ (2 * d))
    | .stack k => m ||| BitVec.ofNat 8 (2 ^ k)
    | _ => m) 0

def execTrainingComplete (failed : List Sys2Proof.Part) (s : State) : Out :=
  .next (if s.health.service = .reduced then
    let t := s.onHealth fun h => { h with service := .full, clkMhz := 1800, untrained := false, matrixHalf := false }
    let t := { t with rp := { t.rp with lateScrub := true, unscrubbed := lostStacks failed } }
    let t := { t with layout := { t.layout with held := t.layout.changeHolds } }.establish
      (s.carveOutFrames.filter fun i => !s.trainedFrame i)
    failed.foldl (fun s p => s.failPart p) t
  else s)

end Sys2Proof.Machine
end

