-- ==== Sys2Proof/Machine/Return.lean ====
section
/-!
DEFINITION. `fret`: the replay of a faulting lane instruction for the threads in m15, then the return of `sret` (04 R121,
05 R156, 11 R298).
-/
namespace Sys2Proof.Machine

/-- The meaning of a lane instruction; none for an instruction of another kind. -/
def laneMeaning : Instr → Option (State → Out)
  | .vadd t f => some (execVadd t f)
  | .vsub t f => some (execVsub t f)
  | .vmul t f => some (execVmul t f)
  | .vmulh t f => some (execVmulh t f)
  | .vmad t f => some (execVmad t f)
  | .vmin t f => some (execVmin t f)
  | .vmax t f => some (execVmax t f)
  | .vand t f => some (execVand t f)
  | .vor t f => some (execVor t f)
  | .vxor t f => some (execVxor t f)
  | .vshl t f => some (execVshl t f)
  | .vshr t f => some (execVshr t f)
  | .vsra t f => some (execVsra t f)
  | .vbfx t f => some (execVbfx t f)
  | .vbfi t f => some (execVbfi t f)
  | .vsel t f => some (execVsel t f)
  | .vabs w f => some (execVabs w f)
  | .vneg w f => some (execVneg w f)
  | .vnot w f => some (execVnot w f)
  | .vclz w f => some (execVclz w f)
  | .vpopc w f => some (execVpopc w f)
  | .vmov w f => some (execVmov w f)
  | .vcmp t c f => some (execVcmp t c f)
  | .vimm f => some (execVimm f)
  | .vtid f => some (execVtid f)
  | .vtidWg f => some (execVtidWg f)
  | .vaff f => some (execVaff f)
  | .fadd t f => some (execFadd t f)
  | .fsub t f => some (execFsub t f)
  | .fmul t f => some (execFmul t f)
  | .ffma t f => some (execFfma t f)
  | .fmin t f => some (execFmin t f)
  | .fmax t f => some (execFmax t f)
  | .fabs t f => some (execFabs t f)
  | .fneg t f => some (execFneg t f)
  | .fcmp t f => some (execFcmp t f)
  | .fclass t f => some (execFclass t f)
  | .frcp t f => some (execFrcp t f)
  | .frsq t f => some (execFrsq t f)
  | .fsqrt t f => some (execFsqrt t f)
  | .fdiv t f => some (execFdiv t f)
  | .fexp2 t f => some (execFexp2 t f)
  | .flog2 t f => some (execFlog2 t f)
  | .ftanh t f => some (execFtanh t f)
  | .fscale t f => some (execFscale t f)
  | .cvt dst src f => some (execCvt dst src f)
  | .npack bf f => some (execNpack bf f)
  | .nunpack bf f => some (execNunpack bf f)
  | .vdot k f => some (execVdot k f)
  | .vdoth k f => some (execVdoth k f)
  | .mand f => some (execMand f)
  | .mor f => some (execMor f)
  | .mxor f => some (execMxor f)
  | .mnot f => some (execMnot f)
  | .mmov f => some (execMmov f)
  | .mcnt f => some (execMcnt f)
  | .mfirst f => some (execMfirst f)
  | .mfrom f => some (execMfrom f)
  | .rshuf f => some (execRshuf f)
  | .rshift f => some (execRshift f)
  | .rbcast f => some (execRbcast f)
  | .rscan f => some (execRscan f)
  | .rred f => some (execRred f)
  | .rredQ f => some (execRredQ f)
  | .gperm f => some (execGperm f)
  | .gscan f => some (execGscan f)
  | .gred f => some (execGred f)
  | .gbcast f => some (execGbcast f)
  | .gredQ f => some (execGredQ f)
  | .vld z f => some (execVld z f)
  | .vst z f => some (execVst z f)
  | .vldx z f => some (execVldx z f)
  | .vstx z f => some (execVstx z f)
  | .vlds z f => some (execVlds z f)
  | .acpy f => some (execAcpy f)
  | .vatom op z f => some (execVatom op z f)
  | .vred op z f => some (execVred op z f)
  | _ => none

/-- The lane instruction index that XLANE.ADDR names; past the section when it names none (02 R56). -/
def xlaneIndex (a : Agent) : Nat :=
  match a.code with
  | none => 0
  | some v =>
    let base := v.code + v.laneOff
    let x := a.trap.xlane.toNat
    if base ≤ x ∧ (x - base) % 12 = 0 then (x - base) / 12 else v.laneN

/-- The threads to replay: those in m15, or those that a fill has left over (R302). -/
def Agent.replayMask (a : Agent) : Mask := (a.lane.replay.getD (a.mask 15)) &&& allLive a.gsize

/-- The group as the replay sees it: out of its handler, at XSPC and the level of XPRIV, with the faulted instruction as
its only lane work, on the scalar registers as they stand. -/
def Agent.replaying (a : Agent) : Agent :=
  let m := a.replayMask
  let b : Block := { lidx := xlaneIndex a, mask := m, only := some m, s := a.regs.s, level := a.trap.level }
  { a with
    pc := a.trap.spc
    level := a.trap.level
    trap := { a.trap with hm := false, fv := false }
    lane := { a.lane with active := some b, queue := [], held := none, replay := none, parked := false, stalled := false } }


/-- The work held behind a fault once its replay has trapped: of the block of an illegal instruction the rest is dropped (R54). -/
def HeldLane.after (h : HeldLane) (c : Cause) : HeldLane := if c = cIllegal then { h with active := none } else h

/-- How the replay of `before`, which reached `t`, ends: a fill keeps the handler waiting at `fret`; a thread that
faults again enters the handler again, with the held work still held; else the group returns as by `sret`. -/
def fretEnd (before t : State) : State :=
  let a := before.cur
  match t.cur.status with
  | .waiting w =>
    t.onCur fun b =>
      { b with
        pc := a.pc
        level := a.level
        trap := a.trap
        lane := { b.lane with active := none, queue := [], held := a.lane.held, replay := b.lane.active.bind (·.only) }
        status := .waiting w }
  | _ =>
    if t.cur.trap.hm then t.onCur fun b => { b with lane := { b.lane with held := a.lane.held.map fun h => h.after t.cur.trap.cause } }
    else t.onCur fun b =>
      ({ b with
          trap := a.trap
          pc := a.pc
          lane := { b.lane with active := none, queue := a.lane.queue, held := a.lane.held } } : Agent).trapReturn

def outEnd (before : State) : Out → Out
  | .next t => .next (fretEnd before t)
  | o => o

/-- The replay of the instruction fetched, or of bits that name none. -/
def replayLane (s : State) (r : Except (BitVec 96) Instr) (t : State) : Out :=
  match r with
  | .error x => outEnd s (.next (laneTrap t t cIllegal (x.extractLsb' 32 64) t.cur.laneAddr 0 none))
  | .ok i =>
    match laneMeaning i with
    | some k => outEnd s (k t)
    | none => .next s

def execFret (s : State) : Out :=
  needLevel .s s (
    if !s.cur.trap.fv then illegal .fret s
    else whenDrained s (
      let t := s.onCur (·.replaying)
      match fetchLane (xlaneIndex s.cur) t with
      | .ok r t => replayLane s r t
      | .error (.trap c v ipa) t' => outEnd s (.next (laneTrap t (t.keepClaims t') c v t.cur.laneAddr s.cur.replayMask none ipa))
      | .error e t' => .next ((s.stopped t' e).onCur fun a => { a with lane := { a.lane with replay := some s.cur.replayMask } })))

end Sys2Proof.Machine
end

