-- ==== Sys2Proof/Machine/StoreEvents.lean ====
section
/-!
DEFINITION. STORE records (spec/07 Table 7.8; 14 R371, R373, R374).
-/
namespace Sys2Proof.Machine

def Rec.storeOp (r : Rec) : Nat := r.f 0 32 2
def Rec.drive (r : Rec) : Nat := r.f 0x10 0 8
def Rec.nsid (r : Rec) : Nat := r.f 0x10 32 32
def Rec.slba (r : Rec) : Nat := r.w 0x18
def Rec.blocks (r : Rec) : Nat := r.f 0x20 0 32

/-- The block size that an attachment reports. -/
def Attachment.size (a : Attachment) : Nat := 2 ^ a.lbas.toNat

/-- The storage key that a record names; none for an empty slot. -/
def State.storeKey (s : State) (o : Op) : Option Nat := (s.enclave? o.enc).bind fun e => storageKey e.sslots (o.record.f 0 37 4)

/-! ## STORE_RECORD_START -/

def rangesMeet (a b : Rec) : Bool := decide (a.slba < b.slba + b.blocks) && decide (b.slba < a.slba + a.blocks)

/-- An earlier record that has not completed holds a later one back: on an overlapping range, or a Write before a Flush
(R374). -/
def storeHolds (x : Op) (e : BitVec 16) (queue : Nat) (r : Rec) : Bool :=
  decide (x.kind = .record 3) && x.enc == e && x.queue == queue && decide (x.state ≠ .done) && x.record.nsid == r.nsid
    && (if r.storeOp = 2 then x.record.storeOp == 1
        else x.record.storeOp != 2 && x.record.drive == r.drive && rangesMeet x.record r)

/-- Why a record completes with an error at its start (R373). -/
def State.storeRefusal (s : State) (o : Op) : Option Cause :=
  let r := o.record
  match s.driveOf o.enc r.drive with
  | none => some cEngine
  | some a =>
    if r.w 0x28 % 256 ≠ 0 ∨ 2 ^ 32 < r.blocks * a.size then some cEngine
    else if r.storeOp ≠ 2 ∧ r.f 0 36 1 = 1 ∧ s.storeKey o = none then some cIntegrity
    else none

/-- Commands of at most 1 MiB from `i` on, up to `n` of them. -/
def storeCmds (total : Nat) : Nat → Nat → List (Nat × Nat)
  | 0, _ => []
  | n + 1, i => if total ≤ i then [] else (i, min 0x100000 (total - i)) :: storeCmds total n (i + min 0x100000 (total - i))

def Rec.storeLen (r : Rec) (a : Attachment) : Nat := r.blocks * a.size

/-- The entries that are free in the queue pair of an enclave's drive, whose depth is 256 (R371). -/
def State.pairRoom (s : State) (e : BitVec 16) (drive : Nat) : Nat :=
  256 - (((s.ops.filter fun o => decide (o.kind = .record 3) && o.enc == e && o.record.drive == drive).map fun o => o.cmds.length).foldl (· + ·) 0)

/-- Commands are issued until 32 are outstanding, as far as the queue pair has `room`; a flush is one command (R371, R373). A
transfer that begins takes the key of its slot (07 R220). -/
def Op.issueCmds (o : Op) (a : Attachment) (room : Nat) (key : Option Nat) : Op :=
  let o := if o.cmds.isEmpty then { o with key } else o
  if o.record.storeOp = 2 then { o with cmds := if room = 0 then [] else [(0, 0)] }
  else
    let l := storeCmds (o.record.storeLen a) (min room (32 - o.cmds.length)) o.sent
    { o with cmds := o.cmds ++ l, sent := o.sent + (l.map (·.2)).foldl (· + ·) 0 }

def State.storeBegin (s : State) (id : Nat) : State :=
  match s.op? id with
  | none => s
  | some o =>
    match s.storeRefusal o, s.driveOf o.enc o.record.drive with
    | some c, _ => s.endWork id c
    | none, some a =>
      let room := s.pairRoom o.enc o.record.drive
      let key := s.storeKey o
      s.onOp id fun o => ({ o with started := true, engine := some (a.port.toNat % 8 / 2) }).issueCmds a room key
    | none, none => s

/-- The base die whose storage engine takes a record: that of the drive's root port; engine e serves its ports 2e and 2e + 1
(R371). -/
def State.storeDie (s : State) (e : BitVec 16) (r : Rec) : Nat :=
  match s.driveOf e r.drive with | some a => if a.port.toNat < 8 then 4 else 5 | none => 4

def execStoreRecordStart (enc queue : Nat) (s : State) : Out :=
  let e := BitVec.ofNat 16 enc
  .next (match s.headRecord e queue 3 with
    | some r =>
      if s.ops.any fun x => storeHolds x e queue r then s
      else
        let d := s.storeDie e r
        let t := s.takeRecord e queue 3 d r
        (t.2.acquire d 6 r.clock).storeBegin t.1
    | none => s)

/-! ## STORE_COMMAND_COMPLETE -/

/-- The transfer of one command: a read writes BUF with the drive's bytes, a write hands the drive those of BUF; with CRYPT each
block is a unit under the key that the transfer began with (R373, 07 R220). -/
def storeMove (o : Op) (a : Attachment) (q : Nat × Nat) (data : List Byte) : X Unit := do
  let r := o.record
  let buf := bv64 (r.w 0x28 + q.1)
  if r.storeOp = 0 then do
    let bs := if r.f 0 36 1 = 1 then
        match o.key with
        | some k => xtsBlocks Config.xtsDec k a.size (q.2 / a.size) (r.slba + q.1 / a.size) data
        | none => []
      else data
    writeVa o.ctx buf bs
  else if r.storeOp = 1 then do
    let bs ← readVa o.ctx buf q.2
    let lba := r.slba + q.1 / a.size
    let out := if r.f 0 36 1 = 1 then
        match o.key with
        | some k => xtsBlocks Config.xtsEnc k a.size (q.2 / a.size) lba bs
        | none => []
      else bs
    X.update fun s => s.onOp o.id fun o => { o with written := o.written ++ [(lba, out)] }
  else pure ()

/-- The bytes completed from the start on: all before the first command that is outstanding. -/
def Op.contiguous (o : Op) : Nat := (o.cmds.map (·.1)).foldl min o.sent

/-- One command has completed: its bytes have moved and are counted once by a barrier in byte mode, and the record ends after the
last, which arrives once on a barrier in arrival mode. -/
def storeDone (o : Op) (a : Attachment) (q : Nat × Nat) (data : List Byte) : X Unit := do
  let r := o.record
  storeMove o a q data
  let rest := { o with cmds := o.cmds.filter (· != q) }
  let isLast := rest.cmds.isEmpty && (r.storeOp == 2 || decide (r.storeLen a ≤ rest.sent))
  let s ← get
  if r.f 0 34 1 = 1 ∧ (isLast || !o.landed.contains q.1) = true then do
    let b ← engineBarrier o.ctx (bv64 (r.w 0x30))
    if b.2.1.bytesMode && o.landed.contains q.1 then pure ()
    else arriveBytes o.ctx (bv64 (r.w 0x30)) (r.f 0 35 1 == 1) b.2.1.orderScope (s.partOf o.enc) q.2 isLast
  X.update fun s => s.onOp o.id fun o =>
    { o with cmds := rest.cmds, progress := Op.contiguous rest, landed := o.landed ++ [q.1] }
  if isLast then X.update fun s => s.endWork o.id 0

/-- One of the outstanding commands of a record completes, by an open choice. -/
def State.storeStep (s : State) (o : Op) (a : Attachment) (ok : Bool) (data : List Byte) : State :=
  let o := if o.cmds.length < 32 ∧ (o.record.storeOp ≠ 2 ∨ o.cmds = []) then
      o.issueCmds a (s.pairRoom o.enc o.record.drive) (s.storeKey o) else o
  let s := s.onOp o.id fun _ => o
  let d := s.draw
  match o.cmds[d.1 % o.cmds.length]? with
  | none => s
  | some q =>
    let s := d.2
    if !ok || (o.record.storeOp == 0 && data.length != q.2) then s.endWork o.id cEngine
    else if o.record.f 0 36 1 = 1 ∧ o.record.storeOp ≠ 2 ∧ o.key = none then s.endWork o.id cIntegrity
    else s.opEvent o.id (storeDone o a q data)

def execStoreCommandComplete (op : Nat) (ok : Bool) (data : List Byte) (s : State) : Out :=
  .next (match s.op? op with
    | some o =>
      if o.kind = .record 3 ∧ o.live = true then
        match s.driveOf o.enc o.record.drive with
        | some a => s.storeStep o a ok data
        | none => s.endWork op cEngine
      else s
    | none => s)

end Sys2Proof.Machine
end

