-- ==== Sys2Proof/Machine/StreamEvents.lean ====
section
/-!
DEFINITION. Streams and the receipt of flits (spec/14 R359 to R367).
-/
namespace Sys2Proof.Machine

/-! ## STREAM_OPEN and STREAM_CLOSE (R359, R360) -/

def asciiLink : List Byte := [0x4E, 0x5A, 0x39, 0x36, 0x4C, 0x49, 0x4E, 0x4B]
def asciiNext : List Byte := [0x4E, 0x5A, 0x39, 0x36, 0x4E, 0x45, 0x58, 0x54]

/-- K(i + 1) from K(i) (R364). -/
def nextKey (k : Nat) : Nat := Config.keyOf (shake32 (Config.keyBytes k ++ asciiNext))

/-- K0 of a direction: `lower` tells the one from the lower MID; the indices come in that order too. -/
def firstKey (ss : List Byte) (lower : Bool) (mid pmid : Nat) (k pidx : Nat) : Nat :=
  let ix := if mid < pmid then natBytes k 2 ++ natBytes pidx 2 else natBytes pidx 2 ++ natBytes k 2
  Config.keyOf (shake32 (ss ++ asciiLink ++ [if lower then 0 else 1] ++ ix))

/-- A port that carries flits: a fabric port that is up, or up and degraded. -/
def State.fabricUp (s : State) (p : Nat) : Bool :=
  let e := s.links.ports.toList.getD p {}
  s.fabricPort p && (decide (e.state = 2) || decide (e.state = 3))

/-- The lowest-numbered port that leads to a module. -/
def State.portTo (s : State) (mid : BitVec 8) : Option Nat :=
  (List.range 18).find? fun p => s.fabricUp p && (s.links.ports.toList.getD p {}).peerMid == mid

/-- The checks of steps 1 and 2. -/
def State.openAdmitted (s : State) (st : Stream) (peer : PeerEntry) : Bool :=
  peer.isMatch &&
    if st.lenc = 0 && st.penc = 0 then true
    else
      let tag := (s.layout.entries.getD (s.partOf st.lenc) {}).tenantTag
      (match s.enclave? st.lenc with | some e => decide (e.state = .running) | none => false)
        && st.penc != 0 && peer.running && tag == peer.tag && tag != 0

def execStreamOpen (k : Nat) (peer : PeerEntry) (s : State) : Out :=
  let st := s.stream k
  .next (if st.state = stOpening then
      match (if s.openAdmitted st peer then s.portTo st.pmid else none) with
      | none => s.onStream k fun x => { x with state := stRefused }
      | some p =>
        let mid := Config.mid.toNat
        let key := fun lower => firstKey peer.secret lower mid st.pmid.toNat k peer.pidx.toNat
        let tx := key (decide (mid < st.pmid.toNat))
        let rx := key (decide (¬ mid < st.pmid.toNat))
        s.onStream k fun x =>
          { x with
            state := stUp, port := BitVec.ofNat 5 p, epoch := 0, pidx := peer.pidx, ctr := 0, txCur := some tx
            txNext := some (nextKey tx), txOld := none, kept := [], rxEpoch := 0, rxCtr := 0, rxCur := some rx
            rxNext := some (nextKey rx), failures := 0, naks := 0, discard := [] }
    else s)

def execStreamClose (k : Nat) (s : State) : Out := .next (s.closeStream k)

/-! ## DATA and ARRIVE (R366, R367) -/

/-- Applies the bytes and the arrival of a DATA flit. -/
def applyData (c : Ctx) (part : Nat) (b : List Byte) : X Unit := do
  let w := wordAt b 8
  writeVa c (bv64 (wordAt b 0)) ((b.drop 0x20).take (fieldN w 0 8))
  if bitN w 8 then arriveBytes c (bv64 (wordAt b 0x10)) (bitN w 9) (fieldN w 12 4) part (fieldN w 0 8) (bitN w 10) .w

/-- The FAULT flit for a record tag: RECTAG, CAUSE and the faulting DST (its layout is the model's: log 22). -/
def faultPayload (tag : Nat) (c : Cause) (dst : Nat) : List Byte := natBytes tag 8 ++ natBytes c.toNat 8 ++ natBytes dst 8

/-- An accepted DATA flit; none while it has to wait, for a fill or for room to send a FAULT flit. -/
def State.takeData (s : State) (port k : Nat) (b : List Byte) : Option State :=
  let st := s.stream k
  let w := wordAt b 8
  let tag := fieldN w 16 48
  if bitN w 11 then some (s.takeColl k b)
  else if st.discard.contains tag || st.lenc == 0 then some s
  else
    let c := engineCtx st.lenc (portDie port) 0
    match applyData c (s.partOf st.lenc) b (s.fromPeers c.die) with
    | .ok _ t => some t
    | .error (.trap e _ _) t =>
      if s.canSend k then
        some (((s.keepClaims t).onStream k fun x => { x with discard := x.discard ++ [tag] }).sendFlit k tFault
          (faultPayload tag e (wordAt b 0)))
      else none
    | .error _ _ => none

/-- What is left of a state where a flit has to wait: a fill that the translation of its effects `x` has started. -/
def State.flitFills (s : State) (f : Flit) (x : Ctx → Nat → List Byte → X Unit) : State :=
  let st := s.stream f.rstream.toNat
  match s.rxPayload f with
  | some b =>
    if s.expected f then
      match x (engineCtx st.lenc (portDie f.port) 0) (s.partOf st.lenc) b s with
      | .error (.fill ..) t => s.keepWalk t
      | _ => s
    else s
  | none => s

def execDataFlitReceive (f : Flit) (s : State) : Out :=
  .next (if f.typ = tData then
      (s.flitFills f fun c part b => if bitN (wordAt b 8) 11 then pure () else applyData c part b).receive f fun s k b =>
        s.takeData f.port k b
    else s)

/-- Arrives once on BAR with PHASE. -/
def applyArrive (c : Ctx) (part : Nat) (b : List Byte) : X Unit := do
  let va := bv64 (wordAt b 0)
  let r ← engineBarrier c va .w
  let s ← get
  engineArrive c va r 1 (bitN (wordAt b 8) 0) (s.clampFor part r.2.1.orderScope)

/-- An accepted ARRIVE flit; one that faults is discarded, and one whose page is being filled waits. -/
def State.takeArrive (s : State) (port k : Nat) (b : List Byte) : Option State :=
  let st := s.stream k
  let c := engineCtx st.lenc (portDie port) 0
  match applyArrive c (s.partOf st.lenc) b (s.fromPeers c.die) with
  | .ok _ t => some t
  | .error (.trap ..) t => some (s.keepClaims t)
  | .error _ _ => none

def execArriveFlitReceive (f : Flit) (s : State) : Out :=
  .next (if f.typ = tArrive then (s.flitFills f applyArrive).receive f fun s k b => s.takeArrive f.port k b else s)

/-! ## Epochs (R364) -/

/-- The receiver moves to the next epoch. -/
def Stream.rxNextEpoch (x : Stream) : Stream :=
  { x with rxEpoch := x.rxEpoch + 1, rxCtr := 0, rxCur := x.rxNext, rxNext := x.rxNext.map nextKey }

def execMarkerReceive (f : Flit) (s : State) : Out :=
  .next (if f.typ = tMarker then
      let t := s.receive f fun s _ _ => some s
      if (t.stream f.rstream.toNat).rxCtr = (s.stream f.rstream.toNat).rxCtr then t
      else t.onStream f.rstream.toNat Stream.rxNextEpoch
    else s)

/-- The flit with CTR 0xFFFF_F000 is a MARKER under the old key; the sender's next flit is of the next epoch. -/
def execKeyEpochMarker (k : Nat) (s : State) : Out :=
  let st := s.stream k
  .next (if st.state = stUp ∧ st.ctr = markerCtr ∧ st.txCur.isSome ∧ s.portKept st.port.toNat < 1024 then
      ((s.sendFlit k tMarker (natBytes (st.epoch.toNat + 1) 8)).onStream k fun x =>
        { x with epoch := x.epoch + 1, ctr := 0, txOld := x.txCur, txCur := x.txNext, txNext := x.txNext.map nextKey }).flushRdv
    else s)

/-! ## FAULT (R367) -/

/-- Where in a copy the byte lies that goes to an address: the first flit's start, of those sent, that leads there. -/
def faultOffset (r : Rec) (dst : Nat) : Nat → Nat → Option Nat
  | 0, _ => none
  | k + 1, i =>
    if r.copyLen ≤ i then none
    else if (r.dstAt i).toNat = dst then some i
    else faultOffset r dst k (i + min (min 192 (r.copyLen - i)) (r.rowLen - i % r.rowLen))

/-- The record suspends with the cause and the DST of the flit, PROGRESS exact. -/
def State.remoteFault (s : State) (k : Nat) (b : List Byte) : State :=
  match s.ops.find? fun o => decide (o.kind = .record 1) && o.stream == some k && o.rectag == wordAt b 0
      && (decide (o.state = .running) || decide (o.state = .waiting)) with
  | some o =>
    let p := (faultOffset o.record (wordAt b 0x10) (o.sent + 1) 0).getD o.progress
    let s := s.onStream k fun x => { x with kept := x.kept.map fun y => if y.op = some o.id then { y with op := none } else y }
    (s.onOp o.id fun o => { o with progress := p, sent := p }).faultOp o.id (BitVec.ofNat 8 (wordAt b 8)) (bv64 (wordAt b 0x10))
  | none => s

def execFaultFlitReceive (f : Flit) (s : State) : Out :=
  .next (if f.typ = tFault then s.receive f fun s k b => some (s.remoteFault k b) else s)

/-! ## ACK and NAK (R363) -/

/-- The stream, EPOCH and CTR that an ACK or NAK names, when its port's link key opens it. -/
def State.controlOf (s : State) (f : Flit) : Option (Nat × BitVec 32 × BitVec 32) :=
  if f.fecBad then none
  else match Flit.openWith f (s.links.ports.toList.getD f.port {}).linkKey (Flit.controlIv f) with
    | some b =>
      let k := wordAt b 0
      let st := s.stream k
      if st.state = stUp ∧ st.port.toNat = f.port then
        some (k, BitVec.ofNat 32 (wordAt b 8 / 2 ^ 32), BitVec.ofNat 32 (wordAt b 8))
      else none
    | none => none

/-- A kept flit is acknowledged: the bytes of a record have been applied at the peer, and after the last a copy has done its
work (R365). -/
def State.acked (s : State) (k : Nat) (y : Kept) : State :=
  let s := if y.flit.typ = tMarker then s.onStream k fun x => { x with txOld := none } else s
  match y.op.bind s.op? with
  | some o =>
    if o.kind = .record 1 ∧ o.stream = some k ∧ (o.state = .running ∨ o.state = .waiting) then
      let t := s.onOp o.id fun o => { o with progress := o.progress + y.nbytes }
      if y.isLast then t.endWork o.id 0 else t
    else if o.kind = .record 4 ∧ o.result.isNone then s.onOp o.id fun o => { o with progress := o.progress + y.nbytes }
    else s
  | none => s

/-- The kept flits up to the one named, if it is kept. -/
def keptThrough (l : List Kept) (epoch ctr : BitVec 32) : List Kept :=
  match l.findIdx? fun y => y.flit.epoch == epoch && y.flit.ctr == ctr with
  | some i => l.take (i + 1)
  | none => []

def execAckReceive (f : Flit) (s : State) : Out :=
  let s := s.countFec f
  .next (match (if f.typ = tAck then s.controlOf f else none) with
    | some (k, e, c) =>
      let l := keptThrough (s.stream k).kept e c
      (l.foldl (fun s y => s.acked k y)
        (s.onStream k fun x => { x with kept := x.kept.drop l.length, naks := if l = [] then x.naks else 0 })).flushRdv
    | none => s)

/-- The flits from the one named on are sent again, byte for byte; the third NAK in a row takes the stream down (R365). -/
def execNakReceive (f : Flit) (s : State) : Out :=
  let s := s.countFec f
  .next (match (if f.typ = tNak then s.controlOf f else none) with
    | some (k, e, c) =>
      let st := s.stream k
      let n := st.kept.length - ((keptThrough st.kept e c).length - 1)
      if (keptThrough st.kept e c).isEmpty then s
      else if 3 ≤ st.naks + 1 then s.streamDown k cIntegrity
      else (s.onStream k fun x => { x with naks := x.naks + 1 }).onPort st.port.toNat fun p =>
        { p with retries := p.retries + BitVec.ofNat 32 n }
    | none => s)

/-! ## IDLE and unlisted types (R362) -/

def execIdleFlitReceive (f : Flit) (s : State) : Out := .next (s.countFec f)

/-- Whether Table 14.4 lists a type. -/
def listedType (t : BitVec 4) : Bool := decide (t.toNat ≤ 5) || decide (t = tAck) || decide (t = tNak)

def execUnknownFlitDiscard (f : Flit) (s : State) : Out :=
  .next (if listedType f.typ then s else s.bumpFec f.port)

end Sys2Proof.Machine
end

