-- ==== Sys2Proof/Machine/Dispatch.lean ====
section
/-!
DEFINITION. The meaning of every constructor of `Instr`: one call of one definition each.
-/
namespace Sys2Proof.Machine

def exec (i : Instr) (s : State) : Host.Outcome State Fault Refusal :=
  match i with
  | .add d a b => Sys2Proof.Machine.execAdd d a b s
  | .sub d a b => Sys2Proof.Machine.execSub d a b s
  | .mul d a b => Sys2Proof.Machine.execMul d a b s
  | .mulh d a b => Sys2Proof.Machine.execMulh d a b s
  | .mulhn d a b => Sys2Proof.Machine.execMulhn d a b s
  | .div d a b => Sys2Proof.Machine.execDiv d a b s
  | .divn d a b => Sys2Proof.Machine.execDivn d a b s
  | .rem d a b => Sys2Proof.Machine.execRem d a b s
  | .remn d a b => Sys2Proof.Machine.execRemn d a b s
  | .min d a b => Sys2Proof.Machine.execMin d a b s
  | .max d a b => Sys2Proof.Machine.execMax d a b s
  | .minn d a b => Sys2Proof.Machine.execMinn d a b s
  | .maxn d a b => Sys2Proof.Machine.execMaxn d a b s
  | .and d a b => Sys2Proof.Machine.execAnd d a b s
  | .or d a b => Sys2Proof.Machine.execOr d a b s
  | .xor d a b => Sys2Proof.Machine.execXor d a b s
  | .shl d a b => Sys2Proof.Machine.execShl d a b s
  | .shr d a b => Sys2Proof.Machine.execShr d a b s
  | .sra d a b => Sys2Proof.Machine.execSra d a b s
  | .rotl d a b => Sys2Proof.Machine.execRotl d a b s
  | .abs d a => Sys2Proof.Machine.execAbs d a s
  | .clz d a => Sys2Proof.Machine.execClz d a s
  | .ctz d a => Sys2Proof.Machine.execCtz d a s
  | .popc d a => Sys2Proof.Machine.execPopc d a s
  | .sext8 d a => Sys2Proof.Machine.execSext8 d a s
  | .sext16 d a => Sys2Proof.Machine.execSext16 d a s
  | .sext32 d a => Sys2Proof.Machine.execSext32 d a s
  | .zext8 d a => Sys2Proof.Machine.execZext8 d a s
  | .zext16 d a => Sys2Proof.Machine.execZext16 d a s
  | .zext32 d a => Sys2Proof.Machine.execZext32 d a s
  | .cmp d a b c => Sys2Proof.Machine.execCmp d a b c s
  | .sel d a b c => Sys2Proof.Machine.execSel d a b c s
  | .addi d a imm => Sys2Proof.Machine.execAddi d a imm s
  | .andi d a imm => Sys2Proof.Machine.execAndi d a imm s
  | .ori d a imm => Sys2Proof.Machine.execOri d a imm s
  | .xori d a imm => Sys2Proof.Machine.execXori d a imm s
  | .shli d a c => Sys2Proof.Machine.execShli d a c s
  | .shri d a c => Sys2Proof.Machine.execShri d a c s
  | .srai d a c => Sys2Proof.Machine.execSrai d a c s
  | .cmpi d a c imm => Sys2Proof.Machine.execCmpi d a c imm s
  | .bfx d a l p => Sys2Proof.Machine.execBfx d a l p s
  | .bfxS d a l p => Sys2Proof.Machine.execBfxS d a l p s
  | .bfi d a l p => Sys2Proof.Machine.execBfi d a l p s
  | .lui d imm => Sys2Proof.Machine.execLui d imm s
  | .li d imm => Sys2Proof.Machine.execLi d imm s
  | .liTwoWord d u => Sys2Proof.Machine.execLiTwoWord d u s
  | .lea d a imm => Sys2Proof.Machine.execLea d a imm s
  | .leaPc d imm => Sys2Proof.Machine.execLeaPc d imm s
  | .br o => Sys2Proof.Machine.execBr o s
  | .call o => Sys2Proof.Machine.execCall o s
  | .bz d o => Sys2Proof.Machine.execBz d o s
  | .bnz d o => Sys2Proof.Machine.execBnz d o s
  | .loop d o => Sys2Proof.Machine.execLoop d o s
  | .bmask c k o => Sys2Proof.Machine.execBmask c k o s
  | .jtab d o => Sys2Proof.Machine.execJtab d o s
  | .lpad l => Sys2Proof.Machine.execLpad l s
  | .bccEq d a o => Sys2Proof.Machine.execBccEq d a o s
  | .bccNe d a o => Sys2Proof.Machine.execBccNe d a o s
  | .bccLt d a o => Sys2Proof.Machine.execBccLt d a o s
  | .bccGe d a o => Sys2Proof.Machine.execBccGe d a o s
  | .bccLtn d a o => Sys2Proof.Machine.execBccLtn d a o s
  | .bccGen d a o => Sys2Proof.Machine.execBccGen d a o s
  | .bcci d c imm o => Sys2Proof.Machine.execBcci d c imm o s
  | .nop => Sys2Proof.Machine.execNop s
  | .halt => Sys2Proof.Machine.execHalt s
  | .yield => Sys2Proof.Machine.execYield s
  | .ret => Sys2Proof.Machine.execRet s
  | .sret => Sys2Proof.Machine.execSret s
  | .fret => Sys2Proof.Machine.execFret s
  | .ecall => Sys2Proof.Machine.execEcall s
  | .trap a => Sys2Proof.Machine.execTrap a s
  | .lpark => Sys2Proof.Machine.execLpark s
  | .rdgrant d => Sys2Proof.Machine.execRdgrant d s
  | .setw a => Sys2Proof.Machine.execSetw a s
  | .qread d a q => Sys2Proof.Machine.execQread d a q s
  | .lrun inv k l => Sys2Proof.Machine.execLrun inv k l s
  | .csrr d r => Sys2Proof.Machine.execCsrr d r s
  | .csrw d a r => Sys2Proof.Machine.execCsrw d a r s
  | .csrs d a r => Sys2Proof.Machine.execCsrs d a r s
  | .csrc d a r => Sys2Proof.Machine.execCsrc d a r s
  | .ldsI8 d a imm => Sys2Proof.Machine.execLdsI8 d a imm s
  | .ldsN8 d a imm => Sys2Proof.Machine.execLdsN8 d a imm s
  | .ldsI16 d a imm => Sys2Proof.Machine.execLdsI16 d a imm s
  | .ldsN16 d a imm => Sys2Proof.Machine.execLdsN16 d a imm s
  | .ldsI32 d a imm => Sys2Proof.Machine.execLdsI32 d a imm s
  | .ldsN32 d a imm => Sys2Proof.Machine.execLdsN32 d a imm s
  | .ldsI64 d a imm => Sys2Proof.Machine.execLdsI64 d a imm s
  | .stsI8 d a imm => Sys2Proof.Machine.execStsI8 d a imm s
  | .stsI16 d a imm => Sys2Proof.Machine.execStsI16 d a imm s
  | .stsI32 d a imm => Sys2Proof.Machine.execStsI32 d a imm s
  | .stsI64 d a imm => Sys2Proof.Machine.execStsI64 d a imm s
  | .ldacqI32 d a sc => Sys2Proof.Machine.execLdacqI32 d a sc s
  | .ldacqN32 d a sc => Sys2Proof.Machine.execLdacqN32 d a sc s
  | .ldacqI64 d a sc => Sys2Proof.Machine.execLdacqI64 d a sc s
  | .strelI32 a b sc => Sys2Proof.Machine.execStrelI32 a b sc s
  | .strelI64 a b sc => Sys2Proof.Machine.execStrelI64 a b sc s
  | .fenceAcq sc => Sys2Proof.Machine.execFenceAcq sc s
  | .fenceRel sc => Sys2Proof.Machine.execFenceRel sc s
  | .fenceAr sc => Sys2Proof.Machine.execFenceAr sc s
  | .cwb a b => Sys2Proof.Machine.execCwb a b s
  | .cinv a b => Sys2Proof.Machine.execCinv a b s
  | .cdis a b => Sys2Proof.Machine.execCdis a b s
  | .mcas d a => Sys2Proof.Machine.execMcas d a s
  | .atomAdd d a b w o sc => Sys2Proof.Machine.execAtomAdd d a b w o sc s
  | .atomAnd d a b w o sc => Sys2Proof.Machine.execAtomAnd d a b w o sc s
  | .atomOr d a b w o sc => Sys2Proof.Machine.execAtomOr d a b w o sc s
  | .atomXor d a b w o sc => Sys2Proof.Machine.execAtomXor d a b w o sc s
  | .atomMin d a b w o sc => Sys2Proof.Machine.execAtomMin d a b w o sc s
  | .atomMax d a b w o sc => Sys2Proof.Machine.execAtomMax d a b w o sc s
  | .atomMinn d a b w o sc => Sys2Proof.Machine.execAtomMinn d a b w o sc s
  | .atomMaxn d a b w o sc => Sys2Proof.Machine.execAtomMaxn d a b w o sc s
  | .atomSwap d a b w o sc => Sys2Proof.Machine.execAtomSwap d a b w o sc s
  | .atomCas d a b w o sc => Sys2Proof.Machine.execAtomCas d a b w o sc s
  | .twait d a b => Sys2Proof.Machine.execTwait d a b s
  | .tread d a => Sys2Proof.Machine.execTread d a s
  | .tsig a b => Sys2Proof.Machine.execTsig a b s
  | .cbatch d => Sys2Proof.Machine.execCbatch d s
  | .abinit a b => Sys2Proof.Machine.execAbinit a b s
  | .aarrive d a b => Sys2Proof.Machine.execAarrive d a b s
  | .await d a b => Sys2Proof.Machine.execAwait d a b s
  | .wgbar d a b => Sys2Proof.Machine.execWgbar d a b s
  | .hbar d a b => Sys2Proof.Machine.execHbar d a b s
  | .kick d a b => Sys2Proof.Machine.execKick d a b s
  | .btres d a b => Sys2Proof.Machine.execBtres d a b s
  | .btalloc d a b => Sys2Proof.Machine.execBtalloc d a b s
  | .btfork d a b => Sys2Proof.Machine.execBtfork d a b s
  | .btcow d a b => Sys2Proof.Machine.execBtcow d a b s
  | .btdemote d a b => Sys2Proof.Machine.execBtdemote d a b s
  | .btrel d a b => Sys2Proof.Machine.execBtrel d a b s
  | .eresume d a b => Sys2Proof.Machine.execEresume d a b s
  | .tstat d a => Sys2Proof.Machine.execTstat d a s
  | .ecreate d a => Sys2Proof.Machine.execEcreate d a s
  | .edestroy d a => Sys2Proof.Machine.execEdestroy d a s
  | .eaddpg d a => Sys2Proof.Machine.execEaddpg d a s
  | .eextend d a => Sys2Proof.Machine.execEextend d a s
  | .eevict d a => Sys2Proof.Machine.execEevict d a s
  | .eload d a => Sys2Proof.Machine.execEload d a s
  | .kimport d a => Sys2Proof.Machine.execKimport d a s
  | .kerase a => Sys2Proof.Machine.execKerase a s
  | .potq d a => Sys2Proof.Machine.execPotq d a s
  | .savev d a b => Sys2Proof.Machine.execSavev d a b s
  | .restv d b => Sys2Proof.Machine.execRestv d b s
  | .sdone a => Sys2Proof.Machine.execSdone a s
  | .vadd t f => Sys2Proof.Machine.execVadd t f s
  | .vsub t f => Sys2Proof.Machine.execVsub t f s
  | .vmul t f => Sys2Proof.Machine.execVmul t f s
  | .vmulh t f => Sys2Proof.Machine.execVmulh t f s
  | .vmad t f => Sys2Proof.Machine.execVmad t f s
  | .vmin t f => Sys2Proof.Machine.execVmin t f s
  | .vmax t f => Sys2Proof.Machine.execVmax t f s
  | .vand t f => Sys2Proof.Machine.execVand t f s
  | .vor t f => Sys2Proof.Machine.execVor t f s
  | .vxor t f => Sys2Proof.Machine.execVxor t f s
  | .vshl t f => Sys2Proof.Machine.execVshl t f s
  | .vshr t f => Sys2Proof.Machine.execVshr t f s
  | .vsra t f => Sys2Proof.Machine.execVsra t f s
  | .vbfx t f => Sys2Proof.Machine.execVbfx t f s
  | .vbfi t f => Sys2Proof.Machine.execVbfi t f s
  | .vsel t f => Sys2Proof.Machine.execVsel t f s
  | .vabs w f => Sys2Proof.Machine.execVabs w f s
  | .vneg w f => Sys2Proof.Machine.execVneg w f s
  | .vnot w f => Sys2Proof.Machine.execVnot w f s
  | .vclz w f => Sys2Proof.Machine.execVclz w f s
  | .vpopc w f => Sys2Proof.Machine.execVpopc w f s
  | .vmov w f => Sys2Proof.Machine.execVmov w f s
  | .vcmp t c f => Sys2Proof.Machine.execVcmp t c f s
  | .vimm f => Sys2Proof.Machine.execVimm f s
  | .vtid f => Sys2Proof.Machine.execVtid f s
  | .vtidWg f => Sys2Proof.Machine.execVtidWg f s
  | .vaff f => Sys2Proof.Machine.execVaff f s
  | .fadd t f => Sys2Proof.Machine.execFadd t f s
  | .fsub t f => Sys2Proof.Machine.execFsub t f s
  | .fmul t f => Sys2Proof.Machine.execFmul t f s
  | .ffma t f => Sys2Proof.Machine.execFfma t f s
  | .fmin t f => Sys2Proof.Machine.execFmin t f s
  | .fmax t f => Sys2Proof.Machine.execFmax t f s
  | .fabs t f => Sys2Proof.Machine.execFabs t f s
  | .fneg t f => Sys2Proof.Machine.execFneg t f s
  | .fcmp t f => Sys2Proof.Machine.execFcmp t f s
  | .fclass t f => Sys2Proof.Machine.execFclass t f s
  | .frcp t f => Sys2Proof.Machine.execFrcp t f s
  | .frsq t f => Sys2Proof.Machine.execFrsq t f s
  | .fsqrt t f => Sys2Proof.Machine.execFsqrt t f s
  | .fdiv t f => Sys2Proof.Machine.execFdiv t f s
  | .fexp2 t f => Sys2Proof.Machine.execFexp2 t f s
  | .flog2 t f => Sys2Proof.Machine.execFlog2 t f s
  | .ftanh t f => Sys2Proof.Machine.execFtanh t f s
  | .fscale t f => Sys2Proof.Machine.execFscale t f s
  | .cvt dst src f => Sys2Proof.Machine.execCvt dst src f s
  | .npack bf f => Sys2Proof.Machine.execNpack bf f s
  | .nunpack bf f => Sys2Proof.Machine.execNunpack bf f s
  | .vdot k f => Sys2Proof.Machine.execVdot k f s
  | .vdoth k f => Sys2Proof.Machine.execVdoth k f s
  | .mand f => Sys2Proof.Machine.execMand f s
  | .mor f => Sys2Proof.Machine.execMor f s
  | .mxor f => Sys2Proof.Machine.execMxor f s
  | .mnot f => Sys2Proof.Machine.execMnot f s
  | .mmov f => Sys2Proof.Machine.execMmov f s
  | .mcnt f => Sys2Proof.Machine.execMcnt f s
  | .mfirst f => Sys2Proof.Machine.execMfirst f s
  | .mfrom f => Sys2Proof.Machine.execMfrom f s
  | .rshuf f => Sys2Proof.Machine.execRshuf f s
  | .rshift f => Sys2Proof.Machine.execRshift f s
  | .rbcast f => Sys2Proof.Machine.execRbcast f s
  | .rscan f => Sys2Proof.Machine.execRscan f s
  | .rred f => Sys2Proof.Machine.execRred f s
  | .rredQ f => Sys2Proof.Machine.execRredQ f s
  | .gperm f => Sys2Proof.Machine.execGperm f s
  | .gscan f => Sys2Proof.Machine.execGscan f s
  | .gred f => Sys2Proof.Machine.execGred f s
  | .gbcast f => Sys2Proof.Machine.execGbcast f s
  | .gredQ f => Sys2Proof.Machine.execGredQ f s
  | .vld z f => Sys2Proof.Machine.execVld z f s
  | .vst z f => Sys2Proof.Machine.execVst z f s
  | .vldx z f => Sys2Proof.Machine.execVldx z f s
  | .vstx z f => Sys2Proof.Machine.execVstx z f s
  | .vlds z f => Sys2Proof.Machine.execVlds z f s
  | .acpy f => Sys2Proof.Machine.execAcpy f s
  | .vatom op z f => Sys2Proof.Machine.execVatom op z f s
  | .vred op z f => Sys2Proof.Machine.execVred op z f s
  | .laneBlockIssueStart agent => Sys2Proof.Machine.execLaneBlockIssueStart agent s
  | .lrunDispatchRoom agent => Sys2Proof.Machine.execLrunDispatchRoom agent s
  | .laneResultReturn agent which => Sys2Proof.Machine.execLaneResultReturn agent which s
  | .counterStallEnd agent => Sys2Proof.Machine.execCounterStallEnd agent s
  | .laneStreamDrained agent => Sys2Proof.Machine.execLaneStreamDrained agent s
  | .bmaskWaitEnd agent => Sys2Proof.Machine.execBmaskWaitEnd agent s
  | .qreadSequenceReached agent => Sys2Proof.Machine.execQreadSequenceReached agent s
  | .twaitSatisfied agent => Sys2Proof.Machine.execTwaitSatisfied agent s
  | .awaitSatisfied agent => Sys2Proof.Machine.execAwaitSatisfied agent s
  | .wgbarComplete wg => Sys2Proof.Machine.execWgbarComplete wg s
  | .hbarComplete launch herd => Sys2Proof.Machine.execHbarComplete launch herd s
  | .acpyChunkLands chunk => Sys2Proof.Machine.execAcpyChunkLands chunk s
  | .storageFillEnd fill drive => Sys2Proof.Machine.execStorageFillEnd fill drive s
  | .spillRefill enc queue => Sys2Proof.Machine.execSpillRefill enc queue s
  | .launchDispatchStart part => Sys2Proof.Machine.execLaunchDispatchStart part s
  | .rangeDeal launch die => Sys2Proof.Machine.execRangeDeal launch die s
  | .workgroupAdmit launch die => Sys2Proof.Machine.execWorkgroupAdmit launch die s
  | .swapOut wg => Sys2Proof.Machine.execSwapOut wg s
  | .swappedWorkgroupReady wg => Sys2Proof.Machine.execSwappedWorkgroupReady wg s
  | .groupAged agent => Sys2Proof.Machine.execGroupAged agent s
  | .budgetWindow => Sys2Proof.Machine.execBudgetWindow s
  | .timeSliceEnd part next => Sys2Proof.Machine.execTimeSliceEnd part next s
  | .saveRoutineOverrun agent => Sys2Proof.Machine.execSaveRoutineOverrun agent s
  | .restoreRoutineOverrun agent => Sys2Proof.Machine.execRestoreRoutineOverrun agent s
  | .groupResume agent core => Sys2Proof.Machine.execGroupResume agent core s
  | .donePoll part => Sys2Proof.Machine.execDonePoll part s
  | .dieFence die => Sys2Proof.Machine.execDieFence die s
  | .linePoison line inSecond => Sys2Proof.Machine.execLinePoison line inSecond s
  | .portDegrade port lanes => Sys2Proof.Machine.execPortDegrade port lanes s
  | .portTrained port mid => Sys2Proof.Machine.execPortTrained port mid s
  | .tileRecordTake enc queue => Sys2Proof.Machine.execTileRecordTake enc queue s
  | .tileTaskIssue op => Sys2Proof.Machine.execTileTaskIssue op s
  | .mmaTask op => Sys2Proof.Machine.execMmaTask op s
  | .attnTask op => Sys2Proof.Machine.execAttnTask op s
  | .epiTask op => Sys2Proof.Machine.execEpiTask op s
  | .engineFaultSuspend op => Sys2Proof.Machine.execEngineFaultSuspend op s
  | .heldFaultRecordWrite enc => Sys2Proof.Machine.execHeldFaultRecordWrite enc s
  | .recordCompleteSignal op => Sys2Proof.Machine.execRecordCompleteSignal op s
  | .copyRecordStart enc queue => Sys2Proof.Machine.execCopyRecordStart enc queue s
  | .copyUnitLands op => Sys2Proof.Machine.execCopyUnitLands op s
  | .storeRecordStart enc queue => Sys2Proof.Machine.execStoreRecordStart enc queue s
  | .storeCommandComplete op ok data => Sys2Proof.Machine.execStoreCommandComplete op ok data s
  | .collRendezvous enc queue op => Sys2Proof.Machine.execCollRendezvous enc queue op s
  | .rdvFlitReceive flit f => Sys2Proof.Machine.execRdvFlitReceive flit f s
  | .rdvtoExpiry op => Sys2Proof.Machine.execRdvtoExpiry op s
  | .btcowCopyDone agent => Sys2Proof.Machine.execBtcowCopyDone agent s
  | .blockMoveCopyLanded op => Sys2Proof.Machine.execBlockMoveCopyLanded op s
  | .blockMoveSwing op => Sys2Proof.Machine.execBlockMoveSwing op s
  | .scrubFrameStart => Sys2Proof.Machine.execScrubFrameStart s
  | .scrubFrameEnd => Sys2Proof.Machine.execScrubFrameEnd s
  | .migrationGo ch => Sys2Proof.Machine.execMigrationGo ch s
  | .migrationLineCopy ch => Sys2Proof.Machine.execMigrationLineCopy ch s
  | .spdm => Sys2Proof.Machine.execSpdm s
  | .prepare => Sys2Proof.Machine.execPrepare s
  | .shadowsWritten => Sys2Proof.Machine.execShadowsWritten s
  | .commit => Sys2Proof.Machine.execCommit s
  | .sliceFlip slice => Sys2Proof.Machine.execSliceFlip slice s
  | .abort => Sys2Proof.Machine.execAbort s
  | .layoutq => Sys2Proof.Machine.execLayoutq s
  | .fwstage => Sys2Proof.Machine.execFwstage s
  | .manifest => Sys2Proof.Machine.execManifest s
  | .svncommit => Sys2Proof.Machine.execSvncommit s
  | .migopen => Sys2Proof.Machine.execMigopen s
  | .miground => Sys2Proof.Machine.execMiground s
  | .migstop => Sys2Proof.Machine.execMigstop s
  | .migend => Sys2Proof.Machine.execMigend s
  | .migaccept => Sys2Proof.Machine.execMigaccept s
  | .migapply => Sys2Proof.Machine.execMigapply s
  | .migresume => Sys2Proof.Machine.execMigresume s
  | .migrefuse => Sys2Proof.Machine.execMigrefuse s
  | .ridgepoleRestart failover => Sys2Proof.Machine.execRidgepoleRestart failover s
  | .packageReset => Sys2Proof.Machine.execPackageReset s
  | .trainingComplete failed => Sys2Proof.Machine.execTrainingComplete failed s
  | .streamOpen k peer => Sys2Proof.Machine.execStreamOpen k peer s
  | .streamClose k => Sys2Proof.Machine.execStreamClose k s
  | .dataFlitReceive f => Sys2Proof.Machine.execDataFlitReceive f s
  | .arriveFlitReceive f => Sys2Proof.Machine.execArriveFlitReceive f s
  | .markerReceive f => Sys2Proof.Machine.execMarkerReceive f s
  | .faultFlitReceive f => Sys2Proof.Machine.execFaultFlitReceive f s
  | .ackReceive f => Sys2Proof.Machine.execAckReceive f s
  | .nakReceive f => Sys2Proof.Machine.execNakReceive f s
  | .idleFlitReceive f => Sys2Proof.Machine.execIdleFlitReceive f s
  | .unknownFlitDiscard f => Sys2Proof.Machine.execUnknownFlitDiscard f s
  | .keyEpochMarker k => Sys2Proof.Machine.execKeyEpochMarker k s
  | .attach k drive => Sys2Proof.Machine.execAttach k drive s
  | .detach k => Sys2Proof.Machine.execDetach k s
  | .attachmentError k => Sys2Proof.Machine.execAttachmentError k s
  | .tdiTlpReceive vf stream off data => Sys2Proof.Machine.execTdiTlpReceive vf stream off data s
  | .doeSpdmMessage msg => Sys2Proof.Machine.execDoeSpdmMessage msg s
  | .powerCapCheck pwr => Sys2Proof.Machine.execPowerCapCheck pwr s
  | .capwWrite w => Sys2Proof.Machine.execCapwWrite w s
  | .registerWrite pa bytes => Sys2Proof.Machine.execRegisterWrite pa bytes s
  | .illegalEncoding lane bits => Sys2Proof.Machine.execIllegalEncoding lane bits s
  | .writeDelivery d => Sys2Proof.Machine.execWriteDelivery d s
  | .eviction die line => Sys2Proof.Machine.execEviction die line s
  | .hostLinkStateChange st => Sys2Proof.Machine.execHostLinkStateChange st s
  | .uncorrectableRegisterError agent => Sys2Proof.Machine.execUncorrectableRegisterError agent s

end Sys2Proof.Machine
end

