-- ==== Sys2Proof/Machine/Step.lean ====
section
/-!
DEFINITION. One step of the machine: the turn that comes next, and what it runs (log 4).
-/
namespace Sys2Proof.Machine

/-! ## Running one instruction -/

/-- An agent that issues is no longer aged, and its last issue is the latest (R270). -/
def State.issues (s : State) : State :=
  s.onCur fun a => { a with sched := { a.sched with lastIssue := s.lastIssue + 1, aged := false } }

/-- The acting agent executes the instruction at its program counter; a fault of the fetch is taken there (R89). -/
def runScalar (s : State) : Out :=
  match fetchInstr s with
  | .ok (.ok i) t => exec i t.issues
  | .ok (.error w) t => execIllegalEncoding false w t.issues
  | .error e t => .next (s.stopped t e)

/-- The next instruction of the acting group's block; after 256 without an end the next one is illegal (R56). -/
def fetchActive (b : Block) : X (Except (BitVec 96) Instr) :=
  if 256 ≤ b.issued then do
    let x ← fetchLaneBits b.lidx
    pure (.error x)
  else fetchLane b.lidx

/-- The acting group issues the next instruction of its block. A fetch that faults traps with no faulting thread, and
the block is held at that instruction (R56, R296; log 18). -/
def runLane (s : State) : Out :=
  match s.cur.lane.active with
  | none => .next s
  | some b =>
    match fetchActive b s with
    | .ok (.ok i) t => exec i t.issues
    | .ok (.error x) t => execIllegalEncoding true x t.issues
    | .error (.trap c v ipa) t => .next (laneTrap s (s.keepClaims t) c v s.cur.laneAddr 0 (some b) ipa)
    | .error e t => .next ((s.stopped t e).onCur fun a => { a with lane := { a.lane with fetchWait := true } })

/-! ## The step -/

/-- The steps of the part, which no program encodes and no fetch brings. -/
def isEvent (i : Instr) : Bool :=
  (scalarCode i).isNone && (laneCode i).isNone && (match i with | .illegalEncoding .. => false | _ => true)

def takeTurn (t : Turn) (s : State) : Out :=
  match t with
  | .scalar id late =>
    let s := s.noteReady.focus id
    if s.cur.id = id && s.canScalar s.cur && s.picks late then runScalar s else .fault .badTurn
  | .lane id late =>
    let s := s.noteReady.focus id
    if s.cur.id = id && s.canLane s.cur && s.picks late then runLane s else .fault .badTurn
  | .event i => if isEvent i then exec i s else .fault .badTurn

def step (s : State) : Host.Outcome State Fault Refusal :=
  match s.turns with
  | t :: ts => takeTurn t { s with turns := ts }
  | [] =>
    match s.noteReady.ownTurn with
    | some t => takeTurn t s
    | none => .next s.noteReady

/-! ## Placing an instruction where the next step fetches it (log 19) -/

/-- The code frame, and the enclave's tables, of `withFetchWord`. -/
def probeCode : Nat := 0x40000
def probeTables : Nat := 0x80000
/-- A stage-2 root in a frame that owner 0 owns (R283). -/
def probeRoot2 : Nat := 0xC0000

def probeView : CodeView :=
  { code := probeCode, span := 0x200, textOff := 0x80, textLen := 8, laneOff := 0xC0, laneN := 1 }

/-- An S-level group of an enclave, whose tables map the first 4 GiB one to one. -/
def State.probe (s : State) (lane : Bool) (x : Nat) : State :=
  let id := s.nextId
  let late := (s.cur :: s.others).map (·.id)
  let enc : BitVec 16 := BitVec.ofNat 16 id
  let ptr := fun a => a + 3
  let leaf := 0x203D + 0x400
  let leaf2 := 0x203D
  let cells := natCells (probeCode + 0x80) (if lane then 0 else x) 8
    ++ natCells (probeCode + 0xC0) (if lane then x else 0) 12
    ++ natCells probeTables (ptr (probeTables + 0x10000)) 8 ++ natCells (probeTables + 0x10000) leaf 8
    ++ natCells probeRoot2 (ptr (probeRoot2 + 0x8000)) 8 ++ natCells (probeRoot2 + 0x8000) leaf2 8
  let block : Block := { lidx := 0, mask := allLive 8, s := .replicate 64 0, level := .s }
  let a : Agent :=
    { id, kind := .group, enc, wg := id, status := .ready, level := .s, pc := bv64 (probeCode + 0x80)
      code := some probeView
      lane := { active := if lane then some block else none } }
  { s with
    cur := a
    others := (s.cur :: s.others).filter fun b => decide (b.status ≠ .absent)
    mem := { s.mem with home := writeCells s.mem.home cells }
    pot := aput (aput (aput s.pot 1 { state := .owned, owner := enc }) 2 { state := .owned, owner := enc }) 3 { state := .owned }
    enclaves := s.enclaves ++ [{ id := enc, state := .running, s1Root := probeTables, s2Root := probeRoot2 }]
    wgs := s.wgs ++ [{ id, launch := id, index := 0, enc, part := 0, die := 0, core := 0, groups := [id] }]
    nextId := id + 1
    turns := [if lane then .lane id late else .scalar id late] }

/-- The state in which the next step fetches and runs the instruction whose bits are `w` (log 19): rows of 96 bits stand
in the lane stream of a group, the others in its scalar stream. -/
def State.withFetchWord (s : State) (nbits w : Nat) : State := s.probe (decide (nbits = 96)) (w % 2 ^ nbits)

end Sys2Proof.Machine
end

