-- ==== Sys2Proof/WellFormed.lean ====
section
/-!
DEFINITION. Well-formed instructions: those whose fields hold values that some encoding admits (02 R53). The checks
themselves stand beside the decoder, which makes them on every word, so that the two can never differ.
-/
namespace Sys2Proof

/-- A well-formed instruction: no reserved bit set, no illegal value in a field (R47 to R53). -/
def Instr.WellFormed (i : Instr) : Prop := legal i = true

/-- The scalar and lane instructions, which have words; the other constructors are steps of the part (spec/95). -/
def Instr.encodable (i : Instr) : Bool := (scalarCode i).isSome || (laneCode i).isSome

end Sys2Proof
end

