-- ==== Sys2Proof/Safety.lean ====
section
/-!
DEFINITION. The terms in which claims are made: the state with only some parts changed, conditions and bit fields said
over integers and bits, and the invariants that steps keep.
-/
namespace Sys2Proof.Machine

/-! ## Parts of a state -/

/-- The state in which the acting agent stands at `pc`, and nothing else differs. -/
def State.withPc (s : State) (pc : Word) : State := { s with cur := { s.cur with pc } }

/-- The state in which the acting agent waits for `w`, and nothing else differs. -/
def State.waits (s : State) (w : Wait) : State := { s with cur := { s.cur with status := .waiting w } }

/-- What an instruction that traps leaves of `t`, the state that its walks had reached: the frames they claimed, written with
zeros (R289). -/
def State.claiming (s t : State) : State :=
  { s with pot := t.pot, mem := (s.claimed t).foldl (fun m i => m.clearFrame (frameAddr i)) s.mem }

/-- The condition codes of R45, over the integers that the registers hold. -/
def condSense (c : Cond) (x y : Word) : Bool :=
  match c with
  | .eq => decide (x.toNat = y.toNat)
  | .ne => decide (x.toNat ≠ y.toNat)
  | .lt => decide (x.toInt < y.toInt)
  | .ge => decide (y.toInt ≤ x.toInt)
  | .ltn => decide (x.toNat < y.toNat)
  | .gen => decide (y.toNat ≤ x.toNat)

/-- The value of an immediate under a condition: zero-extended under `.ltn` and `.gen`, else sign-extended (R102, R105). -/
def immSense {n : Nat} (c : Cond) (i : BitVec n) : Word :=
  match c with
  | .ltn | .gen => BitVec.ofNat 64 i.toNat
  | _ => BitVec.ofInt 64 i.toInt

/-- The conditions of `bmask` over the `g` threads of a group (R106). -/
def maskSense (c : MaskCond) (g : Nat) (m : Mask) : Bool :=
  match c with
  | .any => (List.range 1024).any fun t => decide (t < g) && m.getLsbD t
  | .all => (List.range 1024).all fun t => !decide (t < g) || m.getLsbD t
  | .none => (List.range 1024).all fun t => !(decide (t < g) && m.getLsbD t)

/-! ## Accesses of the acting agent -/

/-- A plain read of `n` bytes at `va` is aligned and admitted, and returns `bs` in state `u` (R158, R282). -/
def ReadsBytes (s : State) (va : Word) (n : Nat) (bs : List Byte) (u : State) : Prop :=
  va.toNat % n = 0 ∧ ∃ p t, translateRange s.cur.ctx va .r n s = .ok p t ∧
    match p with
    | .dev pa => devRead pa va n t = .ok bs u
    | _ => readPlace s.cur.ctx p va n t = .ok bs u

/-- A plain write of `bs` at `va` is aligned and admitted, and leaves `u` (R158, R282). -/
def WritesBytes (s : State) (va : Word) (bs : List Byte) (u : State) : Prop :=
  va.toNat % bs.length = 0 ∧ ∃ p t, translateRange s.cur.ctx va .w bs.length s = .ok p t ∧
    match p with
    | .dev pa => devWriteX pa va bs t = .ok () u
    | _ => writePlace s.cur.ctx p va bs t = .ok () u

/-- The value of little-endian bytes, signed or not (R3, R161). -/
def signedBytes (bs : List Byte) : Word := BitVec.ofInt 64 (BitVec.ofNat (8 * bs.length) (bytesNat bs)).toInt
def plainBytes (bs : List Byte) : Word := BitVec.ofNat 64 (bytesNat bs)

/-- The byte that the acting agent sees at `q`: its own write that has not left it, else its die's copy, else home. -/
def State.seenByte (s : State) (q : Nat) : Byte :=
  match leavingByte s.cur.leaving q with
  | some b => b
  | none => match findCopy (s.mem.die s.cur.die).copies q with
    | some c => c.val
    | none => s.mem.homeByte q

/-- One atomic form of `n` bytes runs: aligned and placed (Table 6.5), at a clamped scope, releasing first when its order
has release, it reads `old`, writes `new old` with the clock of its release or of a release fence before it, acquires when its order has acquire, and leaves `u` (R164 to R166). -/
def AtomicRuns (s : State) (va : Word) (n : Nat) (pcie : Bool) (o : BitVec 2) (sc : BitVec 4) (new : Nat → Nat)
    (old : Nat) (u : State) : Prop :=
  va.toNat % n = 0 ∧ ∃ p t1 k t2 c t4 t5,
    atomicPlace va n pcie s = .ok p t1 ∧ checkScope sc.toNat t1 = .ok k t2 ∧
    (o.getLsbD 1 = true → t2.cur.laneDrained = true) ∧
    atomicRead p va n (if o.getLsbD 1 = true then t2.release t2.cur.id k else t2) = .ok (old, c) t4 ∧
    atomicWrite p va (new old) n
      (c.join (t4.releaseClock (if o.getLsbD 1 = true then k else 0))) t4 = .ok () t5 ∧
    u = if o.getLsbD 0 = true then t5.acquire t5.cur.die k c else t5

/-- A range operation runs over the pages of its range, in order, from `s` to `u` (R171 to R173): a page in the local window lies in the
workgroup's allocation and is passed over; another translates, and the operation acts on it where it is software-managed, or is
absent, and is skipped with what its walk has claimed. -/
def RangeRuns (op : RangeOp) (k : Kind) : List (Word × Nat) → State → State → Prop
  | [], s, u => u = s
  | q :: qs, s, u =>
    if windowBase ≤ q.1.toNat ∧ q.1.toNat < 2 ^ 57 then
      (∃ i w, s.cur.ctx.wg = some i ∧ s.wg? i = some w ∧ q.1.toNat + q.2 ≤ windowBase + w.scr * 256) ∧ RangeRuns op k qs s u
    else
      (∃ pa ap t, translate s.cur.ctx q.1 k s = .ok (.mem pa true ap) t ∧ RangeRuns op k qs (t.rangeOn op s.cur.die pa q.2) u) ∨
      (∃ p t, translate s.cur.ctx q.1 k s = .ok p t ∧ (∀ pa ap, p ≠ .mem pa true ap) ∧ RangeRuns op k qs t u) ∨
      (∃ v ipa t, translate s.cur.ctx q.1 k s = .error (.trap cNotPresent v ipa) t ∧ RangeRuns op k qs (s.claiming t) u)

/-- One side of a chunk of `n` bytes lies at a place: the addresses of its bytes, the workgroup whose scratchpad holds them, and
whether the page is software-managed (R151). -/
def SideAt (n : Nat) : Place → List Nat → Option Nat → Bool → Prop
  | .mem pa smr _, ps, w, m => ps = (List.range n).map (pa + ·) ∧ w = none ∧ m = smr
  | .scr g o, ps, w, m => ps = (List.range n).map (o + ·) ∧ w = some g ∧ m = false
  | .dev pa, ps, w, m => ps = (List.range n).map (pa + ·) ∧ w = none ∧ m = false

/-- The die of a chunk reads the byte at `pa` as a plain read of one byte does, and the chunk's agent has then seen the clock of a
home-origin value (R151, R253). -/
def State.srcReads (s : State) (c : Chunk) (pa : Nat) (b : Byte) (t : State) : Prop :=
  let r := s.mem.readByte c.die pa c.srcSmr c.srcUncached
  b = r.1 ∧ t.mem = r.2.2 ∧ t.choices = s.choices ∧ t.chunks = s.chunks ∧ t.wgs = s.wgs ∧ t.pot = s.pot ∧ t.enclaves = s.enclaves ∧
    (∀ m, t.agent? m = (s.agent? m).map fun a => if a.id = c.agent then
      { a with homeSeen := match r.2.1 with | some k => a.homeSeen.join (k.join .zero) | none => a.homeSeen.join .zero } else a)

/-- The signed value of the low `n` bytes of a number. -/
def intOf (n x : Nat) : Int := (BitVec.ofNat (8 * n) x).toInt

/-! ## Steps of the part -/

/-- From `s` to `t` one agent, `n`, goes on as `a`, and nothing else of the part changes but choices used up. -/
def OnlyAgent (s t : State) (n : Nat) (a : Agent) : Prop :=
  t.agent? n = some a ∧ (∀ m, m ≠ n → t.agent? m = s.agent? m) ∧ t.mem = s.mem ∧ t.pot = s.pot ∧ t.enclaves = s.enclaves ∧
  t.wgs = s.wgs ∧ t.ops = s.ops ∧ t.fills = s.fills ∧ t.chunks = s.chunks ∧ t.launches = s.launches ∧ t.parts = s.parts ∧
  t.layout = s.layout ∧ t.rp = s.rp ∧ t.links = s.links ∧ t.health = s.health

/-- An event has as its outcome a state of which `P` holds. -/
def Ends (i : Instr) (s : State) (P : State → Prop) : Prop := ∃ t, exec i s = .next t ∧ P t

/-! ## The mailbox (R332, R333) -/

/-- The mailbox holds command `op`, Ridgepole admits it, and a response of `n` bytes fits in its buffer. -/
def State.mbTakes (s : State) (op n : Nat) : Prop :=
  s.mbHolds op = true ∧ s.mbAdmit = .ok () ∧ n ≤ s.rp.mailbox.rcap.toNat ∧ s.hostRange (s.rp.mailbox.rbuf * 64) n = true

/-- Command `i` ends in `s` with a code and a response, having left state `t`, of which `P` holds. -/
def Answers (i : Instr) (s : State) (code : Nat) (resp : List Byte) (P : State → Prop) : Prop :=
  ∃ t, exec i s = .next (t.mbEnd code resp) ∧ P t

/-! ## Lane instructions -/

/-- The class counter that a lane instruction holds until its results return (01 Table 1.1). -/
def laneClass : Instr → Option OutClass
  | .vld .. | .vst .. | .vldx .. | .vstx .. | .vlds .. | .acpy .. | .vatom .. | .vred .. => some .mem
  | .frcp .. | .frsq .. | .fsqrt .. | .fdiv .. | .fexp2 .. | .flog2 .. | .ftanh .. | .vdot .. | .vdoth .. => some .long
  | .rshuf .. | .rshift .. | .rbcast .. | .rscan .. | .rred .. | .rredQ .. | .gperm .. | .gscan .. | .gred .. | .gbcast ..
  | .gredQ .. => some .xlane
  | _ => none

/-- The instruction issues at once: its registers lie in the budget and its counter has room (R21, R122). -/
def Issues (i : Instr) (s : State) : Prop :=
  inBudget i s.cur.budget = true ∧ ∀ k, laneClass i = some k → s.cur.lane.count k < 63

/-- The results that an outcome has left outstanding last. -/
def lastPend : Out → Option Pend
  | .next t => t.cur.lane.pend.getLast?
  | _ => none

def PendWrite.laneAt (r t : Nat) : PendWrite → Option Nat
  | .lane n _ _ x => if n = r then some (x.at t).toNat else none
  | _ => none

/-- The value that thread `t` is to receive in lane register `r`, or in the pair from `r` on. -/
def resultAt (o : Out) (pair : Bool) (r t : Nat) : Option Nat :=
  match lastPend o with
  | none => none
  | some p =>
    match p.writes.findSome? (PendWrite.laneAt r t), p.writes.findSome? (PendWrite.laneAt (r + 1) t) with
    | some lo, some hi => some (if pair then lo + hi * 2 ^ 32 else lo)
    | some lo, none => if pair then none else some lo
    | none, _ => none

/-- The bit that thread `t` is to receive in mask register `r`. -/
def maskAt (o : Out) (r t : Nat) : Option Bool :=
  match lastPend o with
  | none => none
  | some p => p.writes.findSome? fun w => match w with | .mask n _ x => if n = r then some (x.getLsbD t) else none | _ => none

/-- The values that q register `r` is to receive, in their order. -/
def qWrites (o : Out) (r : Nat) : List Word :=
  match lastPend o with
  | none => []
  | some p => p.writes.filterMap fun w => match w with | .q n x => if n = r then some x else none | _ => none

/-- The flags that are raised when the results return. -/
def flagsDue (o : Out) : Flags := match lastPend o with | none => 0 | some p => p.flags

/-- A list of values under an operation, from the first on. -/
def foldValues (op : Nat → Nat → Nat) (e : Nat) : List Nat → Nat
  | [] => e
  | x :: l => l.foldl op x

/-- `TreeReduce` over the 2^k indices from `lo`, for any `Join` (R144). -/
def canonicalTree {α : Type} (join : α → α → α) (x : Nat → α) : Nat → Nat → α
  | 0, lo => x lo
  | k + 1, lo => join (canonicalTree join x k lo) (canonicalTree join x k (lo + 2 ^ k))

/-- `Prefix` over the `m` indices from `lo`, for any `Join` (R145). -/
def canonicalPrefix {α : Type} (join : α → α → α) (absent : α) (x : Nat → α) (lo m : Nat) : α :=
  ((List.range 11).reverse.foldl (fun (p : α × Nat) k =>
    if m.testBit k then (join p.1 (canonicalTree join x k p.2), p.2 + 2 ^ k) else p) (absent, lo)).1

/-- `Join` of two results, either of which may be ABSENT, with the flags of both and of what combines them; `keep` is what stands of a
value that meets none (R142, R143). -/
def joinBy (op : Nat → Nat → Nat × Flags) (keep : Nat → Nat) (l h : Option Nat × Flags) : Option Nat × Flags :=
  match l.1, h.1 with
  | some a, some b => (some (op a b).1, l.2 ||| h.2 ||| (op a b).2)
  | some a, none => (some (keep a), l.2 ||| h.2)
  | none, b => (b.map keep, l.2 ||| h.2)

/-! ## Exits (R299) -/

/-- `t` is `s` after its acting agent has exited: the agent stands as `a`, its partition has given the next EXITID, and the
exit record of Table 11.9 with kind 0 and DONE zero stands in the exit ring, where that is the host agent's memory. Every
other agent, register and table stays. -/
def Exited (s t : State) (a : Agent) (cause : Cause) (s2ipa : Nat) : Prop :=
  let p := s.layout.entryAt s.cur.part none
  let id := (s.part s.cur.part).exitId + 1
  let n := if p.exitN = 0 then 65536 else p.exitN
  let addr := p.exitBase * 4096 + 32 * ((id - 1) % n)
  let at' := s.redirect addr
  t.cur = a ∧ t.others = s.others ∧ (t.part s.cur.part).exitId = id ∧
    t.exits = s.exits ++ [{ part := s.cur.part, exitId := id, addr, what := .agent s.cur.id }] ∧
    (s.hostFrame addr = false → t.mem = s.mem) ∧
    (s.hostFrame addr = true →
      t.mem.homeNat at' 8 = s.cur.enc.toNat + cause.toNat * 2 ^ 16 + id % 2 ^ 32 * 2 ^ 32 ∧
      t.mem.homeNat (at' + 8) 8 = s2ipa % 2 ^ 64 ∧ t.mem.homeNat (at' + 16) 8 = 0 ∧ t.mem.homeNat (at' + 24) 8 = 0) ∧
    (∀ q, (q < at' ∨ at' + 32 ≤ q) → (∀ f ∈ s.mem.flight, f.touches q = false) → t.mem.homeByte q = s.mem.homeByte q) ∧
    t.wgs = s.wgs ∧ t.enclaves = s.enclaves ∧ t.pot = s.pot ∧ t.ops = s.ops ∧ t.layout = s.layout

end Sys2Proof.Machine
end

