-- ==== Sys2Proof/Certificates/Slice0/Obligations.lean ====
section
/-!
DEFINITION. The statements about the model. Each docstring names the rules of spec/ that it formalises, or the log entry
whose choice it states.
-/
open Sys2Proof Sys2Proof.Machine

/-! ## Scalar results -/

/-- R88, Table 1.4: an instruction that writes sD and does not branch leaves NextPC as the program counter; a write to
s0 is discarded; nothing else changes. -/
def Obligations.ResultWriteFrame : Prop :=
  ∀ (s : State) (d : BitVec 6) (x : Word),
    (s.write d x).cur.pc = s.cur.pc + 4 ∧
    (∀ r : BitVec 6, (s.write d x).cur.rs r = if r = d ∧ d ≠ 0 then x else s.cur.rs r) ∧
    s.write d x = { s with cur := { s.cur with
      pc := s.cur.pc + 4
      regs := { s.cur.regs with s := (s.write d x).cur.regs.s } } }

/-- R92, R93: Table 4.2 over integers, and division by zero. R96, R97: logic bit by bit, and shifts as multiplication
and division by powers of two, in the register forms. R95, R98, R101: the unary forms. -/
def Obligations.RegisterArithmeticResults : Prop :=
  (∀ (s : State) (d a b : BitVec 6),
    let x := s.cur.rs a
    let y := s.cur.rs b
    exec (.add d a b) s = .next (s.write d (BitVec.ofInt 64 (x.toInt + y.toInt))) ∧
    exec (.sub d a b) s = .next (s.write d (BitVec.ofInt 64 (x.toInt - y.toInt))) ∧
    exec (.mul d a b) s = .next (s.write d (BitVec.ofInt 64 (x.toInt * y.toInt))) ∧
    exec (.mulh d a b) s = .next (s.write d (BitVec.ofInt 64 (x.toInt * y.toInt / 2 ^ 64))) ∧
    exec (.mulhn d a b) s = .next (s.write d (BitVec.ofNat 64 (x.toNat * y.toNat / 2 ^ 64))) ∧
    exec (.div d a b) s = .next (s.write d
      (if y.toNat = 0 then 0xFFFFFFFFFFFFFFFF else BitVec.ofInt 64 (x.toInt.tdiv y.toInt))) ∧
    exec (.divn d a b) s = .next (s.write d
      (if y.toNat = 0 then 0xFFFFFFFFFFFFFFFF else BitVec.ofNat 64 (x.toNat / y.toNat))) ∧
    exec (.rem d a b) s = .next (s.write d (if y.toNat = 0 then x else BitVec.ofInt 64 (x.toInt.tmod y.toInt))) ∧
    exec (.remn d a b) s = .next (s.write d (if y.toNat = 0 then x else BitVec.ofNat 64 (x.toNat % y.toNat))) ∧
    exec (.min d a b) s = .next (s.write d (BitVec.ofInt 64 (min x.toInt y.toInt))) ∧
    exec (.max d a b) s = .next (s.write d (BitVec.ofInt 64 (max x.toInt y.toInt))) ∧
    exec (.minn d a b) s = .next (s.write d (BitVec.ofNat 64 (min x.toNat y.toNat))) ∧
    exec (.maxn d a b) s = .next (s.write d (BitVec.ofNat 64 (max x.toNat y.toNat)))) ∧
  (∀ (s : State) (d a b : BitVec 6),
    let x := s.cur.rs a
    let y := s.cur.rs b
    let c := y.toNat % 64
    (∃ r, exec (.and d a b) s = .next (s.write d r) ∧ ∀ i, r.getLsbD i = (x.getLsbD i && y.getLsbD i)) ∧
    (∃ r, exec (.or d a b) s = .next (s.write d r) ∧ ∀ i, r.getLsbD i = (x.getLsbD i || y.getLsbD i)) ∧
    (∃ r, exec (.xor d a b) s = .next (s.write d r) ∧ ∀ i, r.getLsbD i = (x.getLsbD i != y.getLsbD i)) ∧
    exec (.shl d a b) s = .next (s.write d (BitVec.ofNat 64 (x.toNat * 2 ^ c))) ∧
    exec (.shr d a b) s = .next (s.write d (BitVec.ofNat 64 (x.toNat / 2 ^ c))) ∧
    exec (.sra d a b) s = .next (s.write d (BitVec.ofInt 64 (x.toInt / 2 ^ c))) ∧
    (∃ r, exec (.rotl d a b) s = .next (s.write d r) ∧
      ∀ i, i < 64 → r.getLsbD ((i + c) % 64) = x.getLsbD i)) ∧
  (∀ (s : State) (d a : BitVec 6),
    let x := s.cur.rs a
    exec (.abs d a) s = .next (s.write d (BitVec.ofNat 64 x.toInt.natAbs)) ∧
    (∃ n, n ≤ 64 ∧ exec (.clz d a) s = .next (s.write d (BitVec.ofNat 64 n)) ∧
      (∀ i, 64 - n ≤ i → i < 64 → x.getLsbD i = false) ∧ (n < 64 → x.getLsbD (63 - n) = true)) ∧
    (∃ n, n ≤ 64 ∧ exec (.ctz d a) s = .next (s.write d (BitVec.ofNat 64 n)) ∧
      (∀ i, i < n → x.getLsbD i = false) ∧ (n < 64 → x.getLsbD n = true)) ∧
    exec (.popc d a) s = .next (s.write d (BitVec.ofNat 64 (((List.range 64).map fun i => (x.getLsbD i).toNat).sum))) ∧
    (∃ r, exec (.sext8 d a) s = .next (s.write d r) ∧ ∀ i, i < 64 → r.getLsbD i = x.getLsbD (min i 7)) ∧
    (∃ r, exec (.sext16 d a) s = .next (s.write d r) ∧ ∀ i, i < 64 → r.getLsbD i = x.getLsbD (min i 15)) ∧
    (∃ r, exec (.sext32 d a) s = .next (s.write d r) ∧ ∀ i, i < 64 → r.getLsbD i = x.getLsbD (min i 31)) ∧
    exec (.zext8 d a) s = .next (s.write d (BitVec.ofNat 64 (x.toNat % 2 ^ 8))) ∧
    exec (.zext16 d a) s = .next (s.write d (BitVec.ofNat 64 (x.toNat % 2 ^ 16))) ∧
    exec (.zext32 d a) s = .next (s.write d (BitVec.ofNat 64 (x.toNat % 2 ^ 32))))

/-- R45, R102, R103: compares under every condition code, and select. R94, R96, R97, R104, R42: the immediate forms
and the constants; the two-word `li` advances the program counter by 8. R99, R100: bitfields, bit by bit; `l` is LEN −
1. -/
def Obligations.CompareImmediateAndFieldResults : Prop :=
  (∀ (s : State) (d a b : BitVec 6) (c : Cond),
    exec (.cmp d a b c) s = .next (s.write d (if condSense c (s.cur.rs a) (s.cur.rs b) then 1 else 0)) ∧
    (∀ i : BitVec 10, exec (.cmpi d a c i) s =
      .next (s.write d (if condSense c (s.cur.rs a) (immSense c i) then 1 else 0))) ∧
    (∀ q : BitVec 6, exec (.sel d a b q) s =
      .next (s.write d (if (s.cur.rs q).toNat = 0 then s.cur.rs b else s.cur.rs a)))) ∧
  (∀ (s : State) (d a : BitVec 6) (i : BitVec 13) (c : BitVec 6),
    let x := s.cur.rs a
    let k := BitVec.ofInt 64 i.toInt
    exec (.addi d a i) s = .next (s.write d (BitVec.ofInt 64 (x.toInt + i.toInt))) ∧
    (∃ r, exec (.andi d a i) s = .next (s.write d r) ∧ ∀ j, r.getLsbD j = (x.getLsbD j && k.getLsbD j)) ∧
    (∃ r, exec (.ori d a i) s = .next (s.write d r) ∧ ∀ j, r.getLsbD j = (x.getLsbD j || k.getLsbD j)) ∧
    (∃ r, exec (.xori d a i) s = .next (s.write d r) ∧ ∀ j, r.getLsbD j = (x.getLsbD j != k.getLsbD j)) ∧
    exec (.shli d a c) s = .next (s.write d (BitVec.ofNat 64 (x.toNat * 2 ^ c.toNat))) ∧
    exec (.shri d a c) s = .next (s.write d (BitVec.ofNat 64 (x.toNat / 2 ^ c.toNat))) ∧
    exec (.srai d a c) s = .next (s.write d (BitVec.ofInt 64 (x.toInt / 2 ^ c.toNat))) ∧
    (∀ u : BitVec 19, exec (.lui d u) s = .next (s.write d (BitVec.ofInt 64 (u.toInt * 2 ^ 13)))) ∧
    (∀ u : BitVec 18, exec (.li d u) s = .next (s.write d (BitVec.ofInt 64 u.toInt))) ∧
    (∀ u : BitVec 32, exec (.liTwoWord d u) s =
      .next ((s.write d (BitVec.ofNat 64 (u.toNat * 2 ^ 32 + (s.cur.rs d).toNat % 2 ^ 32))).withPc (s.cur.pc + 8))) ∧
    exec (.lea d a i) s = .next (s.write d (BitVec.ofInt 64 (x.toInt + i.toInt))) ∧
    (∀ u : BitVec 19, exec (.leaPc d u) s = .next (s.write d (BitVec.ofInt 64 (s.cur.pc.toInt + u.toInt))))) ∧
  (∀ (s : State) (d a l p : BitVec 6),
    let x := s.cur.rs a
    (∃ r, exec (.bfx d a l p) s = .next (s.write d r) ∧
      ∀ i, i < 64 → r.getLsbD i = (decide (i ≤ l.toNat) && x.getLsbD (p.toNat + i))) ∧
    (∃ r, exec (.bfxS d a l p) s = .next (s.write d r) ∧
      ∀ i, i < 64 → r.getLsbD i = x.getLsbD (p.toNat + min i l.toNat)) ∧
    (∃ r, exec (.bfi d a l p) s = .next (s.write d r) ∧
      ∀ i, i < 64 → r.getLsbD i =
        if p.toNat ≤ i ∧ i ≤ p.toNat + l.toNat then x.getLsbD (i - p.toNat) else (s.cur.rs d).getLsbD i))

/-! ## Control flow -/

/-- R105, R109: direct branches reach PC + 4 × sext(OFF) when taken and NextPC otherwise; `loop` writes back the
decremented register (a decremented s0 is discarded, and the branch is decided on the decremented value: log 15);
`lpad` does nothing. R106: `bmask` on all G threads. It waits while a write of mK is pending: one whose results have not
returned, or one of an instruction handed over and not yet issued, and of no other register; m0 has none (that work held
behind a lane fault is not waited for: log 16). R107: calls, returns and the shadow return stack. R108: the three
reads of `jtab`, its checks and its target. -/
def Obligations.ControlTransfers : Prop :=
  (∀ (s : State) (d a : BitVec 6),
    let dest := fun (n : Int) => s.withPc (s.cur.pc + BitVec.ofInt 64 (4 * n))
    let on := s.withPc (s.cur.pc + 4)
    let x := s.cur.rs d
    let y := s.cur.rs a
    (∀ o : BitVec 25, exec (.br o) s = .next (dest o.toInt)) ∧
    (∀ o : BitVec 19,
      exec (.bz d o) s = .next (if x.toNat = 0 then dest o.toInt else on) ∧
      exec (.bnz d o) s = .next (if x.toNat = 0 then on else dest o.toInt) ∧
      exec (.loop d o) s = .next ((s.write d (x - 1)).withPc
        (if x.toNat = 1 then s.cur.pc + 4 else s.cur.pc + BitVec.ofInt 64 (4 * o.toInt)))) ∧
    (∀ o : BitVec 13,
      exec (.bccEq d a o) s = .next (if condSense .eq x y then dest o.toInt else on) ∧
      exec (.bccNe d a o) s = .next (if condSense .ne x y then dest o.toInt else on) ∧
      exec (.bccLt d a o) s = .next (if condSense .lt x y then dest o.toInt else on) ∧
      exec (.bccGe d a o) s = .next (if condSense .ge x y then dest o.toInt else on) ∧
      exec (.bccLtn d a o) s = .next (if condSense .ltn x y then dest o.toInt else on) ∧
      exec (.bccGen d a o) s = .next (if condSense .gen x y then dest o.toInt else on)) ∧
    (∀ (c : Cond) (i : BitVec 6) (o : BitVec 10),
      exec (.bcci d c i o) s = .next (if condSense c x (immSense c i) then dest o.toInt else on)) ∧
    (∀ l : BitVec 16, exec (.lpad l) s = .next on)) ∧
  (∀ (s : State) (k : BitVec 4) (o : BitVec 19),
    let m := s.cur.mask k
    let g := s.cur.gsize
    let dest := s.withPc (s.cur.pc + BitVec.ofInt 64 (4 * o.toInt))
    let on := s.withPc (s.cur.pc + 4)
    (s.maskPending k = false → ∀ c,
      exec (.bmask c k o) s = .next (if maskSense c g m then dest else on)) ∧
    (s.maskPending k = true → ∀ c, exec (.bmask c k o) s = .next (s.waits (.bmask k))) ∧
    (s.maskPending 0 = false ∧ ∀ t < 1024, (s.cur.mask 0).getLsbD t = decide (t < g)) ∧
    (k ≠ 0 → (∃ live x, PendWrite.mask k.toNat live x ∈ s.cur.lane.writes) → s.maskPending k = true) ∧
    ((∀ live x, PendWrite.mask k.toNat live x ∉ s.cur.lane.writes) → s.cur.lane.active = none →
      (s.cur.lane.queue = [] → s.maskPending k = false) ∧
      (∀ (b : Block) (i : Instr) (t : State) (f : Lane) (u : LaneUse), k ≠ 0 → s.cur.lane.queue = [b] →
        fetchLane b.lidx s = .ok (.ok i) t → laneUse i = some (f, u) → f.last = true →
        s.maskPending k = (laneMaskDest i == some k.toNat)))) ∧
  (∀ s : State,
    (∀ o : BitVec 25,
      (s.cur.shadow.length < 64 → ∃ t, exec (.call o) s = .next t ∧
        t = { s with cur := { s.cur.setS 63 (s.cur.pc + 4) with
          shadow := s.cur.shadow ++ [s.cur.pc + 4]
          pc := s.cur.pc + BitVec.ofInt 64 (4 * o.toInt) } }) ∧
      (64 ≤ s.cur.shadow.length → exec (.call o) s = .next (s.takeTrap cLpad 4))) ∧
    (∀ (l : List Word) (r : Word), s.cur.shadow = l ++ [r] →
      (s.cur.rs 63 = r → exec .ret s = .next { s with cur := { s.cur with shadow := l, pc := r } }) ∧
      (s.cur.rs 63 ≠ r → exec .ret s = .next (s.takeTrap cLpad 2))) ∧
    (s.cur.shadow = [] → exec .ret s = .next (s.takeTrap cLpad 3))) ∧
  (∀ (s t1 t2 t3 : State) (d : BitVec 6) (o : BitVec 19) (hdr e w : BitVec 32),
    let x := s.cur.rs d
    let h := s.cur.pc + BitVec.ofInt 64 (4 * o.toInt)
    let tgt := h + BitVec.ofInt 64 e.toInt
    fetchWord h s = .ok hdr t1 →
      (hdr.toNat / 2 ^ 16 ≤ x.toNat → exec (.jtab d o) s = .next (s.stopped t1 (.trap cJtab x))) ∧
      (x.toNat < hdr.toNat / 2 ^ 16 → fetchWord (h + 4 + 4 * x) t1 = .ok e t2 →
        (tgt.toNat % 4 ≠ 0 → exec (.jtab d o) s = .next (s.stopped t2 (.trap cLpad 1))) ∧
        (tgt.toNat % 4 = 0 → fetchWord tgt t2 = .ok w t3 →
          (w.toNat = 0x17 * 2 ^ 25 + hdr.toNat % 2 ^ 16 → exec (.jtab d o) s = .next (t3.withPc tgt)) ∧
          (w.toNat ≠ 0x17 * 2 ^ 25 + hdr.toNat % 2 ^ 16 →
            exec (.jtab d o) s = .next (s.stopped t3 (.trap cLpad 1))))))

/-! ## Traps, returns and the SYS group -/

/-- R296: taking a trap outside a handler and outside the save and restore routines. XCAUSE, XVAL, XSPC and XPRIV are
written, the level becomes S, or H for a host-agent thread, execution goes on at XVEC, and nothing else changes (the
IPA of a STAGE2 fault is kept for an exit record). R297, R299: a trap in a handler. A host-agent thread stops; any
other agent exits with the cause of the new trap, and its exit record stands in the exit ring of its partition, 32
bytes with DONE zero.
The model's own choices here: log 31, log 67. -/
def Obligations.TrapEntry : Prop :=
  (∀ (s : State) (c : Cause) (v : Word) (ipa : Nat),
    s.cur.trap.inRestore = false → s.cur.trap.inSave = false → s.cur.trap.hm = false →
    s.takeTrap c v ipa = { s with cur := { s.cur with
      pc := s.cur.trap.vec
      level := if s.cur.kind = .host then .h else .s
      trap := { s.cur.trap with
        cause := c, causeLane := false, val := v, spc := s.cur.pc, hm := true, level := s.cur.level
        s2ipa := if c = cStage2 then ipa else s.cur.trap.s2ipa } } }) ∧
  (∀ (s : State) (c : Cause) (v : Word) (ipa : Nat),
    s.cur.trap.inRestore = false → s.cur.trap.inSave = false → s.cur.trap.hm = true →
    let kept := { s.cur.trap with s2ipa := if c = cStage2 then ipa else s.cur.trap.s2ipa }
    (s.cur.kind = .host → s.takeTrap c v ipa = { s with cur := { s.cur with trap := kept, status := .stopped } }) ∧
    (s.cur.kind ≠ .host → Exited s (s.takeTrap c v ipa) { s.cur with trap := kept, status := .exited } c kept.s2ipa))

/-- R118, R111, R107, R113, R120, R121: the SYS instructions that are not waits of their own. `yield` leaves the agent
behind every other one (R118, R270). R119: `halt` waits for the lane stream, then ends the agent, whose writes are
released. A control thread changes in nothing else; a group whose save region has not been sampled leaves its
workgroup running while another group of it runs. -/
def Obligations.SystemInstructions : Prop :=
  (∀ (s : State) (d a : BitVec 6),
    exec .nop s = .next (s.withPc (s.cur.pc + 4)) ∧
    (∃ n, (∀ b ∈ s.cur :: s.others, b.sched.lastIssue < n) ∧
      exec .yield s = .next { s with cur := { s.cur with
        pc := s.cur.pc + 4, sched := { s.cur.sched with lastIssue := n, aged := false } } }) ∧
    exec (.trap a) s = .next (s.takeTrap cSoftware (s.cur.rs a)) ∧
    (s.cur.laneDrained = true → exec .lpark s = .next (s.withPc (s.cur.pc + 4))) ∧
    (s.cur.laneDrained = false → exec .lpark s = .next (s.waits .drain)) ∧
    exec (.rdgrant d) s = .next (({ s with cur := { s.cur with gchg := false, seenWidth := s.cur.width } }).write d
      (if s.cur.kind = AgentKind.group then
        BitVec.ofNat 64 (s.cur.width % 2 ^ 8 + s.cur.gsize / s.cur.width % 2 ^ 8 * 2 ^ 8 + s.cur.gsize % 2 ^ 11 * 2 ^ 16)
       else 0x80108)) ∧
    (s.cur.level = .u → exec .ecall s = .next (s.takeTrap cEcall 0)) ∧
    (s.cur.level = .s → ∃ t, exec .ecall s = .next t ∧
      Exited s t { s.cur with pc := s.cur.pc + 4, status := .exited }
        (if s.cur.trap.hm = true then s.cur.trap.cause else cEcall) s.cur.trap.s2ipa) ∧
    (s.cur.level = .h → exec .ecall s = .next (s.takeTrap cIllegal 0x3E000006))) ∧
  (∀ s : State,
    let ended := { s.release s.cur.id 6 with cur := { (s.release s.cur.id 6).cur with status := .ended } }
    (s.cur.laneDrained = false → exec .halt s = .next (s.waits .drain)) ∧
    (s.cur.laneDrained = true → s.cur.kind ≠ .group → exec .halt s = .next ended) ∧
    (s.cur.laneDrained = true → s.cur.kind = .group → (s.enclave? s.cur.enc).bind (·.save) = none →
      ∀ (g : Workgroup) (j : Nat) (b : Agent), s.wg? s.cur.wg = some g → j ∈ g.groups → j ≠ s.cur.id →
        s.agent? j = some b → b.status ≠ .ended → exec .halt s = .next ended))

/-- R298, R121, R156: `sret` goes on at XSPC at the level that XPRIV names, out of the handler, with the held lane work
resumed; in a restore routine the pending scalars become the scalar registers (R315). At U it raises PRIVILEGE. `fret` first
replays the instruction at XLANE for the threads in m15; a thread that faults again enters the handler again, and a replay
that raises ILLEGAL drops the rest of its block (R54). -/
def Obligations.TrapReturn : Prop :=
  ∀ s : State,
    (s.cur.level = .u → exec .sret s = .next (s.takeTrap cPrivilege 0) ∧ exec .fret s = .next (s.takeTrap cPrivilege 0)) ∧
    (s.cur.level ≠ .u → s.cur.laneDrained = false → exec .sret s = .next (s.waits .drain)) ∧
    (s.cur.level ≠ .u → s.cur.laneDrained = true → exec .sret s = .next { s with cur := { s.cur with
      pc := s.cur.trap.spc
      level := s.cur.trap.level
      regs := { s.cur.regs with s :=
        if s.cur.trap.inRestore = true then s.cur.pendingScalars.getD s.cur.regs.s else s.cur.regs.s }
      pendingScalars := none
      trap := { s.cur.trap with hm := false, fv := false, inRestore := false, used := 0 }
      lane := { s.cur.lane with
        active := match s.cur.lane.held with | some h => h.active | none => s.cur.lane.active
        queue := (match s.cur.lane.held with | some h => h.queue | none => []) ++ s.cur.lane.queue
        held := none } } }) ∧
    (s.cur.level ≠ .u → s.cur.trap.fv = false → exec .fret s = .next (s.takeTrap cIllegal 0x3E000005)) ∧
    (s.cur.level ≠ .u → s.cur.trap.fv = true → s.cur.laneDrained = false → exec .fret s = .next (s.waits .drain)) ∧
    (s.cur.lane.replay = none → ∃ b, s.cur.replaying.lane.active = some b ∧ b.only = some (s.cur.mask 15 &&& allLive s.cur.gsize) ∧
      b.level = s.cur.trap.level ∧ b.s = s.cur.regs.s) ∧
    (∀ (j : Instr) (k : State → Out) (t u : State), s.cur.level ≠ .u → s.cur.trap.fv = true → s.cur.laneDrained = true →
      fetchLane (xlaneIndex s.cur) (s.onCur fun a => a.replaying) = .ok (.ok j) t → laneMeaning j = some k → k t = .next u →
      (∀ w, u.cur.status ≠ .waiting w) →
      (u.cur.trap.hm = true → Ends .fret s fun v => v.mem = u.mem ∧ v.cur.pc = u.cur.pc ∧ v.cur.trap = u.cur.trap ∧ v.cur.regs = u.cur.regs ∧
        v.cur.lane.held = s.cur.lane.held.map fun h => if u.cur.trap.cause = cIllegal then { h with active := none } else h) ∧
      (u.cur.trap.hm = false → s.cur.trap.inRestore = false → Ends .fret s fun v => v.mem = u.mem ∧ v.others = u.others ∧
        v.cur.pc = s.cur.trap.spc ∧ v.cur.level = s.cur.trap.level ∧ v.cur.regs = u.cur.regs ∧ v.cur.lane.pend = u.cur.lane.pend ∧
        v.cur.trap = { s.cur.trap with hm := false, fv := false, inRestore := false, used := 0 } ∧ v.cur.lane.held = none ∧
        v.cur.lane.queue = (match s.cur.lane.held with | some h => h.queue | none => []) ++ s.cur.lane.queue ∧
        v.cur.lane.active = match s.cur.lane.held with | some h => h.active | none => none))

/-- R112, R15: `setw` asks for a grant. The contract is granted where there is one, else a legal width by the
hardware's choice (log 2); illegal widths raise WIDTH; control threads raise ILLEGAL. R114: `qread` compares sequence
numbers, waits while a write of qN may still come (one that has not returned, or one of a reduction handed over and not
yet issued; of the work held behind a lane fault see log 16), and traps when none can. R110: `lrun` hands over a block with a copy of the scalar registers, waits for room behind eight, and
refuses an index past the lane section. -/
def Obligations.GroupControlInstructions : Prop :=
  (∀ (s : State) (a : BitVec 6),
    let w := (s.cur.rs a).toNat
    let word := BitVec.ofNat 64 (0x1F * 2 ^ 25 + a.toNat * 2 ^ 13 + 10)
    (s.cur.kind ≠ .group → exec (.setw a) s = .next (s.takeTrap cIllegal word)) ∧
    (s.cur.kind = .group → s.cur.inRoutine = false →
      (¬ (w ∈ [8, 16, 32, 64] ∧ w ≤ s.cur.gsize) → exec (.setw a) s = .next (s.takeTrap cWidth (s.cur.rs a))) ∧
      (w ∈ [8, 16, 32, 64] ∧ w ≤ s.cur.gsize →
        (s.cur.laneDrained = false → exec (.setw a) s = .next (s.waits .drain)) ∧
        (s.cur.laneDrained = true → ∃ g, exec (.setw a) s = .next { s with
            choices := if s.cur.contract = none then s.choices.tail else s.choices
            free := if s.cur.contract = none ∧ s.choices = [] then s.free + 1 else s.free
            cur := { s.cur with
              pc := s.cur.pc + 4, width := g
              gchg := s.cur.gchg || decide (g ≠ s.cur.seenWidth) } } ∧
          (∀ c, s.cur.contract = some c → g = c) ∧
          (s.cur.contract = none → g ∈ [8, 16, 32, 64] ∧ g ≤ s.cur.gsize))))) ∧
  (∀ (s : State) (d a : BitVec 6) (q : BitVec 2),
    let r := s.cur.regs.q[q.toNat]
    let want := (s.cur.rs a).setWidth 16
    s.cur.inRoutine = false →
      (r.seq = want → exec (.qread d a q) s = .next (s.write d r.val)) ∧
      (r.seq ≠ want → s.qPending q.toNat = true → exec (.qread d a q) s = .next (s.waits (.qread q d want))) ∧
      (r.seq ≠ want → s.qPending q.toNat = false →
        exec (.qread d a q) s = .next (s.takeTrap cSoftware (BitVec.ofNat 64 (want.toNat * 2 ^ 16 + r.seq.toNat)))) ∧
      ((∃ x, PendWrite.q q.toNat x ∈ s.cur.lane.writes) → s.qPending q.toNat = true) ∧
      ((∀ x, PendWrite.q q.toNat x ∉ s.cur.lane.writes) → s.cur.lane.active = none →
        (s.cur.lane.queue = [] → s.qPending q.toNat = false) ∧
        (∀ (b : Block) (i : Instr) (t : State) (f : Lane) (u : LaneUse), s.cur.lane.queue = [b] →
          fetchLane b.lidx s = .ok (.ok i) t → laneUse i = some (f, u) → f.last = true →
          s.qPending q.toNat = (laneQDest i == some q.toNat)))) ∧
  (∀ (s : State) (inv : Bool) (k : BitVec 4) (l : BitVec 20) (v : CodeView),
    let word := BitVec.ofNat 64 (0x20 * 2 ^ 25 + inv.toNat * 2 ^ 24 + k.toNat * 2 ^ 20 + l.toNat)
    (s.cur.kind ≠ .group → exec (.lrun inv k l) s = .next (s.takeTrap cIllegal word)) ∧
    (s.cur.kind = .group → s.cur.inRoutine = false → s.cur.code = some v →
      (v.laneN ≤ l.toNat → exec (.lrun inv k l) s = .next (s.takeTrap cIllegal (BitVec.ofNat 64 l.toNat))) ∧
      (l.toNat < v.laneN → 8 ≤ s.cur.lane.queue.length → exec (.lrun inv k l) s = .next (s.waits .lrunRoom)) ∧
      (l.toNat < v.laneN → s.cur.lane.queue.length < 8 →
        exec (.lrun inv k l) s = .next { s with cur := { s.cur with
          pc := s.cur.pc + 4
          lane := { s.cur.lane with queue := s.cur.lane.queue ++
            [{ lidx := l.toNat, sel := k, inv, s := s.cur.regs.s, level := s.cur.level }] } } })))

/-! ## Control and status registers -/

/-- R30: numbers that Table 1.5 does not list raise ILLEGAL, and so does a write of a read-only register; a U-level
access to a register that S may access raises PRIVILEGE; none of them changes any register but those of the trap.
R115, R116, R79: register accesses that Table 1.5 admits. The old value comes back in sD; a read of GRANT clears GCHG
(R13); an access that R79 names waits for the lane stream. PSTAT in a routine also counts an open number of cycles
(log 17). R116, Tables 4.7, 3.7 and 11.8: what a register reads after a write, field by field; a write reaches no
other register but the acting agent's, and no field of it but those named. -/
def Obligations.SpecialRegisterAccesses : Prop :=
  (∀ (s : State) (d a : BitVec 6) (r : BitVec 12),
    let word := fun (op : Nat) (a : BitVec 6) => BitVec.ofNat 64 (op * 2 ^ 25 + d.toNat * 2 ^ 19 + a.toNat * 2 ^ 13 + r.toNat)
    (r.toNat ∉ [0x000, 0x001, 0x002, 0x003, 0x004, 0x005, 0x006, 0x010, 0x011, 0x012, 0x020, 0x021, 0x022, 0x023,
        0x024, 0x025, 0x030, 0x031, 0x032, 0x040, 0x041, 0x050] →
      exec (.csrr d r) s = .next (s.takeTrap cIllegal (word 0x21 0)) ∧
      exec (.csrw d a r) s = .next (s.takeTrap cIllegal (word 0x22 a)) ∧
      exec (.csrs d a r) s = .next (s.takeTrap cIllegal (word 0x23 a)) ∧
      exec (.csrc d a r) s = .next (s.takeTrap cIllegal (word 0x24 a))) ∧
    (s.cur.level = .u → r.toNat ∈ [0x020, 0x021, 0x022, 0x023, 0x024, 0x025, 0x030, 0x031, 0x032] →
      exec (.csrr d r) s = .next (s.takeTrap cPrivilege 0) ∧ exec (.csrw d a r) s = .next (s.takeTrap cPrivilege 0) ∧
      exec (.csrs d a r) s = .next (s.takeTrap cPrivilege 0) ∧ exec (.csrc d a r) s = .next (s.takeTrap cPrivilege 0)) ∧
    (s.cur.level = .h → r.toNat ∈ [0x002, 0x003, 0x004, 0x005, 0x006, 0x023, 0x030, 0x031, 0x032] →
      exec (.csrr d r) s = .next (s.takeTrap cIllegal (word 0x21 0)) ∧
      exec (.csrw d a r) s = .next (s.takeTrap cIllegal (word 0x22 a)) ∧
      exec (.csrs d a r) s = .next (s.takeTrap cIllegal (word 0x23 a)) ∧
      exec (.csrc d a r) s = .next (s.takeTrap cIllegal (word 0x24 a))) ∧
    ((r.toNat ∈ [0x001, 0x002, 0x003, 0x004, 0x005, 0x006, 0x040, 0x041, 0x050] ∨
        (s.cur.level = .s ∧ r.toNat ∈ [0x024, 0x030, 0x031, 0x032]) ∨ (s.cur.level = .h ∧ r.toNat = 0x024)) →
      exec (.csrw d a r) s = .next (s.takeTrap cIllegal (word 0x22 a)) ∧
      exec (.csrs d a r) s = .next (s.takeTrap cIllegal (word 0x23 a)) ∧
      exec (.csrc d a r) s = .next (s.takeTrap cIllegal (word 0x24 a)))) ∧
  (∀ (s : State) (d a : BitVec 6) (r : BitVec 12),
    let x := s.cur.rs a
    let old := csrValue s r
    let mayRead := r.toNat ∈ [0x000, 0x001, 0x010, 0x011, 0x012, 0x040, 0x041, 0x050] ∨
      (s.cur.level ≠ .h ∧ r.toNat ∈ [0x002, 0x003, 0x004, 0x005, 0x006]) ∨
      (s.cur.level ≠ .u ∧ r.toNat ∈ [0x020, 0x021, 0x022, 0x024, 0x025]) ∨
      (s.cur.level = .s ∧ r.toNat ∈ [0x023, 0x030, 0x031, 0x032])
    let mayWrite := r.toNat ∈ [0x000, 0x010, 0x011, 0x012] ∨
      (s.cur.level ≠ .u ∧ r.toNat ∈ [0x020, 0x021, 0x022, 0x025]) ∨ (s.cur.level = .s ∧ r.toNat = 0x023)
    (mayRead → r.toNat = 0x012 → s.cur.laneDrained = false → exec (.csrr d r) s = .next (s.waits .drain)) ∧
    (mayRead → (r.toNat = 0x012 → s.cur.laneDrained = true) → (r.toNat = 0x032 → s.cur.inRoutine = false) →
      exec (.csrr d r) s = .next ((if r.toNat = 1 then
        { s with cur := { s.cur with gchg := false, seenWidth := s.cur.width } } else s).write d old)) ∧
    (s.cur.level = .s → s.cur.inRoutine = true → ∃ (u : BitVec 32) (cs : List Nat) (n : Nat),
      let t := { s with cur := { s.cur with trap := { s.cur.trap with used := u } }, choices := cs, free := n }
      exec (.csrr d 0x032) s = .next (t.write d (csrValue t 0x032)) ∧ (csrValue t 0x032).toNat / 2 ^ 32 = u.toNat) ∧
    (mayWrite → r.toNat ∈ [0x010, 0x011, 0x012] → s.cur.laneDrained = false →
      exec (.csrw d a r) s = .next (s.waits .drain) ∧ exec (.csrs d a r) s = .next (s.waits .drain) ∧
      exec (.csrc d a r) s = .next (s.waits .drain)) ∧
    (mayWrite → (r.toNat ∈ [0x010, 0x011, 0x012] → s.cur.laneDrained = true) →
      exec (.csrw d a r) s = .next ({ s with cur := csrClear (csrPut s.cur r x) r x }.write d old) ∧
      exec (.csrs d a r) s = .next ({ s with cur := csrPut s.cur r (old ||| x) }.write d old) ∧
      exec (.csrc d a r) s = .next ({ s with cur := csrClear (csrPut s.cur r (old &&& ~~~ x)) r x }.write d old))) ∧
  (∀ (s : State) (x : Word),
    let dest := fun (r : BitVec 12) => { s with cur := csrClear (csrPut s.cur r x) r x }
    csrValue (dest 0x000) 0x000 = csrValue s 0x000 &&& ~~~ x ∧
    csrValue (dest 0x010) 0x010 = (if (x &&& 7).toNat ≤ 4 then x &&& 7 else csrValue s 0x010) ∧
    csrValue (dest 0x011) 0x011 = x &&& 0x3F ∧
    csrValue (dest 0x012) 0x012 = x &&& 0x1F ∧
    csrValue (dest 0x020) 0x020 = x &&& 0x1FF ∧
    csrValue (dest 0x021) 0x021 = x ∧
    csrValue (dest 0x022) 0x022 = x &&& ~~~ 3 ∧
    csrValue (dest 0x023) 0x023 = (x &&& ~~~ 3) ||| (csrValue s 0x023 &&& 1) ∧
    csrValue (dest 0x025) 0x025 = x &&& ~~~ 0xFFF ∧
    (∀ r r' : BitVec 12, r ≠ r' → r.toNat ∈ [0x000, 0x010, 0x011, 0x012, 0x020, 0x021, 0x022, 0x023, 0x025] →
      csrValue (dest r) r' = csrValue s r') ∧
    (∀ r : BitVec 12, (dest r).cur.regs = s.cur.regs ∧ (dest r).cur.pc = s.cur.pc ∧ (dest r).cur.level = s.cur.level ∧
      (dest r).cur.lane = s.cur.lane ∧ (dest r).cur.shadow = s.cur.shadow))

/-! ## Loads and stores -/

/-- R161, R158: the scalar loads, by size and extension. R161, R158: the scalar stores write the low bytes of sD.
R158, R9, R89: a misaligned load or store raises MISALIGN at its address; a translation fault is taken with nothing
changed but what the walk claimed or locked. -/
def Obligations.ScalarLoadsAndStores : Prop :=
  (∀ (s u : State) (d a : BitVec 6) (i : BitVec 13) (bs : List Byte),
    let va := s.cur.rs a + BitVec.ofInt 64 i.toInt
    (ReadsBytes s va 1 bs u → exec (.ldsI8 d a i) s = .next (u.write d (BitVec.ofInt 64 (intOf 1 (bytesNat bs)))) ∧
      exec (.ldsN8 d a i) s = .next (u.write d (BitVec.ofNat 64 (bytesNat bs)))) ∧
    (ReadsBytes s va 2 bs u → exec (.ldsI16 d a i) s = .next (u.write d (BitVec.ofInt 64 (intOf 2 (bytesNat bs)))) ∧
      exec (.ldsN16 d a i) s = .next (u.write d (BitVec.ofNat 64 (bytesNat bs)))) ∧
    (ReadsBytes s va 4 bs u → exec (.ldsI32 d a i) s = .next (u.write d (BitVec.ofInt 64 (intOf 4 (bytesNat bs)))) ∧
      exec (.ldsN32 d a i) s = .next (u.write d (BitVec.ofNat 64 (bytesNat bs)))) ∧
    (ReadsBytes s va 8 bs u → exec (.ldsI64 d a i) s = .next (u.write d (BitVec.ofNat 64 (bytesNat bs))))) ∧
  (∀ (s u : State) (d a : BitVec 6) (i : BitVec 13),
    let va := s.cur.rs a + BitVec.ofInt 64 i.toInt
    let x := (s.cur.rs d).toNat
    (WritesBytes s va (natBytes x 1) u → exec (.stsI8 d a i) s = .next (u.withPc (u.cur.pc + 4))) ∧
    (WritesBytes s va (natBytes x 2) u → exec (.stsI16 d a i) s = .next (u.withPc (u.cur.pc + 4))) ∧
    (WritesBytes s va (natBytes x 4) u → exec (.stsI32 d a i) s = .next (u.withPc (u.cur.pc + 4))) ∧
    (WritesBytes s va (natBytes x 8) u → exec (.stsI64 d a i) s = .next (u.withPc (u.cur.pc + 4)))) ∧
  (∀ (s t : State) (d a : BitVec 6) (i : BitVec 13) (c : Cause) (v : Word) (ipa : Nat),
    let va := s.cur.rs a + BitVec.ofInt 64 i.toInt
    let trapped := (s.claiming t).takeTrap c v ipa
    (va.toNat % 2 ≠ 0 → ∀ j ∈ [Instr.ldsI16 d a i, .ldsN16 d a i, .stsI16 d a i],
      exec j s = .next (s.takeTrap cMisalign va)) ∧
    (va.toNat % 4 ≠ 0 → ∀ j ∈ [Instr.ldsI32 d a i, .ldsN32 d a i, .stsI32 d a i],
      exec j s = .next (s.takeTrap cMisalign va)) ∧
    (va.toNat % 8 ≠ 0 → ∀ j ∈ [Instr.ldsI64 d a i, .stsI64 d a i], exec j s = .next (s.takeTrap cMisalign va)) ∧
    (va.toNat % 8 = 0 → translate s.cur.ctx va .r s = .error (.trap c v ipa) t →
      ∀ j ∈ [Instr.ldsI8 d a i, .ldsN8 d a i, .ldsI16 d a i, .ldsN16 d a i, .ldsI32 d a i, .ldsN32 d a i, .ldsI64 d a i],
        exec j s = .next trapped) ∧
    (va.toNat % 8 = 0 → translate s.cur.ctx va .w s = .error (.trap c v ipa) t →
      ∀ j ∈ [Instr.stsI8 d a i, .stsI16 d a i, .stsI32 d a i, .stsI64 d a i], exec j s = .next trapped))

/-- R246, R158: the frame of a plain store to memory by an agent of an enclave. The address stored to is the one that
`translateRange` gives; every byte from it on reads as stored, every other byte, home, the caches and the registers as the
translation left them: the write leaves the agent later. Chunks of the agent's own earlier copies that touch those bytes, and
what must land before these, land first (R150, log 74); with none nothing lands. R282, R288: what a translation
leaves. Agents, workgroups, enclaves, the layout and every queue and operation stay, and a byte keeps its home value
unless its frame was FREE and the walk has claimed it (R289).
The model's own choices here: log 20. -/
def Obligations.StoreAndTranslationFrames : Prop :=
  (∀ (s t : State) (va : Word) (bs : List Byte) (pa : Nat) (smr : Bool) (ap : BitVec 2),
    s.cur.kind ≠ .host → s.cur.id ≠ 0 → translateRange s.cur.ctx va .w bs.length s = .ok (.mem pa smr ap) t →
    let ps := (List.range bs.length).map (pa + ·)
    let v := t.landFor s.cur.id none ps
    ((∀ c ∈ t.chunks, c.agent = s.cur.id → c.touches none ps = false) → v = t) ∧
    ∃ u, writePlace s.cur.ctx (.mem pa smr ap) va bs t = .ok () u ∧
      (∀ k, k < bs.length → u.seenByte (pa + k) = bs.getD k 0) ∧
      (∀ q, (q < pa ∨ pa + bs.length ≤ q) → u.seenByte q = v.seenByte q) ∧
      u.mem = v.mem ∧ u.cur.regs = s.cur.regs ∧ u.cur.pc = s.cur.pc ∧ u.others = v.others ∧ u.pot = v.pot) ∧
  (∀ (s t : State) (c : Ctx) (va : Word) (k : Kind) (p : Place), translate c va k s = .ok p t →
    t.cur = s.cur ∧ t.others = s.others ∧ t.wgs = s.wgs ∧ t.enclaves = s.enclaves ∧ t.layout = s.layout ∧ t.ops = s.ops ∧
    t.fills = s.fills ∧ t.health = s.health ∧ t.links = s.links ∧ t.rp = s.rp ∧
    (∀ q, (∀ i, potIndex q = some i → (s.potAt i).state ≠ .free) → t.mem.homeByte q = s.mem.homeByte q))

/-- R288, Table 11.5: isolation. Where an agent or an engine of an enclave is given a place in HBM or LPDDR, the frame
belongs to that enclave (or is shared by it with the host), and a CODE frame is never written and a SAVE frame reached by
the save paths alone. -/
def Obligations.EnclaveIsolation : Prop :=
  ∀ (s t : State) (c : Ctx) (va : Word) (k : Kind) (pa : Nat) (smr : Bool) (ap : BitVec 2),
    c.host = false → translate c va k s = .ok (.mem pa smr ap) t →
    ∃ pa0, pa = t.redirect pa0 ∧ ∀ i, potIndex pa0 = some i →
      (t.potAt i).owner = c.enc ∧ (t.potAt i).state ≠ .free ∧ (t.potAt i).state ≠ .scrubbing ∧
      ((t.potAt i).state = .code → k ≠ .w ∧ k ≠ .a) ∧ ((t.potAt i).state = .save → c.save = true) ∧
      ((t.potAt i).state = .hostShared → k ≠ .x)

/-! ## Ordered and atomic accesses -/

/-- R37, R160: a scope wider than the partition's policy is clamped and marks GSTAT, or traps under CLAMPTRAP; on a
control thread scopes 1 and 2 act at scope 0; H is not clamped. R162, R163, R159: acquire loads and release stores; a
release waits for the lane stream. -/
def Obligations.OrderedLoadsAndStores : Prop :=
  (∀ (s : State) (k : Nat),
    let m := (s.policy s.cur).maxScope
    let at' := fun x => if s.cur.kind ≠ .group ∧ (x = 1 ∨ x = 2) then 0 else x
    (s.cur.kind = .host → checkScope k s = .ok (at' k) s) ∧
    (s.cur.kind ≠ .host → k ≤ m → checkScope k s = .ok (at' k) s) ∧
    (s.cur.kind ≠ .host → m < k → (s.policy s.cur).clampTrap = false →
      checkScope k s = .ok m { s with cur := { s.cur with clamped := true } }) ∧
    (s.cur.kind ≠ .host → m < k → (s.policy s.cur).clampTrap = true →
      checkScope k s = .error (.trap cScopeClamp (BitVec.ofNat 64 (k + 16 * m))) s)) ∧
  (∀ (s t t2 u : State) (d a b : BitVec 6) (sc : BitVec 4) (p : Place) (k x : Nat),
    let va := s.cur.rs a
    (∀ n, va.toNat % n = 0 → translateRange s.cur.ctx va .r n s = .ok p t → checkScope sc.toNat t = .ok k t2 →
      acquireLoad p va n k t2 = .ok x u →
      (n = 4 → exec (.ldacqI32 d a sc) s = .next (u.write d (BitVec.ofInt 64 (intOf 4 x))) ∧
        exec (.ldacqN32 d a sc) s = .next (u.write d (BitVec.ofNat 64 x))) ∧
      (n = 8 → exec (.ldacqI64 d a sc) s = .next (u.write d (BitVec.ofNat 64 x)))) ∧
    (∀ n, va.toNat % n = 0 → translateRange s.cur.ctx va .w n s = .ok p t → checkScope sc.toNat t = .ok k t2 →
      (t2.cur.laneDrained = false →
        (n = 4 → exec (.strelI32 a b sc) s = .next (s.waits .drain)) ∧
        (n = 8 → exec (.strelI64 a b sc) s = .next (s.waits .drain))) ∧
      (t2.cur.laneDrained = true →
        releaseStore p va (natBytes (s.cur.rs b).toNat n) k (t2.release t2.cur.id k) = .ok () u →
        (n = 4 → exec (.strelI32 a b sc) s = .next (u.withPc (u.cur.pc + 4))) ∧
        (n = 8 → exec (.strelI64 a b sc) s = .next (u.withPc (u.cur.pc + 4))))))

/-- R163, R248, R249: an acquire load at die scope or wider returns what home holds, and a release store at such a
scope is applied at home before it completes. R165, R166: the two halves of an atomic event act at home: the old value
is the home value, the new value stands at home when the event ends, and no byte beside it that no write in delivery
touches changes.
The model's own choices here: log 8. -/
def Obligations.HomeReadsAndWrites : Prop :=
  (∀ (s u : State) (va : Word) (pa : Nat) (smr : Bool) (ap : BitVec 2) (k n : Nat), 5 ≤ k →
    (∀ x, acquireLoad (.mem pa smr ap) va n k s = .ok x u →
      x = bytesNat ((List.range n).map fun i => u.mem.homeByte (pa + i))) ∧
    (∀ bs, releaseStore (.mem pa smr ap) va bs k s = .ok () u →
      ∀ i, i < bs.length → u.mem.homeByte (pa + i) = bs.getD i 0)) ∧
  (∀ (s t : State) (va : Word) (pa n : Nat) (smr : Bool) (ap : BitVec 2),
    (∀ old c, atomicRead (.mem pa smr ap) va n s = .ok (old, c) t →
      old = bytesNat ((List.range n).map fun i => t.mem.homeByte (pa + i)) ∧ t.cur.regs = s.cur.regs) ∧
    (∀ x c, atomicWrite (.mem pa smr ap) va x n c s = .ok () t →
      (∀ i, i < n → t.mem.homeByte (pa + i) = (natBytes x n).getD i 0) ∧
      (∀ q, (q < pa ∨ pa + n ≤ q) → t.mem.homeByte q = s.mem.homeByte q) ∧ t.cur = s.cur))

/-- R170: the fences, at the clamped scope. At die scope or wider a release fence names, for every later write of the agent, what
its die has applied (R250). R253, R251: after the reconcile of an acquire fence at die scope or wider
the die holds no copy of an ordinary line, so that its next read of one is filled from home.
The model's own choices here: log 8, log 9. -/
def Obligations.FenceInstructions : Prop :=
  (∀ (s t : State) (sc : BitVec 4) (k : Nat), checkScope sc.toNat s = .ok k t →
    exec (.fenceAcq sc) s = .next ((t.reconcile k).withPc (s.cur.pc + 4)) ∧
    (s.cur.laneDrained = false → exec (.fenceRel sc) s = .next (s.waits .drain) ∧
      exec (.fenceAr sc) s = .next (s.waits .drain)) ∧
    (s.cur.laneDrained = true →
      let r := t.release t.cur.id k
      let named := r.cur.relClock.join (if 5 ≤ k then (r.mem.die r.cur.die).clock else r.cur.relClock)
      let u := { r with cur := { r.cur with relClock := named } }
      exec (.fenceRel sc) s = .next (u.withPc (s.cur.pc + 4)) ∧
      (k < 5 → exec (.fenceAr sc) s = .next (u.withPc (s.cur.pc + 4))) ∧
      (5 ≤ k → exec (.fenceAr sc) s = .next ((u.pushHome.reconcile k).withPc (s.cur.pc + 4))))) ∧
  (∀ (s : State) (k : Nat), 5 ≤ k →
    ∀ c ∈ ((s.reconcile k).mem.die s.cur.die).copies, c.smr = true)

/-- R171 to R173: the range operations. They wait for the lane stream; a length of 0 does nothing; a range whose pages
all translate, or are skipped as absent, is operated on page by page. R171, R172, R241: what the operations do to the
copies of one stretch of an SMR page, rounded out to sectors: `cwb` and `cinv` write each dirty byte at its home, where the bytes
under no dirty copy stay; `cwb` leaves no dirty byte there, `cinv` and `cdis` no copy, and `cdis` writes nothing at home; copies
outside it, and of other pages, stay.
The model's own choices here: log 36. -/
def Obligations.CacheRangeOperations : Prop :=
  (∀ (s u : State) (a b : BitVec 6),
    let va := s.cur.rs a
    let n := min (s.cur.rs b).toNat (2 ^ 64 - va.toNat)
    (s.cur.laneDrained = false → exec (.cwb a b) s = .next (s.waits .drain) ∧
      exec (.cinv a b) s = .next (s.waits .drain) ∧ exec (.cdis a b) s = .next (s.waits .drain)) ∧
    (s.cur.laneDrained = true → n = 0 → exec (.cwb a b) s = .next (s.withPc (s.cur.pc + 4)) ∧
      exec (.cinv a b) s = .next (s.withPc (s.cur.pc + 4)) ∧ exec (.cdis a b) s = .next (s.withPc (s.cur.pc + 4))) ∧
    (s.cur.laneDrained = true → n ≠ 0 →
      (RangeRuns .wb .r (s.spans va n) (s.drainWrites s.cur.id) u → exec (.cwb a b) s = .next (u.withPc (s.cur.pc + 4))) ∧
      (RangeRuns .inv .r (s.spans va n) (s.drainWrites s.cur.id) u → exec (.cinv a b) s = .next (u.withPc (s.cur.pc + 4))) ∧
      (RangeRuns .dis .w (s.spans va n) (s.drainWrites s.cur.id) u → exec (.cdis a b) s = .next (u.withPc (s.cur.pc + 4))))) ∧
  (∀ (s : State) (die pa n q : Nat),
    let before := (s.mem.die die).copies
    let dirty := before.filter fun c => c.smr && c.dirty && c.addr == q
    let within := pa / 32 * 32 ≤ q ∧ q < (pa + n + 31) / 32 * 32
    (within →
      (∀ c ∈ ((s.rangeOn .wb die pa n).mem.die die).copies, c.addr = q → c.smr = true → c.dirty = false) ∧
      (∀ c ∈ ((s.rangeOn .inv die pa n).mem.die die).copies, c.addr = q → c.smr = false) ∧
      (∀ c ∈ ((s.rangeOn .dis die pa n).mem.die die).copies, c.addr = q → c.smr = false)) ∧
    (within → ∀ op, op = .wb ∨ op = .inv → ∀ c, dirty.getLast? = some c → (s.rangeOn op die pa n).mem.homeByte q = c.val) ∧
    (∀ op, (¬ within ∨ dirty = [] ∨ op = .dis) → (s.rangeOn op die pa n).mem.homeByte q = s.mem.homeByte q) ∧
    (∀ op c, c.addr = q → (¬ within ∨ c.smr = false) → (c ∈ ((s.rangeOn op die pa n).mem.die die).copies ↔ c ∈ before)) ∧
    (∀ op, (s.rangeOn op die pa n).cur = s.cur ∧ (s.rangeOn op die pa n).others = s.others))

/-- R164, R165, Table 6.4: the value each scalar atomic writes and the old value it returns, with its order and scope.
R168, R169: `mcas` of admissible entries that do not overlap. Where every location holds its expected value all of
them take their new values and sD receives 0; else none is written and sD receives a bit for each that did not match;
the observed values are reported on a failure or when asked. -/
def Obligations.AtomicInstructions : Prop :=
  (∀ (s u : State) (d a b : BitVec 6) (w : Bool) (o : BitVec 2) (sc : BitVec 4) (old : Nat),
    let n := if w then 8 else 4
    let va := s.cur.rs a
    let x := (s.cur.rs b).toNat % 2 ^ (8 * n)
    let e := (s.cur.rs d).toNat % 2 ^ (8 * n)
    let ret := if w then BitVec.ofNat 64 old else BitVec.ofInt 64 (intOf 4 old)
    let retn := if w then BitVec.ofNat 64 old else BitVec.ofNat 64 (old % 2 ^ 32)
    (AtomicRuns s va n true o sc (fun y => (y + x) % 2 ^ (8 * n)) old u →
      exec (.atomAdd d a b w o sc) s = .next (u.write d ret)) ∧
    (AtomicRuns s va n false o sc (fun y => y &&& x) old u → exec (.atomAnd d a b w o sc) s = .next (u.write d ret)) ∧
    (AtomicRuns s va n false o sc (fun y => y ||| x) old u → exec (.atomOr d a b w o sc) s = .next (u.write d ret)) ∧
    (AtomicRuns s va n false o sc (fun y => y ^^^ x) old u → exec (.atomXor d a b w o sc) s = .next (u.write d ret)) ∧
    (AtomicRuns s va n false o sc (fun y => if intOf n y < intOf n x then y else x) old u →
      exec (.atomMin d a b w o sc) s = .next (u.write d ret)) ∧
    (AtomicRuns s va n false o sc (fun y => if intOf n y < intOf n x then x else y) old u →
      exec (.atomMax d a b w o sc) s = .next (u.write d ret)) ∧
    (AtomicRuns s va n false o sc (fun y => min y x) old u → exec (.atomMinn d a b w o sc) s = .next (u.write d retn)) ∧
    (AtomicRuns s va n false o sc (fun y => max y x) old u → exec (.atomMaxn d a b w o sc) s = .next (u.write d retn)) ∧
    (AtomicRuns s va n true o sc (fun _ => x) old u → exec (.atomSwap d a b w o sc) s = .next (u.write d ret)) ∧
    (AtomicRuns s va n true o sc (fun y => if y = e then x else y) old u →
      exec (.atomCas d a b w o sc) s = .next (u.write d ret))) ∧
  (∀ (s t1 t2 t3 t4 t5 t6 u : State) (d a : BitVec 6) (hb : List Byte) (es : List McasEntry) (ps : List (Nat × Bool))
    (os : List Nat) (k : Nat)
    (c : Clock),
    let base := s.cur.rs a
    let h := bytesNat hb
    let bits := ((es.zip os).zipIdx.map fun x => if x.1.1.exp = x.1.2 then 0 else 2 ^ x.2).sum
    base.toNat % 32 = 0 → loadBlock base 32 s = .ok hb t1 → mcasHeaderOk h = true →
    mcasEntries base h (List.range (h % 256)) t1 = .ok es t2 → es.mapM mcasPlace t2 = .ok ps t3 →
    mcasOverlap ((ps.map (·.1)).zip (es.map (·.size))) = none → checkScope (h / 2 ^ 8 % 2 ^ 4) t3 = .ok k t4 →
    t4.cur.laneDrained = true → mcasObserve (es.zip ps) (t4.release t4.cur.id k) = .ok (os, c) t5 →
    (bits = 0 →
      mcasWrite (es.zip ps) (c.join (t5.releaseClock k)) t5 = .ok () t6 →
      (h.testBit 12 = false → exec (.mcas d a) s = .next ((t6.acquire t6.cur.die k c).write d 0)) ∧
      (h.testBit 12 = true → mcasReport base os 0 (t6.acquire t6.cur.die k c) = .ok () u →
        exec (.mcas d a) s = .next (u.write d 0))) ∧
    (bits ≠ 0 → mcasReport base os 0 (t5.acquire t5.cur.die k c) = .ok () u →
      exec (.mcas d a) s = .next (u.write d (BitVec.ofNat 64 bits))))

/-! ## Timelines, barriers, queues -/

/-- R174 to R177: timelines. A handle that names none, and any handle at H, raises PERMISSION with the handle. `tread`
reads the counter; `twait` waits until it reaches n, then acquires; `tsig` takes the maximum, releasing; the group
timeline reaches a batch when every chunk of the batches up to it has landed. R185, R186, R258, R207, R208: `kick` and
its four answers, with what an accepted record keeps; `tstat` and the word it reads; `eresume` of a suspended
operation.
The model's own choices here: log 37, log 46, log 87. -/
def Obligations.TimelineAndQueueInstructions : Prop :=
  (∀ (s t : State) (d a b : BitVec 6) (k : Nat),
    let h := s.cur.rs a
    let n := s.cur.rs b
    ((s.cur.kind = .host ∨ (h.toNat ≠ 2 ^ 63 ∧ (2 ^ 12 ≤ h.toNat ∨
        ∀ e, s.enclave? s.cur.enc = some e → e.timelines.length ≤ h.toNat))) →
      exec (.tread d a) s = .next (s.takeTrap cPermission h) ∧ exec (.tsig a b) s = .next (s.takeTrap cPermission h) ∧
      (s.cur.inRoutine = false → exec (.twait d a b) s = .next (s.takeTrap cPermission h))) ∧
    (∀ (e : Enclave) (tl : Timeline), s.cur.kind ≠ .host → s.enclave? s.cur.enc = some e → h.toNat < 2 ^ 12 →
      e.timelines[h.toNat]? = some tl →
      exec (.tread d a) s = .next (s.write d tl.count) ∧
      (s.cur.inRoutine = false →
        (tl.count.toNat < n.toNat → exec (.twait d a b) s = .next (s.waits (.twait h n))) ∧
        (n.toNat ≤ tl.count.toNat → checkScope tl.scope s = .ok k t →
          exec (.twait d a b) s = .next ((t.acquire t.cur.die k tl.clock).write d tl.count))) ∧
      (tl.soft = false → exec (.tsig a b) s = .next (s.takeTrap cPermission h)) ∧
      (tl.soft = true → checkScope tl.scope s = .ok k t →
        (t.cur.laneDrained = false → exec (.tsig a b) s = .next (s.waits .drain)) ∧
        (t.cur.laneDrained = true →
          let r := t.release t.cur.id k
          exec (.tsig a b) s = .next ({ r with enclaves := r.enclaves.map fun (x : Enclave) => if x.id = s.cur.enc then
              { x with timelines := x.timelines.modify h.toNat fun y => { y with
                count := BitVec.ofNat 64 (max y.count.toNat n.toNat)
                clock := y.clock.join (r.releaseClock k) } } else x }.withPc (r.cur.pc + 4))))) ∧
    (s.cur.kind ≠ .host → h.toNat = 2 ^ 63 → s.cur.sync.lastBatch < 2 ^ 64 →
      exec (.tsig a b) s = .next (s.takeTrap cPermission h) ∧
      ∃ c, (∀ m, m ≠ 0 → (m ≤ c ↔ m ≤ s.cur.sync.lastBatch ∧ ∀ x ∈ s.chunks, x.agent = s.cur.id → m < x.batch)) ∧
        exec (.tread d a) s = .next (s.write d (BitVec.ofNat 64 c)) ∧
        (s.cur.inRoutine = false →
          (s.cur.sync.lastBatch < n.toNat → exec (.twait d a b) s = .next (s.takeTrap cSoftware n)) ∧
          (n.toNat ≤ s.cur.sync.lastBatch → c < n.toNat → exec (.twait d a b) s = .next (s.waits (.twait h n))) ∧
          (n.toNat ≤ s.cur.sync.lastBatch → n.toNat ≤ c → checkScope (s.cur.sync.scopeUpTo n.toNat) s = .ok k t →
            exec (.twait d a b) s = .next ((t.acquire t.cur.die k .zero).write d (BitVec.ofNat 64 c))))) ∧
    (s.cur.kind = .host → exec (.cbatch d) s = .next (s.write d 0)) ∧
    (s.cur.kind ≠ .host → exec (.cbatch d) s = .next ({ s with cur := { s.cur with sync := { s.cur.sync with
      lastBatch := s.cur.sync.lastBatch + 1, openScope := 0
      batchScope := s.cur.sync.batchScope ++ [(s.cur.sync.lastBatch + 1, s.cur.sync.openScope)] } } }.write d
        (BitVec.ofNat 64 (s.cur.sync.lastBatch + 1))))) ∧
  (∀ (s t : State) (d a b : BitVec 6) (q : Queue),
    let x := (s.cur.rs a).toNat
    let y := s.cur.rs b
    let n := if q.kind = 2 then 128 else 64
    let ntl := match s.enclave? s.cur.enc with | some e => e.timelines.length | none => 0
    (s.cur.inRoutine = false →
      (s.cur.kind = .host ∨ 2 ^ 16 ≤ x ∨ s.queue? s.cur.enc x = none → exec (.kick d a b) s = .next (s.write d 3)) ∧
      (s.cur.kind ≠ .host → x < 2 ^ 16 → s.queue? s.cur.enc x = some q →
        (y.toNat % n ≠ 0 → exec (.kick d a b) s = .next (s.takeTrap cMisalign y)) ∧
        (y.toNat % n = 0 → ∀ bs, loadBlock y n s = .ok bs t →
          (recordOk s { bytes := bs } q.kind ntl = false → exec (.kick d a b) s = .next (t.write d 3)) ∧
          (recordOk s { bytes := bs } q.kind ntl = true →
            (q.place = 2 → exec (.kick d a b) s = .next (t.write d 2)) ∧
            (∀ k t2, q.place ≠ 2 → t.queue? s.cur.enc x = some q → t.cur = s.cur → checkScope 6 t = .ok k t2 →
              (s.cur.laneDrained = false → exec (.kick d a b) s = .next (s.waits .drain)) ∧
              (s.cur.laneDrained = true → ∀ t3,
                (if q.place = 1 then writeVa (hwCtx s.cur.enc s.cur.die) (q.spillSlot q.spilled) bs (t2.release t2.cur.id k)
                  else .ok () (t2.release t2.cur.id k)) = .ok () t3 → t3.queue? s.cur.enc x = some q →
                ∃ (r : Rec) (u : State), exec (.kick d a b) s = .next (u.write d (BitVec.ofNat 64 q.place)) ∧
                  r.bytes = bs ∧ r.rmode = s.cur.rmode ∧ r.flush = s.cur.flush ∧ r.agent = s.cur.id ∧ r.level = s.cur.level ∧
                  u.cur = t3.cur ∧ u.mem = t3.mem ∧ u.queue? s.cur.enc x = some (if q.place = 0 then { q with hw := q.hw ++ [r] }
                    else { q with spill := q.spill ++ [r], spilled := q.spilled + 1 }))))))) ∧
    (s.cur.kind = .host → exec (.tstat d a) s = .next (s.takeTrap cPrivilege 0)) ∧
    (s.cur.kind ≠ .host →
      (2 ^ 16 ≤ x ∨ s.queue? s.cur.enc x = none → exec (.tstat d a) s = .next (s.write d (BitVec.allOnes 64))) ∧
      (x < 2 ^ 16 → s.queue? s.cur.enc x = some q → q.kind < 8 → ∃ (w : Word) (u : State), exec (.tstat d a) s = .next (u.write d w) ∧
        u.queue? s.cur.enc x = some { q with err := false } ∧ u.cur = s.cur ∧ u.mem = s.mem ∧ u.ops = s.ops ∧
        w.getLsbD 63 = s.suspended s.cur.enc x q ∧ w.getLsbD 62 = q.err ∧ w.toNat / 2 ^ 56 % 2 ^ 6 = q.kind ∧
        w.toNat / 2 ^ 32 % 2 ^ 24 = min 65535 (s.pending s.cur.enc x q) ∧ w.toNat % 2 ^ 32 = q.last.toNat)) ∧
    (s.cur.level ≠ .s → exec (.eresume d a b) s = .next (s.takeTrap cPrivilege 0)) ∧
    (s.cur.level = .s →
      (1 < y.toNat → exec (.eresume d a b) s = .next (s.takeTrap cSoftware y)) ∧
      (y.toNat ≤ 1 → s.suspendedOp s.cur.enc (s.cur.rs a) = none → s.suspendedRefill s.cur.enc (s.cur.rs a) = none →
        exec (.eresume d a b) s = .next (s.write d 1)) ∧
      (∀ o, s.suspendedOp s.cur.enc (s.cur.rs a) = some o →
        (o.enc = s.cur.enc ∧ o.state = .suspended ∧ o.token = s.cur.rs a) ∧
        (y = 0 → exec (.eresume d a b) s = .next ({ s with ops := s.ops.map fun (z : Op) => if z.id = o.id then
          { z with state := if z.kind = OpKind.record 2 then .window else .running, cause := 0 } else z }.write d 0)) ∧
        (y = 1 → abandonOp o s = .ok () t → exec (.eresume d a b) s = .next (t.write d 2)))))

/-- R180: `Arrive`. On a barrier that is not malformed and still counts, each case of the tag and the count; a
malformed barrier takes OVF alone; the result of an arrival on a sound barrier is sound, with CUR above zero. R179 to
R181: the barrier instructions. The address is checked before sB; `abinit` writes the four words, `aarrive` releases
and arrives, `await` waits for COMPLETE to reach n and acquires.
The model's own choices here: log 87. -/
def Obligations.ArrivalBarriers : Prop :=
  (∀ (b : Barrier) (n : Nat) (tag : Bool),
    let e := b.word % 2 ^ 48
    let bad := 10 < b.word / 2 ^ 52 % 16 ∨ e = 0 ∨ b.word / 2 ^ 57 % 64 ≠ 0 ∨ b.word / 2 ^ 48 % 16 ≠ 0 ∨ e < b.cur ∨ e < b.next
    let full := { b with word := if b.word.testBit 63 then b.word else b.word + 2 ^ 63 }
    (bad → b.arrive n tag = full) ∧
    (¬ bad → b.word.testBit 63 = true → b.arrive n tag = b) ∧
    (¬ bad → b.word.testBit 63 = false → 0 < b.cur →
      (tag = b.complete.testBit 0 →
        (b.cur < n → b.arrive n tag = full) ∧
        (n < b.cur → b.arrive n tag = { b with cur := b.cur - n }) ∧
        (n = b.cur → b.next < e →
          b.arrive n tag = { b with complete := (b.complete + 1) % 2 ^ 64, cur := e - b.next, next := 0 }) ∧
        (n = b.cur → b.next = e →
          b.arrive n tag = { b with complete := (b.complete + 2) % 2 ^ 64, cur := e, next := 0 })) ∧
      (tag ≠ b.complete.testBit 0 →
        (e < b.next + n → b.arrive n tag = full) ∧
        (b.next + n ≤ e → b.arrive n tag = { b with next := b.next + n })) ∧
      0 < (b.arrive n tag).cur ∧ (b.arrive n tag).cur ≤ e ∧ (b.arrive n tag).next ≤ e)) ∧
  (∀ (s t u : State) (d a b : BitVec 6) (p : Place),
    let va := s.cur.rs a
    let x := (s.cur.rs b).toNat
    (va.toNat % 32 ≠ 0 → exec (.abinit a b) s = .next (s.takeTrap cMisalign va) ∧
      exec (.aarrive d a b) s = .next (s.takeTrap cMisalign va) ∧
      (s.cur.inRoutine = false → exec (.await d a b) s = .next (s.takeTrap cMisalign va))) ∧
    (va.toNat % 32 = 0 → atomicPlace va 32 false s = .ok p t →
      (10 < x / 2 ^ 52 % 16 ∨ x % 2 ^ 48 = 0 ∨ x / 2 ^ 57 ≠ 0 ∨ x / 2 ^ 48 % 16 ≠ 0 →
        exec (.abinit a b) s = .next ((s.claiming t).takeTrap cSoftware (s.cur.rs b))) ∧
      (x / 2 ^ 52 % 16 ≤ 10 → x % 2 ^ 48 ≠ 0 → x / 2 ^ 57 = 0 → x / 2 ^ 48 % 16 = 0 →
        writeBarrier p va { word := x, cur := x % 2 ^ 48, next := 0, complete := 0 } .zero (t.beforeAtomic p 32) = .ok () u →
        exec (.abinit a b) s = .next (u.withPc (u.cur.pc + 4))) ∧
      (x / 2 ^ 48 % 2 ^ 15 ≠ 0 → exec (.aarrive d a b) s = .next ((s.claiming t).takeTrap cSoftware 0)) ∧
      (∀ (bar : Barrier) (c : Clock) (t2 t3 : State) (k : Nat), readBarrier p va t = .ok (bar, c) t2 →
        (x / 2 ^ 48 % 2 ^ 15 = 0 →
          checkScope (if bar.malformed then 6 else bar.word / 2 ^ 52 % 16) t2 = .ok k t3 →
          (t3.cur.laneDrained = false → exec (.aarrive d a b) s = .next (s.waits .drain)) ∧
          (t3.cur.laneDrained = true →
            writeBarrier p va (bar.arrive (x % 2 ^ 48) (x.testBit 63))
              (c.join ((t3.release t3.cur.id k).releaseClock k)) (t3.release t3.cur.id k) = .ok () u →
            exec (.aarrive d a b) s = .next (u.write d (BitVec.ofNat 64 bar.complete)))) ∧
        (s.cur.inRoutine = false →
          (bar.word.testBit 63 = true ∨ bar.malformed = true →
            exec (.await d a b) s = .next ((s.claiming t2).takeTrap cSoftware va)) ∧
          (bar.word.testBit 63 = false → bar.malformed = false → bar.complete < x →
            exec (.await d a b) s = .next (s.waits (.await va (s.cur.rs b)))) ∧
          (bar.word.testBit 63 = false → bar.malformed = false → x ≤ bar.complete →
            checkScope (bar.word / 2 ^ 52 % 16) t2 = .ok k t3 →
            exec (.await d a b) s = .next ((t3.acquire t3.cur.die k c).write d (BitVec.ofNat 64 bar.complete)))))))

/-- R182 to R184: `wgbar` and `hbar`. Reserved bits, and a herd that HERDMAP does not list, raise SOFTWARE; a group releases,
arrives and waits; a control thread completes `wgbar` at once and has no herd. -/
def Obligations.WorkgroupBarriers : Prop :=
  ∀ (s t : State) (d a b : BitVec 6) (k : Nat), s.cur.inRoutine = false →
    let x := s.cur.rs a
    let h := x.toNat % 2 ^ 8
    let listed := fun (j : Nat) => s.cur.ids.herdMap.getLsbD (32 + j) = true ∧ s.cur.ids.herdMap.toNat / 2 ^ (8 * j) % 2 ^ 8 = h
    let arrives := fun (herd : Option Nat) (n : Nat) (w : Wait) (y : SyncState) =>
      let r := t.release t.cur.id k
      { r with cur := { r.cur with
        status := .waiting w
        sync := { y with arrival := some { herd, k := n, op := x.extractLsb' 8 3, val := s.cur.rs b, sd := d, scope := k, clock := r.releaseClock k } } } }
    (x.toNat % 2 ^ 8 ≠ 0 ∨ x.toNat / 2 ^ 11 ≠ 0 → exec (.wgbar d a b) s = .next (s.takeTrap cSoftware x)) ∧
    (x.toNat % 2 ^ 8 = 0 → x.toNat / 2 ^ 11 = 0 → s.cur.kind ≠ .group →
      (s.cur.laneDrained = false → exec (.wgbar d a b) s = .next (s.waits .drain)) ∧
      (s.cur.laneDrained = true → exec (.wgbar d a b) s = .next (s.write d (if x = 0 then 0 else s.cur.rs b)))) ∧
    (x.toNat % 2 ^ 8 = 0 → x.toNat / 2 ^ 11 = 0 → s.cur.kind = .group → checkScope 2 s = .ok k t →
      (t.cur.laneDrained = false → exec (.wgbar d a b) s = .next (s.waits .drain)) ∧
      (t.cur.laneDrained = true → exec (.wgbar d a b) s = .next
        (arrives none (t.cur.sync.wgbarK + 1) .wgbar { t.cur.sync with wgbarK := t.cur.sync.wgbarK + 1 }))) ∧
    (x.toNat / 2 ^ 11 ≠ 0 ∨ s.cur.kind ≠ .group ∨ (∀ j < 4, ¬ listed j) →
      exec (.hbar d a b) s = .next (s.takeTrap cSoftware x)) ∧
    (∀ j : Fin 4, x.toNat / 2 ^ 11 = 0 → s.cur.kind = .group → listed j → (∀ i < j.val, ¬ listed i) → checkScope 6 s = .ok k t →
      (t.cur.laneDrained = false → exec (.hbar d a b) s = .next (s.waits .drain)) ∧
      (t.cur.laneDrained = true → exec (.hbar d a b) s = .next
        (arrives (some h) (t.cur.sync.hbarK[j] + 1) .hbar { t.cur.sync with hbarK := t.cur.sync.hbarK.set j (t.cur.sync.hbarK[j] + 1) })))

/-! ## Block tables, enclaves, save areas -/

/-- R187, R198: the BT instructions. Levels; the release at enclave scope, the one atomic step, the status in
sD[63:56] and the value in sD[55:0]; `btcow` waits while its copy runs and `btdemote` leaves its move behind (R203,
R204). R198: a status other than 0 means that nothing visible changed: the step that ends in one writes nothing.
The model's own choices here: log 39. -/
def Obligations.BlockTableInstructionSteps : Prop :=
  (∀ (s t u : State) (d a b : BitVec 6) (k st v : Nat),
    let x := s.cur.rs a
    let y := s.cur.rs b
    let r := t.release t.cur.id k
    let c := r.cur.ctx
    let word := BitVec.ofNat 64 (st * 2 ^ 56 + v % 2 ^ 56)
    (s.cur.level = .h → ∀ j ∈ [Instr.btres d a b, .btalloc d a b, .btfork d a b, .btcow d a b, .btdemote d a b, .btrel d a b],
      exec j s = .next (s.takeTrap cPrivilege 0)) ∧
    (s.cur.level = .u → exec (.btres d a b) s = .next (s.takeTrap cPrivilege 0)) ∧
    (s.cur.level ≠ .h → checkScope 6 s = .ok k t →
      (t.cur.laneDrained = false → ∀ j ∈ [Instr.btalloc d a b, .btfork d a b, .btcow d a b, .btrel d a b],
        exec j s = .next (s.waits .drain)) ∧
      (t.cur.laneDrained = true →
        (s.cur.level = .s → B.step c k (btRes c x y) .a r = .ok (st, v) u → exec (.btres d a b) s = .next (u.write d word)) ∧
        (B.step c k (btAlloc c x y) .a r = .ok (st, v) u → exec (.btalloc d a b) s = .next (u.write d word)) ∧
        (B.step c k (btFork c x y) .a r = .ok (st, v) u → exec (.btfork d a b) s = .next (u.write d word)) ∧
        (B.step c k (btRel c x y) .a r = .ok (st, v) u → exec (.btrel d a b) s = .next (u.write d word)) ∧
        (B.step c k (btCow c x y) .a r = .ok (.status st v) u → exec (.btcow d a b) s = .next (u.write d word)) ∧
        (∀ old new ref, B.step c k (btCow c x y) .a r = .ok (.copy old new ref) u →
          exec (.btcow d a b) s = .next ({ u with nextId := u.nextId + 1, ops := u.ops ++
            [({ id := u.nextId, enc := u.cur.enc, kind := .cow x old new ref d,
                record := { bytes := [], agent := u.cur.id, die := u.cur.die }, die := u.cur.die } : Op)] }.waits (.btcow u.nextId))) ∧
        (∀ tl, moveTimeline s y = some tl →
          (B.step c k (btDemote c x (y.getLsbD 62)) .a r = .ok (.error st) u →
            exec (.btdemote d a b) s = .next (u.write d (BitVec.ofNat 64 (st * 2 ^ 56)))) ∧
          (∀ i m, B.step c k (btDemote c x (y.getLsbD 62)) .a r = .ok (.ok (i, m)) u →
            exec (.btdemote d a b) s = .next ({ u with nextId := u.nextId + 1, ops := u.ops ++
              [({ id := u.nextId, enc := u.cur.enc,
                  kind := .move (x.toNat / 2 ^ 60) i m (y.getLsbD 62) tl (s.cur.rs d),
                  record := { bytes := [] }, die := u.cur.die } : Op)] }.write d 0))))) ∧
    (s.cur.level ≠ .h → moveTimeline s y = none → exec (.btdemote d a b) s = .next (s.takeTrap cPermission y))) ∧
  (∀ (s t : State) (c : Ctx) (x y : Word) (st v : Nat) (w : BtState),
    (∀ f ∈ [btAlloc c x y, btFork c x y, btRel c x y], f.run {} s = .ok ((st, v), w) t → st ≠ 0 → v = 0 ∧ w.writes = []) ∧
    ((btCow c x y).run {} s = .ok (.status st v, w) t → w.writes = []) ∧
    (∀ up, (btDemote c x up).run {} s = .ok (.error st, w) t → st ≠ 0 ∧ w.writes = []))

/-- R209 to R219, R187: the ENC instructions that answer with a status. Another level raises PRIVILEGE; else the
answer, or the status in sD[63:56], is written to sD. R212 to R216: what the lifecycle instructions do. `ecreate` of
admissible blocks adds a BUILDING enclave; `eaddpg` adds a page; `eextend` extends M by SHAKE256 and, with FINAL,
starts the control threads; `edestroy` leaves the enclave DYING with no key, no queue and no agent, and its frames
SCRUBBING. The drawn identifier and keys are the hardware's choice (log 2).
The model's own choices here: log 2, log 45. -/
def Obligations.EnclaveCreationAndEnd : Prop :=
  (∀ (s u : State) (d a : BitVec 6) (w : Word) (n : Nat),
    let x := s.cur.rs a
    let l := [(Instr.ecreate d a, ecreate x), (.edestroy d a, edestroy x), (.eaddpg d a, eaddpg x), (.eextend d a, eextend x),
      (.eevict d a, eevict x), (.eload d a, eload x)]
    (s.cur.level ≠ .h → ∀ j ∈ l, exec j.1 s = .next (s.takeTrap cPrivilege 0)) ∧
    (s.cur.level = .h → ∀ j ∈ l,
      (j.2.run s = .ok (.ok w) u → exec j.1 s = .next (u.write d w)) ∧
      (j.2.run s = .ok (.error n) u → exec j.1 s = .next (u.write d (BitVec.ofNat 64 (n * 2 ^ 56))))) ∧
    (s.cur.level ≠ .s → exec (.kimport d a) s = .next (s.takeTrap cPrivilege 0)) ∧
    (s.cur.level = .s →
      ((kimport x).run s = .ok (.ok w) u → exec (.kimport d a) s = .next (u.write d w)) ∧
      ((kimport x).run s = .ok (.error n) u → exec (.kimport d a) s = .next (u.write d (BitVec.ofNat 64 (n * 2 ^ 56)))))) ∧
  (∀ (s : State) (x : Word),
    (∀ (t1 t2 t3 t4 : State) (bk fr qt tl : List Byte) (paths : List (Nat × List Nat)) (id : BitVec 16),
      let w := fun i => wordAt bk (8 * i)
      let nq := w 0 / 2 ^ 8 % 2 ^ 8
      let part := w 0 / 2 ^ 42 % 2 ^ 6
      let frames := (List.range (w 1)).map fun i => wordAt fr (8 * i)
      let d1 := t4.draw
      let d2 := d1.2.draw
      let d3 := d2.2.draw
      x.toNat % 64 = 0 → loadBlock x 128 s = .ok bk t1 → ecreateOk bk = true →
      loadBlock (BitVec.ofNat 64 (w 2)) (8 * w 1) t1 = .ok fr t2 → loadBlock (BitVec.ofNat 64 (w 5)) (16 * nq) t2 = .ok qt t3 →
      loadBlock (BitVec.ofNat 64 (w 6)) (w 0 / 2 ^ 16 % 2 ^ 12 + 1) t3 = .ok tl t4 →
      (∀ i < nq, qtabOk (wordAt qt (16 * i)) = true) → (∀ z ∈ tl, tltabOk z.toNat = true) → t4.enclaves.length < 4096 →
      t4.hwEntries part + ((List.range nq).map fun i => wordAt qt (16 * i) / 2 ^ 16 % 2 ^ 13).sum ≤ 4096 →
      frames.Nodup → (∀ f ∈ frames, t4.frameFree part f = true) →
      (frames.mapM fun f => (t4.path2 f 4 0 (w 4)).map fun p => (f, p)) = some paths → t4.newEncId d1.1 = some id →
      let e := newEnclave bk qt tl id d2.1 d3.1 (frames.getD (w 3) 0)
      (ecreate x).run s = .ok (.ok (id.setWidth 64)) (d3.2.addEnclave e paths) ∧ e.state = .building ∧ e.id = id ∧
      e.part = part ∧ e.queues.length = nq ∧ e.timelines.length = tl.length ∧ (t4.enclave? id = none)) ∧
    (∀ (t1 t2 t3 : State) (bk content : List Byte) (e : Enclave) (path : List Nat) (root : Nat × Nat) (tb : List (Nat × Nat) × Nat × Nat),
      let w := fun i => wordAt bk (8 * i)
      loadBlock x 32 s = .ok bk t1 → w 0 / 2 ^ 16 % 4 ≤ 1 → w 0 / 2 ^ 19 = 0 → w 0 < 2 ^ 64 → addpgVaOk (w 3) = true →
      t1.enclave? (BitVec.ofNat 16 (w 0)) = some e → e.state = .building → t1.frameFree e.part (w 1) = true →
      t1.path2 (w 1) 4 0 e.s2Root = some path → stage2 e.id serviceView e.s1Root .w t1 = .ok root t2 →
      arenaPath t1 e (fun ipa => root.1 + (ipa - e.s1Root)) (w 3) 4 0 e.s1Root e.arena false = .ok tb →
      (t1.entryAt tb.2.2).testBit 0 = false →
      (if w 2 = 0 then .ok (List.replicate 0x40000 0) t2 else loadBlock (BitVec.ofNat 64 (w 2)) 0x40000 t2) = .ok content t3 →
      (eaddpg x).run s = .ok (.ok 0) (t3.addPage e w content path tb)) ∧
    (∀ (t1 : State) (bk : List Byte) (e : Enclave),
      let w0 := wordAt bk 0
      let m := shake64 (e.m ++ [0x02] ++ bk.drop 8)
      loadBlock x 72 s = .ok bk t1 → w0 < 2 ^ 17 → t1.enclave? (BitVec.ofNat 16 w0) = some e → e.state = .building →
      t1.cur.status ≠ .absent →
      (w0 < 2 ^ 16 → (eextend x).run s = .ok (.ok 0) (t1.onEnclave e.id fun z => { z with m })) ∧
      (2 ^ 16 ≤ w0 → ∃ u, (eextend x).run s = .ok (.ok 0) u ∧
        u.enclaves = t1.enclaves.map (fun (z : Enclave) =>
          if z.id = e.id then { z with m := shake64 (m ++ [0x03]), state := .running } else z) ∧
        u.others.length = t1.others.length + e.nct ∧ u.mem = t1.mem ∧ u.cur = t1.cur)) ∧
    (∀ e, x.toNat < 2 ^ 16 → s.enclave? (BitVec.ofNat 16 x.toNat) = some e → e.state ≠ .dying →
      ∃ u, (edestroy x).run s = .ok (.ok 0) u ∧
        (∀ z ∈ u.enclaves, z.id = e.id → z.state = .dying ∧ z.memKey = 0 ∧ z.kemKey = 0 ∧ z.queues = [] ∧
          (∀ k ∈ z.wslots, k = none) ∧ (∀ k ∈ z.sslots, k = none)) ∧
        (∀ o ∈ u.ops, o.enc ≠ e.id) ∧
        (∀ z ∈ u.cur :: u.others, z.kind = .host ∨ z.enc ≠ e.id) ∧
        (∀ p ∈ u.pot, p.2.owner = e.id → p.2.state = .free ∨ p.2.state = .scrubbing)))

/-- R217, R218: an evicted page goes to memory encrypted under the enclave's paging key with the next version as IV
and with its version, IPA, type and tag; its frame goes to SCRUBBING. A loaded page must open under that key with its
own tag and be of the latest version of its IPA, and takes the type it had when it was evicted. A page of which a line returns no
data is not evicted: POISON or INTEGRITY is raised (R335, R379). R219 to R221: `kimport` fills an empty slot with the key that the
capsule opens to; `kerase` empties a slot; `potq` reads a page-ownership entry, without its owner where a level-S
reader does not own the frame.
The model's own choices here: log 6, log 47. -/
def Obligations.PagingKeysAndOwnership : Prop :=
  (∀ (s t : State) (x : Word) (bk : List Byte) (e : Enclave),
    let w := fun i => wordAt bk (8 * i)
    let key := pagingKey e.memKey
    (∀ (u : State) (i : Nat), loadBlock x 32 s = .ok bk t → w 0 < 2 ^ 16 → t.enclave? (BitVec.ofNat 16 (w 0)) = some e →
      e.state = .running → w 1 % 0x40000 = 0 → potIndex (w 1) = some i →
      ((t.potAt i).state = .owned ∨ (t.potAt i).state = .code) → (t.potAt i).owner = e.id → t.mapsFrame e (w 1) = [] →
      let g := t.gather (w 1) 0x40000
      let c := gcmCrypt key (natBytes (e.version + 1) 12) (g.pageBytes (w 1) 0x40000)
      let tag := gcmTag16 key (natBytes (e.version + 1) 12) [] c
      let ipa := (alook e.frameIpa i).getD (w 1)
      (∀ (k : Cause) (d a : BitVec 6), g.badPage (w 1) = some k → s.cur.level = .h → s.cur.rs a = x →
        exec (.eevict d a) s = .next ((s.claiming t).takeTrap k (BitVec.ofNat 64 (w 1)))) ∧
      (g.badPage (w 1) = none →
      storeBlock (BitVec.ofNat 64 (w 2)) (c ++ natBytes (e.version + 1) 8 ++ natBytes ipa 8 ++
        natBytes (if (t.potAt i).state = .code then 1 else 0) 8 ++ tag ++ List.replicate 24 0) g = .ok () u →
      (eevict x).run s = .ok (.ok (BitVec.ofNat 64 ((e.version + 1) % 2 ^ 56)))
        ((u.setPot i { t.potAt i with state := .scrubbing }).onEnclave e.id fun (z : Enclave) =>
          { z with
            version := e.version + 1
            latest := aput z.latest ipa (e.version + 1)
            latestType := aput z.latestType ipa (if (t.potAt i).state = .code then 1 else 0)
            frameIpa := adel z.frameIpa i }))) ∧
    (∀ (t2 t3 : State) (i : Nat) (c tr page : List Byte), loadBlock x 24 s = .ok bk t → w 0 < 2 ^ 16 →
      t.enclave? (BitVec.ofNat 16 (w 0)) = some e → e.state = .running → t.frameFree e.part (w 1) = true → potIndex (w 1) = some i →
      loadBlock (BitVec.ofNat 64 (w 2)) 0x40000 t = .ok c t2 → loadBlock (BitVec.ofNat 64 (w 2) + 0x40000) 64 t2 = .ok tr t3 →
      let opened := gcmTag16 key (natBytes (wordAt tr 0) 12) [] c = (tr.drop 24).take 16
      (opened → alook e.latest (wordAt tr 8) = some (wordAt tr 0) → page = gcmCrypt key (natBytes (wordAt tr 0) 12) c →
        (eload x).run s = .ok (.ok 0)
          ((t3.fillFrame (w 1) (if alook e.latestType (wordAt tr 8) = some 1 then .code else .owned) e.id page).onEnclave e.id fun (z : Enclave) =>
            { z with frameIpa := aput z.frameIpa i (wordAt tr 8) })) ∧
      (¬ opened ∨ alook e.latest (wordAt tr 8) ≠ some (wordAt tr 0) → (eload x).run s = .ok (.error 5) t3))) ∧
  (∀ (s t : State) (d a : BitVec 6) (e : Enclave) (bk : List Byte) (key : Nat),
    let x := s.cur.rs a
    (x.toNat % 64 = 0 → loadBlock x 1632 s = .ok bk t →
      (wordAt bk 8 ≠ t.layout.gen.toNat → s.cur.level = .s →
        exec (.kimport d a) s = .next ((s.claiming t).takeTrap cLayoutStale t.layout.gen)) ∧
      (wordAt bk 8 = t.layout.gen.toNat → wordAt bk 0 < 32 → t.enclave? t.cur.enc = some e →
        (e.slots ((wordAt bk 0).testBit 4))[wordAt bk 0 % 16]? = some none → openImported e bk = some key →
        (kimport x).run s = .ok (.ok 0) (t.onEnclave e.id fun (z : Enclave) =>
          z.setSlot ((wordAt bk 0).testBit 4) (wordAt bk 0 % 16) (some key)))) ∧
    (s.cur.level ≠ .s → exec (.kerase a) s = .next (s.takeTrap cPrivilege 0)) ∧
    (s.cur.level = .s →
      (32 ≤ x.toNat → exec (.kerase a) s = .next (s.takeTrap cSoftware x)) ∧
      (x.toNat < 32 → exec (.kerase a) s = .next ({ s with enclaves := s.enclaves.map fun (z : Enclave) =>
        if z.id = s.cur.enc then (if 16 ≤ x.toNat then { z with sslots := z.sslots.set (x.toNat % 16) none }
          else { z with wslots := z.wslots.set x.toNat none }) else z }.withPc (s.cur.pc + 4)))) ∧
    (s.cur.level = .u → exec (.potq d a) s = .next (s.takeTrap cPrivilege 0)) ∧
    (s.cur.level ≠ .u →
      (potIndex x.toNat = none → exec (.potq d a) s = .next (s.write d (BitVec.allOnes 64))) ∧
      (∀ i, potIndex x.toNat = some i →
        let e := s.potAt i
        let owner := if s.cur.level = .s ∧ e.owner ≠ s.cur.enc then 0 else e.owner.toNat
        exec (.potq d a) s = .next (s.write d (BitVec.ofNat 64
          (owner + e.state.num * 2 ^ 16 + e.lk.toNat * 2 ^ 19 + e.migrating.toNat * 2 ^ 20 + e.lkFor.toNat * 2 ^ 32))))))

/-- R187, R222 to R224: the save and restore instructions. Levels and routines; the operand checks in their order; the
record written at SAVEBASE + sB, its length in sD; the registers restored; `sdone` writes the group record and the
group leaves its core. R222, R223: a record restores what it saved. The header names the registers and G, the record
is as long as its parts, and each register of the record, with its shape, comes back (R23: a thread-indexed register
of a group has G words).
The model's own choices here: log 48. -/
def Obligations.SaveAndRestoreInstructions : Prop :=
  (∀ (s u : State) (d a b : BitVec 6),
    let x := s.cur.rs a
    let o := s.cur.rs b
    let first := x.toNat % 2 ^ 8
    let n := x.toNat / 2 ^ 8 % 2 ^ 8 + 1
    let cls := x.toNat / 2 ^ 16 % 4
    let good := x.toNat < 2 ^ 18 ∧ (cls = 0 → first + n ≤ s.cur.budget) ∧ (cls = 1 → 1 ≤ first ∧ first + n ≤ 16) ∧
      (cls = 2 → first + n ≤ 4) ∧ (cls = 3 → 1 ≤ first ∧ first + n ≤ 64)
    let bs := saveRecord s.cur.regs s.cur.gsize (s.cur.snapshot.getD s.cur.regs.s) first n cls
    let spot := fun (z : Word) => z.toNat % 8 = 0 ∧ 0x400 ≤ z.toNat
    (s.cur.level ≠ .s → ∀ j ∈ [Instr.savev d a b, .restv d b, .sdone a], exec j s = .next (s.takeTrap cPrivilege 0)) ∧
    (s.cur.level = .s → s.cur.trap.inSave = false → ∀ j ∈ [Instr.savev d a b, .sdone a], ∃ w,
      exec j s = .next (s.takeTrap cIllegal w)) ∧
    (s.cur.level = .s → s.cur.trap.inRestore = false → ∃ w, exec (.restv d b) s = .next (s.takeTrap cIllegal w)) ∧
    (s.cur.level = .s → s.cur.trap.inSave = true →
      (¬ good → exec (.savev d a b) s = .next (s.takeTrap cSoftware x)) ∧
      (good → ¬ spot o → exec (.savev d a b) s = .next (s.takeTrap cSoftware o)) ∧
      (good → spot o → areaOf s < o.toNat + bs.length → exec (.savev d a b) s = .next (s.takeTrap cPermission o)) ∧
      (good → spot o → o.toNat + bs.length ≤ areaOf s →
        saveWrite s.cur.enc s.cur.die (s.cur.trap.saveBase.toNat + o.toNat) bs s = .ok () u →
        exec (.savev d a b) s = .next (u.write d (BitVec.ofNat 64 bs.length))) ∧
      (¬ spot x ∨ areaOf s < x.toNat → exec (.sdone a) s = .next (s.takeTrap cSoftware 0)) ∧
      (spot x → x.toNat ≤ areaOf s →
        saveWrite s.cur.enc s.cur.die s.cur.trap.saveBase.toNat
          (groupRecord s.cur ((s.cur.trap.spc &&& ~~~ 3) ||| (if s.cur.trap.level = .u then 0 else 1)) x.toNat false) s = .ok () u →
        exec (.sdone a) s = .next { u with cur := { u.cur with
          status := .saved false none, savedWidth := u.cur.width, snapshot := none, pc := u.cur.trap.spc
          level := u.cur.trap.level, trap := { u.cur.trap with inSave := false, used := 0, forced := false } } })) ∧
    (s.cur.level = .s → s.cur.trap.inRestore = true →
      (¬ spot o → exec (.restv d b) s = .next (s.takeTrap cSoftware o)) ∧
      (∀ (t1 t2 t3 : State) (hb tb body : List Byte) (len : Nat) (ts : List Nat),
        let h := bytesNat hb
        let f := h % 2 ^ 8
        let m := h / 2 ^ 8 % 2 ^ 8 + 1
        let c := h / 2 ^ 16 % 4
        let tw := if c = 0 then 8 * ((m + 31) / 32) else 0
        let base := s.cur.trap.saveBase.toNat + o.toNat
        spot o → o.toNat + 8 ≤ areaOf s → saveRead s.cur.enc base 8 s = .ok hb t1 →
        h / 2 ^ 32 % 2 ^ 11 = s.cur.gsize → h / 2 ^ 18 % 2 ^ 14 = 0 → h / 2 ^ 43 % 2 ^ 21 = 0 →
        saveRangeOk s.cur.budget f m c = true → o.toNat + 8 + tw ≤ areaOf s →
        (if tw = 0 then .ok [] t1 else saveRead s.cur.enc (base + 8) tw t1) = .ok tb t2 →
        recordBody s.cur.gsize m c (bytesNat tb) = some (len, ts) → o.toNat + 8 + tw + len ≤ areaOf s →
        saveRead s.cur.enc (base + 8 + tw) len t2 = .ok body t3 →
        exec (.restv d b) s = .next ({ t3 with cur := t3.cur.restore f m c ts body }.write d (BitVec.ofNat 64 (8 + tw + len)))))) ∧
  (∀ (r : Regs) (x : Agent) (sc : Vector Word 64) (first n cls : Nat),
    let g := x.gsize
    let bs := saveRecord r g sc first n cls
    let tw := if cls = 0 then 8 * ((n + 31) / 32) else 0
    let tags := bytesNat ((bs.drop 8).take tw)
    1 ≤ n → n ≤ 256 → first < 256 → cls < 4 → saveRangeOk x.budget first n cls = true → x.budget ≤ 256 → 8 ≤ g → g ≤ 1024 →
    g % 8 = 0 → (∀ i l, i < 256 → r.v.toList.getD i (.u 0) = .g l → l.length = g) →
    (∀ i : Fin 16, (r.m.toList.getD i.val 0) &&& allLive g = r.m.toList.getD i.val 0) →
    bytesNat (bs.take 8) = first + (n - 1) * 2 ^ 8 + cls * 2 ^ 16 + g * 2 ^ 32 ∧
    ∃ len ts, recordBody g n cls tags = some (len, ts) ∧ bs.length = 8 + tw + len ∧
      let y := x.restore first n cls ts (bs.drop (8 + tw))
      (cls = 0 → ∀ i, first ≤ i → i < first + n → y.regs.v.toList.getD i (.u 0) = r.v.toList.getD i (.u 0)) ∧
      (cls = 1 → ∀ i, first ≤ i → i < first + n → y.regs.m.toList.getD i 0 = r.m.toList.getD i 0) ∧
      (cls = 2 → ∀ i, first ≤ i → i < first + n → y.regs.q.toList.getD i {} = r.q.toList.getD i {}) ∧
      (cls = 3 → ∀ i, first ≤ i → i < first + n →
        (y.pendingScalars.getD (.replicate 64 0)).toList.getD i 0 = sc.toList.getD i 0))

/-! ## Lane instructions -/

/-- R19 to R22, R54, R122: the issue of a lane instruction that does not touch memory. A register at or past the budget
raises ILLEGAL with bits [95:32]; a class counter at 63 stalls the stream; else its results are outstanding, its block goes on
or ends, and the scalar stream, memory and every register stay as they are.
The model's own choices here: log 3, log 29. -/
def Obligations.LaneIssue : Prop :=
  ∀ (s : State) (i : Instr) (f : Lane) (u : LaneUse), laneUse i = some (f, u) → laneClass i ≠ some .mem →
    (inBudget i s.cur.budget = false →
      exec i s = .next (laneTrap s s cIllegal (laneVal i) s.cur.laneAddr 0 none)) ∧
    (inBudget i s.cur.budget = true → (∀ h, i = .gbcast h → h.imm.toNat % 1024 < s.cur.gsize) →
      (∀ k, laneClass i = some k → 63 ≤ s.cur.lane.count k →
        exec i s = .next { s with cur := { s.cur with lane := { s.cur.lane with stalled := true } } }) ∧
      ((∀ k, laneClass i = some k → s.cur.lane.count k < 63) →
        ∃ p : Pend, p.cls = laneClass i ∧ p.addr = s.cur.laneAddr ∧ p.bad = 0 ∧
          exec i s = .next { s.laneView.2 with cur := { s.cur with lane := { s.cur.lane with
            pend := s.cur.lane.pend ++ [p]
            active := if f.last = true then none else s.cur.lane.active.map fun (b : Block) =>
              { b with lidx := b.lidx + 1, issued := b.issued + 1, only := none }
            parked := f.park
            stalled := false } } }))

/-- R126, R127, Tables 5.1 and 1.3: the integer operations of two and three sources, thread by thread, whatever the
shapes of their sources: a U, an A and a G source of the same values give the same result. R128 to R130: one source,
compares, and the generated registers. -/
def Obligations.LaneIntegerResults : Prop :=
  (∀ (s : State) (t : ITy) (f : Lane) (j : Nat), j < s.cur.gsize →
    let w := t.width
    let c := s.laneCtx f
    let a := (c.srcA t.is64 f).get j
    let b := (c.srcB t.is64 f).get j
    let x := BitVec.ofNat w a
    let y := BitVec.ofNat w b
    let z := BitVec.ofNat w ((c.srcC t.is64 f).get j)
    let pos := f.imm.toNat % 2 ^ 6
    let len := f.imm.toNat / 2 ^ 6 % 2 ^ 6 + 1
    let is := fun (i : Instr) (v : BitVec w) => Issues i s → resultAt (exec i s) t.is64 f.vd.toNat j = some v.toNat
    is (.vadd t f) (x + y) ∧ is (.vsub t f) (x - y) ∧ is (.vmul t f) (x * y) ∧ is (.vmad t f) (x * y + z) ∧
    is (.vmulh t f) (if t.signed = true then (x.signExtend (2 * w) * y.signExtend (2 * w)).extractLsb' w w
      else (x.setWidth (2 * w) * y.setWidth (2 * w)).extractLsb' w w) ∧
    is (.vmin t f) (if (if t.signed = true then x.sle y else x.ule y) = true then x else y) ∧
    is (.vmax t f) (if (if t.signed = true then x.sle y else x.ule y) = true then y else x) ∧
    is (.vand t f) (x &&& y) ∧ is (.vor t f) (x ||| y) ∧ is (.vxor t f) (x ^^^ y) ∧
    is (.vshl t f) (x <<< (b % w)) ∧ is (.vshr t f) (x >>> (b % w)) ∧ is (.vsra t f) (x.sshiftRight (b % w)) ∧
    (pos + len ≤ w →
      is (.vbfx t f) (if t.signed = true then BitVec.ofInt w (BitVec.ofNat len (a / 2 ^ pos)).toInt
        else BitVec.ofNat w (a / 2 ^ pos % 2 ^ len)) ∧
      (∀ v : BitVec w, (∀ k, k < w → v.getLsbD k = if pos ≤ k ∧ k < pos + len then x.getLsbD (k - pos) else y.getLsbD k) →
        is (.vbfi t f) v)) ∧
    is (.vsel t f) (if (c.regs.maskOf c.g (f.imm.extractLsb' 0 4)).getLsbD j = true then x else y)) ∧
  (∀ (s : State) (p : Bool) (t : ITy) (k : VCond) (f : Lane) (j : Nat), j < s.cur.gsize →
    let w := if p = true then 64 else 32
    let c := s.laneCtx f
    let a := (c.srcA p f).get j
    let x := BitVec.ofNat w a
    let num := fun (n : Nat) => if t.signed = true then (BitVec.ofNat t.width n).toInt else (n : Int)
    let u := num ((c.srcA t.is64 f).get j)
    let v := num ((c.srcB t.is64 f).get j)
    let is := fun (i : Instr) (n : Nat) => Issues i s → resultAt (exec i s) p f.vd.toNat j = some n
    let gen := fun (i : Instr) (n : Nat) => Issues i s → resultAt (exec i s) false f.vd.toNat j = some (n % 2 ^ 32)
    is (.vabs p f) (x.toInt.natAbs % 2 ^ w) ∧ is (.vneg p f) (-x).toNat ∧ is (.vnot p f) (~~~ x).toNat ∧ is (.vmov p f) a ∧
    (a = 0 → is (.vclz p f) w) ∧ (∀ n, n < w → 2 ^ n ≤ a → a < 2 ^ (n + 1) → is (.vclz p f) (w - 1 - n)) ∧
    is (.vpopc p f) ((List.range w).countP fun n => a.testBit n) ∧
    (Issues (.vcmp t k f) s → maskAt (exec (.vcmp t k f) s) (f.vd.toNat % 16) j = some (match k with
      | .eq => decide (u = v) | .ne => decide (u ≠ v) | .lt => decide (u < v) | .le => decide (u ≤ v)
      | .gt => decide (v < u) | .ge => decide (v ≤ u))) ∧
    gen (.vimm f) f.imm.toNat ∧ gen (.vtid f) j ∧ gen (.vtidWg f) (s.cur.ids.thrBase + j) ∧
    gen (.vaff f) ((c.srcA false f).get 0 + j * (c.srcB false f).get 0))

/-- R138, R139, R146: mask operations, and the row-relative and group-wide moves; `gbcast` past G is ILLEGAL. -/
def Obligations.LaneMasksAndMoves : Prop :=
  ∀ (s : State) (f : Lane) (j : Nat), j < s.cur.gsize → s.cur.gsize ≤ 1024 → 0 < s.cur.width → s.cur.width ≤ s.cur.gsize →
    let c := s.laneCtx f
    let w := s.cur.width
    let g := s.cur.gsize
    let x := (c.maskOf f.va).getLsbD j
    let y := (c.maskOf f.vb).getLsbD j
    let set := fun n => decide (n < g) && c.live.getLsbD n && (c.maskOf f.va).getLsbD n
    let a := (c.srcA false f).get
    let b := (c.srcB false f).get
    let row := j / w * w
    let l : Int := (j % w : Nat) - (f.imm.extractLsb' 0 8).toInt
    let isM := fun (i : Instr) (v : Bool) => Issues i s → maskAt (exec i s) (f.vd.toNat % 16) j = some v
    let is := fun (i : Instr) (n : Nat) => Issues i s → resultAt (exec i s) false f.vd.toNat j = some n
    isM (.mand f) (x && y) ∧ isM (.mor f) (x || y) ∧ isM (.mxor f) (x != y) ∧ isM (.mnot f) (!x) ∧ isM (.mmov f) x ∧
    isM (.mfrom f) (a j != 0) ∧ isM (.mfirst f) (set j && (List.range j).all fun n => !set n) ∧
    is (.mcnt f) ((List.range g).countP set) ∧
    is (.rshuf f) (a (row + b j % w)) ∧ is (.rbcast f) (a (row + f.imm.toNat % 64 % w)) ∧ is (.gperm f) (a (b j % g)) ∧
    (0 ≤ l → l < w → is (.rshift f) (a (row + l.toNat))) ∧ ((l < 0 ∨ w ≤ l) → is (.rshift f) (b j)) ∧
    (f.imm.toNat % 1024 < g → is (.gbcast f) (a (f.imm.toNat % 1024))) ∧
    (g ≤ f.imm.toNat % 1024 → exec (.gbcast f) s = .next (laneTrap s s cIllegal (laneVal (.gbcast f)) s.cur.laneAddr 0 none))

/-- R140 to R147: scans and reductions of integers, over the live threads of a row or of the group in thread order, with
the identity of the operation where there is none; rows write a q register in their order, sign-extended from `.i32`. Those of f32,
bf16 and f16, element by element: the canonical tree and the canonical prefix of the live threads' values, each Join rounded once,
with the flags of every Join of a result ORed. What a Join hands over alone keeps its value, but for the one code of a NaN (R66; that
it is not flushed is the model's choice: log 85). -/
def Obligations.LaneReductions : Prop :=
  (∀ (s : State) (f : Lane) (ty : CTy) (j n m : Nat), redType f.imm = some ty → ty.isInt = true → f.imm.toNat % 8 < 6 →
    s.cur.gsize = 2 ^ n → n ≤ 10 → s.cur.width = 2 ^ m → m ≤ n → j < s.cur.gsize →
    let c := s.laneCtx f
    let w := if ty = .i64 ∨ ty = .n64 then 64 else 32
    let pair := decide (w = 64)
    let sg := decide (ty = .i32 ∨ ty = .i64)
    let le := fun (x y : Nat) => if sg = true then decide ((BitVec.ofNat w x).toInt ≤ (BitVec.ofNat w y).toInt) else decide (x ≤ y)
    let op := fun (x y : Nat) => match f.imm.toNat % 8 with
      | 0 => (x + y) % 2 ^ w | 1 => if le x y = true then x else y | 2 => if le x y = true then y else x
      | 3 => x &&& y | 4 => x ||| y | _ => x ^^^ y
    let e := match f.imm.toNat % 8 with
      | 1 => if sg = true then 2 ^ (w - 1) - 1 else 2 ^ w - 1 | 2 => if sg = true then 2 ^ (w - 1) else 0
      | 3 => 2 ^ w - 1 | _ => 0
    let fold := fun (lo k : Nat) => foldValues op e
      (((List.range k).map (lo + ·)).filterMap fun x => if c.live.getLsbD x = true then some ((c.srcA pair f).get x) else none)
    let upTo := fun (x : Nat) => if f.imm.getLsbD 8 = true then x else x + 1
    let word := fun (x : Nat) => if ty = .i32 then (BitVec.ofNat 32 x).signExtend 64 else BitVec.ofNat 64 x
    let is := fun (i : Instr) (v : Nat) => Issues i s → resultAt (exec i s) pair f.vd.toNat j = some v
    (c.live.getLsbD j = true → is (.rscan f) (fold (j / 2 ^ m * 2 ^ m) (upTo (j % 2 ^ m))) ∧ is (.gscan f) (fold 0 (upTo j))) ∧
    is (.rred f) (fold (j / 2 ^ m * 2 ^ m) (2 ^ m)) ∧ is (.gred f) (fold 0 (2 ^ n)) ∧
    (Issues (.rredQ f) s → qWrites (exec (.rredQ f) s) (f.vd.toNat % 4) =
      (List.range (2 ^ (n - m))).map fun r => word (fold (r * 2 ^ m) (2 ^ m))) ∧
    (Issues (.gredQ f) s → qWrites (exec (.gredQ f) s) (f.vd.toNat % 4) = [word (fold 0 (2 ^ n))])) ∧
  (∀ (s : State) (f : Lane) (ty : CTy) (j n m : Nat), redType f.imm = some ty → ty.isInt = false → f.imm.toNat % 8 < 3 →
    s.cur.gsize = 2 ^ n → n ≤ 10 → s.cur.width = 2 ^ m → m ≤ n → j < s.cur.gsize →
    let c := s.laneCtx f
    let d := CTy.fmt ty 0
    let per := 32 / d.width
    let mode := c.mode f d
    let rd := fun (x : Nat) => c.readAs f d d x
    let rnd := fun (v : FV × Flags) => ((roundTo d v.1 mode).1 % 2 ^ d.width, v.2 ||| (roundTo d v.1 mode).2)
    let op := fun (x y : Nat) => match f.imm.toNat % 8 with
      | 0 => rnd (FV.add mode.rm (rd x) (rd y)) | 1 => rnd ((rd x).min2 (rd y), 0) | _ => rnd ((rd x).max2 (rd y), 0)
    let e := match f.imm.toNat % 8 with | 0 => 0 | 1 => d.infCode false | _ => d.infCode true
    let join := joinBy op fun x => if d.decode x = .nan then d.nanCode else x
    let x := fun (k t : Nat) =>
      (if c.live.getLsbD t = true then some (elemOf d.width k ((c.srcA false f).get t)) else none, (0 : Flags))
    let tree := fun (a lo k : Nat) => canonicalTree join (x k) a lo
    let pre := fun (lo q k : Nat) => canonicalPrefix join (none, 0) (x k) lo q
    let upTo := fun (t : Nat) => if f.imm.getLsbD 8 = true then t else t + 1
    let rows := (List.range (2 ^ (n - m))).map fun r => tree m (r * 2 ^ m)
    let scans := fun (b : Nat) => ((List.range (2 ^ n)).filter fun t => c.live.getLsbD t).map fun t => pre (t / 2 ^ b * 2 ^ b) (upTo (t % 2 ^ b))
    let is := fun (i : Instr) (v : Nat → Option Nat × Flags) => Issues i s → ∀ k, k < per →
      (resultAt (exec i s) false f.vd.toNat j).map (elemOf d.width k) = some ((v k).1.getD e)
    let raises := fun (i : Instr) (l : List (Nat → Option Nat × Flags)) => Issues i s → ∀ b, b < 5 →
      ((flagsDue (exec i s)).getLsbD b = true ↔ ∃ p ∈ l, ∃ k, k < per ∧ (p k).2.getLsbD b = true)
    let queued := fun (i : Instr) (l : List (Nat → Option Nat × Flags)) => Issues i s →
      let qs := qWrites (exec i s) (f.vd.toNat % 4)
      qs.length = l.length ∧ ∀ (r : Nat) (p : Nat → Option Nat × Flags), l[r]? = some p →
        (qs.getD r 0).toNat < 2 ^ 32 ∧ ∀ k, k < per → elemOf d.width k (qs.getD r 0).toNat = (p k).1.getD e
    (c.live.getLsbD j = true → is (.rscan f) (pre (j / 2 ^ m * 2 ^ m) (upTo (j % 2 ^ m))) ∧ is (.gscan f) (pre 0 (upTo j))) ∧
    raises (.rscan f) (scans m) ∧ raises (.gscan f) (scans n) ∧
    is (.rred f) (tree m (j / 2 ^ m * 2 ^ m)) ∧ raises (.rred f) rows ∧
    is (.gred f) (tree n 0) ∧ raises (.gred f) [tree n 0] ∧
    queued (.rredQ f) rows ∧ raises (.rredQ f) rows ∧ queued (.gredQ f) [tree n 0] ∧ raises (.gredQ f) [tree n 0])

/-- R131 to R133, R73, R81, Tables 3.8 and 5.3: floating-point lane instructions, element by element: the exact result
of the operands as read, rounded once, with the flags of the live threads ORed. R73, R68: rounding leaves what a
format holds alone: for every code of f32, bf16 and f16 that is no NaN, `RoundTo` of its value in any mode, with no
flushing, is that code, and raises no flag. -/
def Obligations.LaneFloatArithmetic : Prop :=
  (∀ (s : State) (t : FTy) (f : Lane) (j k : Nat), j < s.cur.gsize →
    let m := FTy.fmt t
    let n := 32 / m.width
    let c := s.laneCtx f
    let mode := c.mode f m
    let code := fun (y : Src) (j k : Nat) => elemOf m.width k (y.get j)
    let el := fun (y : Src) (j k : Nat) => c.readAs f m m (code y j k)
    let rnd := fun (v : FV × Flags) => ((roundTo m v.1 mode).1, v.2 ||| (roundTo m v.1 mode).2)
    let a := fun j k => el (c.srcA false f) j k
    let b := fun j k => el (c.srcB false f) j k
    let d := fun j k => el (c.srcC false f) j k
    let ca := fun j k => code (c.srcA false f) j k
    let cb := fun j k => code (c.srcB false f) j k
    let one := FV.num false 1 1
    let forms : List (Instr × (Nat → Nat → Nat × Flags)) :=
      [(.fadd t f, fun j k => rnd (FV.add mode.rm (a j k) (b j k))),
       (.fsub t f, fun j k => rnd (FV.add mode.rm (a j k) (b j k).negate)),
       (.fmul t f, fun j k => rnd ((a j k).mul (b j k))), (.fdiv t f, fun j k => rnd ((a j k).div (b j k))),
       (.ffma t f, fun j k => rnd (FV.fma mode.rm (a j k) (b j k) (d j k))),
       (.fmin t f, fun j k => rnd ((a j k).min2 (b j k), 0)), (.fmax t f, fun j k => rnd ((a j k).max2 (b j k), 0)),
       (.frcp t f, fun j k => rnd (one.div (a j k))), (.frsq t f, fun j k => rsqrtTo m (a j k) mode),
       (.fsqrt t f, fun j k => sqrtTo m (a j k) mode), (.fexp2 t f, fun j k => exp2To m (a j k) mode),
       (.flog2 t f, fun j k => log2To m (a j k) mode), (.ftanh t f, fun j k => tanhTo m (a j k) mode),
       (.fscale t f, fun j k => rnd (scaleBy (a j k) (BitVec.ofNat m.width (cb j k)).toInt, 0)),
       (.fabs t f, fun j k => (if m.decode (ca j k) = .nan then m.nanCode else ca j k % 2 ^ (m.width - 1), 0)),
       (.fneg t f, fun j k => (if m.decode (ca j k) = .nan then m.nanCode else ca j k ^^^ 2 ^ (m.width - 1), 0)),
       (.fclass t f, fun j k => (match a j k with
          | .nan => 0x100 | .inf neg => if neg = true then 0x001 else 0x080
          | .num neg 0 _ => if neg = true then 0x008 else 0x010
          | .num neg _ _ => if m.isSubnormal (ca j k) = true then (if neg = true then 0x004 else 0x020)
            else (if neg = true then 0x002 else 0x040), 0))]
    (∀ x ∈ forms, Issues x.1 s →
      (k < n → (resultAt (exec x.1 s) false f.vd.toNat j).map (elemOf m.width k) = some ((x.2 j k).1 % 2 ^ m.width)) ∧
      (∀ i, i < 5 → ((flagsDue (exec x.1 s)).getLsbD i = true ↔
        ∃ q, q < s.cur.gsize ∧ c.live.getLsbD q = true ∧ ∃ r, r < n ∧ (x.2 q r).2.getLsbD i = true))) ∧
    (Issues (.fcmp t f) s →
      let h := if f.imm.getLsbD 4 = true then 1 else 0
      let p := f.imm.toNat % 8
      let x := a j h
      let y := b j h
      maskAt (exec (.fcmp t f) s) (f.vd.toNat % 16) j = some (
        if x = .nan ∨ y = .nan then decide (p = 1)
        else match p with
          | 0 => x.eq y | 1 => !x.eq y | 2 => x.lt y | 3 => x.lt y || x.eq y | 4 => y.lt x | _ => y.lt x || x.eq y))) ∧
  (∀ (t : FTy) (code : Nat) (c : RMode), code < 2 ^ (FTy.fmt t).width → (FTy.fmt t).decode code ≠ .nan → c.flush = false →
    roundTo (FTy.fmt t) ((FTy.fmt t).decode code) c = (code, 0))

/-- R134 to R137: conversions, narrow packing and unpacking, and dot products. -/
def Obligations.LaneConversionsAndDots : Prop :=
  ∀ (s : State) (f : Lane) (j : Nat), j < s.cur.gsize →
    let c := s.laneCtx f
    let wid := fun (t : CTy) => if t = .i64 ∨ t = .n64 then 64 else 32
    let num := fun (t : CTy) (x : Nat) => if t = .i32 ∨ t = .i64 then (BitVec.ofNat (wid t) x).toInt else ((x % 2 ^ wid t : Nat) : Int)
    let word := fun (r : Nat) => ((c.regs.getV r).at j).toNat
    (∀ (dst src : CTy), Issues (.cvt dst src f) s →
      let x := (c.src src.is64 (decide (dst ≠ .narrow ∧ src ≠ .narrow) && f.aux.getLsbD 2) f.va).get j
      let d := CTy.fmt dst f.aux
      let m := CTy.fmt src f.aux
      let e := elemOf m.width f.imm.toNat x
      (src.isInt = true → dst.isInt = true →
        resultAt (exec (.cvt dst src f) s) dst.is64 f.vd.toNat j = some (num src x % (2 ^ wid dst : Nat)).toNat) ∧
      (src.isInt = true → dst.isInt = false → resultAt (exec (.cvt dst src f) s) false f.vd.toNat j =
        some ((roundTo d (.num (decide (num src x < 0)) (num src x).natAbs 1) (c.mode f d)).1 % 2 ^ 32)) ∧
      (src.isInt = false → dst.isInt = true → resultAt (exec (.cvt dst src f) s) dst.is64 f.vd.toNat j =
        some ((floatToInt (decide (dst = .i32 ∨ dst = .i64)) (wid dst) (c.rm f) (m.read (flushIn c.flush m) e)).1
          % (2 ^ wid dst : Nat)).toNat) ∧
      (src.isInt = false → dst.isInt = false → resultAt (exec (.cvt dst src f) s) false f.vd.toNat j =
        some ((roundTo d (c.readAs f d m e) (c.mode f d)).1 % 2 ^ 32))) ∧
    (∀ (bf : Bool) (k : Nat),
      let d := Fmt.narrow f.aux
      let w := if bf = true then 16 else 32
      let m := if bf = true then Fmt.bf16 else Fmt.f32
      let per := 32 / w
      (k < nfCount f.aux → 32 = d.width * nfCount f.aux → Issues (.npack bf f) s →
        (resultAt (exec (.npack bf f) s) false f.vd.toNat j).map (elemOf d.width k) =
          some ((roundTo d (c.readAs f d m (elemOf w (k % per) (word (f.va.toNat + k / per)))) (c.mode f d)).1 % 2 ^ d.width)) ∧
      (k < nfCount f.aux → nfCount f.aux % per = 0 → Issues (.nunpack bf f) s →
        (resultAt (exec (.nunpack bf f) s) false (f.vd.toNat + k / per) j).map (elemOf w (k % per)) =
          some ((roundTo m (c.readAs f m d (elemOf d.width k (word f.va.toNat))) (c.mode f m)).1 % 2 ^ w))) ∧
    (∀ (half : Bool) (k : DotTy), Issues (if half = true then .vdoth k f else .vdot k f) s →
      let m := match k with | .narrow => Fmt.narrow (nfOfDot f.aux) | .bf16 => .bf16 | .f16 => .f16
      let per := 32 / m.width
      let at' := fun (r i : Nat) => c.readAs f .f32 m (elemOf m.width (i % per) (word (r + i / per)))
      let scale := fun (r : Nat) => if k ≠ .narrow then FV.num false 1 1
        else if half = true then c.readAs f .f32 .bf16 (elemOf 16 (f.aux.toNat / 2 ^ 7) (word r))
        else (Fmt.narrow 0x01).decode (elemOf 8 (f.aux.toNat / 2 ^ 6) (word r))
      resultAt (exec (if half = true then .vdoth k f else .vdot k f) s) false f.vd.toNat j = some
        ((blockAccumulate (c.mode f .f32) (c.fz f .f32 || flushIn c.flush .f32) (word f.vc.toNat)
          [((List.range (dotRegs k f.aux * per)).map fun i => (at' f.va.toNat i, at' f.vb.toNat i),
            scale (f.imm.toNat % 2 ^ 8), scale (f.imm.toNat / 2 ^ 8 % 2 ^ 8))]).1 % 2 ^ 32))

/-- R148 to R154: the lane memory instructions where every live thread is admitted: the loads' values by thread, the stores',
the chunks of `acpy`, each with the bytes of its thread's two places, which join the open batch, and the atomics in thread
order. Where threads fault, they enter m15 and the lowest of them gives the cause; the others complete, and their results stay
outstanding, behind which the group parks where the instruction has a park marker (R19). Before a store the chunks of the agent's
own earlier copies that touch its bytes land (R150).
The model's own choices here: log 14, log 41, log 43, log 74. -/
def Obligations.LaneMemory : Prop :=
  ∀ (s s1 s2 s3 : State) (z : Size) (op : VAtomOp) (f : Lane) (ps : List (Nat × Place)) (k : Nat),
    let c := s.laneCtx f
    let x := s.cur.laneCtx
    let live := (List.range c.g).filter fun t => c.live.getLsbD t
    let disp := BitVec.ofInt 64 f.imm.toInt
    let offs := fun (t : Nat) => (BitVec.ofNat 32 ((c.srcB false f).get t)).signExtend 64
    let row := fun (t : Nat) => c.scalar f.va + disp + bv64 (t * z.bytes)
    let idx := fun (t : Nat) => (if f.aux.getLsbD 2 = true then c.scalar f.va else bv64 ((c.srcA true f).get t)) + offs t + disp
    let str := fun (t : Nat) => c.scalar f.va + disp + bv64 t * offs t
    let found := fun (find : Nat → X (List Place)) (u : State) =>
      laneFind find live u = .ok (ps.map fun p => (p.1, .ok [p.2])) s2
    let rest := fun (a : Option Block) => if f.last = true then none else a.map fun (b : Block) =>
        { b with lidx := b.lidx + 1, issued := b.issued + 1, only := none }
    let done := fun (u : State) (ws : List PendWrite) => { u with cur := { u.cur with lane := { u.cur.lane with
      pend := u.cur.lane.pend ++ [{ cls := some .mem, writes := ws, addr := s.cur.laneAddr }]
      active := rest u.cur.lane.active
      parked := f.park
      stalled := false } } }
    let traps := fun (i : Instr) (rs : List (Nat × Except Stop (List Place))) (u : State) (ws : List PendWrite) =>
      ∀ (t : Nat) (e : Cause) (v : Word) (ipa : Nat) (l : List (Nat × Cause × Word × Nat)),
        s.cur.trap.hm = false → s.cur.preempting = false → e ≠ cIllegal → foundFills rs = [] → foundTraps rs = (t, e, v, ipa) :: l →
        Ends i s fun w => w.cur.trap.cause = e ∧ w.cur.trap.val = v ∧ w.cur.trap.fv = true ∧ w.cur.trap.hm = true ∧
          w.cur.trap.spc = u.cur.pc ∧ w.cur.trap.xlane = s.cur.laneAddr &&& ~~~ 3 ∧ w.cur.level = .s ∧ w.cur.pc = u.cur.trap.vec ∧
          w.mem = u.mem ∧ w.chunks = u.chunks ∧ w.cur.leaving = u.cur.leaving ∧
          (∀ j, j < 1024 → (w.cur.regs.m[15].getLsbD j = true ↔ j < u.cur.gsize ∧ ∃ q ∈ (t, e, v, ipa) :: l, q.1 = j)) ∧
          w.cur.lane.pend = u.cur.lane.pend ++ [{ cls := some .mem, writes := ws, addr := s.cur.laneAddr }] ∧
          w.cur.lane.parked = f.park ∧ w.cur.lane.active = none ∧ w.cur.lane.queue = [] ∧
          w.cur.lane.held = some { active := rest s.cur.lane.active, queue := u.cur.lane.queue }
    (∀ p ∈ [(Instr.vld z f, row), (.vldx z f, idx), (.vlds z f, str)], ∀ vals, Issues p.1 s →
      (found (fun t => findOne (p.2 t) z.bytes .r x) s.laneView.2 →
        readThreads x z.bytes (ps.map fun p => (p.1, [p.2])) s2 = .ok (vals, []) s3 →
        exec p.1 s = .next (done s3 (c.putLoaded z f.vd.toNat vals))) ∧
      (∀ rs, laneFind (fun t => findOne (p.2 t) z.bytes .r x) live s.laneView.2 = .ok rs s2 →
        readThreads x z.bytes (foundPlaces rs) s2 = .ok (vals, []) s3 → traps p.1 rs s3 (c.putLoaded z f.vd.toNat vals))) ∧
    (∀ p ∈ [(Instr.vst z f, row), (.vstx z f, idx)], Issues p.1 s →
      let landed := fun (l : List (Nat × List Place)) => l.foldl (fun u q => u.landAt x.agent (q.2.headD (.dev 0)) z.bytes) s2
      let left := fun (old : List Leaving) => { s3 with cur := { s3.cur with leaving := old ++ mergeLeaving (s3.cur.leaving.drop old.length) } }
      (found (fun t => findOne (p.2 t) z.bytes .w x) s.laneView.2 →
        let u := landed (ps.map fun p => (p.1, [p.2]))
        writeThreads x z.bytes (c.srcC z.is64 f).get (ps.map fun p => (p.1, [p.2])) u = .ok () s3 →
        exec p.1 s = .next (done (left u.cur.leaving) [])) ∧
      (∀ rs, laneFind (fun t => findOne (p.2 t) z.bytes .w x) live s.laneView.2 = .ok rs s2 →
        let u := landed (foundPlaces rs)
        writeThreads x z.bytes (c.srcC z.is64 f).get (foundPlaces rs) u = .ok () s3 → traps p.1 rs (left u.cur.leaving) [])) ∧
    (∀ p ∈ [(Instr.vatom op z f, true), (.vred op z f, false)], ∀ vals, Issues p.1 s →
      checkScope (f.aux.toNat / 2 ^ 4) s.laneView.2 = .ok k s1 →
      let find := fun (t : Nat) => do
        X.aligned (idx t) z.bytes
        let q ← atomicPlaceFor x (idx t) z.bytes (decide (op = .add ∨ op = .swap))
        pure [q]
      let act := atomicThreads z.bytes (fun t v => VAtomOp.apply op z v ((c.srcC z.is64 f).get t % 2 ^ (8 * z.bytes)))
      let ws := if p.2 = true then c.putLoaded z f.vd.toNat vals else []
      (found find s1 → act (ps.map fun p => (p.1, [p.2])) s2 = .ok (vals, []) s3 → exec p.1 s = .next (done s3 ws)) ∧
      (∀ rs, laneFind find live s1 = .ok rs s2 → act (foundPlaces rs) s2 = .ok (vals, []) s3 → traps p.1 rs s3 ws)) ∧
    (∀ qs : List (Nat × Place × Place), Issues (.acpy f) s → checkScope (f.aux.toNat / 2 ^ 4) s.laneView.2 = .ok k s1 →
      let n := 4 * 2 ^ (f.imm.toNat % 8)
      let src := fun (t : Nat) => bv64 ((c.srcB true f).get t) + (BitVec.ofNat 32 ((c.srcC false f).get t)).signExtend 64
      let dst := fun (t : Nat) => c.scalar f.va + bv64 (t * n)
      let find := fun (t : Nat) => do
        X.aligned (src t) n
        X.aligned (dst t) n
        let p ← translateRange x (src t) .r n
        let q ← translateRange x (dst t) .w n
        pure [p, q]
      let adds := fun (u : State) =>
        u.chunks.length = s2.chunks.length + qs.length ∧ u.chunks.take s2.chunks.length = s2.chunks ∧
        (∀ m t p q, qs[m]? = some (t, p, q) → ∃ y, u.chunks[s2.chunks.length + m]? = some y ∧ y.agent = s2.cur.id ∧
          y.batch = s2.cur.sync.lastBatch + 1 ∧ y.die = s2.cur.die ∧
          SideAt n p y.src y.srcLocal y.srcSmr ∧ SideAt n q y.dst y.dstLocal y.dstSmr) ∧
        u.cur.regs = s2.cur.regs ∧ u.mem = s2.mem ∧
        (qs ≠ [] → u.cur.sync.openScope = max s2.cur.sync.openScope k)
      (laneFind find live s1 = .ok (qs.map fun p => (p.1, .ok [p.2.1, p.2.2])) s2 →
        ∃ u, exec (.acpy f) s = .next (done u []) ∧ adds u) ∧
      (∀ rs, laneFind find live s1 = .ok rs s2 → foundPlaces rs = qs.map (fun p => (p.1, [p.2.1, p.2.2])) →
        ∃ u, traps (.acpy f) rs u [] ∧ adds u))

/-! ## Steps of the part: streams, waits, memory -/

/-- R18, R24, R28: how an outstanding write lands. A lane register takes the new words in the live threads alone and the tag
of the result only when all are live; a mask takes the live bits; a q register counts its sequence number up.
The model's own choices here: log 30, log 68. -/
def Obligations.ResultLanding : Prop :=
  ∀ (r : Regs) (g n t : Nat) (live : Mask),
    (∀ (all : Bool) (x : LaneReg), n < 256 → t < g →
      let old := r.v.toList.getD n (.u 0)
      let y := (r.land g (.lane n live all x)).v.toList.getD n (.u 0)
      (all = true → y = x) ∧
      (all = false → (∃ l, y = .g l) ∧ y.at t = (if live.getLsbD t = true then x.at t else old.at t)) ∧
      (∀ k, k ≠ n → (r.land g (.lane n live all x)).v.toList.getD k (.u 0) = r.v.toList.getD k (.u 0))) ∧
    (∀ (x : Mask), n < 16 → ((r.land g (.mask n live x)).m.toList.getD n 0).getLsbD t =
      (if live.getLsbD t = true then x.getLsbD t else (r.m.toList.getD n 0).getLsbD t)) ∧
    (∀ (x : Word), n < 4 → (r.land g (.q n x)).q.toList.getD n {} = { val := x, seq := (r.q.toList.getD n {}).seq + 1 })

/-- R16 to R21, R28, R106, R110, R111, R114: the steps of a lane stream beside its instructions: a block begins with its mask
sampled, the results of an instruction return, and the waits for room, for a counter, for the stream, for a mask and for a
reduction result end.
The model's own choices here: log 16, log 30. -/
def Obligations.LaneStreamSteps : Prop :=
  ∀ (s : State) (n which : Nat) (a : Agent), s.agent? n = some a →
    (∀ b bs, a.lane.queue = b :: bs → laneAwake a.status = true → s.resident a = true → a.lane.active = none →
      a.lane.parked = false → Ends (.laneBlockIssueStart n) s fun t => ∃ m : Mask,
        OnlyAgent s t n { a with lane := { a.lane with active := some { b with mask := m }, queue := bs } } ∧
        (a.lane.writes = [] → m = (if b.inv = true then ~~~ a.regs.maskOf a.gsize b.sel else a.regs.maskOf a.gsize b.sel)
          &&& allLive a.gsize)) ∧
    (a.status = .waiting .lrunRoom → a.lane.queue.length < 8 →
      Ends (.lrunDispatchRoom n) s fun t => OnlyAgent s t n { a with status := .ready }) ∧
    (∀ p, a.lane.pend[which]? = some p → a.status.standing = true → p.bad = 0 →
      (∀ w ∈ p.writes, a.qHeld which w = false) →
      ((∀ k x, p.writes.head? ≠ some (.q k x)) ∨ p.writes.length ≤ 1 → Ends (.laneResultReturn n which) s fun t =>
        OnlyAgent s t n { a with
          regs := p.writes.foldl (fun r w => r.land a.gsize w) a.regs
          fflags := a.fflags ||| p.flags
          lane := { a.lane with
            pend := a.lane.pend.eraseIdx which, parked := a.lane.parked && !(a.lane.pend.eraseIdx which).isEmpty } }) ∧
      (∀ k x w ws, p.writes = .q k x :: w :: ws → Ends (.laneResultReturn n which) s fun t =>
        OnlyAgent s t n { a with
          regs := a.regs.land a.gsize (.q k x)
          lane := { a.lane with pend := a.lane.pend.set which { p with writes := w :: ws } } })) ∧
    Ends (.counterStallEnd n) s (fun t => OnlyAgent s t n { a with lane := { a.lane with stalled := false } }) ∧
    (a.status = .waiting .drain → a.laneDrained = true → a.preempting = false →
      Ends (.laneStreamDrained n) s fun t => OnlyAgent s t n { a with status := .ready }) ∧
    (∀ k, a.status = .waiting (.bmask k) → (s.focus n).maskPending k = false →
      Ends (.bmaskWaitEnd n) s fun t => OnlyAgent s t n { a with status := .ready }) ∧
    (∀ (q : BitVec 2) (d : BitVec 6) (want : BitVec 16), a.status = .waiting (.qread q d want) →
      (a.regs.q[q.toNat].seq = want → Ends (.qreadSequenceReached n) s fun t => ∃ b, OnlyAgent s t n b ∧
        b.status = .ready ∧ b.pc = a.pc + 4 ∧ b.rs d = (if d = 0 then 0 else a.regs.q[q.toNat].val) ∧
        (∀ e, e ≠ d → b.rs e = a.rs e)) ∧
      (a.regs.q[q.toNat].seq ≠ want → (s.focus n).qPending q.toNat = false →
        Ends (.qreadSequenceReached n) s fun t => OnlyAgent s t n { a with status := .ready }))

/-- R175, R181 to R183, R155, R54, R379: the waits of synchronisation end. A satisfied timeline or barrier wait lets its
instruction execute again; a completed `wgbar` or `hbar` gives every participant the same reduced value; an uncorrectable
register error makes a group exit with POISON; a word that names no instruction raises ILLEGAL.
The model's own choices here: log 69. -/
def Obligations.SynchronisationSteps : Prop :=
  ∀ (s : State) (n : Nat) (a : Agent), s.agent? n = some a →
    (∀ h m, a.status = .waiting (.twait h m) → (s.focus n).twaitMet h m = true →
      Ends (.twaitSatisfied n) s fun t => OnlyAgent s t n { a with status := .ready }) ∧
    (∀ va m, a.status = .waiting (.await va m) → (s.focus n).awaitMet va m = true →
      Ends (.awaitSatisfied n) s fun t => OnlyAgent s t n { a with status := .ready }) ∧
    (∀ (l : List (Agent × BarArrival)) (i : Instr), (l.map (·.1.id)).Nodup → (∀ y ∈ l, s.agent? y.1.id = some y.1) →
      ((∃ w, i = .wgbarComplete w ∧ barMembers .wgbar none (s.groupsOf w) = some l) ∨
       (∃ x h la, i = .hbarComplete x h ∧ s.launch? x = some la ∧
          (s.herdGroups la h).bind (barMembers .hbar (some h)) = some l)) →
      Ends i s fun t =>
        t.enclaves = s.enclaves ∧ t.wgs = s.wgs ∧ t.pot = s.pot ∧
        (∀ y ∈ l, ∃ b, t.agent? y.1.id = some b ∧ b.pc = y.1.pc + 4 ∧ b.sync.arrival = none ∧
          (∀ w, y.1.status = .waiting w → b.status = .ready) ∧
          b.rs y.2.sd = (if y.2.sd = 0 then 0 else barResult l) ∧ ∀ e, e ≠ y.2.sd → b.rs e = y.1.rs e)) ∧
    (∀ (l : List (Agent × BarArrival)) (op : BitVec 3), (∀ y ∈ l, y.2.op = op) → l ≠ [] →
      let vs := l.map fun y => y.2.val
      (op = 0 → barResult l = 0) ∧ (op = 1 → barResult l = vs.foldl (· + ·) 0) ∧
      (op = 2 → barResult l ∈ vs ∧ ∀ v ∈ vs, (barResult l).toInt ≤ v.toInt) ∧
      (op = 3 → barResult l ∈ vs ∧ ∀ v ∈ vs, v.toInt ≤ (barResult l).toInt) ∧
      (op = 4 → barResult l ∈ vs ∧ ∀ v ∈ vs, (barResult l).toNat ≤ v.toNat) ∧
      (op = 5 → barResult l ∈ vs ∧ ∀ v ∈ vs, v.toNat ≤ (barResult l).toNat) ∧
      (op = 6 → barResult l = vs.foldl (· ||| ·) 0) ∧ (op = 7 → barResult l = vs.foldl (· &&& ·) (BitVec.allOnes 64))) ∧
    (a.kind ≠ .host → (a.status = .ready ∨ ∃ w, a.status = .waiting w) →
      Ends (.uncorrectableRegisterError n) s fun t => t.cur = { a with status := .exited } ∧
        (t.part a.part).exitId = (s.part a.part).exitId + 1 ∧
        ∃ x, t.exits = s.exits ++ [x] ∧ x.what = .agent n ∧ x.addr = s.exitAddr a.part ∧
          (s.hostFrame x.addr = true → t.mem.homeNat (s.redirect x.addr) 3 = a.enc.toNat + 0x0F * 2 ^ 16)) ∧
    (∀ bits : BitVec 96, exec (.illegalEncoding false bits) s =
        .next (s.takeTrap cIllegal (BitVec.ofNat 64 (bits.toNat % 2 ^ 32))) ∧
      (s.cur.trap.hm = false → s.cur.preempting = false → Ends (.illegalEncoding true bits) s fun t =>
        t.cur.trap.cause = cIllegal ∧ t.cur.trap.val = BitVec.ofNat 64 (bits.toNat / 2 ^ 32) ∧ t.cur.trap.fv = false ∧
        t.cur.trap.xlane = s.cur.laneAddr &&& ~~~ 3 ∧ t.cur.lane.active = none ∧ t.cur.regs = s.cur.regs ∧ t.mem = s.mem))

/-- R151, R177, R246 to R249, R241, R4, R361: memory moves by itself. Chunks land: what the group itself stored at their bytes before
enters the order of its die first, then the source bytes as they stand there are written at the destination, in a scratchpad or
in the order of the die. A source byte in memory is what a read of the die gives, the clock of a home-origin value with it (R253), and
at home where the die keeps no copy; it is open where its line returns no data. A plain write enters the order of its die, reaches a
die, or reaches home; a die gives up a line, writing its dirty bytes at their home; a device register is written, and the device
carve-out by H agents of a peer.
The model's own choices here: log 2, log 8, log 10, log 43, log 74, log 88, log 92. -/
def Obligations.MemorySteps : Prop :=
  ∀ s : State,
    (∀ c cs, s.chunks.find? (·.id == c.id) = some c → s.chunkHeld c = false → s.choices = 0 :: cs →
      c.src.length = c.dst.length → c.src ≠ [] →
      let s0 := { s with choices := cs }
      let s1 := if c.srcLocal = none then s0.drainBytes c.agent c.src else s0
      let s2 := if c.dstLocal = none then s1.drainBytes c.agent c.dst else s1
      Ends (.acpyChunkLands c.id) s fun t =>
        t.chunks = s.chunks.filter (·.id != c.id) ∧ t.cur.regs = s.cur.regs ∧ t.cur.pc = s.cur.pc ∧
        (∀ m, m ≠ c.agent → t.agent? m = s.agent? m) ∧
        ∃ bs v, bs.length = c.src.length ∧ t.choices = v.choices ∧
          (∀ w g, c.srcLocal = some w → s.wg? w = some g → bs = c.src.map g.scrByte ∧ v = s2) ∧
          (c.srcLocal = none → (bs, v) = c.src.foldl (fun (r : List Byte × State) p =>
            let x := r.2.chunkByte c p
            (r.1 ++ [x.1], x.2)) ([], s2)) ∧
          (c.srcLocal = none → c.srcUncached = false →
            (∀ p ∈ c.src, (findCopy (s2.mem.die c.die).copies (s2.redirect p)).isSome = true ∧
              badRange s2 c.die [] true (s2.redirect p) 1 = none) → v.mem = s2.mem ∧ v.choices = cs ∧
              ∀ (i p : Nat) (y : CopyByte), c.src[i]? = some p → findCopy (s2.mem.die c.die).copies (s2.redirect p) = some y →
                bs[i]? = some y.val) ∧
          (∀ w, c.dstLocal = some w → t.mem = v.mem ∧ t.wgs = s.wgs.map fun (x : Workgroup) =>
            if x.id = w then x.scrWrite (c.dst.zip bs) else x) ∧
          (c.dstLocal = none → t.wgs = s.wgs ∧ t.mem = v.mem.enter c.agent c.die c.dstSmr c.dstUncached
            ((c.dst.zip bs).map fun x => (v.redirect x.1, x.2))) ∧
          (c.srcLocal ≠ none → c.dstLocal ≠ none → t.mem = s.mem ∧ t.cur = s.cur ∧ t.others = s.others)) ∧
    (∀ (c : Chunk) (p : Nat),
      let pa := s.redirect p
      let bad := badRange s c.die [] (!c.srcUncached && (findCopy (s.mem.die c.die).copies pa).isSome) pa 1
      (bad ≠ none → (s.chunkByte c p).2 = s.draw.2) ∧
      (bad = none → s.srcReads c pa (s.chunkByte c p).1 (s.chunkByte c p).2) ∧
      (c.srcUncached = true → bad = none → (s.chunkByte c p).1 = (s.chunkByte c p).2.mem.homeByte pa)) ∧
    (∀ (a : Agent) (k : Nat) (w : Leaving), s.agent? a.id = some a → a.leaving[k]? = some w → mayEnter a.leaving k = true →
      Ends (.writeDelivery (.enter a.id k)) s fun t =>
        t.agent? a.id = some { a with leaving := a.leaving.eraseIdx k } ∧
        t.mem = s.mem.enter a.id a.die w.smr w.uncached w.bytes ∧ (∀ m, m ≠ a.id → t.agent? m = s.agent? m)) ∧
    (∀ (f : Flight) (k e : Nat), s.mem.flight[k]? = some f → f.todo.contains e = true →
      (s.mem.held e f = true → exec (.writeDelivery (.toDie k e)) s = .next s) ∧
      (s.mem.held e f = false → e < 6 → Ends (.writeDelivery (.toDie k e)) s fun t =>
        t.cur = s.cur ∧ t.mem.home = s.mem.home ∧ (∀ d, d ≠ e → t.mem.die d = s.mem.die d) ∧
        (f.origin = false → (t.mem.die e).clock.at f.die = max ((s.mem.die e).clock.at f.die) (f.clock.at f.die) ∨ f.die ≥ 6) ∧
        (∀ g ∈ t.mem.flight, g.todo.contains e = true → g ∈ s.mem.flight ∧ g ≠ f))) ∧
    (∀ (f : Flight) (k : Nat), s.mem.flight[k]? = some f → f.origin = false → f.atHome = false →
      Ends (.writeDelivery (.toHome k)) s fun t =>
        t.cur = s.cur ∧ (∀ e, (t.mem.die e).clock = (s.mem.die e).clock ∧
          (t.mem.die e).copies.map (fun c => (c.addr, c.val, c.dirty, c.smr, c.origin)) =
            (s.mem.die e).copies.map (fun c => (c.addr, c.val, c.dirty, c.smr, c.origin))) ∧
        (∀ q, (∀ g ∈ s.mem.flight, g.touches q = false) → t.mem.homeByte q = s.mem.homeByte q) ∧
        (∀ q, f.touches q = true → ∃ b ∈ f.bytes, b.1 = q ∧ t.mem.homeByte q = b.2)) ∧
    (∀ die line : Nat, die < 6 → Ends (.eviction die line) s fun t =>
      let dirty := fun (q : Nat) => (s.mem.die die).copies.filter fun c => c.smr && c.dirty && c.addr == q
      t.cur = s.cur ∧ (∀ c ∈ (t.mem.die die).copies, c.addr / 256 ≠ line) ∧
      (∀ c ∈ (s.mem.die die).copies, c.addr / 256 ≠ line → c ∈ (t.mem.die die).copies) ∧
      (∀ c ∈ (t.mem.die die).copies, c ∈ (s.mem.die die).copies ∨
        (c.smr = true ∧ c.dirty = false ∧ c.val = t.mem.homeByte c.addr)) ∧
      (∀ d, d ≠ die → t.mem.die d = s.mem.die d) ∧
      (∀ q c, q / 256 = line → (dirty q).getLast? = some c → t.mem.homeByte q = c.val) ∧
      (∀ q, (q / 256 ≠ line ∨ dirty q = []) → t.mem.homeByte q = s.mem.homeByte q) ∧
      t.codeLines = s.codeLines.filter (fun x => !(x.die == die && x.addr / 256 == line))) ∧
    (∀ (pa : Nat) (bs : List Byte), regionOf pa = .device → deviceHole pa = false → relayModule (pa - devBase) = none →
      pa % 8 + bs.length ≤ 8 → exec (.registerWrite pa bs) s = .next (s.devWrite pa bs)) ∧
    (∀ (pa i : Nat) (bs : List Byte), potIndex pa = some i → deviceCarveOut i = true → bs ≠ [] → pa % 256 + bs.length ≤ 256 →
      (s.potAt i).state = .owned → (s.potAt i).owner = 0 → s.lockedWrite (s.redirect pa) bs = false →
      ((∃ x ∈ s.links.streams, x.2.state = stUp ∧ x.2.lenc = 0 ∧ x.2.penc = 0) → Ends (.registerWrite pa bs) s fun t =>
        t = { s with mem := t.mem } ∧ ∀ k, k < bs.length → t.mem.homeByte (s.redirect pa + k) = bs.getD k 0) ∧
      ((∀ x ∈ s.links.streams, x.2.state ≠ stUp ∨ x.2.lenc ≠ 0 ∨ x.2.penc ≠ 0) → exec (.registerWrite pa bs) s = .next s))

/-! ## Steps of the part: launches, scheduling, saves -/

/-- R258, R259, R232 to R235, R263 to R268, R191: launches on their way. The oldest spilled record is refilled; the master
opens a launch whose object passes, and one of a partition with no surviving slice completes with DIELOST (R269); a distributor
that asks gets a range of indices, up to 16 of those not dealt or of those lost, and at least one where any stands within the room
of the head; an admitted workgroup takes its place, and its groups start as R191 says.
The model's own choices here: log 2, log 78. -/
def Obligations.LaunchSteps : Prop :=
  ∀ (s t : State) (e : Enclave) (part die : Nat),
    (∀ (n qi : Nat) (q : Queue) (r : Rec) (rs : List Rec) (bs : List Byte), s.queue? (BitVec.ofNat 16 n) qi = some q →
      q.spill = r :: rs → q.used + recordEntries q.kind ≤ q.hwCap → q.refillFault = none →
      readVa (hwCtx (BitVec.ofNat 16 n) r.die) (q.spillSlot q.refilled) (recordSize q.kind) .r s = .ok bs t →
      t.queue? (BitVec.ofNat 16 n) qi = some q →
      Ends (.spillRefill n qi) s fun u => u.cur = t.cur ∧ u.mem = t.mem ∧ u.queue? (BitVec.ofNat 16 n) qi =
        some { q with hw := q.hw ++ [{ r with bytes := bs }], spill := rs, refilled := q.refilled + 1 }) ∧
    (∀ (o : Op) (l : Launch), s.unopened part = some o → s.enclave? o.enc = some e → s.hasSlice e = true →
      openLaunch e o.record o.die o.id s = .ok (.ok l) t →
      exec (.launchDispatchStart part) s = .next { t with
        launches := t.launches ++ [l]
        enclaves := t.enclaves.map fun (x : Enclave) => if x.id = e.id then { x with launches := x.launches + 1 } else x }) ∧
    (∀ (qi d : Nat) (r : Rec), s.unopened part = none → firstRecord (s.launchHeads part) = some (e, qi, r) →
      s.masterDie part = some d → s.inDispatch part < 64 → s.ops.all (fun o => o.id != s.nextId) = true →
      let o : Op := { id := s.nextId, enc := e.id, queue := qi, kind := .record 0, record := r, die := d
                      maxScope := (s.layout.entryAt (s.partOf e.id) none).maxScope }
      let u := ({ s with nextId := s.nextId + 1, ops := s.ops ++ [o] }.onQueue e.id qi fun q => { q with hw := q.hw.drop 1 }).acquire
        d 6 r.clock
      exec (.launchDispatchStart part) s = .next (u.openOp e o)) ∧
    (∀ (qi : Nat) (r : Rec), s.unopened part = none → firstRecord (s.launchHeads part) = some (e, qi, r) →
      s.masterDie part = none → s.partitionGone part = true → (∀ o ∈ s.ops, o.id ≠ s.nextId) →
      Ends (.launchDispatchStart part) s fun u => u.cur = s.cur ∧ u.mem = s.mem ∧ u.launches = s.launches ∧
        ∃ o, u.op? s.nextId = some o ∧ o.record = r ∧ o.state = .done ∧ o.error = cDieLost) ∧
    (∀ (l : Launch) (c : Nat) (cs : List Nat), s.launch? l.id = some l → s.partOnDie l.part die = true → l.dead = false →
      s.choices = c :: cs →
      (s.asks l die = false → exec (.rangeDeal l.id die) s = .next s) ∧
      (s.asks l die = true → l.redeal = [] →
        let k := min (min (l.dealt + (16 - c % 16)) (l.head + 256)) l.record.grid - l.dealt
        k ≤ 16 ∧ (l.dealt < l.record.grid → l.dealt < l.head + 256 → 0 < k) ∧
        Ends (.rangeDeal l.id die) s fun u => u.cur = s.cur ∧ u.mem = s.mem ∧ u.launch? l.id = some { l with
          ranges := l.ranges ++ (List.range k).map (fun i => (die, l.dealt + i)), dealt := l.dealt + k }) ∧
      (∀ (x : Nat) (xs : List Nat), s.asks l die = true → l.redeal = x :: xs →
        ∃ k, 0 < k ∧ k ≤ 16 - c % 16 ∧ (∀ i, i < k → l.redeal[i]? = some (x + i)) ∧
          (k < 16 - c % 16 → l.redeal[k]? ≠ some (x + k)) ∧
          Ends (.rangeDeal l.id die) s fun u => u.cur = s.cur ∧ u.mem = s.mem ∧ u.launch? l.id = some { l with
            ranges := l.ranges ++ (List.range k).map (fun i => (die, x + i)), redeal := l.redeal.drop k })) ∧
    (∀ (l : Launch) (f : SaveFields) (i core : Nat) (cs : List Nat), s.launch? l.id = some l → s.enclave? l.enc = some e →
      s.hasSlice e = true → s.partOnDie l.part die = true → (∀ w ∈ s.wgs, w.state ≠ .dispatchable) → e.admitBlocked = none →
      l.nextFor die = some i → s.coreFor s.onCores l.part die l.record.need = some core → e.save = some f →
      saveSize l.record.g l.record.budget ≤ areaSize f → s.choices = 0 :: cs →
      let u := { s.onEnclave e.id fun (x : Enclave) => { x with save := some f } with choices := cs }
      let js := (u.freeSlots e.id f.nslot 0).take l.record.need.groups
      js.length = l.record.need.groups → takeSlots e.id die f js u = .ok () t →
      exec (.workgroupAdmit l.id die) s = .next (t.placeWorkgroup l e f i die core js)) ∧
    (∀ (l : Launch) (f : SaveFields) (wg index core j slot issue width id : Nat),
      let g := newGroup l e f wg index die core j slot issue width id
      let r := l.record
      g.status = .ready ∧ g.kind = .group ∧ g.level = (if r.f 0 33 1 = 1 then .s else .u) ∧
      g.pc = BitVec.ofNat 64 (l.view.code + l.view.textOff + r.f 0x18 0 32) ∧ g.rs 1 = BitVec.ofNat 64 (r.w 0x30) ∧
      (∀ x, x ≠ 1 → g.rs x = 0) ∧ (∀ k, g.regs.v.toList.getD k (.u 0) = .u 0) ∧ (∀ k, g.regs.m.toList.getD k 0 = 0) ∧
      g.trap.vec = e.xvec0 &&& ~~~ 0xFFF ∧ g.trap.hm = false ∧ g.shadow = [] ∧ g.lane = {} ∧ g.ids.wgIdx = index ∧ g.ids.grpIdx = j ∧
      g.ids.thrBase = j * r.g ∧ g.gsize = r.g ∧ g.width = width ∧ g.gchg = false ∧ g.fflags = 0)

/-- R260 to R262, R270, R273 to R275, R346: workgroups go out and come back; groups that are ready age; windows pass, with which a new
budget comes into force, the old one while a slice of the partition is still to flip; where that brings slicing an enclave's slice
begins; and slices end.
The model's own choices here: log 28, log 32, log 38, log 93. -/
def Obligations.SchedulingSteps : Prop :=
  ∀ (s : State) (n : Nat),
    (∀ w, s.wg? n = some w → (w.state = .swapping ∨ (s.swappable w = true ∧ s.waitedLongest w = true)) →
      let u := { s with wgs := s.wgs.map fun (x : Workgroup) => if x.id = w.id then { x with state := .swapping } else x }
      (u.tileRuns w.id = true ∨ (∃ a ∈ s.groupsOf w.id, a.lane.pend ≠ []) → exec (.swapOut n) s = .next u) ∧
      (u.tileRuns w.id = false → (∀ a ∈ s.groupsOf w.id, a.lane.pend = []) → exec (.swapOut n) s = .next (u.saveWorkgroup w))) ∧
    (∀ w, s.wg? n = some w → w.state = .swapped → (∀ k ∈ w.groups, s.savedReady k = true) →
      Ends (.swappedWorkgroupReady n) s fun t => t.wg? n = some { w with state := .dispatchable } ∧ t.mem = s.mem ∧
        ∀ k ∈ w.groups, ∀ a f x, s.agent? k = some a → a.status = .saved f x →
          t.agent? k = some { a with status := .saved f none }) ∧
    (∀ a, s.agent? n = some a →
      (s.canScalar a = true ∨ s.canLane a = true →
        Ends (.groupAged n) s fun t => OnlyAgent s t n { a with sched := { a.sched with aged := true } }) ∧
      (s.canScalar a = false → s.canLane a = false → Ends (.groupAged n) s fun t => OnlyAgent s t n a)) ∧
    (∃ u : State, exec .budgetWindow s = .next ((List.range 40).foldl (fun v p => v.beginSlice p) u) ∧ u = { s with parts := u.parts } ∧
      (∀ (p : Nat) (b : Vector Word 4), p < 40 → ((s.parts.map (·.1)).Pairwise (· < ·)) →
        let pending := s.layout.journal = .committing ∧ ∃ k, k < 40 ∧ k ∉ s.layout.flipped ∧
          (((s.layout.old.getD p {}).slices.getLsbD k = true) ∨ (s.layout.entries.getD p {}).slices.getLsbD k = true)
        (pending → b = (s.layout.old.getD p {}).budget) → (¬ pending → b = (s.layout.entries.getD p {}).budget) →
        (b[0].toNat % 2 ^ 16 ≠ 0 → u.part p = { s.part p with budget := b, windows := (s.part p).windows + 1 }) ∧
        (b[0].toNat % 2 ^ 16 = 0 → u.part p = { s.part p with budget := b, slice := none, windows := 0 }))) ∧
    (∀ p, (s.tslice p = 0 ∨ (s.part p).slice ≠ none → s.beginSlice p = s) ∧
      (∀ (e : Enclave) (es : List Enclave) (c : Nat) (cs : List Nat), s.tslice p ≠ 0 → (s.part p).slice = none →
        (s.enclaves.filter fun x => x.part == p && EnclaveState.runs x.state) = e :: es → s.choices = c :: cs →
        s.beginSlice p = { s with choices := cs }.sliceEnds p (((e :: es).getD (c % (es.length + 1)) e).id))) ∧
    (∀ (p : Nat) (e : Enclave), s.enclave? (BitVec.ofNat 16 n) = some e → s.tslice p ≠ 0 → e.part = p →
      (e.state = .running ∨ e.state = .migrating) → (s.part p).slice ≠ some (BitVec.ofNat 16 n) →
      ((s.part p).slice = none ∨ s.tslice p ≤ (s.part p).windows) →
      let ids := s.preempted p (BitVec.ofNat 16 n)
      let u := { s with parts := aput s.parts p { s.part p with slice := some (BitVec.ofNat 16 n), windows := 0 } }
      (ids = [] → exec (.timeSliceEnd p n) s = .next u) ∧
      (∀ a, ids = [a] → exec (.timeSliceEnd p n) s = .next
        ((u.mapAgents fun b => if b.id = a then { b with preempting := true } else b).savePreempted a)))

/-- R299, R302, R308 to R317: saves and resumes. A pre-empted group that has drained enters its save routine; a routine that
overruns is saved by force, or exits with PREEMPT; a saved group resumes in full or in its restore routine; a DONE byte lets
the agent go on; a fill that ends wakes its waiters.
The model's own choices here: log 11, log 12, log 50, log 51. -/
def Obligations.SaveAndResumeSteps : Prop :=
  ∀ (s t : State) (n : Nat) (a : Agent), s.agent? n = some a →
    (a.status = .ready → a.kind = .group → a.preempting = true → a.laneDrained = true → a.lane.drainTrap = none →
      a.trap.hm = false → a.inRoutine = false → s.migStops a = false →
      Ends (.laneStreamDrained n) s fun u => OnlyAgent s u n { a with
        preempting := false, snapshot := some a.regs.s, pendingScalars := none, level := .s, pc := a.trap.vec + 0x100
        trap := { a.trap with
          cause := cPreempt, causeLane := false, val := 0, spc := a.pc, level := a.level, hm := false, inSave := true, used := 0 } }) ∧
    (a.status = .ready → a.trap.inSave = true → a.trap.inRestore = false → ∀ (e : Enclave) (f : SaveFields), s.enclave? a.enc = some e → e.save = some f →
      let b := { a with
        regs := { a.regs with s := a.snapshot.getD a.regs.s }, snapshot := none, pc := a.trap.spc, level := a.trap.level
        trap := { a.trap with inSave := false, used := 0 } }
      let ipa := if a.kind = .control then controlSlot f a.slotIdx else a.trap.saveBase.toNat
      saveWrite a.enc a.die ipa (forcedBytes b) (s.onAgent n fun _ => b) = .ok () t →
      exec (.saveRoutineOverrun n) s = .next (t.onAgent n fun b =>
        { b with status := .saved true none, savedWidth := b.width, trap := { b.trap with forced := true } })) ∧
    (a.status = .ready → a.trap.inRestore = true → Ends (.restoreRoutineOverrun n) s fun u =>
      u.cur = { a with
        regs := {}, pendingScalars := none, lane := {}, status := .saved false (some .exitDone)
        trap := { a.trap with inRestore := false, used := 0 } } ∧
      ∃ x, u.exits = s.exits ++ [x] ∧ x.what = .agent n ∧ x.addr = s.exitAddr a.part ∧
        (s.hostFrame x.addr = true → u.mem.homeNat (s.redirect x.addr) 3 = a.enc.toNat + cPreempt.toNat * 2 ^ 16)) ∧
    (∀ (e : Enclave) (w : Workgroup) (core g : Nat), s.enclave? a.enc = some e → s.hasSlice e = true → a.kind = .group →
      s.wg? a.wg = some w → s.coreTakes a core = true → a.contract = some g →
      let s' := (s.onWg a.wg fun (x : Workgroup) => { x with core }).focus n
      (∀ x bs, a.status = .saved true x → a.lane.drainTrap = none → readSlot a (forcedBytes a).length s' = .ok bs t →
        Ends (.groupResume n core) s fun u =>
        u.cur = { a with
          status := resumedStatus x, core := core, width := g, gchg := a.gchg || g != a.seenWidth || decide (g ≠ a.savedWidth)
          sched := { a.sched with slot := t.slotFor a.die core a.contract a.code }
          trap := { a.trap with forced := true, resliced := decide (g ≠ a.savedWidth) } } ∧
        u.mem = t.mem ∧ u.wg? a.wg = some { w with core }) ∧
      (∀ bs, a.status = .saved false none → readSlot a 0x400 s' = .ok bs t →
        Ends (.groupResume n core) s fun u => u.mem = t.mem ∧ ∃ b, u.agent? n = some b ∧
          b.pc = a.trap.vec + 0x200 ∧ b.level = .s ∧ b.status = .ready ∧ b.core = core ∧ b.width = g ∧ b.trap.inRestore = true ∧
          b.trap.spc = BitVec.ofNat 64 (wordAt bs 0 / 4 * 4) ∧ b.trap.level = (if (wordAt bs 0).testBit 0 = true then .s else .u) ∧
          b.rmode = BitVec.ofNat 3 (wordAt bs 0x10) ∧ b.fflags = BitVec.ofNat 5 (wordAt bs 0x10 / 2 ^ 16) ∧
          b.shadow.length = wordAt bs 0x18 % 2 ^ 7 ∧ b.sync.wgbarK = wordAt bs 0x28 ∧ (∀ r, b.rs r = 0))) ∧
    (∀ (x : ExitRec) (l r : List ExitRec), s.exits = l ++ x :: r → (∀ y ∈ l ++ r, y.addr ≠ x.addr ∧
        s.mem.homeByte (s.redirect (y.addr + 0x18)) ≠ 1) → s.hostFrame x.addr = true → badData s (s.redirect x.addr) = none →
        s.mem.homeByte (s.redirect (x.addr + 0x18)) = 1 → x.what = .agent n → a.status = .exited →
      Ends (.donePoll x.part) s fun u => u.exits = l ++ r ∧ u.mem = s.mem ∧ u.agent? n = some { a with status := .ready } ∧
        ∀ m, m ≠ n → u.agent? m = s.agent? m) ∧
    (∀ (f : Fill) (drive : Option (List Byte)), s.fills.find? (·.id == f.id) = some f → f.engineWaiters = [] →
      runFill f drive { s with fills := s.fills.filter (·.id != f.id) } = .ok () t → t.agent? n = some a →
      Ends (.storageFillEnd f.id drive) s fun u => u.mem = t.mem ∧ u.fills = t.fills ∧
        (a.status = .waiting (.fill f.id) → u.agent? n = some { a with status := .ready, lane := { a.lane with fetchWait := false } }) ∧
        (∀ k, a.status = .saved k (some (.fill f.id)) →
          u.agent? n = some { a with status := .saved k none, lane := { a.lane with fetchWait := false } }))

/-! ## Steps of the part: engines -/

/-- R193, R272, R319, R303, R329, R190: a TILE record enters its die's window with room for 64, is issued once its
conditions hold and its bank is free, takes a fault as its suspension, and its completion signals in the queue's order.
The model's own choices here: log 32, log 53, log 54, log 59, log 80. -/
def Obligations.TileRecordLifecycle : Prop :=
  ∀ (s t : State) (n qi : Nat) (o : Op),
    (∀ (e : BitVec 16) (x : Enclave) (q : Queue) (r : Rec) (rs : List Rec), n = e.toNat → s.enclave? e = some x →
      s.queue? e qi = some q → q.hw = r :: rs → q.kind = 2 → s.hasSlice x = true → (∀ p ∈ s.ops, p.id ≠ s.nextId) →
      (64 ≤ s.windowOn r.die → exec (.tileRecordTake n qi) s = .next s) ∧
      (s.windowOn r.die < 64 → Ends (.tileRecordTake n qi) s fun u => u.cur = s.cur ∧ u.mem = s.mem ∧
        u.queue? e qi = some { q with hw := rs } ∧ u.ops = s.ops ++
          [{ id := s.nextId, enc := e, queue := qi, kind := .record 2, record := r, die := r.die, state := .window
             maxScope := (s.layout.entryAt (s.partOf e) none).maxScope }])) ∧
    (∀ e : Enclave, s.op? n = some o → o.kind = .record 2 → o.state = .window → o.started = false → s.enclave? o.enc = some e →
      (∀ i v (l : Timeline), (i, v) ∈ o.record.waits → e.timeline? i = some l → l.count.toNat < v →
        exec (.tileTaskIssue n) s = .next s) ∧
      (∀ x ∈ s.ops, x.id ≠ n → x.kind = .record 2 → x.started = true → x.state ≠ .done → x.record.wg = o.record.wg →
        x.record.bank = o.record.bank → exec (.tileTaskIssue n) s = .next s)) ∧
    (s.op? n = some o → o.kind = .record 2 → s.taskReady o = true → s.taskFirst o = true → (∀ i ∈ o.record.shapes, (alook o.entries i).isSome = true) →
      Ends (.tileTaskIssue n) s fun u => ∃ k, s.nextEngine (s.partOf o.enc) o.die = some k ∧ k < 40 ∧
        s.ownsSlice (s.partOf o.enc) (o.die * 10 + k / 4) = true ∧
        (∀ x ∈ s.ops, x.onEngine = true → x.die = o.die → x.engine ≠ some k) ∧
        let o' := { o with state := .running, started := true, engine := some k
                           maxScope := (s.layout.entryAt (s.partOf o.enc) (some (o.die * 10 + k / 4))).maxScope }
        let v := (s.onPart (s.partOf o.enc) fun p => { p with lastEngine := aput p.lastEngine o.die k }).onOp n fun _ => o'
        u = (v.issueAcquire o').walkOperands n ∧ u.op? n = some o' ∧ u.cur = s.cur ∧ u.wgs = s.wgs) ∧
    (s.op? n = some o → s.unacked n = true → exec (.engineFaultSuspend n) s = .next s) ∧
    (∀ e : Enclave, s.op? n = some o → o.state = .running → o.cause ≠ 0 → s.unacked n = false → o.blocks = [] →
      s.enclave? o.enc = some e → e.held ≠ [] →
      Ends (.engineFaultSuspend n) s fun u => u.cur = s.cur ∧ u.mem = s.mem ∧ u.wgs = s.wgs ∧
        u.op? n = some { o with state := .suspended, stream := none, streams := [], cmds := [], stationary := none
                                sent := if o.result = none then o.progress else o.sent } ∧
        u.enclave? o.enc = some { e with held := e.held ++ [
          { token := BitVec.ofNat 64 (o.tok.getD o.id % 2 ^ 32 + o.queue % 2 ^ 16 * 2 ^ 32), va := o.va, progress := BitVec.ofNat 64 o.progress
            word1 := BitVec.ofNat 64 (o.cause.toNat + 256 * o.kind.recordKind), die := o.die }] }) ∧
    (∀ (e : Enclave) (r : FaultRec) (rs : List FaultRec), s.enclave? (BitVec.ofNat 16 n) = some e → e.held = r :: rs →
      (writeFault (BitVec.ofNat 16 n) r.die r s = .ok true t → t.enclave? (BitVec.ofNat 16 n) = some e →
        Ends (.heldFaultRecordWrite n) s fun u => u.cur = t.cur ∧ u.mem = t.mem ∧
          u.enclave? (BitVec.ofNat 16 n) = some { e with held := rs }) ∧
      (writeFault (BitVec.ofNat 16 n) r.die r s = .ok false t → exec (.heldFaultRecordWrite n) s = .next s)) ∧
    (∀ (k : Nat) (e : Enclave), s.op? n = some o → o.kind = .record k → s.enclave? o.enc = some e →
      (o.record.tlv = true → s.signalsBefore o = true → exec (.recordCompleteSignal n) s = .next s) ∧
      (o.state = .done → (o.record.tlv = false ∨ s.signalsBefore o = false) →
        Ends (.recordCompleteSignal n) s fun u => u.op? n = none ∧ u.cur = s.cur ∧
          ((o.record.tlv = false ∨ e.timeline? o.record.tl = none) → u.mem = s.mem) ∧
          (∀ l, o.record.tlv = true → e.timeline? o.record.tl = some l →
            u.mem = (s.engineRelease (o.clamp l.scope) o.record.clock).mem) ∧
          (∀ l ∈ u.launches, l.op ≠ n) ∧ ∃ x, u.enclave? o.enc = some x ∧
          (∀ (j : Nat) (l : Timeline), e.timelines[j]? = some l → ∃ m, x.timelines[j]? = some m ∧ m.count =
            if o.record.tlv = true ∧ j = o.record.tl ∧ l.count.toNat < (bv64 o.record.sigval).toNat then bv64 o.record.sigval else l.count) ∧
          ∀ (j : Nat) (q : Queue), e.queues[j]? = some q →
            x.queues[j]? = some (if o.error ≠ 0 ∧ j = o.queue then { q with err := true, last := o.error } else q)))

/-- R320 to R329: one step of a task. A fault leaves every row and marks the operation; a storage-backed absent page makes it
wait; an MMA row is added as a whole by BlockAccumulate; an EPI row is scaled, rounded and stored, and cleared under CLR.
The model's own choices here: log 21, log 56. -/
def Obligations.MatrixTaskSteps : Prop :=
  ∀ (s t : State) (n : Nat) (o : Op), s.op? n = some o → o.kind = .record 2 → o.live = true →
    (∀ i ∈ o.record.shapes, (alook o.entries i).isSome = true) →
    let r := o.record
    let m := o.progress
    let c : Nat → RMode := fun rm => { rm := if rm = 5 then r.rmode.toNat else rm, flush := flushOut r.flush .f32 }
    (∀ (k : Nat) (f : X Unit) (i : Instr), (k, f, i) ∈ [(0, mmaStep o, .mmaTask n), (1, attnStep o, .attnTask n), (2, epiStep o, .epiTask n)] →
      r.task = k →
      (∀ e v a, f s = .error (.trap e v a) t → Ends i s fun u => u.op? n = some { o with state := .running, cause := e, va := v } ∧
        u.wgs = s.wgs ∧ u.mem = (s.keepClaims t).mem ∧ u.cur = s.cur) ∧
      (∀ k va, f s = .error (.fill k va) t → Ends i s fun u => u.op? n = some { o with state := .waiting } ∧ u.wgs = s.wgs ∧ u.cur = s.cur)) ∧
    (r.task = 0 → o.stationary = none → mmaLoad o s = .ok () t → Ends (.mmaTask n) s fun u => u.wgs = s.wgs ∧ u.cur = s.cur ∧
      ∃ cols, u.op? n = some { o with stationary := some cols } ∧ cols.length = r.f 0x40 10 7) ∧
    (∀ (cols : List (List Nat × List Nat)) (a b : Shape × Nat × Nat) (sa sb : Option Shape) (xs sx : List Nat) (t1 : State)
      (w : Workgroup), r.task = 0 → o.stationary = some cols →
      mmaOperand o 0x28 (r.f 0x38 48 2) (r.f 0x38 32 8) false s = .ok a s → mmaOperand o 0x30 (r.f 0x38 50 2) (r.f 0x38 40 8) true s = .ok b s →
      mmaScale o (r.f 0x38 0 16) (r.f 0x38 48 2) s = .ok sa s → mmaScale o (r.f 0x38 16 16) (r.f 0x38 50 2) s = .ok sb s →
      readRun o.ctx a.1 a.2.2 (a.2.1 + m) (r.f 0x40 0 10) s = .ok xs t1 →
      let l := (tileK (r.f 0x38 48 2) (r.f 0x38 32 8)).2
      readScales o.ctx sa (a.2.2 / l) (a.2.1 + m) (r.f 0x40 0 10 / l) t1 = .ok sx t → t.wg? r.wg = some w → t.op? n = some o →
      let fmtOf := fun (h : Option Shape) => match h with | some h => Shape.fmt h | none => Fmt.bf16
      Ends (.mmaTask n) s fun u => ∃ v, u.wg? r.wg = some v ∧ (∀ k, k ≠ r.accRow + m → v.accRow k = w.accRow k) ∧
        (m + 1 < r.m → ∃ fl, u.op? n = some { o with progress := m + 1, flags := fl }) ∧
        (m + 1 = r.m → ∃ p, u.op? n = some p ∧ p.state = .done ∧ p.error = 0 ∧ p.stationary = none) ∧
        (∀ k, cols.length ≤ k → (v.accRow (r.accRow + m)).getD k 0 = (w.accRow (r.accRow + m)).getD k 0) ∧
        ∀ k y z, cols[k]? = some (y, z) → (v.accRow (r.accRow + m)).getD k 0 = BitVec.ofNat 32
          (blockAccumulate (c (r.f 0x38 52 3)) (flushIn r.flush .f32)
            (if r.f 0x38 55 1 = 1 then ((w.accRow (r.accRow + m)).getD k 0).toNat else 0)
            (mmaBlocks r a.1.fmt b.1.fmt l (r.f 0x40 0 10 / l) xs y (fmtOf sa) (fmtOf sb) sx z)).1) ∧
    (∀ (h : Shape) (p : Nat × Nat) (w : Workgroup), r.task = 2 → r.f 0x30 0 16 = 0xFFFF → o.shape (r.f 0x28 0 16) false s = .ok h s →
      h.cls = r.f 0x38 16 2 → (h.cls = 3 → h.nf = r.f 0x38 8 8) → (h.width = 4 → r.f 0x28 40 24 % 2 = 0 ∧ r.f 0x38 24 7 % 2 = 0) →
      h.place true (r.f 0x28 40 24) (r.f 0x28 16 24 + m) (r.f 0x38 24 7) s = .ok p s → s.wg? r.wg = some w →
      let f32 := fun x => Fmt.f32.decode x
      let out := fun k =>
        let y := (roundTo .f32 ((r.read .f32 ((w.accRow (r.accRow + m)).getD k 0).toNat).mul (r.read .f32 (r.f 0x30 32 32))).1
          (c (r.f 0x38 20 3))).1
        let a := if f32 y = .nan then (if r.f 0x38 0 3 = 0 then y else Fmt.f32.nanCode) else match r.f 0x38 0 3 with
          | 0 => y
          | 1 => if FV.lt (FV.zero false) (f32 y) = true then y else 0
          | 2 => (tanhTo .f32 (f32 y) (c (r.f 0x38 20 3))).1
          | _ => (siluTo .f32 (f32 y) (c (r.f 0x38 20 3))).1
        (roundTo h.fmt (f32 a) { rm := r.mode (r.f 0x38 20 3), sat := r.f 0x38 18 1 == 1, flush := flushOut r.flush h.fmt }).1
      writeVa o.ctx (bv64 (h.base + p.1)) (packBytes h.width ((List.range (r.f 0x38 24 7)).map out)) s = .ok () t →
      t.op? n = some o → m + 1 < r.m → Ends (.epiTask n) s fun u => u.mem = t.mem ∧
        (∃ fl, u.op? n = some { o with progress := m + 1, flags := fl }) ∧
        ∀ v, t.wg? r.wg = some v → ∃ x, u.wg? r.wg = some x ∧ (∀ k, k ≠ r.accRow + m → x.accRow k = v.accRow k) ∧
          x.accRow (r.accRow + m) = if r.f 0x38 23 1 = 1 then List.replicate 96 0 else v.accRow (r.accRow + m))

/-- R326 to R328: an ATTN task pins a block, adds it to every row as the online softmax says, writes no row before its end,
and then writes the normalised output.
The model's own choices here: log 2, log 21, log 53. -/
def Obligations.AttentionTaskSteps : Prop :=
  ∀ (s t : State) (n : Nat) (o : Op) (q : List (List Nat × List Nat)), s.op? n = some o → o.kind = .record 2 → o.live = true →
    (∀ i ∈ o.record.shapes, (alook o.entries i).isSome = true) → o.record.task = 1 → o.stationary = some q →
    let r := o.record
    let md : RMode := { rm := r.rmode.toNat, flush := flushOut r.flush .f32 }
    let f := fun x => Fmt.f32.decode x
    (∀ i k d z, o.blocks = [] → o.progress < r.nlb → fieldN (r.w 0x30) 0 16 + o.progress ≤ 65535 →
      B.step o.ctx 6 (resolveBlock o.ctx (bv64 (r.w 0x30 + o.progress)) false) .a s = .ok (.ok i k d z) t → t.op? n = some o →
      Ends (.attnTask n) s fun u => u.op? n = some { o with blocks := [(i, k, d.addr, z)] } ∧ u.wgs = t.wgs ∧ u.mem = t.mem) ∧
    (∀ (b : Nat × Nat × Nat × Nat) (bs : List (Nat × Nat × Nat × Nat)) (cs : List Nat) (kb vb : List Byte) (t1 t2 : State),
      o.blocks = b :: bs → s.choices = 0 :: cs →
      let tk := if o.progress + 1 = r.nlb then r.f 0x40 32 32 else 64
      let base := b.2.2.1 + r.f 0x38 32 16 * r.slab
      readSlab o.ctx base (tk * r.hd * r.eb) { s with choices := cs } = .ok kb t1 →
      readSlab o.ctx (base + r.slab / 2) (tk * r.hd * r.eb) t1 = .ok vb t2 →
      unpinBlock o.ctx b.1 b.2.1 t2 = .ok () t → t.op? n = some o → t.wgs = s.wgs →
      let el := fun (x : List Byte) u d => r.read r.kvFmt ((unpack (8 * r.eb) (tk * r.hd) x).getD (u * r.hd + d) 0)
      Ends (.attnTask n) s fun u => u.wgs = s.wgs ∧ ∃ p, u.op? n = some p ∧ p.progress = o.progress + 1 ∧ p.blocks = bs ∧
        p.attn.length = o.attn.length ∧ ∀ (k : Nat) (x y : AttnRow), o.attn[k]? = some x → p.attn[k]? = some y →
          let sc := fun u => (roundTo .f32 ((f (blockAccumulate md false 0 (plainBlocks ((List.range r.hd).map fun d =>
            (r.read .bf16 ((q.getD k ([], [])).1.getD d 0), el kb u d)))).1).mul (r.read .f32 (r.f 0x40 0 32))).1 md).1
          let nm := (List.range tk).foldl (fun v u => FV.max2 v (f (sc u))) (f x.mx.toNat)
          (nm = .inf true → y = x) ∧ (nm ≠ .inf true →
            let cc := (pow2Diff .f32 md (f x.mx.toNat) nm).1
            let p := fun u => (pow2Diff .bf16 { md with flush := flushOut r.flush .bf16 } (f (sc u)) nm).1
            y.mx = BitVec.ofNat 32 (roundTo .f32 nm { md with flush := false }).1 ∧
            y.sum = BitVec.ofNat 32 ((List.range tk).foldl (fun v u => (roundTo .f32 (FV.add md.rm (f v) (Fmt.bf16.decode (p u))).1 md).1)
              (roundTo .f32 ((f x.sum.toNat).mul (f cc)).1 md).1) ∧
            ∀ (d : Nat) (e : Half), x.o[d]? = some e → y.o[d]? = some (BitVec.ofNat 32
              (blockAccumulate md false (roundTo .f32 ((f e.toNat).mul (f cc)).1 md).1
                (plainBlocks ((List.range tk).map fun u => (Fmt.bf16.decode (p u), el vb u d)))).1))) ∧
    (∀ w : Workgroup, o.blocks = [] → r.nlb ≤ o.progress → r.w 0x48 = 0 → s.wg? r.wg = some w → (∀ k, (w.accRow k).length = 96) →
      o.attn.length ≤ r.m → (∀ x ∈ o.attn, x.o.length = r.hd) →
      Ends (.attnTask n) s fun u => (∃ p, u.op? n = some p ∧ p.state = .done ∧ p.error = 0) ∧ ∃ v, u.wg? r.wg = some v ∧
        (∀ k, (k < r.accRow ∨ r.accRow + r.attnRows ≤ k) → v.accRow k = w.accRow k) ∧
        ∀ (k d : Nat) (x : AttnRow) (e : Half), o.attn[k]? = some x → x.o[d]? = some e →
          (v.accRow (if d < 96 then r.accRow + k else r.accRow + r.m + k)).getD (d % 96) 0 =
            BitVec.ofNat 32 (roundTo .f32 (FV.div (f e.toNat) (f x.sum.toNat)).1 md).1)

/-- R192, R205, R361, R366, R371, R373, R374: a COPY starts, moves the next 256 bytes or hands a flit to its stream; a STORE
waits for earlier records it must follow, starts its commands, and ends with the last of them.
The model's own choices here: log 2, log 57, log 66. -/
def Obligations.CopyAndStoreSteps : Prop :=
  ∀ (s t u : State) (n qi : Nat) (r : Rec) (o : Op),
    (s.headRecord (BitVec.ofNat 16 n) qi 1 = some r → (∀ p ∈ s.ops, p.id ≠ s.nextId) →
      let op : Op := { id := s.nextId, enc := BitVec.ofNat 16 n, queue := qi, kind := .record 1, record := r, die := r.die
                       maxScope := (s.layout.entryAt (s.partOf (BitVec.ofNat 16 n)) none).maxScope }
      let dstIn := inWindow (r.w 0x18) = true
      let barIn := r.f 0 34 1 = 1 ∧ inWindow (r.w 0x30) = true
      (s.dieLive r.die = false → exec (.copyRecordStart n qi) s = .next s) ∧
      (s.dieLive r.die = true → r.copyMode ≠ 2 → r.peer = none → Ends (.copyRecordStart n qi) s fun v => v.cur = s.cur ∧
        v.mem = (s.acquire r.die 6 r.clock).mem ∧ v.op? s.nextId = some { op with started := true } ∧
        ∀ q, s.queue? (BitVec.ofNat 16 n) qi = some q → v.queue? (BitVec.ofNat 16 n) qi = some { q with hw := q.hw.drop 1 }) ∧
      (∀ m, s.dieLive r.die = true → r.copyMode ≠ 2 → r.peer = some m →
        (dstIn → Ends (.copyRecordStart n qi) s fun v => v.op? s.nextId = some { op with cause := cEngine, va := bv64 (r.w 0x18) }) ∧
        (¬ dstIn → barIn → Ends (.copyRecordStart n qi) s fun v => v.op? s.nextId = some { op with cause := cEngine, va := bv64 (r.w 0x30) }) ∧
        (¬ dstIn → ¬ barIn → s.streamTo (BitVec.ofNat 16 n) m = none →
          Ends (.copyRecordStart n qi) s fun v => ∃ x, v.op? s.nextId = some { op with cause := cEngine, va := x })) ∧
      (∀ m k st, s.dieLive r.die = true → r.copyMode ≠ 2 → r.peer = some m → ¬ dstIn → ¬ barIn → s.streamTo (BitVec.ofNat 16 n) m = some (k, st) →
        Ends (.copyRecordStart n qi) s fun v => ∃ x, v.op? s.nextId = some { op with started := true, stream := some k, rectag := x })) ∧
    (∀ bs : List Byte, s.op? n = some o → o.kind = .record 1 → o.live = true → o.started = true → o.record.peer = none → o.record.copyMode = 0 →
      o.record.f 0 34 1 = 0 → o.progress < o.record.w 0x20 →
      let k := min 256 (o.record.w 0x20 - o.progress)
      readVa o.ctx (bv64 (o.record.w 0x10 + o.progress)) k .r s = .ok bs t → bs.length = k →
      writeVa o.ctx (bv64 (o.record.w 0x18 + o.progress)) bs t = .ok () u → u.op? n = some o → o.pin = none →
      (o.progress + k < o.record.w 0x20 → exec (.copyUnitLands n) s = .next (u.onOp n fun x => { x with progress := x.progress + k })) ∧
      (o.progress + k = o.record.w 0x20 → Ends (.copyUnitLands n) s fun v => v.mem = u.mem ∧ v.cur = u.cur ∧
        ∃ x, v.op? n = some x ∧ x.state = .done ∧ x.error = 0 ∧ x.progress = o.record.w 0x20)) ∧
    (∀ (k m : Nat) (bs : List Byte), s.op? n = some o → o.kind = .record 1 → o.live = true → o.started = true → o.record.peer = some m →
      o.stream = some k → s.canSend k = true → o.sent < o.record.copyLen → (s.enclave? o.enc).any Enclave.stopping = false →
      let z := min (min 192 (o.record.copyLen - o.sent)) (o.record.rowLen - o.sent % o.record.rowLen)
      readVa o.ctx (o.record.srcAt o.sent) z .r s = .ok bs t → t.op? n = some o → t.links = s.links →
      Ends (.copyUnitLands n) s fun v => v.op? n = some { o with sent := o.sent + z } ∧ v.mem = t.mem ∧
        (v.stream k).ctr = (s.stream k).ctr + 1 ∧ ∃ y, (v.stream k).kept = (s.stream k).kept ++ [y] ∧ y.op = some n ∧ y.nbytes = z ∧
          y.flit.typ = tData ∧ y.flit.ctr = (s.stream k).ctr ∧ (y.isLast = true ↔ o.record.copyLen ≤ o.sent + z)) ∧
    (s.headRecord (BitVec.ofNat 16 n) qi 3 = some r → (∀ p ∈ s.ops, p.id ≠ s.nextId) →
      ((∃ p ∈ s.ops, storeHolds p (BitVec.ofNat 16 n) qi r = true) → exec (.storeRecordStart n qi) s = .next s) ∧
      ((∀ p ∈ s.ops, storeHolds p (BitVec.ofNat 16 n) qi r = false) →
        (s.driveOf (BitVec.ofNat 16 n) r.drive = none → Ends (.storeRecordStart n qi) s fun v =>
          ∃ x, v.op? s.nextId = some x ∧ x.state = .done ∧ x.error = cEngine) ∧
        (∀ a, s.driveOf (BitVec.ofNat 16 n) r.drive = some a →
          ((r.w 0x28 % 256 ≠ 0 ∨ 2 ^ 32 < r.blocks * a.size) → Ends (.storeRecordStart n qi) s fun v =>
            ∃ x, v.op? s.nextId = some x ∧ x.state = .done ∧ x.error = cEngine) ∧
          (r.w 0x28 % 256 = 0 → r.blocks * a.size ≤ 2 ^ 32 → r.storeOp ≠ 2 → r.f 0 36 1 = 1 →
            ((s.enclave? (BitVec.ofNat 16 n)).bind fun e => storageKey e.sslots (r.f 0 37 4)) = none → Ends (.storeRecordStart n qi) s fun v =>
              ∃ x, v.op? s.nextId = some x ∧ x.state = .done ∧ x.error = cIntegrity) ∧
          (r.w 0x28 % 256 = 0 → r.blocks * a.size ≤ 2 ^ 32 → (r.storeOp = 2 ∨ r.f 0 36 1 = 0 ∨
            ((s.enclave? (BitVec.ofNat 16 n)).bind fun e => storageKey e.sslots (r.f 0 37 4)) ≠ none) →
          Ends (.storeRecordStart n qi) s fun v => v.cur = s.cur ∧ ∃ x, v.op? s.nextId = some x ∧ x.state = .running ∧ x.started = true ∧
            x.die = (if a.port.toNat < 8 then 4 else 5) ∧ x.engine = some (a.port.toNat % 8 / 2) ∧
            x.key = ((s.enclave? (BitVec.ofNat 16 n)).bind fun e => storageKey e.sslots (r.f 0 37 4)) ∧
            x.cmds.length ≤ s.pairRoom (BitVec.ofNat 16 n) r.drive ∧
            (r.storeOp = 2 → s.pairRoom (BitVec.ofNat 16 n) r.drive ≠ 0 → x.cmds = [(0, 0)]) ∧
            (r.storeOp ≠ 2 → x.cmds.length ≤ 32 ∧ ∀ c ∈ x.cmds, 0 < c.2 ∧ c.2 ≤ 0x100000 ∧ c.1 + c.2 ≤ r.blocks * a.size))))) ∧
    (∀ (a : Attachment) (q : Nat × Nat) (cs : List Nat) (d : List Byte), s.op? n = some o → (∀ p ∈ s.ops, p.id = n → p = o) → o.kind = .record 3 → o.live = true →
      s.driveOf o.enc o.record.drive = some a → o.cmds = [q] → s.choices = 0 :: cs → o.record.f 0 34 1 = 0 → o.record.f 0 36 1 = 0 →
      (o.record.storeOp = 2 ∨ o.record.blocks * a.size ≤ o.sent) →
      let s0 := { s with choices := cs }
      let ended := fun (v : State) => ∃ x, v.op? n = some x ∧ x.state = .done ∧ x.error = 0
      (Ends (.storeCommandComplete n false d) s fun v => ∃ x, v.op? n = some x ∧ x.state = .done ∧ x.error = cEngine) ∧
      (o.record.storeOp = 2 → Ends (.storeCommandComplete n true d) s fun v => ended v ∧ v.mem = s.mem) ∧
      (o.record.storeOp = 0 → d.length = q.2 → writeVa o.ctx (bv64 (o.record.w 0x28 + q.1)) d s0 = .ok () t → t.op? n = some o →
        Ends (.storeCommandComplete n true d) s fun v => ended v ∧ v.mem = t.mem) ∧
      (o.record.storeOp = 1 → ∀ bs, readVa o.ctx (bv64 (o.record.w 0x28 + q.1)) q.2 .r s0 = .ok bs t → t.op? n = some o →
        Ends (.storeCommandComplete n true d) s fun v => v.mem = t.mem ∧ ∃ x, v.op? n = some x ∧ x.state = .done ∧ x.error = 0 ∧
          x.written = o.written ++ [(o.record.slba + q.1 / a.size, bs)]))

/-- R350, R351, R203, R204: a collective sends its verdict to every other member and completes with LAYOUTSTALE on a stale
one, keeps the flits it receives, and ends with ENGINE when RDVTO expires; a `btcow` copies and swings; a move lands and swings.
The model's own choices here: log 22, log 23, log 39, log 66. -/
def Obligations.CollectiveAndBlockMoveSteps : Prop :=
  ∀ (s : State) (n : Nat) (o : Op),
    (∀ (bs : List Byte) (ks : List Nat) (qi : Nat), s.op? n = some o → o.kind = .record 4 → o.live = true → o.started = false → alook o.entries 0 = some bs →
      s.memberStreams o = some ks → ks.all s.canSend = true → ks.Nodup → s.links.rdvIn = [] → (∀ x ∈ s.links.rdvOut, x.1 ∉ ks) →
      ((o.rdv = [] ∧ o.streams = []) ∨ ∃ f, o.rdv = [f] ∧ f.verdict = .wait) → (∃ k, k < o.record.nmem ∧ k ≠ o.record.rank) →
      Ends (.collRendezvous o.enc.toNat qi n) s fun u => u.cur = s.cur ∧ u.mem = s.mem ∧
        u.links.rdvOut = s.links.rdvOut ∧
        (∀ k ∈ ks, (u.stream k).ctr = (s.stream k).ctr + 1 ∧ ∃ y f, (u.stream k).kept = (s.stream k).kept ++ [y] ∧ f.typ = tRdv ∧
          f.ctr = (s.stream k).ctr ∧ y.op = none ∧
          y.flit = Flit.sealWith f ((s.stream k).txCur.getD 0) (Flit.iv f) (rdvBytes (s.rdvFlit o (s.verdict o)))) ∧
        (o.record.lgen ≠ s.layout.gen.toNat % 2 ^ 32 → ∃ x, u.op? n = some x ∧ x.state = .done ∧ x.error = cLayoutStale) ∧
        (o.record.lgen = s.layout.gen.toNat % 2 ^ 32 →
          u.op? n = some { o with rdv := [s.rdvFlit o (s.verdict o)], streams := ks })) ∧
    (∀ (f : Flit) (x : RdvFlit) (b : List Byte), f.fecBad = false → s.expected f = true → s.rxPayload f = some b →
      (∀ p ∈ s.ops, p.kind ≠ .record 4) →
      (f.typ ≠ tRdv → exec (.rdvFlitReceive f x) s = .next s) ∧
      (f.typ = tRdv → Ends (.rdvFlitReceive f x) s fun u => u.cur = s.cur ∧ u.mem = s.mem ∧
        (∃ l, u.links.rdvIn = l ++ [(f.rstream.toNat, rdvOf b)] ∧ ∀ y ∈ l, y ∈ s.links.rdvIn ∧
          ¬ (y.1 = f.rstream.toNat ∧ y.2.tag = (rdvOf b).tag ∧ y.2.sigval = (rdvOf b).sigval ∧ y.2.rank = (rdvOf b).rank)) ∧
        (u.stream f.rstream.toNat).rxCtr = (s.stream f.rstream.toNat).rxCtr + 1)) ∧
    (s.op? n = some o → o.kind = .record 4 → o.live = true → (o.started = true → exec (.rdvtoExpiry n) s = .next s) ∧
      (o.started = false → (s.layout.entries.getD (s.partOf o.enc) {}).rdvto ≠ 0 → Ends (.rdvtoExpiry n) s fun u =>
        u.cur = s.cur ∧ u.mem = s.mem ∧ ∃ x, u.op? n = some x ∧ x.state = .done ∧ x.error = cEngine)) ∧
    (∀ (x : Word) (old new ref : Nat) (d : BitVec 6) (t1 t2 t3 : State) (y : Nat × Nat),
      s.op? n = some o → s.cur.status = .waiting (.btcow n) → o.kind = .cow x old new ref d →
      let c := engineCtx o.enc o.die 0
      let ready := fun (v : State) => (v.dropOp o.id).onCur fun a => { a with status := .ready }
      let swing := B.step t1.cur.ctx (t1.clampFor t1.cur.part 6) (cowSwing t1.cur.ctx x old new) .a t1
      (cowCopy c (nameTable x) old new s = .ok false t1 → exec (.btcowCopyDone s.cur.id) s = .next t1) ∧
      (cowCopy c (nameTable x) old new s = .ok true t1 → swing = .ok y t2 →
        exec (.btcowCopyDone s.cur.id) s = .next ((ready t2).write d (btWord y))) ∧
      (∀ e v ipa, (cowCopy c (nameTable x) old new s = .error (.trap e v ipa) t1 → cowUndo c (nameTable x) new (s.keepClaims t1) = .ok () t3 →
          exec (.btcowCopyDone s.cur.id) s = .next ((ready t3).takeTrap e v ipa)) ∧
        (cowCopy c (nameTable x) old new s = .ok true t1 → swing = .error (.trap e v ipa) t2 →
          cowUndo c (nameTable x) new (t1.keepClaims t2) = .ok () t3 →
          exec (.btcowCopyDone s.cur.id) s = .next ((ready t3).takeTrap e v ipa)))) ∧
    (∀ (i k m tl : Nat) (up : Bool) (val : Word), s.op? n = some o → o.kind = .move i k m up tl val →
      let c := engineCtx o.enc o.die 0
      (o.state ≠ .running → exec (.blockMoveCopyLanded n) s = .next s) ∧
      let suspended := fun (p : Nat) (e : Cause) (v : Word) (u : State) =>
        ∃ q, u.op? n = some q ∧ q.state = .suspended ∧ q.progress = p ∧ q.cause = e ∧ q.va = v
      (∀ t0, o.state = .running → landedMove c i k s = .ok true t0 → t0.op? n = some o →
        Ends (.blockMoveCopyLanded n) s fun u => u.op? n = some { o with state := .waiting } ∧ u.mem = t0.mem ∧ u.cur = t0.cur) ∧
      (∀ e v a t0, o.state = .running → moveBytes o i k m s = .error (.trap e v a) t0 →
        Ends (.blockMoveCopyLanded n) s (suspended o.progress e v)) ∧
      (∀ (d e : Desc) (size h p : Nat) (f : Option Stop) (t0 t1 t2 t3 t4 : State), o.state = .running → landedMove c i k s = .ok false t0 →
        pinFor c i k t0 = .ok (some (d, size)) t1 → boundTable t1 o.enc i = some h →
        B.step c 6 (do let t ← btHeader c h; btDesc c t m) .r t1 = .ok e t2 →
        copyBlock c d.addr e.addr ((size - o.progress) / 256) o.progress t2 = .ok (p, f) t3 →
        B.step c 6 (do
          let t ← btHeader c h
          let d ← btDesc c t k
          btSettle c t k { d with pins := d.pins - 1, drain := f.isNone }) .r t3 = .ok () t4 →
        t4.op? n = some o →
        (f = none → Ends (.blockMoveCopyLanded n) s fun u => u.mem = t4.mem ∧ u.cur = t4.cur ∧
          u.op? n = some { o with progress := p, state := .waiting }) ∧
        (∀ e v a, f = some (.trap e v a) → Ends (.blockMoveCopyLanded n) s (suspended p e v))) ∧
      (∀ (h : Nat) (t : State), o.state = .waiting → boundTable s o.enc i = some h →
        (B.step c 6 (moveSwing c h k m) .a s = .ok false t → exec (.blockMoveSwing n) s = .next t) ∧
        (∀ e v a, B.step c 6 (moveSwing c h k m) .a s = .error (.trap e v a) t →
          Ends (.blockMoveSwing n) s (suspended o.progress e v)) ∧
        (B.step c 6 (moveSwing c h k m) .a s = .ok true t → Ends (.blockMoveSwing n) s fun u => u.op? n = none ∧
          ∀ e l, t.enclave? o.enc = some e → e.timelines[tl]? = some l →
            u.mem = (t.engineRelease (o.clamp l.scope) (t.clockOf o.die)).mem ∧ ∃ e' l', u.enclave? o.enc = some e' ∧
            e'.timelines[tl]? = some l' ∧ l'.count = if l.count.toNat < val.toNat then val else l.count)))

/-! ## Steps of the part: Ridgepole -/

/-- R290, R291, R210, R305 to R307: the scrubber takes the next SCRUBBING frame in ascending index from its cursor, and leaves
it FREE, zeroed and in no cache, once no chunk touches it (R151); a migration is refused or starts, moves a line at a time,
and ends with SRC scrubbing.
The model's own choices here: log 5, log 62. -/
def Obligations.FrameSteps : Prop :=
  ∀ (s : State) (i j k : Nat),
    let due := fun m => m < 6291456 ∧ (s.potAt m).state = .scrubbing ∧ s.trainedFrame m = true
    (∀ c, s.rp.scrubbing = some c → exec .scrubFrameStart s = .next s) ∧
    (s.rp.scrubbing = none → (s.pot.map (·.1)).Nodup → (∀ x ∈ s.pot, x.1 < 6291456) → due i →
      ((s.rp.scrubCursor ≤ i ∧ ∀ m, due m → s.rp.scrubCursor ≤ m → i ≤ m) ∨ ∀ m, due m → i ≤ m ∧ m < s.rp.scrubCursor) →
      exec .scrubFrameStart s = .next { s with rp := { s.rp with scrubbing := some i } }) ∧
    (s.rp.scrubbing = some i → (s.potAt i).state = .scrubbing → s.chunkIn i = true → exec .scrubFrameEnd s = .next s) ∧
    (s.rp.scrubbing = some i → (s.potAt i).state = .scrubbing → s.trainedFrame i = true → s.chunkIn i = false → Ends .scrubFrameEnd s fun t =>
      t.potAt i = {} ∧ t.rp.scrubbing = none ∧ t.rp.scrubCursor = i + 1 ∧
      (∀ q, frameAddr i ≤ q → q < frameAddr i + 0x40000 → t.mem.homeByte q = 0 ∧ (∀ d, findCopy (t.mem.die d).copies q = none) ∧
        t.poisoned q = (decide (q < 0x8000000000) && s.health.stackRet.getLsbD (q / 0x1000000000))) ∧
      (∀ q, (q < frameAddr i ∨ frameAddr i + 0x40000 ≤ q) → t.mem.homeByte q = s.mem.homeByte q) ∧
      (∀ e, s.enclaves = [e] → e.state = .dying → (∀ x ∈ s.pot, x.1 ≠ i → x.2.owner ≠ e.id ∨ x.2.state = .free) →
        t.enclaves = [])) ∧
    (k < 8 → (s.channel k).go = false → exec (.migrationGo k) s = .next s) ∧
    (k < 8 → (s.channel k).go = true → potIndex ((s.channel k).src.toNat * 0x40000) = some i →
      potIndex ((s.channel k).dst.toNat * 0x40000) = some j → i ≠ j →
      ((s.potAt i).state = .free ∨ (s.potAt i).state = .scrubbing ∨ (s.potAt i).state = .save ∨ (s.potAt i).migrating = true ∨
        (2096896 ≤ i ∧ i < 2097152) ∨ (s.potAt j).state ≠ .free ∨
        leafOf (s.entryAt ((s.channel k).leaf.toNat * 8)) (s.channel k).src.toNat = false →
        Ends (.migrationGo k) s fun t => t.channel k = { s.channel k with go := false, status := 3 } ∧ t.pot = s.pot ∧
          t.mem = s.mem ∧ t.cur = s.cur) ∧
      (s.migrationFrames (s.channel k) = some (i, j) → Ends (.migrationGo k) s fun t =>
        t.channel k = { s.channel k with go := false, status := 1, copied := 0
                                         run := some ((s.channel k).src.toNat, (s.channel k).dst.toNat, (s.channel k).leaf.toNat * 8) } ∧
        t.cur = s.cur ∧
        t.potAt i = { s.potAt i with migrating := true } ∧
        t.potAt j = { s.potAt j with state := (s.potAt i).state, owner := (s.potAt i).owner, migrating := true } ∧
        (∀ m, m ≠ i → m ≠ j → t.potAt m = s.potAt m) ∧
        ∀ q, (q < frameAddr j ∨ frameAddr j + 0x40000 ≤ q) → t.mem.homeByte q = s.mem.homeByte q)) ∧
    (k < 8 → (s.channel k).status ≠ 1 → exec (.migrationLineCopy k) s = .next s) ∧
    (∀ x y z, k < 8 → (s.channel k).status = 1 → (s.channel k).run = some (x, y, z) → potIndex (x * 0x40000) = some i →
      potIndex (y * 0x40000) = some j → i ≠ j → (s.potAt i).state ≠ .scrubbing → (s.potAt i).migrating = true →
      (s.potAt j).migrating = true → s.mem.wf = true → (s.channel k).copied < 1024 →
      let a := frameAddr i + 256 * (s.channel k).copied
      let b := frameAddr j + 256 * (s.channel k).copied
      Ends (.migrationLineCopy k) s fun t => ((s.channel k).copied < 1023 →
        t.channel k = { s.channel k with copied := (s.channel k).copied + 1 } ∧
        (∀ n, n < 256 → t.mem.homeByte (b + n) = s.mem.homeByte (a + n)) ∧
        (∀ q, (q < a ∨ a + 256 ≤ q) → (q < b ∨ b + 256 ≤ q) → t.mem.homeByte q = s.mem.homeByte q) ∧
        (∀ f ∈ t.mem.flight, ∀ n, n < 256 → f.touches (a + n) = false) ∧ t.pot = s.pot) ∧
        ((s.channel k).copied = 1023 → (t.channel k).status = 2 ∧ (t.channel k).run = none ∧ t.potAt i = { s.potAt i with state := .scrubbing } ∧
          t.potAt j = { s.potAt j with migrating := false } ∧
          ∀ d q, frameAddr j ≤ q → q < frameAddr j + 0x40000 → findCopy (t.mem.die d).copies q = none))

/-- R332, R333, R348: a mailbox command runs only while the mailbox holds it; one that fails, or whose response has no
room, has its CODE and no other effect; an answer stands at RBUF; recovery service accepts FWSTAGE, MANIFEST and SPDM
to endpoint 0 alone. R337, R338, R347, R349: SPDM answers for a live endpoint and ERROR otherwise; FWSTAGE writes the
bank that is not active; MANIFEST replaces the manifest; SVNCOMMIT raises the fuses to the running SVNs and never
lowers one.
The model's own choices here: log 6, log 24, log 61. -/
def Obligations.MailboxAndFirmwareCommands : Prop :=
  (∀ (s : State) (op : Nat) (i : Instr) (cmd : State → Cmd),
    (op, i, cmd) ∈ [(0x01, Instr.spdm, State.spdmCmd), (0x12, .abort, State.abortCmd), (0x13, .layoutq, State.layoutqCmd),
      (0x20, .fwstage, State.fwstageCmd), (0x21, .manifest, State.manifestCmd), (0x22, .svncommit, State.svncommitCmd),
      (0x30, .migopen, State.migopenCmd), (0x31, .miground, State.migroundCmd), (0x33, .migend, State.migendCmd),
      (0x38, .migaccept, State.migacceptCmd), (0x39, .migapply, State.migapplyCmd), (0x3A, .migresume, State.migresumeCmd),
      (0x3B, .migrefuse, State.migrefuseCmd)] →
    (s.mbHolds op = false → exec i s = .next s) ∧
    (s.mbHolds op = true → s.health.service = .recovery →
      ¬ (s.rp.mailbox.op = 0x20 ∨ s.rp.mailbox.op = 0x21 ∨ (s.rp.mailbox.op = 0x01 ∧ s.rp.mailbox.target = 0)) →
      exec i s = .next (s.mbEnd 3 [])) ∧
    (s.mbHolds op = true → s.mbAdmit = .ok () → ∀ c, cmd s = .error c → exec i s = .next (s.mbEnd c [])) ∧
    (∀ (resp : List Byte) (t : State), s.mbHolds op = true → s.mbAdmit = .ok () → cmd s = .ok (resp, t) →
      (s.rp.mailbox.rcap.toNat < resp.length → exec i s = .next (s.mbEnd 6 [])) ∧
      (s.mbTakes op resp.length → exec i s = .next (t.mbEnd 0 resp))) ∧
    (∀ (c : Nat) (resp : List Byte), c < 256 → resp.length < 2 ^ 32 → s.hostRange (s.rp.mailbox.rbuf * 64) resp.length = true →
      (∀ k, k < resp.length → s.redirect (s.rp.mailbox.rbuf * 64 + k) = s.rp.mailbox.rbuf * 64 + k) →
      let t := s.mbEnd c resp
      t.rp.mailbox.busy = false ∧ t.rp.mailbox.code.toNat = c ∧ t.rp.mailbox.rlen.toNat = resp.length ∧
      (∀ k, k < resp.length → t.mem.homeByte (s.rp.mailbox.rbuf * 64 + k) = resp.getD k 0) ∧ t.cur = s.cur ∧ t.others = s.others ∧
      t.enclaves = s.enclaves ∧ t.pot = s.pot ∧ t.layout = s.layout ∧ t.rp.firmware = s.rp.firmware)) ∧
  (∀ s : State,
    (∀ ep, ep = s.rp.mailbox.target.toNat →
      (s.endpointBlocks ep = none → s.mbTakes 0x01 4 → ∃ resp, Answers .spdm s 0 resp (· = s) ∧ resp = spdmError 1 0) ∧
      (∀ bs code, s.endpointBlocks ep = some bs → code = (s.mbRequest.getD 1 0).toNat → code ∉ [0x84, 0xE1, 0xE3, 0x81, 0x82, 0x83, 0xE0] →
        s.mbTakes 0x01 4 → Answers .spdm s 0 (spdmError 7 code) (· = s)) ∧
      (∀ bs code, s.endpointBlocks ep = some bs → code = (s.mbRequest.getD 1 0).toNat → code ∈ [0x84, 0xE1, 0xE3, 0x81, 0x82, 0x83, 0xE0] →
        let made := spdmAnswer false ((alook s.rp.spdm ep).getD 0) s.mbRequest s.rp.chain bs
        (∀ c, made = .error c → s.mbTakes 0x01 4 → Answers .spdm s 0 (spdmError c 0) (· = s)) ∧
        (∀ a st resp, made = .ok (a, st) → resp = spdmReply s.rp.aliasKey s.mbRequest a → s.mbTakes 0x01 resp.length →
          Answers .spdm s 0 resp fun t => t.cur = s.cur ∧ t.mem = s.mem ∧ t.rp.firmware = s.rp.firmware ∧
            alook t.rp.spdm ep = some st ∧ ∀ e, e ≠ ep → alook t.rp.spdm e = alook s.rp.spdm e))) ∧
    (∀ (req chain : List Byte) (bs : List (List Byte)),
      (∀ st, req.getD 1 0 = 0x84 → spdmAnswer false st req chain bs = .ok (.version [0x14], 1)) ∧
      (∀ st a n, req.getD 1 0 = 0xE1 → spdmAnswer false st req chain bs = .ok (a, n) → a = .capabilities true true true false false false) ∧
      (∀ st, req.getD 1 0 = 0xE3 → ((Config.spdmOffers req).1 = false ∨ (Config.spdmOffers req).2 = false) →
        ∃ c, spdmAnswer false st req chain bs = .error c) ∧
      (∀ a n k st, spdmAnswer false st req chain bs = .ok (a, n) → req.getD 1 0 ∈ [0x83, 0xE0] →
        spdmReply k req a = Config.spdmBytes req a ++ aliasSig k (req ++ Config.spdmBytes req a))) ∧
    (∀ c, c = s.rp.mailbox.target.toNat → s.mbHolds 0x20 = true → s.mbAdmit = .ok () →
      (6 < c → exec .fwstage s = .next (s.mbEnd 2 [])) ∧
      (c ≤ 6 → (Config.signatureOk s.mbRequest = false ∨ (Config.imageSvn s.mbRequest).toNat < s.rp.firmware.fuse c) →
        exec .fwstage s = .next (s.mbEnd 4 [])) ∧
      (c ≤ 6 → Config.signatureOk s.mbRequest = true → s.rp.firmware.fuse c ≤ (Config.imageSvn s.mbRequest).toNat →
        s.mbTakes 0x20 0 → Answers .fwstage s 0 [] fun t => t.cur = s.cur ∧ t.mem = s.mem ∧ t.rp.firmware.active = s.rp.firmware.active ∧
          (∀ k, t.rp.firmware.bank k = s.rp.firmware.bank k) ∧ t.rp.firmware.staged.getLsbD c = true ∧
          (t.rp.firmware.spare c).image = s.mbRequest ∧ (∀ k, k ≠ c → t.rp.firmware.spare k = s.rp.firmware.spare k))) ∧
    (s.mbTakes 0x21 0 → s.rp.mailbox.target = 0 → manifestOk s.mbRequest = true → Config.signatureOk s.mbRequest = true →
      s.rp.firmware.msvnFuse.toNat ≤ wordAt s.mbRequest 8 → Answers .manifest s 0 [] fun t => t.cur = s.cur ∧ t.mem = s.mem ∧
        t.rp.firmware.manifestBytes = s.mbRequest ∧ t.rp.firmware.msvn.toNat = wordAt s.mbRequest 8 % 2 ^ 64 ∧
        t.rp.firmware.banks = s.rp.firmware.banks ∧ t.rp.firmware.fuses = s.rp.firmware.fuses) ∧
    (s.mbTakes 0x22 7 → s.rp.mailbox.target = 0 → ∃ resp, resp.length = 7 ∧ Answers .svncommit s 0 resp fun t => t.cur = s.cur ∧
      t.mem = s.mem ∧ t.rp.firmware.banks = s.rp.firmware.banks ∧
      t.rp.firmware.msvnFuse.toNat = max s.rp.firmware.msvnFuse.toNat s.rp.firmware.msvn.toNat ∧
      ∀ c, c < 7 → t.rp.firmware.fuse c = max (s.rp.firmware.fuse c) (s.rp.firmware.bank c).svn.toNat ∧
        (resp.getD c 0).toNat = t.rp.firmware.fuse c))

/-- R342 to R346: PREPARE holds the slices that change, the shadows are written, COMMIT raises LAYOUTGEN by one, the slices flip
one by one and the journal is IDLE after the last; ABORT discards; LAYOUTQ reads the committed block.
The model's own choices here: log 26, log 61. -/
def Obligations.LayoutCommands : Prop :=
  ∀ s : State,
    (∀ b, b = s.mbRequest → s.mbTakes 0x10 0 → s.rp.mailbox.target = 0 → s.rp.mailbox.len = 5184 →
      let es := (List.range 40).map fun p => (b.drop (64 + 128 * p)).take 128
      let new := es.map PartEntry.ofBytes
      let ch := changing s.layout.entries new
      ((b.drop 8).take 56).all (· == 0) = true → es.all reservedClear = true → layoutOk new = true → wordAt b 0 = s.layout.gen.toNat →
      s.layout.journal = .idle → ch.all s.sliceIdle = true → s.framesIdle new = true → s.entriesIdle new = true →
      Ends .prepare s fun t => t.rp.mailbox.busy = true ∧ t.layout.journal = .preparing ∧ t.layout.shadow = new ∧
        t.layout.gen = s.layout.gen ∧ t.layout.entries = s.layout.entries ∧ (∀ k, k ∈ t.layout.held ↔ k ∈ s.layout.held ∨ k ∈ ch) ∧
        t.cur = s.cur ∧ t.mem = s.mem ∧ t.pot = s.pot) ∧
    (∀ b, b = s.mbRequest → s.mbHolds 0x10 = true → s.mbAdmit = .ok () → s.rp.mailbox.target = 0 → s.rp.mailbox.len = 5184 →
      let es := (List.range 40).map fun p => (b.drop (64 + 128 * p)).take 128
      let new := es.map PartEntry.ofBytes
      (layoutOk new = false → exec .prepare s = .next (s.mbEnd 2 [])) ∧
      (((b.drop 8).take 56).all (· == 0) = true → es.all reservedClear = true → layoutOk new = true →
        (wordAt b 0 ≠ s.layout.gen.toNat ∨ s.layout.journal ≠ .idle) → exec .prepare s = .next (s.mbEnd 3 []))) ∧
    (s.layout.journal ≠ .preparing → exec .shadowsWritten s = .next s) ∧
    (s.layout.journal = .preparing → s.rp.mailbox.pendingPrepare = true → Answers .shadowsWritten s 0 [] fun t =>
      t = { s with layout := { s.layout with journal := .prepared } }) ∧
    (s.mbTakes 0x11 8 → s.rp.mailbox.target = 0 → s.layout.journal = .prepared → Ends .commit s fun t =>
      t.layout.journal = .committing ∧ t.layout.gen = s.layout.gen + 1 ∧ t.layout.entries = s.layout.shadow ∧
      t.layout.old = s.layout.entries ∧ t.layout.flipped = [] ∧ t.rp.mailbox.busy = true ∧ t.cur = s.cur ∧ t.mem = s.mem) ∧
    (s.mbHolds 0x11 = true → s.mbAdmit = .ok () → s.rp.mailbox.target = 0 → s.layout.journal ≠ .prepared →
      exec .commit s = .next (s.mbEnd 3 [])) ∧
    (∀ k, s.layout.journal ≠ .committing → exec (.sliceFlip k) s = .next s) ∧
    (∀ k, k < 40 → s.layout.journal = .committing → (∃ j, j < 40 ∧ j ≠ k ∧ j ∉ s.layout.flipped) → Ends (.sliceFlip k) s fun t =>
      t.layout.journal = .committing ∧ (∀ j, j ∈ t.layout.flipped ↔ j = k ∨ j ∈ s.layout.flipped) ∧ t.cur = s.cur ∧ t.mem = s.mem ∧
      (k ∈ s.layout.flipped → t = s) ∧
      ∀ p, t.layout.entryAt p (some k) = s.layout.entries[p]?.getD {}) ∧
    (∀ k, k < 40 → s.layout.journal = .committing → (∀ j, j < 40 → j ≠ k → j ∈ s.layout.flipped) → s.health.untrained = false →
      Ends (.sliceFlip k) s fun t => t.layout.journal = .idle ∧ t.layout.entries = s.layout.entries ∧ t.layout.gen = s.layout.gen ∧
        t.layout.held = [] ∧ (s.rp.mailbox.pendingCommit = true → t.rp.mailbox.busy = false ∧ t.rp.mailbox.code = 0 ∧ t.rp.mailbox.rlen = 8)) ∧
    (s.mbTakes 0x12 0 → s.rp.mailbox.target = 0 → s.layout.journal = .prepared → Answers .abort s 0 [] fun t => t.cur = s.cur ∧
      t.mem = s.mem ∧ t.layout.journal = .idle ∧ t.layout.shadow = [] ∧ t.layout.gen = s.layout.gen ∧ t.layout.entries = s.layout.entries ∧
      (s.health.untrained = false → t.layout.held = [])) ∧
    (s.mbHolds 0x12 = true → s.mbAdmit = .ok () → s.rp.mailbox.target = 0 → s.layout.journal ≠ .prepared →
      exec .abort s = .next (s.mbEnd 3 [])) ∧
    (s.layout.entries.length = 40 → s.mbTakes 0x13 5184 → s.rp.mailbox.target = 0 → ∃ resp, Answers .layoutq s 0 resp (· = s) ∧
      resp.length = 5184 ∧ ∀ p, p < 40 → (resp.drop (64 + 128 * p)).take 128 = (s.layout.entries.getD p {}).bytes)

/-- R352 to R356: live migration. MIGOPEN makes a RUNNING enclave MIGRATING, MIGROUND clears the bitmap, MIGSTOP leaves it STOPPED
once all of it is at rest, MIGEND obeys the token; a session is accepted, its records are applied in order, and it resumes or is refused.
The model's own choices here: log 6, log 25, log 63, log 81. -/
def Obligations.MigrationCommands : Prop :=
  ∀ (s : State) (e : Enclave),
    let m := e.session.getD {}
    let holds := s.enclave? s.rp.mailbox.target = some e
    (holds → s.mbHolds 0x30 = true → s.mbAdmit = .ok () → (e.state ≠ .running ∨ e.session.isSome = true ∨ s.hasStorageLeaf e 4 0 e.s1Root = true ∨
        ∃ x ∈ s.links.attachments, x.2.encid = e.id ∧ x.2.state = 2) → exec .migopen s = .next (s.mbEnd 3 [])) ∧
    (holds → ∀ resp t, s.migopenCmd = .ok (resp, t) → s.mbTakes 0x30 resp.length → Answers .migopen s 0 resp fun u => u.cur = s.cur ∧ u.mem = s.mem ∧
      ∃ x, u.enclave? e.id = some { e with state := .migrating, session := some x } ∧ x.dirty = [] ∧ x.round = 0 ∧ resp.take 32 = x.nonce) ∧
    (holds → ∀ resp t, s.migroundCmd = .ok (resp, t) → s.mbTakes 0x31 resp.length → Answers .miground s 0 resp fun u => ∃ x, u.enclave? e.id = some { e with session := some x } ∧ x.dirty = [] ∧ x.round = m.round + 1 ∧
        x.seq = m.seq + ((s.framesOf e.id pageState).filter fun i => decide (m.round = 0) || m.dirty.contains i).length) ∧
    (holds → s.mbHolds 0x32 = true → s.mbAdmit = .ok () →
      (e.state ≠ .migrating → exec .migstop s = .next (s.mbEnd 3 [])) ∧
      (e.state = .migrating → e.stopping = true → s.migQuiet e.id = false → exec .migstop s = .next s) ∧
      (∀ resp t, e.state = .migrating → e.stopping = true → s.migQuiet e.id = true →
        (s.onSession e.id fun m => { m with stopping := false }).migstopCmd = .ok (resp, t) → s.mbTakes 0x32 resp.length →
        Answers .migstop s 0 resp fun u => ∃ x, u.enclave? e.id = some x ∧ x.state = .stopped)) ∧
    (holds → ∀ b, b = s.mbRequest → s.mbTakes 0x33 0 → tokenOk b = true → (b.drop 1).take 32 = m.nonce →
      (m.key = 0 ∨ (b.drop 33).take 32 = m.peerNonce) →
      (b.headD 0 = 0x52 → (e.state = .migrating ∨ e.state = .stopped) → Answers .migend s 0 [] fun u => u.cur = s.cur ∧ u.mem = s.mem ∧
        u.enclave? e.id = some { e with state := .running, session := none }) ∧
      (b.headD 0 = 0x43 → e.state = .stopped → Answers .migend s 0 [] (· = s.destroy e.id)) ∧
      (b.headD 0 = 0x43 → e.state = .migrating → exec .migend s = .next (s.mbEnd 3 []))) ∧
    (∀ resp t, s.migacceptCmd = .ok (resp, t) → s.mbTakes 0x38 resp.length → Answers .migaccept s 0 resp fun u => u.cur = s.cur ∧
      u.mem = s.mem ∧ u.enclaves = s.enclaves ∧ ∃ x, u.rp.pendingSession = some x ∧
        resp.take 32 = x.nonce ∧ x.frames.length = fieldN (wordAt s.mbRequest 0) 0 32 ∧ x.frames.Nodup ∧ x.mapped = []) ∧
    (holds → ∀ t, s.rp.mailbox.target ≠ 0 → e.state = .arriving → s.mbTakes 0x39 0 →
      s.applyRecords e.id s.mbRequest.length s.mbRequest = .ok t → Answers .migapply s 0 [] (· = t)) ∧
    (holds → ∀ c, s.rp.mailbox.target ≠ 0 → e.state = .arriving → s.mbHolds 0x39 = true → s.mbAdmit = .ok () →
      s.applyRecords e.id s.mbRequest.length s.mbRequest = .error c → exec .migapply s = .next (s.mbEnd c [])) ∧
    (holds → s.mbHolds 0x3A = true → s.mbAdmit = .ok () → (e.state ≠ .arriving ∨ m.stateDone = false) → exec .migresume s = .next (s.mbEnd 3 [])) ∧
    (holds → ∀ resp, e.state = .arriving → m.stateDone = true → resp = signToken s.rp 0x43 m.peerNonce m.nonce → s.mbTakes 0x3A resp.length →
      Answers .migresume s 0 resp fun u => u.enclave? e.id = some { e with state := .running, session := none } ∧
        ∀ o ∈ u.ops, o.enc = e.id → o.state ≠ .stopped) ∧
    (holds → ∀ resp, s.rp.mailbox.target ≠ 0 → e.state = .arriving → resp = signToken s.rp 0x52 m.peerNonce m.nonce → s.mbTakes 0x3B resp.length →
      Answers .migrefuse s 0 resp (· = s.destroy e.id)) ∧
    (∀ x resp, s.rp.mailbox.target = 0 → s.rp.pendingSession = some x → resp = signToken s.rp 0x52 x.peerNonce x.nonce →
      s.mbTakes 0x3B resp.length → Answers .migrefuse s 0 resp (· = { s with rp := { s.rp with pendingSession := none } }))

/-- R292, R333, R345, R348, R376, R379, R380: restart, reset, bring-up and loss. A restart ends a command with RESTARTED, rolls a
prepared layout back and a commit forward, and touches no agent; a reset clears agents, keys and caches and keeps LAYOUTGEN.
The model's own choices here: log 5, log 27, log 65. -/
def Obligations.RestartAndResetSteps : Prop :=
  ∀ (s : State) (b : Bool),
    (s.health.service ≠ .reset → Ends (.ridgepoleRestart b) s fun t => t.cur = s.cur ∧ t.others = s.others ∧ t.ops = s.ops ∧ t.pot = s.pot ∧
      t.layout.gen = s.layout.gen ∧ t.layout.entries = s.layout.entries ∧ t.health.rpStby = b ∧
      (s.rp.mailbox.busy = true → t.rp.mailbox.busy = false ∧ t.rp.mailbox.code = 7 ∧ t.rp.mailbox.rlen = 0) ∧
      ((s.layout.journal = .preparing ∨ s.layout.journal = .prepared) → t.layout.journal = .idle ∧ t.layout.shadow = []) ∧
      (s.layout.journal = .committing → t.layout.journal = .committing ∧ t.layout.flipped = []) ∧
      (s.layout.journal = .idle → t.layout = s.layout)) ∧
    (Ends .packageReset s fun t => t.cur = {} ∧ t.others = [] ∧ t.enclaves = [] ∧ t.wgs = [] ∧ t.launches = [] ∧ t.ops = [] ∧
      t.layout.gen = s.layout.gen ∧ t.rp.scrubCursor = s.rp.scrubCursor ∧ t.rp.firmware.fuses = s.rp.firmware.fuses ∧
      (∀ d, (t.mem.die d).copies = []) ∧ t.mem.flight = [] ∧ t.rp.mailbox = {} ∧
      (s.layout.journal = .committing → t.layout.journal = .committing ∧ t.layout.flipped = []) ∧
      (s.layout.journal ≠ .committing → t.layout.journal = .idle) ∧
      (s.rp.firmware.bootTuple = none → t.health.service = .recovery) ∧
      (∀ sel, s.rp.firmware.bootTuple = some sel → t.health.service = .reduced ∧ t.rp.firmware.active = sel ∧ t.rp.firmware.lastBooted = sel) ∧
      (s.potLost = false → (∀ p ∈ s.layout.entries, p.valid = false) → ∀ i, ridgepoleFrame i = false → deviceCarveOut i = false →
        (s.potAt i).state ≠ .free → (t.potAt i).state = .scrubbing)) ∧
    (s.health.service ≠ .reduced → ∀ l, exec (.trainingComplete l) s = .next s) ∧
    (s.health.service = .reduced → Ends (.trainingComplete []) s fun t => t.health.service = .full ∧ t.health.clkMhz = 1800 ∧
      t.health.untrained = false ∧ t.cur = s.cur ∧ (s.layout.journal = .idle → t.layout.held = []) ∧
      ((∀ p ∈ s.layout.entries, p.valid = true → p.hostCo = 0) → t.mem = s.mem ∧
        ∀ i, lateFrame i = true → ridgepoleFrame i = false → deviceCarveOut i = false → alook s.pot i = none →
          (t.potAt i).state = .scrubbing)) ∧
    (∀ d, d < 4 → s.health.dieFence.getLsbD d = false → Ends (.dieFence d) s fun t => t.health.dieFence.getLsbD d = true ∧
      t.health.reason = 1 ∧ t.health.events = s.health.events + 1 ∧ t.health.replaceReq = true ∧ (∀ w ∈ t.wgs, w.die ≠ d) ∧
      (t.mem.die d).copies = [] ∧ t.health.stackRet.getLsbD (2 * d) = true ∧ t.health.stackRet.getLsbD (2 * d + 1) = true) ∧
    (∀ d, 4 ≤ d ∨ s.health.dieFence.getLsbD d = true → exec (.dieFence d) s = .next s) ∧
    (∀ l n, (regionOf (l * 256) = .hbm ∨ regionOf (l * 256) = .lpddr) → Ends (.linePoison l n) s fun t => l ∈ t.mem.poison ∧
      t.cur = s.cur ∧ t.mem.home = s.mem.home ∧
      t.health.poisonCnt = (if l ∈ s.mem.poison then s.health.poisonCnt else s.health.poisonCnt + 1) ∧
      (n ≤ 64 → t.health.stackRet = s.health.stackRet) ∧
      (64 < n → regionOf (l * 256) = .hbm → t.health.stackRet.getLsbD (l * 256 / 0x1000000000) = true ∧
        ∀ k, k < 256 → t.poisoned (l * 256 + k) = true))

/-! ## Steps of the part: links, drives, power -/

/-- R357 to R360, R364: a stream opens on the lowest port that leads to its peer, or is refused; CLOSE and the fall of its port
take it down and erase its keys; the marker ends an epoch; ports train, degrade and follow the host link.
The model's own choices here: log 2, log 60. -/
def Obligations.StreamAndPortSteps : Prop :=
  ∀ (s : State) (k : Nat) (peer : PeerEntry),
    let st := s.stream k
    (st.state ≠ stOpening → exec (.streamOpen k peer) s = .next s) ∧
    (st.state = stOpening → (peer.isMatch = false ∨ (∀ p, p < 18 → s.fabricUp p = true → (s.links.ports.toList.getD p {}).peerMid ≠ st.pmid) ∨
        ((st.lenc ≠ 0 ∨ st.penc ≠ 0) → (peer.running = false ∨ peer.tag = 0 ∨
          (s.layout.entries.getD (s.partOf st.lenc) {}).tenantTag ≠ peer.tag ∨ (∀ e, s.enclave? st.lenc = some e → e.state ≠ .running))) ∧
          (st.lenc ≠ 0 ∨ st.penc ≠ 0)) →
      Ends (.streamOpen k peer) s fun t => t.stream k = { st with state := stRefused } ∧ ∀ j, j ≠ k → t.stream j = s.stream j) ∧
    (∀ p, st.state = stOpening → s.openAdmitted st peer = true → p < 18 → s.fabricUp p = true →
      (s.links.ports.toList.getD p {}).peerMid = st.pmid →
      (∀ q, q < p → s.fabricUp q = true → (s.links.ports.toList.getD q {}).peerMid ≠ st.pmid) →
      Ends (.streamOpen k peer) s fun t =>
        let u := t.stream k
        u.state = stUp ∧ u.port = BitVec.ofNat 5 p ∧ u.epoch = 0 ∧ u.ctr = 0 ∧ u.rxEpoch = 0 ∧ u.rxCtr = 0 ∧ u.pidx = peer.pidx ∧
        u.kept = [] ∧ u.lenc = st.lenc ∧ u.pmid = st.pmid ∧ u.penc = st.penc ∧ u.flits = st.flits ∧
        (∃ a b, u.txCur = some a ∧ u.txNext = some (nextKey a) ∧ u.rxCur = some b ∧ u.rxNext = some (nextKey b)) ∧
        (∀ j, j ≠ k → t.stream j = s.stream j) ∧ t.cur = s.cur ∧ t.mem = s.mem) ∧
    (st.state ≠ stOpening → st.state ≠ stUp → exec (.streamClose k) s = .next s) ∧
    ((st.state = stOpening ∨ st.state = stUp) → Ends (.streamClose k) s fun t => (t.stream k).state = stDown ∧ (t.stream k).txCur = none ∧
      (t.stream k).txNext = none ∧ (t.stream k).rxCur = none ∧ (t.stream k).rxNext = none ∧ t.cur = s.cur ∧
      ∀ o ∈ t.ops, o.usesStream k = true → o.state ≠ .running ∧ o.state ≠ .waiting) ∧
    (st.state = stUp → st.ctr = markerCtr → st.txCur.isSome = true → s.portKept st.port.toNat < 1024 → (∀ x ∈ s.links.rdvOut, x.1 ≠ k) →
      Ends (.keyEpochMarker k) s fun t =>
        let u := t.stream k
        u.epoch = st.epoch + 1 ∧ u.ctr = 0 ∧ u.txOld = st.txCur ∧ u.txCur = st.txNext ∧ u.txNext = st.txNext.map nextKey ∧
        u.flits = st.flits + 1 ∧ ∃ y, u.kept = st.kept ++ [y] ∧ y.flit.typ = tMarker ∧ y.flit.ctr = 0xFFFFF000 ∧ y.flit.epoch = st.epoch) ∧
    (st.ctr ≠ markerCtr → exec (.keyEpochMarker k) s = .next s) ∧
    (∀ p n, p < 18 → s.fabricPort p = true → s.portState p = 2 →
      (8 ≤ n → exec (.portDegrade p n) s = .next s) ∧
      (4 ≤ n → n < 8 → Ends (.portDegrade p n) s fun t => t.portState p = 3 ∧ t.health.portDeg.getLsbD p = true ∧ t.health.reason = 3 ∧
        t.links.streams = s.links.streams) ∧
      (n < 4 → Ends (.portDegrade p n) s fun t => t.portState p = 0 ∧ (t.links.ports.toList.getD p {}).peerMid = 0 ∧ t.health.reason = 4 ∧
        t.health.portDeg.getLsbD p = true)) ∧
    (∀ p mid, p < 18 → s.fabricPort p = true → (s.portState p = 0 ∨ s.portState p = 1) →
      (mid ≠ 0 → Ends (.portTrained p mid) s fun t => t.portState p = 2 ∧ (t.links.ports.toList.getD p {}).peerMid = mid ∧
        t.health.portDeg.getLsbD p = false ∧ t.cur = s.cur ∧ t.links.streams = s.links.streams) ∧
      Ends (.portTrained p 0) s fun t => t.portState p = 1 ∧ t.cur = s.cur ∧ t.links.streams = s.links.streams) ∧
    (∀ x, (Config.bridge = true → Ends (.hostLinkStateChange x) s fun t => t.portState 0 = x ∧ t.portState 1 = x ∧
        ∀ p, 2 ≤ p → t.portState p = s.portState p) ∧
      (Config.bridge = false → exec (.hostLinkStateChange x) s = .next s))

/-- R362 to R367: a flit that its stream does not expect has no effect; one that fails is answered with NAK and the
third in a row takes the stream down; an accepted one advances the counter, is acknowledged, and its effects are
applied. R362, R363, R365: an ACK frees the kept flits up to the one it names and moves their copies' progress; a NAK
sends again, and the third in a row takes the stream down; IDLE has no effect; an unlisted type is discarded and
counted.
The model's own choices here: log 22, log 58, log 82. -/
def Obligations.FlitAndAcknowledgementSteps : Prop :=
  (∀ (s t : State) (f : Flit) (x : RdvFlit), f.fecBad = false →
    let k := f.rstream.toNat
    let acked := fun (u : State) => (u.stream k).rxCtr = (s.stream k).rxCtr + 1 ∧ (u.stream k).failures = 0 ∧
      ∃ l y, (u.stream k).replies = l ++ [y] ∧ y.typ = tAck
    (∀ i ∈ [Instr.dataFlitReceive f, .arriveFlitReceive f, .markerReceive f, .faultFlitReceive f, .rdvFlitReceive f x],
      (f.typ ∈ [tIdle, tAck, tNak] → exec i s = .next s) ∧ (s.expected f = false → exec i s = .next s)) ∧
    (∀ (ty : BitVec 4) (i : Instr), (ty, i) ∈ [(tData, Instr.dataFlitReceive f), (tArrive, .arriveFlitReceive f), (tMarker, .markerReceive f),
        (tFault, .faultFlitReceive f), (tRdv, .rdvFlitReceive f x)] → f.typ = ty → s.expected f = true → s.rxPayload f = none →
      ((s.stream k).failures < 2 → Ends i s fun u => (u.stream k).rxCtr = (s.stream k).rxCtr ∧ (u.stream k).state = stUp ∧
        (u.stream k).failures = (s.stream k).failures + 1 ∧ (∃ l y, (u.stream k).replies = l ++ [y] ∧ y.typ = tNak) ∧ u.mem = s.mem ∧ u.cur = s.cur) ∧
      (2 ≤ (s.stream k).failures → Ends i s fun u => (u.stream k).state = stDown ∧ (u.stream k).rxCur = none ∧ u.cur = s.cur ∧
        (∃ l y, (u.stream k).replies = l ++ [y] ∧ y.typ = tNak) ∧
        ∀ o ∈ s.ops, o.usesStream k = true → (o.state = .running ∨ o.state = .waiting) → (∀ p ∈ s.ops, p.id = o.id → p = o) →
          ∃ p, u.op? o.id = some p ∧ p.state = .suspended ∧ p.cause = cIntegrity)) ∧
    (∀ b, s.expected f = true → s.rxPayload f = some b →
      (f.typ = tData → bitN (wordAt b 8) 11 = false → (s.stream k).discard.contains (fieldN (wordAt b 8) 16 48) = false → (s.stream k).lenc ≠ 0 →
        let c := engineCtx (s.stream k).lenc (if f.port < 9 then 4 else 5) 0
        let put := writeVa c (bv64 (wordAt b 0)) ((b.drop 0x20).take (fieldN (wordAt b 8) 0 8))
        bitN (wordAt b 8) 8 = false → (∀ w va t', put s ≠ .error (.fill w va) t') →
        (put (s.fromPeers c.die) = .ok () t → t.links = s.links →
          Ends (.dataFlitReceive f) s fun u => acked u ∧ u.mem = t.mem) ∧
        (∀ e v a, put (s.fromPeers c.die) = .error (.trap e v a) t → s.canSend k = true →
          Ends (.dataFlitReceive f) s fun u => acked u ∧ u.mem = (s.keepClaims t).mem ∧ fieldN (wordAt b 8) 16 48 ∈ (u.stream k).discard ∧
            ∃ y, (u.stream k).kept = (s.stream k).kept ++ [y] ∧ y.flit.typ = tFault)) ∧
      (f.typ = tArrive → ∀ p br ck t1,
        let c := engineCtx (s.stream k).lenc (if f.port < 9 then 4 else 5) 0
        (∀ w va t', applyArrive c (s.partOf (s.stream k).lenc) b s ≠ .error (.fill w va) t') →
        engineBarrier c (bv64 (wordAt b 0)) .w (s.fromPeers c.die) = .ok (p, br, ck) t1 →
        t1.links = s.links → t1.layout = s.layout → t1.enclaves = s.enclaves →
        engineArrive c (bv64 (wordAt b 0)) (p, br, ck) 1 (bitN (wordAt b 8) 0)
            (t1.clampFor (t1.partOf (s.stream k).lenc) br.orderScope) t1 = .ok () t → t.links = s.links →
        Ends (.arriveFlitReceive f) s fun u => acked u ∧ u.mem = t.mem) ∧
      (f.typ = tMarker → Ends (.markerReceive f) s fun u => (u.stream k).rxEpoch = (s.stream k).rxEpoch + 1 ∧ (u.stream k).rxCtr = 0 ∧
        (u.stream k).rxCur = (s.stream k).rxNext ∧ (u.stream k).rxNext = (s.stream k).rxNext.map nextKey ∧ u.mem = s.mem ∧ u.cur = s.cur) ∧
      (f.typ = tFault → ∀ o ∈ s.ops, o.kind = .record 1 → o.stream = some k → o.rectag = wordAt b 0 → (o.state = .running ∨ o.state = .waiting) →
        (∀ p ∈ s.ops, p.stream = some k → p = o) → (∀ p ∈ s.ops, p.id = o.id → p = o) → Ends (.faultFlitReceive f) s fun u => acked u ∧
          ∃ p, u.op? o.id = some p ∧ p.state = .running ∧ p.cause.toNat = wordAt b 8 % 256 ∧ p.va = bv64 (wordAt b 0x10) ∧
            p.progress = (faultOffset o.record (wordAt b 0x10) (o.sent + 1) 0).getD o.progress ∧ p.sent = p.progress))) ∧
  (∀ (s : State) (f : Flit) (k : Nat) (e c : BitVec 32), f.fecBad = false →
    (exec (.idleFlitReceive f) s = .next s) ∧
    (listedType f.typ = true → exec (.unknownFlitDiscard f) s = .next s) ∧
    (listedType f.typ = false → s.fabricPort f.port = false → exec (.unknownFlitDiscard f) s = .next s) ∧
    (listedType f.typ = false → s.fabricPort f.port = true → Ends (.unknownFlitDiscard f) s fun t =>
      (t.links.ports.toList.getD f.port {}).fecUnc = (s.links.ports.toList.getD f.port {}).fecUnc + 1 ∧ t.links.streams = s.links.streams ∧
      t.mem = s.mem ∧ t.cur = s.cur) ∧
    ((f.typ ≠ tAck ∨ s.controlOf f = none) → exec (.ackReceive f) s = .next s) ∧
    ((f.typ ≠ tNak ∨ s.controlOf f = none) → exec (.nakReceive f) s = .next s) ∧
    (∀ (l r : List Kept) (y : Kept), f.typ = tAck → s.controlOf f = some (k, e, c) → (s.stream k).kept = l ++ y :: r →
      y.flit.epoch = e → y.flit.ctr = c → (∀ z ∈ l, ¬ (z.flit.epoch = e ∧ z.flit.ctr = c)) → (∀ x ∈ s.links.rdvOut, x.1 ≠ k) →
      Ends (.ackReceive f) s fun t => (t.stream k).kept = r ∧ (t.stream k).naks = 0 ∧ t.mem = s.mem ∧ t.cur = s.cur ∧
        (∀ o, l = [] → y.op = some o.id → s.op? o.id = some o → o.kind = .record 1 → o.stream = some k →
          (o.state = .running ∨ o.state = .waiting) → y.isLast = false →
          t.op? o.id = some { o with progress := o.progress + y.nbytes }) ∧
        (∀ o, l = [] → y.op = some o.id → s.op? o.id = some o → o.kind = .record 1 → o.stream = some k →
          (o.state = .running ∨ o.state = .waiting) → y.isLast = true →
          ∃ p, t.op? o.id = some p ∧ p.state = .done ∧ p.error = 0 ∧ p.progress = o.progress + y.nbytes)) ∧
    (f.typ = tNak → s.controlOf f = some (k, e, c) → (keptThrough (s.stream k).kept e c) ≠ [] →
      ((s.stream k).naks < 2 → Ends (.nakReceive f) s fun t => (t.stream k).naks = (s.stream k).naks + 1 ∧
        (t.stream k).kept = (s.stream k).kept ∧ (t.stream k).ctr = (s.stream k).ctr ∧ t.ops = s.ops ∧ t.mem = s.mem) ∧
      (2 ≤ (s.stream k).naks → Ends (.nakReceive f) s fun t => (t.stream k).state = stDown ∧ (t.stream k).txCur = none)))

/-- R368 to R372, R378, R381: ATTACH reaches RUN or REFUSED, DETACH frees it, an error stops it; a TLP on a foreign stream is
dropped and its TDI goes to ERROR, and one on the bound stream writes its bytes at home (log 71); the power cap moves the clock in 100 MHz steps within its bounds; CAPW is clamped.
The model's own choices here: log 24, log 64, log 71. -/
def Obligations.AttachmentAndPowerSteps : Prop :=
  ∀ (s : State) (k : Nat) (d : DriveAnswer),
    ((s.attachment k).state ≠ 1 → exec (.attach k d) s = .next s) ∧
    ((s.attachment k).state = 1 → s.attachFree k (s.attachment k) = true → d.ok = true → (d.lbas = 9 ∨ d.lbas = 12) →
      Ends (.attach k d) s fun t => (t.attachment k).state = 2 ∧ (t.attachment k).lbas = d.lbas ∧
        (t.attachment k).encid = (s.attachment k).encid ∧ (∀ j, j ≠ k → t.attachment j = s.attachment j) ∧ t.cur = s.cur ∧ t.mem = s.mem) ∧
    ((s.attachment k).state = 1 → (d.ok = false ∨ (d.lbas ≠ 9 ∧ d.lbas ≠ 12) ∨ s.attachFree k (s.attachment k) = false) →
      Ends (.attach k d) s fun t => t.attachment k = { s.attachment k with state := 4 }) ∧
    (((s.attachment k).state = 2 ∨ (s.attachment k).state = 3) → Ends (.detach k) s fun t =>
      t.attachment k = { s.attachment k with state := 0 } ∧ ∀ j, j ≠ k → t.attachment j = s.attachment j) ∧
    ((s.attachment k).state ≠ 2 → (s.attachment k).state ≠ 3 → exec (.detach k) s = .next s) ∧
    ((s.attachment k).state = 2 → Ends (.attachmentError k) s fun t => t.attachment k = { s.attachment k with state := 3 }) ∧
    ((s.attachment k).state ≠ 2 → exec (.attachmentError k) s = .next s) ∧
    (Config.bridge = false → ∀ vf x off data msg, exec (.tdiTlpReceive vf x off data) s = .next s ∧ exec (.doeSpdmMessage msg) s = .next s) ∧
    (Config.bridge = true → ∀ vf x off data, ((s.tdi vf).state = .run → (s.tdi vf).stream ≠ x → Ends (.tdiTlpReceive vf x off data) s fun t =>
        (t.tdi vf).state = .error ∧ t.links.dropped = s.links.dropped + 1 ∧ t.mem = s.mem ∧ t.cur = s.cur) ∧
      ((s.tdi vf).state = .error → exec (.tdiTlpReceive vf x off data) s = .next s) ∧
      ((s.tdi vf).state = .run → (s.tdi vf).stream = x → data ≠ [] → s.vfPlace vf off data = none →
        exec (.tdiTlpReceive vf x off data) s = .next s) ∧
      (∀ n, n = 4096 - off % 4096 → (s.tdi vf).state = .run → (s.tdi vf).stream = x →
        (s.vfWindow vf off n = none → Ends (.tdiTlpReceive vf x off []) s fun t => t.links.completion = [] ∧ t.mem = s.mem ∧ t.cur = s.cur) ∧
        (∀ pa, s.vfWindow vf off n = some pa → (∀ q ∈ s.spans (bv64 pa) n, badData s q.1.toNat = none) →
          Ends (.tdiTlpReceive vf x off []) s fun t => t.links.completion = s.mem.homeBytes pa n ∧ t.mem = s.mem ∧ t.cur = s.cur)) ∧
      (∀ pa, (s.tdi vf).state = .run → (s.tdi vf).stream = x → s.vfPlace vf off data = some pa →
        Ends (.tdiTlpReceive vf x off data) s fun t => (∀ i, i < data.length → t.mem.homeByte (pa + i) = data.getD i 0) ∧
          (∀ q, (q < pa ∨ pa + data.length ≤ q) → t.mem.homeByte q = (s.mem.settle 4 ((cellsAt pa data).map (·.1))).homeByte q) ∧
          t.links = s.links ∧ t.cur = s.cur ∧ t.pot = s.pot)) ∧
    (∀ msg code, code = (msg.getD 1 0).toNat → Config.bridge = true →
      let same := fun (t : State) => t.cur = s.cur ∧ t.mem = s.mem ∧ t.layout = s.layout ∧ ∀ vf, s.vfEnabled vf = false → t.tdi vf = s.tdi vf
      let made := spdmAnswer true s.rp.doe msg s.rp.chain (s.deviceBlocks none)
      Ends (.doeSpdmMessage msg) s same ∧
      (s.rp.doeKey = none → code ≠ 0xE4 →
        (code ∉ spdmSupported → Ends (.doeSpdmMessage msg) s fun t => t.rp.doeReply = spdmError 7 code ∧ t.rp.doe = s.rp.doe) ∧
        (∀ c, code ∈ spdmSupported → made = .error c →
          Ends (.doeSpdmMessage msg) s fun t => t.rp.doeReply = spdmError c 0 ∧ t.rp.doe = s.rp.doe) ∧
        (∀ a st, code ∈ spdmSupported → made = .ok (a, st) →
          Ends (.doeSpdmMessage msg) s fun t => t.rp.doeReply = spdmReply s.rp.aliasKey msg a ∧ t.rp.doe = st)) ∧
      (s.rp.doeKey = none → code = 0xE4 →
        (s.rp.doe ≠ 3 → Ends (.doeSpdmMessage msg) s fun t => t.rp.doeReply = spdmError 4 0 ∧ t.rp.doeKey = none) ∧
        (s.rp.doe = 3 → Ends (.doeSpdmMessage msg) s fun t => t.rp.doeKey.isSome = true ∧ t.rp.doeUp = false)) ∧
      (∀ k b, s.rp.doeKey = some k → Config.doeOpen k msg = some b →
        (b.getD 1 0 = 0xE5 → s.rp.doeUp = false → Ends (.doeSpdmMessage msg) s fun t => t.rp.doeUp = true ∧
          t.rp.doeReply = Config.doeAnswer k b) ∧
        (b.getD 1 0 ≠ 0xE5 → s.rp.doeUp = false → Ends (.doeSpdmMessage msg) s fun t => t.rp.doeReply = spdmError 4 0 ∧ t.links = s.links) ∧
        (b.getD 1 0 = 0xEC → s.rp.doeUp = true → Ends (.doeSpdmMessage msg) s fun t => t.rp.doeKey = none ∧ t.rp.doeUp = false) ∧
        (b.getD 1 0 ∉ [0xE5, 0xEC, 0xE9] → s.rp.doeUp = true → ∀ vf st, Config.doeTdisp b = (1, vf, st) → s.vfEnabled vf = true →
          (s.tdi vf).state = .unlocked →
          (st < 48 → Ends (.doeSpdmMessage msg) s fun t => t.tdi vf = { state := .locked, stream := st }) ∧
          (48 ≤ st → Ends (.doeSpdmMessage msg) s fun t => t.tdi vf = s.tdi vf)))) ∧
    (∀ w : BitVec 16, Ends (.capwWrite w) s fun t => t.health.capW.toNat = min 2400 (max 600 w.toNat) ∧ t.cur = s.cur ∧ t.mem = s.mem) ∧
    (∀ w : BitVec 16, 900 ≤ s.health.clkMhz.toNat → s.health.clkMhz.toNat ≤ 1800 → s.health.clkMhz.toNat % 100 = 0 →
      (s.health.matrixHalf = true → s.health.clkMhz = 900) → s.health.clkMhz.toNat ≤ s.health.fullClock →
      Ends (.powerCapCheck w) s fun t =>
        let h := t.health
        h.pwrW = w ∧ 900 ≤ h.clkMhz.toNat ∧ h.clkMhz.toNat ≤ 1800 ∧ h.clkMhz.toNat % 100 = 0 ∧ (h.matrixHalf = true → h.clkMhz = 900) ∧
        (s.health.capW.toNat < w.toNat → 900 < s.health.clkMhz.toNat → h.clkMhz.toNat + 100 = s.health.clkMhz.toNat) ∧
        (s.health.capW.toNat < w.toNat → s.health.clkMhz = 900 → h.clkMhz = 900 ∧ h.matrixHalf = true) ∧
        (w.toNat * 100 < 95 * s.health.capW.toNat → s.health.matrixHalf = true → h.matrixHalf = false ∧ h.clkMhz = s.health.clkMhz) ∧
        (w.toNat ≤ s.health.capW.toNat → 95 * s.health.capW.toNat ≤ w.toNat * 100 → h.clkMhz = s.health.clkMhz ∧ h.matrixHalf = s.health.matrixHalf) ∧
        t.cur = s.cur ∧ t.mem = s.mem ∧ t.ops = s.ops)

/-! ## The machine -/

/-- R53, R88, R89, R54, R56: a turn runs what the bytes at its program counter, or at the lane index of its block, decode to; a
word that names no instruction raises ILLEGAL; a fetch that faults, or a misaligned program counter, traps there.
The model's own choices here: log 4, log 13, log 18, log 33. -/
def Obligations.StepRunsDecodedInstruction : Prop :=
  ∀ (s t : State) (i : Instr) (ts : List Turn) (id : Nat) (late : List Nat),
    let s0 := { s with turns := ts }
    let v := s0.noteReady.focus id
    (s.turns = .scalar id late :: ts → v.cur.id = id → v.canScalar v.cur = true → v.picks late = true →
      (v.cur.pc.toNat % 4 = 0 → ∀ w, fetchWord v.cur.pc v = .ok w t →
        (needsSecondWord w = false → decodeScalar w 0 = .ok i → step s = exec i t.issues) ∧
        (∀ u t2, needsSecondWord w = true → fetchWord (v.cur.pc + 4) t = .ok u t2 → decodeScalar w u = .ok i → step s = exec i t2.issues) ∧
        (∀ e, needsSecondWord w = false → decodeScalar w 0 = .error e →
          step s = .next (t.issues.takeTrap cIllegal (BitVec.ofNat 64 w.toNat)))) ∧
      (v.cur.pc.toNat % 4 = 0 → ∀ c x a, fetchWord v.cur.pc v = .error (.trap c x a) t →
        step s = .next ((v.claiming t).takeTrap c x a)) ∧
      (v.cur.pc.toNat % 4 ≠ 0 → step s = .next (v.takeTrap cMisalign v.cur.pc))) ∧
    (∀ b, s.turns = .lane id late :: ts → v.cur.id = id → v.canLane v.cur = true → v.picks late = true → v.cur.lane.active = some b →
      (b.issued < 256 → ∀ x, fetchLaneBits b.lidx v = .ok x t →
        (decodeLane x = .ok i → step s = exec i t.issues) ∧
        (∀ e, decodeLane x = .error e → step s = exec (.illegalEncoding true x) t.issues)) ∧
      (256 ≤ b.issued → ∀ x, fetchLaneBits b.lidx v = .ok x t → step s = exec (.illegalEncoding true x) t.issues)) ∧
    ((s.turns = .scalar id late :: ts ∧ v.canScalar v.cur = false ∨ s.turns = .lane id late :: ts ∧ v.canLane v.cur = false ∨
      (s.turns = .scalar id late :: ts ∨ s.turns = .lane id late :: ts) ∧ (v.cur.id ≠ id ∨ v.picks late = false)) →
      step s = .fault .badTurn) ∧
    (s.turns = .event i :: ts → i.encodable = false → (∀ l x, i ≠ .illegalEncoding l x) → step s = exec i s0) ∧
    (s.turns = [] → s.others = [] → s.canScalar s.cur = true → step s = step { s.noteReady with turns := [.scalar s.cur.id] })

/-- Every instruction and every step of the part ends in a next state, whatever the state; a step of the machine stops only on
a turn of the schedule that no agent can take (log 4).
The model's own choices here: log 4, log 69. -/
def Obligations.EveryInstructionSteps : Prop :=
  (∀ (i : Instr) (s : State), ∃ t, exec i s = .next t) ∧
  (∀ s : State, s.turns = [] → ((s.cur :: s.others).map fun a => a.id).Nodup → ∃ t, step s = .next t) ∧
  (∀ s : State, (∃ u, step s = .next u) ∨ step s = .fault .badTurn)

/-- Words that the spec writes out with the statements they encode (02, 04 to 07). -/
def Obligations.DecodedWords : Prop :=
  decodeScalar 0x0A289FF8 0 = .ok (.addi 5 4 (-8)) ∧ decodeScalar 0x02104180 0 = .ok (.add 2 2 3) ∧
  decodeScalar 0x40100028 0 = .ok (.lrun false 1 40) ∧ decodeScalar 0x281FFFFF 0 = .ok (.loop 3 (-1)) ∧
  decodeScalar 0x2C200002 0 = .ok (.jtab 4 2) ∧ decodeScalar 0xA4494580 0 = .ok (.kick 9 10 11) ∧
  decodeScalar 0xC028C382 0 = .ok (.btfork 5 6 7) ∧ decodeScalar 0xC4106000 0 = .ok (.ecreate 2 3) ∧
  decodeScalar 0xC6194580 0 = .ok (.savev 3 10 11) ∧ decodeScalar 0xC6018002 0 = .ok (.sdone 12) ∧
  decodeLane (0x04800001#32 ++ 0#32 ++ 0#32) = .ok (.vtid { vd := 1 }) ∧
  decodeLane (0x03840002#32 ++ 0x03040000#32 ++ 0#32) = .ok (.vcmp .i32 .lt { vd := 2, va := 3, vb := 4 }) ∧
  decodeLane (0x20080006#32 ++ 0x08000004#32 ++ 0x40#32) = .ok (.vld .i32 { vd := 6, va := 8, aux := 4, imm := 0x40 }) ∧
  decodeLane (0x18049009#32 ++ 0x02000000#32 ++ 3#32) = .ok (.rbcast { mk := 4, mi := true, vd := 9, va := 2, imm := 3 }) ∧
  decodeLane (0xD8C40501#32 ++ 0x05000000#32 ++ 0x40#32) =
    .ok (.gredQ { park := true, last := true, rm := 5, vd := 1, va := 5, imm := 0x40 })

/-- R40 to R53: decoding the words of a well-formed instruction, scalar or lane, gives that instruction, with every field at
every value its encoding admits.
The model's own choices here: log 3. -/
def Obligations.DecodeEncodeAgree : Prop :=
  ∀ i : Instr, i.encodable = true → i.WellFormed → decodeWords (encode i) = .ok i

/-- R53: words that decode name a well-formed instruction, whose encoding is those words: no bit of a word is dropped, and no two
encodings share a word.
The model's own choices here: log 3. -/
def Obligations.EncodeDecodeAgree : Prop :=
  ∀ (ws : List (BitVec 32)) (i : Instr), decodeWords ws = .ok i → i.WellFormed ∧ i.encodable = true ∧ encode i = ws

/-- R342, R332, R358, R359, R305, R378, R287, R290: what the part holds right after reset. No agent and no enclave stands, memory
lists nothing, and the registers that the spec gives a reset value hold it.
The model's own choices here: log 5. -/
def Obligations.ResetState : Prop :=
  let s := State.reset
  s.mem.home = [] ∧ s.mem.wf = true ∧ s.cur.status = .absent ∧ s.others = [] ∧ s.enclaves = [] ∧ s.ops = [] ∧ s.wgs = [] ∧
  s.launches = [] ∧ s.fills = [] ∧ s.exits = [] ∧ s.mem.flight = [] ∧ (∀ d, (s.mem.die d).copies = []) ∧
  (∀ p, p < 40 → ∃ e, s.layout.entries[p]? = some e ∧ e.valid = false ∧ e.parent = 0x3F ∧ e.maxScope = 10 ∧ e.clampTrap = false ∧
    e.slices = 0 ∧ e.hcnt = 0 ∧ e.lcnt = 0 ∧ e.tenantTag = 0) ∧
  s.layout.journal = .idle ∧ s.rp.mailbox.op = 0 ∧ s.rp.mailbox.busy = false ∧ s.rp.mailbox.code = 0 ∧ s.rp.mailbox.rlen = 0 ∧
  (∀ p, (s.links.ports.toList.getD p {}).state = 0 ∧ (s.links.ports.toList.getD p {}).peerMid = 0) ∧
  (∀ k, (s.stream k).state = stIdle ∧ (s.stream k).flits = 0) ∧ (∀ k, (s.attachment k).state = 0) ∧
  (∀ k, (s.channel k).go = false ∧ (s.channel k).status = 0) ∧
  s.health.replaceReq = false ∧ s.health.reason = 0 ∧ s.health.dieFence = 0 ∧ s.health.stackRet = 0 ∧ s.health.clkMhz = 1200 ∧
  s.health.capW = 2400 ∧ s.health.pwrW = 0 ∧ s.health.poisonCnt = 0 ∧ s.health.events = 0 ∧
  (∀ i, (2096896 ≤ i ∧ i < 2097152) → (s.potAt i).state = .owned ∧ (s.potAt i).owner = 0xFFFF) ∧
  (∀ i, i < 524288 → (s.potAt i).state = .free) ∧
  (∀ i, 524288 ≤ i → i < 6291456 → (i < 2096896 ∨ 2097152 ≤ i) → (s.potAt i).state = .scrubbing)

/-- Every step keeps the canonical form of memory: addresses strictly rising, and no entry that an unlisted address would read
as.
The model's own choices here: log 7. -/
def Obligations.StepKeepsMemoryCanonical : Prop :=
  ∀ s t : State, s.mem.wf = true → step s = .next t → t.mem.wf = true

/-- R345, R346: LAYOUTGEN is never lowered. It rises by exactly 1, and only at an entry of the journal from PREPARED into
COMMITTING, whatever instruction or step of the part runs. -/
def Obligations.LayoutGenerationRises : Prop :=
  ∀ (i : Instr) (s t : State), exec i s = .next t → t.layout.gen = s.layout.gen ∨
    (s.layout.journal = .prepared ∧ t.layout.journal = .committing ∧ t.layout.gen = s.layout.gen + 1)

/-- R34, R35, R295, R298: no instruction of an agent of an enclave raises an agent to level H, or makes one the host agent: the agent
that acts, where it still stands, keeps its kind and is not at H, nor would a return take it there; every other agent that stands
after keeps its kind, and is at H only if it was. -/
def Obligations.NoInstructionReachesLevelH : Prop :=
  ∀ (i : Instr) (s t : State), i.encodable = true → s.cur.kind ≠ .host → s.cur.level ≠ .h → s.cur.trap.level ≠ .h →
    exec i s = .next t →
    (t.cur.status ≠ .absent → t.cur.id = s.cur.id ∧ t.cur.kind = s.cur.kind ∧ t.cur.level ≠ .h ∧ t.cur.trap.level ≠ .h) ∧
    ∀ b ∈ t.others, ∃ a ∈ s.others, b.id = a.id ∧ b.kind = a.kind ∧ (a.level ≠ .h → b.level ≠ .h) ∧ (a.trap.level ≠ .h → b.trap.level ≠ .h)
end

