-- ==== Sys2Proof/Laws/Effects.lean ====
section
/-!
SUPPORT. How effects run: one lemma for each way of building them, so that a proof walks through an instruction stage by
stage without unfolding the monad.
-/
namespace Sys2Proof.Machine

variable {α β : Type}

theorem X.bind_of_ok {x : X α} {f : α → X β} {s t : State} {a : α} (h : x s = .ok a t) : (x >>= f) s = f a t := by
  show EStateM.bind x f s = _
  unfold EStateM.bind
  rw [h]

theorem X.bind_of_error {x : X α} {f : α → X β} {s t : State} {e : Stop} (h : x s = .error e t) :
    (x >>= f) s = .error e t := by
  show EStateM.bind x f s = _
  unfold EStateM.bind
  rw [h]

/-- What a bind that succeeds went through. -/
theorem X.bind_ok_inv {x : X α} {f : α → X β} {s u : State} {b : β} (h : (x >>= f) s = .ok b u) :
    ∃ a t, x s = .ok a t ∧ f a t = .ok b u := by
  cases hx : x s with
  | ok a t => exact ⟨a, t, rfl, by rw [X.bind_of_ok hx] at h; exact h⟩
  | error e t => rw [X.bind_of_error hx] at h; cases h

@[simp] theorem X.pure_run (a : α) (s : State) : (pure a : X α) s = .ok a s := rfl
@[simp] theorem X.get_run (s : State) : (get : X State) s = .ok s s := rfl
@[simp] theorem X.set_run (t s : State) : (set t : X PUnit) s = .ok ⟨⟩ t := rfl
@[simp] theorem X.modify_run (f : State → State) (s : State) : (modify f : X PUnit) s = .ok ⟨⟩ (f s) := rfl
@[simp] theorem X.throw_run (e : Stop) (s : State) : (throw e : X α) s = .error e s := rfl
@[simp] theorem X.trap_run (c : Cause) (v : Word) (s : State) : (X.trap c v : X α) s = .error (.trap c v) s := rfl
@[simp] theorem X.trapN_run (c : Cause) (v : Nat) (s : State) :
    (X.trapN c v : X α) s = .error (.trap c (BitVec.ofNat 64 v)) s := rfl
@[simp] theorem X.update_run (f : State → State) (s : State) : X.update f s = .ok () (f s) := rfl
@[simp] theorem X.cur_run (s : State) : X.cur s = .ok s.cur s := rfl
@[simp] theorem X.onCur_run (f : Agent → Agent) (s : State) : X.onCur f s = .ok () (s.onCur f) := rfl
@[simp] theorem X.finish_run (d : BitVec 6) (x : Word) (s : State) : X.finish d x s = .ok () (s.write d x) := rfl
@[simp] theorem X.done_run (s : State) : X.done s = .ok () s.advance := rfl
@[simp] theorem X.waitOn_run (w : Wait) (s : State) : X.waitOn w s = .error (.wait w) s := rfl
@[simp] theorem X.acquire_run (k : Nat) (c : Clock) (s : State) : X.acquire k c s = .ok () (s.acquire s.cur.die k c) := rfl

theorem X.check_run (b : Bool) (c : Cause) (v : Word) (s : State) :
    X.check b c v s = if b = true then .ok () s else .error (.trap c v) s := by
  cases b <;> rfl

theorem X.aligned_run (va : Word) (n : Nat) (s : State) :
    X.aligned va n s = if va.toNat % n = 0 then .ok () s else .error (.trap cMisalign va) s := by
  unfold X.aligned
  rw [X.check_run]
  by_cases h : va.toNat % n = 0 <;> simp [h]

theorem X.ite_run (p : Prop) [Decidable p] (x y : X α) (s : State) : (if p then x else y) s = if p then x s else y s := by
  split <;> rfl

theorem X.drainLane_run (s : State) :
    X.drainLane s = if s.cur.laneDrained = true then .ok () s else .error (.wait .drain) s := by
  unfold X.drainLane
  rw [X.bind_of_ok (X.cur_run s)]
  cases h : s.cur.laneDrained <;> rfl

theorem X.release_run (k : Nat) (s : State) :
    X.release k s = if s.cur.laneDrained = true then .ok () (s.release s.cur.id k) else .error (.wait .drain) s := by
  unfold X.release
  cases h : s.cur.laneDrained
  · rw [X.bind_of_error (t := s) (e := .wait .drain) (by rw [X.drainLane_run, h]; rfl)]; rfl
  · rw [X.bind_of_ok (t := s) (a := ()) (by rw [X.drainLane_run, h]; rfl)]; rfl

theorem X.attempt_ok {x : X α} {s t : State} {a : α} (h : x s = .ok a t) : X.attempt x s = .ok (.ok a) t := by
  unfold X.attempt
  rw [h]

theorem X.attempt_error {x : X α} {s t : State} {e : Stop} (h : x s = .error e t) :
    X.attempt x s = .ok (.error e) t := by
  unfold X.attempt
  rw [h]

/-! ## The outcome of effects -/

theorem runX_ok {x : X Unit} {s t : State} (h : x s = .ok () t) : runX x s = .next t := by
  unfold runX State.after
  rw [h]

theorem runX_trap {x : X Unit} {s t : State} {c : Cause} {v : Word} {ipa : Nat} (h : x s = .error (.trap c v ipa) t) :
    runX x s = .next ((s.keepClaims t).takeTrap c v ipa) := by
  unfold runX State.after
  rw [h]
  rfl

theorem runX_wait {x : X Unit} {s t : State} {w : Wait} (h : x s = .error (.wait w) t) :
    runX x s = .next (s.waitFor w) := by
  unfold runX State.after
  rw [h]
  rfl

/-- Effects always end in a next state: a trap, a wait and a fill are next states too. -/
theorem runX_next (x : X Unit) (s : State) : ∃ t, runX x s = .next t := ⟨_, rfl⟩

end Sys2Proof.Machine
end

