-- ==== Sys2Proof/Laws/Memory.lean ====
section
/-!
SUPPORT. Memory: what a read of a byte gives after a write, that every operation keeps the canonical form, and the laws
of lists keyed by numbers.
-/
namespace Sys2Proof.Machine

/-! ## Lists keyed by numbers -/

variable {α : Type}

theorem alook_aput_self (l : List (Nat × α)) (p : Nat) (y : α) : alook (aput l p y) p = some y := by
  induction l with
  | nil => simp [aput, alook]
  | cons x l ih =>
    obtain ⟨q, x⟩ := x
    unfold aput
    by_cases h : q = p
    · rw [if_pos h]; simp [alook]
    · rw [if_neg h]
      by_cases h2 : p < q
      · rw [if_pos h2]; simp [alook]
      · rw [if_neg h2]; simp only [alook, if_neg h]; exact ih

theorem alook_aput_ne (l : List (Nat × α)) {p r : Nat} (h : r ≠ p) (y : α) : alook (aput l p y) r = alook l r := by
  have hp : ¬ p = r := fun e => h e.symm
  induction l with
  | nil => simp [aput, alook, hp]
  | cons x l ih =>
    obtain ⟨q, x⟩ := x
    unfold aput
    by_cases hq : q = p
    · subst hq; rw [if_pos rfl]; simp [alook, hp]
    · rw [if_neg hq]
      by_cases h2 : p < q
      · rw [if_pos h2]; simp only [alook, if_neg hp]
      · rw [if_neg h2]
        by_cases hr : q = r
        · simp [alook, hr]
        · simp only [alook, if_neg hr]; exact ih

theorem alook_adel_self (l : List (Nat × α)) (p : Nat) : alook (adel l p) p = none := by
  induction l with
  | nil => rfl
  | cons x l ih =>
    obtain ⟨q, x⟩ := x
    unfold adel
    by_cases h : q = p
    · rw [if_pos h]; exact ih
    · rw [if_neg h]; simp only [alook, if_neg h]; exact ih

theorem alook_adel_ne (l : List (Nat × α)) {p r : Nat} (h : r ≠ p) : alook (adel l p) r = alook l r := by
  induction l with
  | nil => rfl
  | cons x l ih =>
    obtain ⟨q, x⟩ := x
    unfold adel
    by_cases hq : q = p
    · rw [if_pos hq]
      have : ¬ q = r := fun e => h (e ▸ hq)
      simp only [alook, if_neg this]
      exact ih
    · rw [if_neg hq]
      by_cases hr : q = r
      · simp [alook, hr]
      · simp only [alook, if_neg hr]; exact ih

/-! ## Reading after writing -/

theorem readCell_filter (l : List Host.Cell) (p : Nat → Bool) (q : Nat) :
    readCell (l.filter fun c => p c.1) q = if p q = true then readCell l q else 0 := by
  induction l with
  | nil => simp [readCell]
  | cons x l ih =>
    obtain ⟨r, c⟩ := x
    by_cases hr : p r = true
    · rw [List.filter_cons_of_pos (by simpa using hr)]
      unfold readCell
      by_cases h : r = q
      · subst h; simp [hr]
      · rw [if_neg h, if_neg h]; exact ih
    · rw [List.filter_cons_of_neg (by simpa using hr), ih]
      by_cases h : r = q
      · subst h; simp [hr]
      · simp only [readCell, if_neg h]

theorem readCell_insertCell (l : List Host.Cell) (p q : Nat) (b : Byte) :
    readCell (insertCell l p b) q = if q = p then b else readCell l q := by
  induction l with
  | nil =>
    by_cases h : q = p
    · simp [insertCell, readCell, h]
    · have : ¬ p = q := fun e => h e.symm
      simp [insertCell, readCell, h, this]
  | cons x l ih =>
    obtain ⟨r, c⟩ := x
    unfold insertCell
    by_cases h1 : p < r
    · rw [if_pos h1]
      by_cases h : q = p
      · subst h; simp [readCell]
      · have : ¬ p = q := fun e => h e.symm
        simp [readCell, h, this]
    · rw [if_neg h1]
      by_cases h2 : r = p
      · subst h2
        rw [if_pos rfl]
        by_cases h : q = r
        · subst h; simp [readCell]
        · have : ¬ r = q := fun e => h e.symm
          simp [readCell, h, this]
      · rw [if_neg h2]
        by_cases h : r = q
        · subst h; simp [readCell, h2]
        · simp only [readCell, if_neg h]; exact ih

/-- A byte reads as what was last written to it, and a write leaves every other byte. -/
theorem readCell_writeCell (l : List Host.Cell) (p q : Nat) (b : Byte) :
    readCell (writeCell l p b) q = if q = p then b else readCell l q := by
  unfold writeCell
  by_cases hb : b = 0
  · rw [if_pos hb, readCell_filter l (fun r => r != p) q]
    by_cases h : q = p
    · simp [h, hb]
    · simp [h]
  · rw [if_neg hb]; exact readCell_insertCell l p q b

theorem readCell_writeCells_other (bs l : List Host.Cell) (q : Nat) (h : ∀ b ∈ bs, b.1 ≠ q) :
    readCell (writeCells l bs) q = readCell l q := by
  unfold writeCells
  induction bs generalizing l with
  | nil => rfl
  | cons b bs ih =>
    rw [List.foldl_cons, ih _ fun x hx => h x (List.mem_cons_of_mem _ hx), readCell_writeCell]
    have : q ≠ b.1 := fun e => h b (List.mem_cons_self ..) e.symm
    rw [if_neg this]

theorem writeCells_nil (l : List Host.Cell) : writeCells l [] = l := rfl
theorem writeCells_cons (l bs : List Host.Cell) (b : Host.Cell) :
    writeCells l (b :: bs) = writeCells (writeCell l b.1 b.2) bs := rfl
theorem writeCells_append (l bs cs : List Host.Cell) : writeCells l (bs ++ cs) = writeCells (writeCells l bs) cs :=
  List.foldl_append ..

theorem readCell_cellsAt (bs : List Byte) (l : List Host.Cell) (p i : Nat) (h : i < bs.length) :
    readCell (writeCells l (cellsAt p bs)) (p + i) = bs.getD i 0 := by
  induction bs generalizing l p i with
  | nil => cases h
  | cons b bs ih =>
    rw [cellsAt, writeCells_cons]
    cases i with
    | zero =>
      have hlow : ∀ (ds : List Byte) (q : Nat), p < q → ∀ c ∈ cellsAt q ds, c.1 ≠ p := by
        intro ds
        induction ds with
        | nil => intro q _ c hc; cases hc
        | cons d ds ihd =>
          intro q hq c hc
          rw [cellsAt] at hc
          rcases List.mem_cons.mp hc with rfl | hc
          · simp only; omega
          · exact ihd (q + 1) (by omega) c hc
      show readCell (writeCells (writeCell l p b) (cellsAt (p + 1) bs)) p = b
      rw [readCell_writeCells_other _ _ _ (hlow bs (p + 1) (by omega)), readCell_writeCell, if_pos rfl]
    | succ i =>
      have := ih (writeCell l p b) (p + 1) i (by simpa using h)
      rw [show p + (i + 1) = p + 1 + i by omega, this]
      rfl

/-! ## The canonical form -/

/-- The canonical form as addresses that rise and bytes that are not zero. -/
theorem wfCells_iff (l : List Host.Cell) :
    wfCells l = true ↔ l.Pairwise (fun a b => a.1 < b.1) ∧ ∀ c ∈ l, c.2 ≠ 0 := by
  induction l with
  | nil => simp [wfCells]
  | cons x l ih =>
    obtain ⟨q, c⟩ := x
    cases l with
    | nil => simp [wfCells]
    | cons y l =>
      obtain ⟨r, d⟩ := y
      simp only [wfCells, Bool.and_eq_true, bne_iff_ne, decide_eq_true_eq]
      rw [ih]
      constructor
      · rintro ⟨⟨hc, hq⟩, hp, hn⟩
        refine ⟨List.pairwise_cons.mpr ⟨?_, hp⟩, ?_⟩
        · intro z hz
          rcases List.mem_cons.mp hz with rfl | hz
          · exact hq
          · exact Nat.lt_trans hq ((List.pairwise_cons.mp hp).1 z hz)
        · intro z hz
          rcases List.mem_cons.mp hz with rfl | hz
          · exact hc
          · exact hn z hz
      · rintro ⟨hp, hn⟩
        obtain ⟨h1, h2⟩ := List.pairwise_cons.mp hp
        exact ⟨⟨hn (q, c) (List.mem_cons_self ..), h1 (r, d) (List.mem_cons_self ..)⟩, h2,
          fun z hz => hn z (List.mem_cons_of_mem _ hz)⟩

theorem wfCells_filter {l : List Host.Cell} (h : wfCells l = true) (p : Host.Cell → Bool) : wfCells (l.filter p) = true := by
  rw [wfCells_iff] at h ⊢
  exact ⟨h.1.filter _, fun c hc => h.2 c (List.mem_filter.mp hc).1⟩

theorem mem_insertCell {l : List Host.Cell} {p : Nat} {b : Byte} {c : Host.Cell} (h : c ∈ insertCell l p b) :
    c = (p, b) ∨ c ∈ l := by
  induction l with
  | nil => exact .inl (List.mem_singleton.mp h)
  | cons x l ih =>
    obtain ⟨q, d⟩ := x
    unfold insertCell at h
    split at h
    · rcases List.mem_cons.mp h with rfl | h
      · exact .inl rfl
      · exact .inr h
    · split at h
      · rcases List.mem_cons.mp h with rfl | h
        · exact .inl rfl
        · exact .inr (List.mem_cons_of_mem _ h)
      · rcases List.mem_cons.mp h with rfl | h
        · exact .inr (List.mem_cons_self ..)
        · rcases ih h with e | e
          · exact .inl e
          · exact .inr (List.mem_cons_of_mem _ e)

theorem wfCells_insertCell {l : List Host.Cell} (h : wfCells l = true) (p : Nat) {b : Byte} (hb : b ≠ 0) :
    wfCells (insertCell l p b) = true := by
  rw [wfCells_iff] at h ⊢
  refine ⟨?_, fun c hc => ?_⟩
  · have hp := h.1
    clear h
    induction l with
    | nil => exact List.pairwise_singleton ..
    | cons x l ih =>
      obtain ⟨q, d⟩ := x
      obtain ⟨h1, h2⟩ := List.pairwise_cons.mp hp
      unfold insertCell
      split
      · next hlt =>
        refine List.pairwise_cons.mpr ⟨fun z hz => ?_, hp⟩
        rcases List.mem_cons.mp hz with rfl | hz
        · exact hlt
        · exact Nat.lt_trans hlt (h1 z hz)
      · next hge =>
        split
        · next he =>
          subst he
          exact List.pairwise_cons.mpr ⟨h1, h2⟩
        · next hne =>
          refine List.pairwise_cons.mpr ⟨fun z hz => ?_, ih h2⟩
          rcases mem_insertCell hz with rfl | hz
          · simp only; omega
          · exact h1 z hz
  · rcases mem_insertCell hc with rfl | hc
    · exact hb
    · exact h.2 c hc

theorem wfCells_writeCell {l : List Host.Cell} (h : wfCells l = true) (p : Nat) (b : Byte) :
    wfCells (writeCell l p b) = true := by
  unfold writeCell
  split
  · exact wfCells_filter h _
  · next hb => exact wfCells_insertCell h p hb

theorem wfCells_writeCells {l : List Host.Cell} (h : wfCells l = true) (bs : List Host.Cell) :
    wfCells (writeCells l bs) = true := by
  unfold writeCells
  induction bs generalizing l with
  | nil => exact h
  | cons b bs ih => exact ih (wfCells_writeCell h _ _)

/-- Equal contents in canonical form are equal lists. -/
theorem wfCells_ext {l m : List Host.Cell} (hl : wfCells l = true) (hm : wfCells m = true)
    (h : ∀ p, readCell l p = readCell m p) : l = m := by
  rw [wfCells_iff] at hl hm
  have below : ∀ (k : List Host.Cell) (p : Nat), (∀ c ∈ k, p < c.1) → readCell k p = 0 := by
    intro k
    induction k with
    | nil => intros; rfl
    | cons x k ih =>
      obtain ⟨q, c⟩ := x
      intro p hp
      have : p < q := hp (q, c) (List.mem_cons_self ..)
      have hn : ¬ q = p := by omega
      simp only [readCell, if_neg hn]
      exact ih p fun z hz => hp z (List.mem_cons_of_mem _ hz)
  induction l generalizing m with
  | nil =>
    cases m with
    | nil => rfl
    | cons y m =>
      obtain ⟨r, d⟩ := y
      have := h r
      simp only [readCell, if_true] at this
      exact absurd this.symm (hm.2 (r, d) (List.mem_cons_self ..))
  | cons x l ih =>
    obtain ⟨q, c⟩ := x
    obtain ⟨h1, h2⟩ := List.pairwise_cons.mp hl.1
    cases m with
    | nil =>
      have := h q
      simp only [readCell, if_true] at this
      exact absurd this (hl.2 (q, c) (List.mem_cons_self ..))
    | cons y m =>
      obtain ⟨r, d⟩ := y
      obtain ⟨k1, k2⟩ := List.pairwise_cons.mp hm.1
      have hqr : q = r := by
        rcases Nat.lt_trichotomy q r with hlt | he | hgt
        · have := h q
          rw [below ((r, d) :: m) q] at this
          · simp only [readCell, if_true] at this
            exact absurd this (hl.2 (q, c) (List.mem_cons_self ..))
          · intro z hz
            rcases List.mem_cons.mp hz with rfl | hz
            · exact hlt
            · exact Nat.lt_trans hlt (k1 z hz)
        · exact he
        · have := h r
          rw [below ((q, c) :: l) r] at this
          · simp only [readCell, if_true] at this
            exact absurd this.symm (hm.2 (r, d) (List.mem_cons_self ..))
          · intro z hz
            rcases List.mem_cons.mp hz with rfl | hz
            · exact hgt
            · exact Nat.lt_trans hgt (h1 z hz)
      subst hqr
      have hcd : c = d := by simpa [readCell] using h q
      subst hcd
      have := ih (m := m) ⟨h2, fun z hz => hl.2 z (List.mem_cons_of_mem _ hz)⟩
        ⟨k2, fun z hz => hm.2 z (List.mem_cons_of_mem _ hz)⟩ fun p => by
          by_cases hp : q = p
          · subst hp
            rw [below l q h1, below m q k1]
          · simpa [readCell, hp] using h p
      rw [this]

/-! ## Every operation keeps the canonical form -/

namespace MemSys

@[simp] theorem onDie_home (m : MemSys) (d : Nat) (f : DieMem → DieMem) : (m.onDie d f).home = m.home := rfl
@[simp] theorem onDie_homeMeta (m : MemSys) (d : Nat) (f : DieMem → DieMem) : (m.onDie d f).homeMeta = m.homeMeta := rfl
@[simp] theorem onDie_flight (m : MemSys) (d : Nat) (f : DieMem → DieMem) : (m.onDie d f).flight = m.flight := rfl
@[simp] theorem onDie_poison (m : MemSys) (d : Nat) (f : DieMem → DieMem) : (m.onDie d f).poison = m.poison := rfl
@[simp] theorem onDie_untagged (m : MemSys) (d : Nat) (f : DieMem → DieMem) : (m.onDie d f).untagged = m.untagged := rfl

theorem die_onDie_self (m : MemSys) {d : Nat} (h : d < 6) (f : DieMem → DieMem) : (m.onDie d f).die d = f (m.die d) := by
  unfold onDie die
  simp [h]

theorem die_onDie_ne (m : MemSys) {d e : Nat} (h : e ≠ d) (f : DieMem → DieMem) : (m.onDie d f).die e = m.die e := by
  have h' : d ≠ e := fun x => h x.symm
  unfold onDie die
  by_cases he : e < 6
  · simp [he, h']
  · simp [he]

variable {m : MemSys} (h : m.wf = true)
include h

theorem wf_putHome (bs : List Host.Cell) (c : Clock) (o : Bool) : (m.putHome bs c o).wf = true := wfCells_writeCells h bs
theorem wf_onDie (d : Nat) (f : DieMem → DieMem) : (m.onDie d f).wf = true := h

theorem wf_applyHome (f : Flight) : (m.applyHome f).wf = true := by
  unfold applyHome
  split
  · exact h
  · exact wf_putHome h f.bytes f.clock false

omit h in
theorem wf_foldl_applyHome (l : List Flight) {m : MemSys} (h : m.wf = true) :
    (l.foldl (fun m f => m.applyHome f) m).wf = true := by
  induction l generalizing m with
  | nil => exact h
  | cons f l ih => exact ih (wf_applyHome h f)

theorem wf_toHome (sel : Flight → Bool) : (m.toHome sel).wf = true := by
  unfold toHome
  exact wf_foldl_applyHome _ h

theorem wf_applyDie (e : Nat) (f : Flight) : (m.applyDie e f).wf = true := h

omit h in
theorem wf_foldl_applyDie (e : Nat) (l : List Flight) {m : MemSys} (h : m.wf = true) :
    (l.foldl (fun m f => m.applyDie e f) m).wf = true := by
  induction l generalizing m with
  | nil => exact h
  | cons f l ih => exact ih (wf_applyDie h e f)

theorem wf_toDie (e : Nat) (sel : Flight → Bool) : (m.toDie e sel).wf = true := by
  unfold toDie
  exact wf_foldl_applyDie e _ h

theorem wf_drop (e : Nat) (sel : CopyByte → Bool) : (m.drop e sel).wf = true := h

theorem wf_pull (e : Nat) (c : Clock) : (m.pull e c).wf = true := by
  unfold pull
  dsimp only
  split
  · exact wf_toDie h e _
  · exact wf_drop (wf_toDie h e _) e _

theorem wf_beforeHome (e : Nat) (ps : List Nat) : (m.beforeHome e ps).wf = true := wf_toDie h e _

theorem wf_enter (agent e : Nat) (smr uncached : Bool) (bs : List Host.Cell) : (m.enter agent e smr uncached bs).wf = true := by
  unfold enter
  split
  · split
    · exact wf_putHome h ..
    · exact wf_onDie h ..
  · dsimp only
    split
    · exact wf_toHome (by exact h) _
    · exact h

theorem wf_fill (e p : Nat) (smr : Bool) : (m.fill e p smr).wf = true := by
  unfold fill
  exact wf_onDie (wf_toHome (wf_beforeHome h e _) _) e _

theorem wf_settle (e : Nat) (ps : List Nat) : (m.settle e ps).wf = true := wf_toHome h _

theorem wf_readByte (e p : Nat) (smr uncached : Bool) : (m.readByte e p smr uncached).2.2.wf = true := by
  unfold readByte
  split
  · exact wf_beforeHome (wf_settle h e _) e _
  · dsimp only
    have : (if (findCopy (m.die e).copies p).isSome then m else m.fill e p smr).wf = true := by
      split
      · exact h
      · exact wf_fill h e p smr
    split <;> exact this

omit h in
theorem wf_readBytes (e : Nat) (smr uncached : Bool) (n : Nat) : ∀ (m : MemSys) (p : Nat), m.wf = true →
    (m.readBytes e p smr uncached n).2.2.wf = true := by
  induction n with
  | zero => intro m p h; exact h
  | succ n ih => intro m p h; exact ih _ _ (wf_readByte h e p smr uncached)

theorem wf_writeBack (e : Nat) (sel : Nat → Bool) : (m.writeBack e sel).wf = true := wf_onDie (wf_putHome h ..) e _

theorem wf_beforeAtomic (e : Nat) (ps : List Nat) (smr : Bool) : (m.beforeAtomic e ps smr).wf = true := by
  cases smr
  · exact wf_settle h e _
  · exact wf_drop (wf_writeBack h e _) e _

theorem wf_homeRead (e p n : Nat) (smr : Bool) : (m.homeRead e p n smr).2.2.wf = true := by
  unfold homeRead
  cases smr
  · dsimp only
    rw [if_neg Bool.false_ne_true, if_neg Bool.false_ne_true]
    exact wf_onDie (wf_beforeHome (wf_settle h e _) e _) e _
  · dsimp only
    rw [if_pos rfl, if_pos rfl]
    exact wf_writeBack h e _

theorem wf_homeWrite (agent e : Nat) (bs : List Host.Cell) (c : Clock) : (m.homeWrite agent e bs c).wf = true := by
  unfold homeWrite
  dsimp only
  split
  · exact wf_putHome h bs c true
  · exact wf_putHome h bs c true

theorem wf_hwWrite (e : Nat) (bs : List Host.Cell) : (m.hwWrite e bs).wf = true := by
  unfold hwWrite
  exact wf_homeWrite (wf_settle h e _) ..

theorem wf_wipe (lo n : Nat) (bs : List Host.Cell) : (m.wipe lo n bs).wf = true := wfCells_writeCells (wfCells_filter h _) bs
theorem wf_reconcile (e : Nat) (seen : Clock) : (m.reconcile e seen).wf = true := wf_drop (wf_pull h e seen) e _

end MemSys

/-! ## Home values under the operations -/

theorem MemSys.homeByte_putHome_other (m : MemSys) (bs : List Host.Cell) (c : Clock) (o : Bool) (q : Nat)
    (h : ∀ b ∈ bs, b.1 ≠ q) : (m.putHome bs c o).homeByte q = m.homeByte q := readCell_writeCells_other bs m.home q h

theorem MemSys.homeByte_putHome_at (m : MemSys) (bs : List Byte) (p i : Nat) (c : Clock) (o : Bool) (h : i < bs.length) :
    (m.putHome (cellsAt p bs) c o).homeByte (p + i) = bs.getD i 0 := readCell_cellsAt bs m.home p i h

theorem MemSys.homeByte_homeWrite (m : MemSys) (agent e : Nat) (bs : List Host.Cell) (c : Clock) (q : Nat) :
    (m.homeWrite agent e bs c).homeByte q = (m.putHome bs c true).homeByte q := by
  unfold homeWrite
  dsimp only
  split <;> rfl

theorem MemSys.homeByte_onDie (m : MemSys) (d : Nat) (f : DieMem → DieMem) (q : Nat) : (m.onDie d f).homeByte q = m.homeByte q := rfl
theorem MemSys.homeByte_applyDie (m : MemSys) (e : Nat) (f : Flight) (q : Nat) : (m.applyDie e f).homeByte q = m.homeByte q := rfl
theorem MemSys.homeByte_drop (m : MemSys) (e : Nat) (sel : CopyByte → Bool) (q : Nat) :
    (m.drop e sel).homeByte q = m.homeByte q := rfl

theorem MemSys.homeByte_toDie (m : MemSys) (e : Nat) (sel : Flight → Bool) (q : Nat) : (m.toDie e sel).homeByte q = m.homeByte q := by
  have : ∀ (l : List Flight) (m : MemSys), (l.foldl (fun m f => m.applyDie e f) m).home = m.home := by
    intro l
    induction l with
    | nil => intro m; rfl
    | cons f l ih => intro m; exact (ih _).trans rfl
  unfold toDie homeByte
  exact congrArg (readCell · q) (this _ m)

theorem MemSys.homeByte_pull (m : MemSys) (e : Nat) (c : Clock) (q : Nat) : (m.pull e c).homeByte q = m.homeByte q :=
  by
  unfold pull
  dsimp only
  split
  · exact homeByte_toDie m e _ q
  · exact (homeByte_drop _ e _ q).trans (homeByte_toDie m e _ q)

theorem MemSys.homeByte_beforeHome (m : MemSys) (e : Nat) (ps : List Nat) (q : Nat) : (m.beforeHome e ps).homeByte q = m.homeByte q :=
  homeByte_toDie m e _ q

theorem MemSys.homeByte_reconcile (m : MemSys) (e : Nat) (c : Clock) (q : Nat) : (m.reconcile e c).homeByte q = m.homeByte q :=
  homeByte_pull m e c q

/-- What home applies are writes in delivery. -/
theorem mem_dueHome {sel : Flight → Bool} {l : List Flight} {f : Flight} (h : f ∈ dueHome sel l) : f ∈ l := by
  induction l with
  | nil => exact h
  | cons g l ih =>
    unfold dueHome at h
    dsimp only at h
    split at h
    · rcases List.mem_cons.mp h with rfl | h
      · exact List.mem_cons_self ..
      · exact List.mem_cons_of_mem _ (ih h)
    · exact List.mem_cons_of_mem _ (ih h)

/-- A byte that no write in delivery touches keeps its home value when home takes writes in delivery. -/
theorem MemSys.homeByte_toHome_other (m : MemSys) (sel : Flight → Bool) (q : Nat)
    (h : ∀ f ∈ m.flight, f.touches q = false) : (m.toHome sel).homeByte q = m.homeByte q := by
  have key : ∀ (l : List Flight) (m : MemSys), (∀ f ∈ l, f.touches q = false) →
      (l.foldl (fun m f => m.applyHome f) m).homeByte q = m.homeByte q := by
    intro l
    induction l with
    | nil => intro m _; rfl
    | cons f l ih =>
      intro m hl
      rw [List.foldl_cons, ih _ fun g hg => hl g (List.mem_cons_of_mem _ hg)]
      unfold applyHome
      split
      · rfl
      · refine homeByte_putHome_other m f.bytes f.clock false q fun b hb e => ?_
        have := hl f (List.mem_cons_self ..)
        unfold Flight.touches at this
        rw [List.any_eq_false] at this
        exact this b hb (by simpa using e)
  unfold toHome
  exact key _ m fun f hf => h f (mem_dueHome hf)

theorem MemSys.homeByte_settle_other (m : MemSys) (e : Nat) (ps : List Nat) (q : Nat)
    (h : ∀ f ∈ m.flight, f.touches q = false) : (m.settle e ps).homeByte q = m.homeByte q :=
  homeByte_toHome_other m _ q h

end Sys2Proof.Machine
end

