-- ==== Sys2Proof/Laws/State.lean ====
section
/-!
SUPPORT. What each update of the state leaves: one lemma per field per update, so that no proof unfolds a record update.
-/
namespace Sys2Proof.Machine

/-! ## `State.onCur` -/

@[simp] theorem State.onCur_others (s : State) (f : Agent → Agent) : (s.onCur f).others = s.others := rfl
@[simp] theorem State.onCur_mem (s : State) (f : Agent → Agent) : (s.onCur f).mem = s.mem := rfl
@[simp] theorem State.onCur_pot (s : State) (f : Agent → Agent) : (s.onCur f).pot = s.pot := rfl
@[simp] theorem State.onCur_enclaves (s : State) (f : Agent → Agent) : (s.onCur f).enclaves = s.enclaves := rfl
@[simp] theorem State.onCur_ops (s : State) (f : Agent → Agent) : (s.onCur f).ops = s.ops := rfl
@[simp] theorem State.onCur_fills (s : State) (f : Agent → Agent) : (s.onCur f).fills = s.fills := rfl
@[simp] theorem State.onCur_chunks (s : State) (f : Agent → Agent) : (s.onCur f).chunks = s.chunks := rfl
@[simp] theorem State.onCur_codeLines (s : State) (f : Agent → Agent) : (s.onCur f).codeLines = s.codeLines := rfl
@[simp] theorem State.onCur_launches (s : State) (f : Agent → Agent) : (s.onCur f).launches = s.launches := rfl
@[simp] theorem State.onCur_wgs (s : State) (f : Agent → Agent) : (s.onCur f).wgs = s.wgs := rfl
@[simp] theorem State.onCur_parts (s : State) (f : Agent → Agent) : (s.onCur f).parts = s.parts := rfl
@[simp] theorem State.onCur_exits (s : State) (f : Agent → Agent) : (s.onCur f).exits = s.exits := rfl
@[simp] theorem State.onCur_channels (s : State) (f : Agent → Agent) : (s.onCur f).channels = s.channels := rfl
@[simp] theorem State.onCur_layout (s : State) (f : Agent → Agent) : (s.onCur f).layout = s.layout := rfl
@[simp] theorem State.onCur_rp (s : State) (f : Agent → Agent) : (s.onCur f).rp = s.rp := rfl
@[simp] theorem State.onCur_links (s : State) (f : Agent → Agent) : (s.onCur f).links = s.links := rfl
@[simp] theorem State.onCur_health (s : State) (f : Agent → Agent) : (s.onCur f).health = s.health := rfl
@[simp] theorem State.onCur_hostRoot (s : State) (f : Agent → Agent) : (s.onCur f).hostRoot = s.hostRoot := rfl
@[simp] theorem State.onCur_nextId (s : State) (f : Agent → Agent) : (s.onCur f).nextId = s.nextId := rfl
@[simp] theorem State.onCur_turns (s : State) (f : Agent → Agent) : (s.onCur f).turns = s.turns := rfl
@[simp] theorem State.onCur_choices (s : State) (f : Agent → Agent) : (s.onCur f).choices = s.choices := rfl
@[simp] theorem State.onCur_free (s : State) (f : Agent → Agent) : (s.onCur f).free = s.free := rfl
@[simp] theorem State.onCur_cur (s : State) (f : Agent → Agent) : (s.onCur f).cur = f s.cur := rfl

/-! ## `State.write` -/

@[simp] theorem State.write_others (s : State) (d : BitVec 6) (x : Word) : (s.write d x).others = s.others := rfl
@[simp] theorem State.write_mem (s : State) (d : BitVec 6) (x : Word) : (s.write d x).mem = s.mem := rfl
@[simp] theorem State.write_pot (s : State) (d : BitVec 6) (x : Word) : (s.write d x).pot = s.pot := rfl
@[simp] theorem State.write_enclaves (s : State) (d : BitVec 6) (x : Word) : (s.write d x).enclaves = s.enclaves := rfl
@[simp] theorem State.write_ops (s : State) (d : BitVec 6) (x : Word) : (s.write d x).ops = s.ops := rfl
@[simp] theorem State.write_fills (s : State) (d : BitVec 6) (x : Word) : (s.write d x).fills = s.fills := rfl
@[simp] theorem State.write_chunks (s : State) (d : BitVec 6) (x : Word) : (s.write d x).chunks = s.chunks := rfl
@[simp] theorem State.write_codeLines (s : State) (d : BitVec 6) (x : Word) : (s.write d x).codeLines = s.codeLines := rfl
@[simp] theorem State.write_launches (s : State) (d : BitVec 6) (x : Word) : (s.write d x).launches = s.launches := rfl
@[simp] theorem State.write_wgs (s : State) (d : BitVec 6) (x : Word) : (s.write d x).wgs = s.wgs := rfl
@[simp] theorem State.write_parts (s : State) (d : BitVec 6) (x : Word) : (s.write d x).parts = s.parts := rfl
@[simp] theorem State.write_exits (s : State) (d : BitVec 6) (x : Word) : (s.write d x).exits = s.exits := rfl
@[simp] theorem State.write_channels (s : State) (d : BitVec 6) (x : Word) : (s.write d x).channels = s.channels := rfl
@[simp] theorem State.write_layout (s : State) (d : BitVec 6) (x : Word) : (s.write d x).layout = s.layout := rfl
@[simp] theorem State.write_rp (s : State) (d : BitVec 6) (x : Word) : (s.write d x).rp = s.rp := rfl
@[simp] theorem State.write_links (s : State) (d : BitVec 6) (x : Word) : (s.write d x).links = s.links := rfl
@[simp] theorem State.write_health (s : State) (d : BitVec 6) (x : Word) : (s.write d x).health = s.health := rfl
@[simp] theorem State.write_hostRoot (s : State) (d : BitVec 6) (x : Word) : (s.write d x).hostRoot = s.hostRoot := rfl
@[simp] theorem State.write_nextId (s : State) (d : BitVec 6) (x : Word) : (s.write d x).nextId = s.nextId := rfl
@[simp] theorem State.write_turns (s : State) (d : BitVec 6) (x : Word) : (s.write d x).turns = s.turns := rfl
@[simp] theorem State.write_choices (s : State) (d : BitVec 6) (x : Word) : (s.write d x).choices = s.choices := rfl
@[simp] theorem State.write_free (s : State) (d : BitVec 6) (x : Word) : (s.write d x).free = s.free := rfl
@[simp] theorem State.write_cur (s : State) (d : BitVec 6) (x : Word) : (s.write d x).cur = (s.cur.setS d x).advance := rfl

/-! ## `State.advance` -/

@[simp] theorem State.advance_others (s : State) : (s.advance).others = s.others := rfl
@[simp] theorem State.advance_mem (s : State) : (s.advance).mem = s.mem := rfl
@[simp] theorem State.advance_pot (s : State) : (s.advance).pot = s.pot := rfl
@[simp] theorem State.advance_enclaves (s : State) : (s.advance).enclaves = s.enclaves := rfl
@[simp] theorem State.advance_ops (s : State) : (s.advance).ops = s.ops := rfl
@[simp] theorem State.advance_fills (s : State) : (s.advance).fills = s.fills := rfl
@[simp] theorem State.advance_chunks (s : State) : (s.advance).chunks = s.chunks := rfl
@[simp] theorem State.advance_codeLines (s : State) : (s.advance).codeLines = s.codeLines := rfl
@[simp] theorem State.advance_launches (s : State) : (s.advance).launches = s.launches := rfl
@[simp] theorem State.advance_wgs (s : State) : (s.advance).wgs = s.wgs := rfl
@[simp] theorem State.advance_parts (s : State) : (s.advance).parts = s.parts := rfl
@[simp] theorem State.advance_exits (s : State) : (s.advance).exits = s.exits := rfl
@[simp] theorem State.advance_channels (s : State) : (s.advance).channels = s.channels := rfl
@[simp] theorem State.advance_layout (s : State) : (s.advance).layout = s.layout := rfl
@[simp] theorem State.advance_rp (s : State) : (s.advance).rp = s.rp := rfl
@[simp] theorem State.advance_links (s : State) : (s.advance).links = s.links := rfl
@[simp] theorem State.advance_health (s : State) : (s.advance).health = s.health := rfl
@[simp] theorem State.advance_hostRoot (s : State) : (s.advance).hostRoot = s.hostRoot := rfl
@[simp] theorem State.advance_nextId (s : State) : (s.advance).nextId = s.nextId := rfl
@[simp] theorem State.advance_turns (s : State) : (s.advance).turns = s.turns := rfl
@[simp] theorem State.advance_choices (s : State) : (s.advance).choices = s.choices := rfl
@[simp] theorem State.advance_free (s : State) : (s.advance).free = s.free := rfl
@[simp] theorem State.advance_cur (s : State) : s.advance.cur = s.cur.advance := rfl

/-! ## `State.withPc` -/

@[simp] theorem State.withPc_others (s : State) (pc : Word) : (s.withPc pc).others = s.others := rfl
@[simp] theorem State.withPc_mem (s : State) (pc : Word) : (s.withPc pc).mem = s.mem := rfl
@[simp] theorem State.withPc_pot (s : State) (pc : Word) : (s.withPc pc).pot = s.pot := rfl
@[simp] theorem State.withPc_enclaves (s : State) (pc : Word) : (s.withPc pc).enclaves = s.enclaves := rfl
@[simp] theorem State.withPc_ops (s : State) (pc : Word) : (s.withPc pc).ops = s.ops := rfl
@[simp] theorem State.withPc_fills (s : State) (pc : Word) : (s.withPc pc).fills = s.fills := rfl
@[simp] theorem State.withPc_chunks (s : State) (pc : Word) : (s.withPc pc).chunks = s.chunks := rfl
@[simp] theorem State.withPc_codeLines (s : State) (pc : Word) : (s.withPc pc).codeLines = s.codeLines := rfl
@[simp] theorem State.withPc_launches (s : State) (pc : Word) : (s.withPc pc).launches = s.launches := rfl
@[simp] theorem State.withPc_wgs (s : State) (pc : Word) : (s.withPc pc).wgs = s.wgs := rfl
@[simp] theorem State.withPc_parts (s : State) (pc : Word) : (s.withPc pc).parts = s.parts := rfl
@[simp] theorem State.withPc_exits (s : State) (pc : Word) : (s.withPc pc).exits = s.exits := rfl
@[simp] theorem State.withPc_channels (s : State) (pc : Word) : (s.withPc pc).channels = s.channels := rfl
@[simp] theorem State.withPc_layout (s : State) (pc : Word) : (s.withPc pc).layout = s.layout := rfl
@[simp] theorem State.withPc_rp (s : State) (pc : Word) : (s.withPc pc).rp = s.rp := rfl
@[simp] theorem State.withPc_links (s : State) (pc : Word) : (s.withPc pc).links = s.links := rfl
@[simp] theorem State.withPc_health (s : State) (pc : Word) : (s.withPc pc).health = s.health := rfl
@[simp] theorem State.withPc_hostRoot (s : State) (pc : Word) : (s.withPc pc).hostRoot = s.hostRoot := rfl
@[simp] theorem State.withPc_nextId (s : State) (pc : Word) : (s.withPc pc).nextId = s.nextId := rfl
@[simp] theorem State.withPc_turns (s : State) (pc : Word) : (s.withPc pc).turns = s.turns := rfl
@[simp] theorem State.withPc_choices (s : State) (pc : Word) : (s.withPc pc).choices = s.choices := rfl
@[simp] theorem State.withPc_free (s : State) (pc : Word) : (s.withPc pc).free = s.free := rfl
@[simp] theorem State.withPc_cur (s : State) (pc : Word) : (s.withPc pc).cur = { s.cur with pc } := rfl

/-! ## `State.waits` -/

@[simp] theorem State.waits_others (s : State) (w : Wait) : (s.waits w).others = s.others := rfl
@[simp] theorem State.waits_mem (s : State) (w : Wait) : (s.waits w).mem = s.mem := rfl
@[simp] theorem State.waits_pot (s : State) (w : Wait) : (s.waits w).pot = s.pot := rfl
@[simp] theorem State.waits_enclaves (s : State) (w : Wait) : (s.waits w).enclaves = s.enclaves := rfl
@[simp] theorem State.waits_ops (s : State) (w : Wait) : (s.waits w).ops = s.ops := rfl
@[simp] theorem State.waits_fills (s : State) (w : Wait) : (s.waits w).fills = s.fills := rfl
@[simp] theorem State.waits_chunks (s : State) (w : Wait) : (s.waits w).chunks = s.chunks := rfl
@[simp] theorem State.waits_codeLines (s : State) (w : Wait) : (s.waits w).codeLines = s.codeLines := rfl
@[simp] theorem State.waits_launches (s : State) (w : Wait) : (s.waits w).launches = s.launches := rfl
@[simp] theorem State.waits_wgs (s : State) (w : Wait) : (s.waits w).wgs = s.wgs := rfl
@[simp] theorem State.waits_parts (s : State) (w : Wait) : (s.waits w).parts = s.parts := rfl
@[simp] theorem State.waits_exits (s : State) (w : Wait) : (s.waits w).exits = s.exits := rfl
@[simp] theorem State.waits_channels (s : State) (w : Wait) : (s.waits w).channels = s.channels := rfl
@[simp] theorem State.waits_layout (s : State) (w : Wait) : (s.waits w).layout = s.layout := rfl
@[simp] theorem State.waits_rp (s : State) (w : Wait) : (s.waits w).rp = s.rp := rfl
@[simp] theorem State.waits_links (s : State) (w : Wait) : (s.waits w).links = s.links := rfl
@[simp] theorem State.waits_health (s : State) (w : Wait) : (s.waits w).health = s.health := rfl
@[simp] theorem State.waits_hostRoot (s : State) (w : Wait) : (s.waits w).hostRoot = s.hostRoot := rfl
@[simp] theorem State.waits_nextId (s : State) (w : Wait) : (s.waits w).nextId = s.nextId := rfl
@[simp] theorem State.waits_turns (s : State) (w : Wait) : (s.waits w).turns = s.turns := rfl
@[simp] theorem State.waits_choices (s : State) (w : Wait) : (s.waits w).choices = s.choices := rfl
@[simp] theorem State.waits_free (s : State) (w : Wait) : (s.waits w).free = s.free := rfl
@[simp] theorem State.waits_cur (s : State) (w : Wait) : (s.waits w).cur = { s.cur with status := .waiting w } := rfl

/-! ## `State.waitFor` -/

@[simp] theorem State.waitFor_others (s : State) (w : Wait) : (s.waitFor w).others = s.others := rfl
@[simp] theorem State.waitFor_mem (s : State) (w : Wait) : (s.waitFor w).mem = s.mem := rfl
@[simp] theorem State.waitFor_pot (s : State) (w : Wait) : (s.waitFor w).pot = s.pot := rfl
@[simp] theorem State.waitFor_enclaves (s : State) (w : Wait) : (s.waitFor w).enclaves = s.enclaves := rfl
@[simp] theorem State.waitFor_ops (s : State) (w : Wait) : (s.waitFor w).ops = s.ops := rfl
@[simp] theorem State.waitFor_fills (s : State) (w : Wait) : (s.waitFor w).fills = s.fills := rfl
@[simp] theorem State.waitFor_chunks (s : State) (w : Wait) : (s.waitFor w).chunks = s.chunks := rfl
@[simp] theorem State.waitFor_codeLines (s : State) (w : Wait) : (s.waitFor w).codeLines = s.codeLines := rfl
@[simp] theorem State.waitFor_launches (s : State) (w : Wait) : (s.waitFor w).launches = s.launches := rfl
@[simp] theorem State.waitFor_wgs (s : State) (w : Wait) : (s.waitFor w).wgs = s.wgs := rfl
@[simp] theorem State.waitFor_parts (s : State) (w : Wait) : (s.waitFor w).parts = s.parts := rfl
@[simp] theorem State.waitFor_exits (s : State) (w : Wait) : (s.waitFor w).exits = s.exits := rfl
@[simp] theorem State.waitFor_channels (s : State) (w : Wait) : (s.waitFor w).channels = s.channels := rfl
@[simp] theorem State.waitFor_layout (s : State) (w : Wait) : (s.waitFor w).layout = s.layout := rfl
@[simp] theorem State.waitFor_rp (s : State) (w : Wait) : (s.waitFor w).rp = s.rp := rfl
@[simp] theorem State.waitFor_links (s : State) (w : Wait) : (s.waitFor w).links = s.links := rfl
@[simp] theorem State.waitFor_health (s : State) (w : Wait) : (s.waitFor w).health = s.health := rfl
@[simp] theorem State.waitFor_hostRoot (s : State) (w : Wait) : (s.waitFor w).hostRoot = s.hostRoot := rfl
@[simp] theorem State.waitFor_nextId (s : State) (w : Wait) : (s.waitFor w).nextId = s.nextId := rfl
@[simp] theorem State.waitFor_turns (s : State) (w : Wait) : (s.waitFor w).turns = s.turns := rfl
@[simp] theorem State.waitFor_choices (s : State) (w : Wait) : (s.waitFor w).choices = s.choices := rfl
@[simp] theorem State.waitFor_free (s : State) (w : Wait) : (s.waitFor w).free = s.free := rfl
theorem State.waitFor_eq_waits (s : State) (w : Wait) : s.waitFor w = s.waits w := rfl

/-! ## `State.enterTrap` -/

@[simp] theorem State.enterTrap_others (s : State) (c : Cause) (v : Word) : (s.enterTrap c v).others = s.others := rfl
@[simp] theorem State.enterTrap_mem (s : State) (c : Cause) (v : Word) : (s.enterTrap c v).mem = s.mem := rfl
@[simp] theorem State.enterTrap_pot (s : State) (c : Cause) (v : Word) : (s.enterTrap c v).pot = s.pot := rfl
@[simp] theorem State.enterTrap_enclaves (s : State) (c : Cause) (v : Word) : (s.enterTrap c v).enclaves = s.enclaves := rfl
@[simp] theorem State.enterTrap_ops (s : State) (c : Cause) (v : Word) : (s.enterTrap c v).ops = s.ops := rfl
@[simp] theorem State.enterTrap_fills (s : State) (c : Cause) (v : Word) : (s.enterTrap c v).fills = s.fills := rfl
@[simp] theorem State.enterTrap_chunks (s : State) (c : Cause) (v : Word) : (s.enterTrap c v).chunks = s.chunks := rfl
@[simp] theorem State.enterTrap_codeLines (s : State) (c : Cause) (v : Word) : (s.enterTrap c v).codeLines = s.codeLines := rfl
@[simp] theorem State.enterTrap_launches (s : State) (c : Cause) (v : Word) : (s.enterTrap c v).launches = s.launches := rfl
@[simp] theorem State.enterTrap_wgs (s : State) (c : Cause) (v : Word) : (s.enterTrap c v).wgs = s.wgs := rfl
@[simp] theorem State.enterTrap_parts (s : State) (c : Cause) (v : Word) : (s.enterTrap c v).parts = s.parts := rfl
@[simp] theorem State.enterTrap_exits (s : State) (c : Cause) (v : Word) : (s.enterTrap c v).exits = s.exits := rfl
@[simp] theorem State.enterTrap_channels (s : State) (c : Cause) (v : Word) : (s.enterTrap c v).channels = s.channels := rfl
@[simp] theorem State.enterTrap_layout (s : State) (c : Cause) (v : Word) : (s.enterTrap c v).layout = s.layout := rfl
@[simp] theorem State.enterTrap_rp (s : State) (c : Cause) (v : Word) : (s.enterTrap c v).rp = s.rp := rfl
@[simp] theorem State.enterTrap_links (s : State) (c : Cause) (v : Word) : (s.enterTrap c v).links = s.links := rfl
@[simp] theorem State.enterTrap_health (s : State) (c : Cause) (v : Word) : (s.enterTrap c v).health = s.health := rfl
@[simp] theorem State.enterTrap_hostRoot (s : State) (c : Cause) (v : Word) : (s.enterTrap c v).hostRoot = s.hostRoot := rfl
@[simp] theorem State.enterTrap_nextId (s : State) (c : Cause) (v : Word) : (s.enterTrap c v).nextId = s.nextId := rfl
@[simp] theorem State.enterTrap_turns (s : State) (c : Cause) (v : Word) : (s.enterTrap c v).turns = s.turns := rfl
@[simp] theorem State.enterTrap_choices (s : State) (c : Cause) (v : Word) : (s.enterTrap c v).choices = s.choices := rfl
@[simp] theorem State.enterTrap_free (s : State) (c : Cause) (v : Word) : (s.enterTrap c v).free = s.free := rfl
@[simp] theorem State.enterTrap_cur (s : State) (c : Cause) (v : Word) : (s.enterTrap c v).cur = { s.cur with
    trap := { s.cur.trap with cause := c, causeLane := false, val := v, spc := s.cur.pc, hm := true, level := s.cur.level }
    level := if s.cur.isH = true then .h else .s
    pc := s.cur.trap.vec } := rfl

/-! ## `State.onEnclave` -/

@[simp] theorem State.onEnclave_cur (s : State) (e : BitVec 16) (f : Enclave → Enclave) : (s.onEnclave e f).cur = s.cur := rfl
@[simp] theorem State.onEnclave_others (s : State) (e : BitVec 16) (f : Enclave → Enclave) : (s.onEnclave e f).others = s.others := rfl
@[simp] theorem State.onEnclave_mem (s : State) (e : BitVec 16) (f : Enclave → Enclave) : (s.onEnclave e f).mem = s.mem := rfl
@[simp] theorem State.onEnclave_pot (s : State) (e : BitVec 16) (f : Enclave → Enclave) : (s.onEnclave e f).pot = s.pot := rfl
@[simp] theorem State.onEnclave_ops (s : State) (e : BitVec 16) (f : Enclave → Enclave) : (s.onEnclave e f).ops = s.ops := rfl
@[simp] theorem State.onEnclave_fills (s : State) (e : BitVec 16) (f : Enclave → Enclave) : (s.onEnclave e f).fills = s.fills := rfl
@[simp] theorem State.onEnclave_chunks (s : State) (e : BitVec 16) (f : Enclave → Enclave) : (s.onEnclave e f).chunks = s.chunks := rfl
@[simp] theorem State.onEnclave_codeLines (s : State) (e : BitVec 16) (f : Enclave → Enclave) : (s.onEnclave e f).codeLines = s.codeLines := rfl
@[simp] theorem State.onEnclave_launches (s : State) (e : BitVec 16) (f : Enclave → Enclave) : (s.onEnclave e f).launches = s.launches := rfl
@[simp] theorem State.onEnclave_wgs (s : State) (e : BitVec 16) (f : Enclave → Enclave) : (s.onEnclave e f).wgs = s.wgs := rfl
@[simp] theorem State.onEnclave_parts (s : State) (e : BitVec 16) (f : Enclave → Enclave) : (s.onEnclave e f).parts = s.parts := rfl
@[simp] theorem State.onEnclave_exits (s : State) (e : BitVec 16) (f : Enclave → Enclave) : (s.onEnclave e f).exits = s.exits := rfl
@[simp] theorem State.onEnclave_channels (s : State) (e : BitVec 16) (f : Enclave → Enclave) : (s.onEnclave e f).channels = s.channels := rfl
@[simp] theorem State.onEnclave_layout (s : State) (e : BitVec 16) (f : Enclave → Enclave) : (s.onEnclave e f).layout = s.layout := rfl
@[simp] theorem State.onEnclave_rp (s : State) (e : BitVec 16) (f : Enclave → Enclave) : (s.onEnclave e f).rp = s.rp := rfl
@[simp] theorem State.onEnclave_links (s : State) (e : BitVec 16) (f : Enclave → Enclave) : (s.onEnclave e f).links = s.links := rfl
@[simp] theorem State.onEnclave_health (s : State) (e : BitVec 16) (f : Enclave → Enclave) : (s.onEnclave e f).health = s.health := rfl
@[simp] theorem State.onEnclave_hostRoot (s : State) (e : BitVec 16) (f : Enclave → Enclave) : (s.onEnclave e f).hostRoot = s.hostRoot := rfl
@[simp] theorem State.onEnclave_nextId (s : State) (e : BitVec 16) (f : Enclave → Enclave) : (s.onEnclave e f).nextId = s.nextId := rfl
@[simp] theorem State.onEnclave_turns (s : State) (e : BitVec 16) (f : Enclave → Enclave) : (s.onEnclave e f).turns = s.turns := rfl
@[simp] theorem State.onEnclave_choices (s : State) (e : BitVec 16) (f : Enclave → Enclave) : (s.onEnclave e f).choices = s.choices := rfl
@[simp] theorem State.onEnclave_free (s : State) (e : BitVec 16) (f : Enclave → Enclave) : (s.onEnclave e f).free = s.free := rfl

/-! ## `State.onQueue` -/

@[simp] theorem State.onQueue_cur (s : State) (e : BitVec 16) (q : Nat) (f : Queue → Queue) : (s.onQueue e q f).cur = s.cur := rfl
@[simp] theorem State.onQueue_others (s : State) (e : BitVec 16) (q : Nat) (f : Queue → Queue) : (s.onQueue e q f).others = s.others := rfl
@[simp] theorem State.onQueue_mem (s : State) (e : BitVec 16) (q : Nat) (f : Queue → Queue) : (s.onQueue e q f).mem = s.mem := rfl
@[simp] theorem State.onQueue_pot (s : State) (e : BitVec 16) (q : Nat) (f : Queue → Queue) : (s.onQueue e q f).pot = s.pot := rfl
@[simp] theorem State.onQueue_ops (s : State) (e : BitVec 16) (q : Nat) (f : Queue → Queue) : (s.onQueue e q f).ops = s.ops := rfl
@[simp] theorem State.onQueue_fills (s : State) (e : BitVec 16) (q : Nat) (f : Queue → Queue) : (s.onQueue e q f).fills = s.fills := rfl
@[simp] theorem State.onQueue_chunks (s : State) (e : BitVec 16) (q : Nat) (f : Queue → Queue) : (s.onQueue e q f).chunks = s.chunks := rfl
@[simp] theorem State.onQueue_codeLines (s : State) (e : BitVec 16) (q : Nat) (f : Queue → Queue) : (s.onQueue e q f).codeLines = s.codeLines := rfl
@[simp] theorem State.onQueue_launches (s : State) (e : BitVec 16) (q : Nat) (f : Queue → Queue) : (s.onQueue e q f).launches = s.launches := rfl
@[simp] theorem State.onQueue_wgs (s : State) (e : BitVec 16) (q : Nat) (f : Queue → Queue) : (s.onQueue e q f).wgs = s.wgs := rfl
@[simp] theorem State.onQueue_parts (s : State) (e : BitVec 16) (q : Nat) (f : Queue → Queue) : (s.onQueue e q f).parts = s.parts := rfl
@[simp] theorem State.onQueue_exits (s : State) (e : BitVec 16) (q : Nat) (f : Queue → Queue) : (s.onQueue e q f).exits = s.exits := rfl
@[simp] theorem State.onQueue_channels (s : State) (e : BitVec 16) (q : Nat) (f : Queue → Queue) : (s.onQueue e q f).channels = s.channels := rfl
@[simp] theorem State.onQueue_layout (s : State) (e : BitVec 16) (q : Nat) (f : Queue → Queue) : (s.onQueue e q f).layout = s.layout := rfl
@[simp] theorem State.onQueue_rp (s : State) (e : BitVec 16) (q : Nat) (f : Queue → Queue) : (s.onQueue e q f).rp = s.rp := rfl
@[simp] theorem State.onQueue_links (s : State) (e : BitVec 16) (q : Nat) (f : Queue → Queue) : (s.onQueue e q f).links = s.links := rfl
@[simp] theorem State.onQueue_health (s : State) (e : BitVec 16) (q : Nat) (f : Queue → Queue) : (s.onQueue e q f).health = s.health := rfl
@[simp] theorem State.onQueue_hostRoot (s : State) (e : BitVec 16) (q : Nat) (f : Queue → Queue) : (s.onQueue e q f).hostRoot = s.hostRoot := rfl
@[simp] theorem State.onQueue_nextId (s : State) (e : BitVec 16) (q : Nat) (f : Queue → Queue) : (s.onQueue e q f).nextId = s.nextId := rfl
@[simp] theorem State.onQueue_turns (s : State) (e : BitVec 16) (q : Nat) (f : Queue → Queue) : (s.onQueue e q f).turns = s.turns := rfl
@[simp] theorem State.onQueue_choices (s : State) (e : BitVec 16) (q : Nat) (f : Queue → Queue) : (s.onQueue e q f).choices = s.choices := rfl
@[simp] theorem State.onQueue_free (s : State) (e : BitVec 16) (q : Nat) (f : Queue → Queue) : (s.onQueue e q f).free = s.free := rfl

/-! ## `State.onWg` -/

@[simp] theorem State.onWg_cur (s : State) (w : Nat) (f : Workgroup → Workgroup) : (s.onWg w f).cur = s.cur := rfl
@[simp] theorem State.onWg_others (s : State) (w : Nat) (f : Workgroup → Workgroup) : (s.onWg w f).others = s.others := rfl
@[simp] theorem State.onWg_mem (s : State) (w : Nat) (f : Workgroup → Workgroup) : (s.onWg w f).mem = s.mem := rfl
@[simp] theorem State.onWg_pot (s : State) (w : Nat) (f : Workgroup → Workgroup) : (s.onWg w f).pot = s.pot := rfl
@[simp] theorem State.onWg_enclaves (s : State) (w : Nat) (f : Workgroup → Workgroup) : (s.onWg w f).enclaves = s.enclaves := rfl
@[simp] theorem State.onWg_ops (s : State) (w : Nat) (f : Workgroup → Workgroup) : (s.onWg w f).ops = s.ops := rfl
@[simp] theorem State.onWg_fills (s : State) (w : Nat) (f : Workgroup → Workgroup) : (s.onWg w f).fills = s.fills := rfl
@[simp] theorem State.onWg_chunks (s : State) (w : Nat) (f : Workgroup → Workgroup) : (s.onWg w f).chunks = s.chunks := rfl
@[simp] theorem State.onWg_codeLines (s : State) (w : Nat) (f : Workgroup → Workgroup) : (s.onWg w f).codeLines = s.codeLines := rfl
@[simp] theorem State.onWg_launches (s : State) (w : Nat) (f : Workgroup → Workgroup) : (s.onWg w f).launches = s.launches := rfl
@[simp] theorem State.onWg_parts (s : State) (w : Nat) (f : Workgroup → Workgroup) : (s.onWg w f).parts = s.parts := rfl
@[simp] theorem State.onWg_exits (s : State) (w : Nat) (f : Workgroup → Workgroup) : (s.onWg w f).exits = s.exits := rfl
@[simp] theorem State.onWg_channels (s : State) (w : Nat) (f : Workgroup → Workgroup) : (s.onWg w f).channels = s.channels := rfl
@[simp] theorem State.onWg_layout (s : State) (w : Nat) (f : Workgroup → Workgroup) : (s.onWg w f).layout = s.layout := rfl
@[simp] theorem State.onWg_rp (s : State) (w : Nat) (f : Workgroup → Workgroup) : (s.onWg w f).rp = s.rp := rfl
@[simp] theorem State.onWg_links (s : State) (w : Nat) (f : Workgroup → Workgroup) : (s.onWg w f).links = s.links := rfl
@[simp] theorem State.onWg_health (s : State) (w : Nat) (f : Workgroup → Workgroup) : (s.onWg w f).health = s.health := rfl
@[simp] theorem State.onWg_hostRoot (s : State) (w : Nat) (f : Workgroup → Workgroup) : (s.onWg w f).hostRoot = s.hostRoot := rfl
@[simp] theorem State.onWg_nextId (s : State) (w : Nat) (f : Workgroup → Workgroup) : (s.onWg w f).nextId = s.nextId := rfl
@[simp] theorem State.onWg_turns (s : State) (w : Nat) (f : Workgroup → Workgroup) : (s.onWg w f).turns = s.turns := rfl
@[simp] theorem State.onWg_choices (s : State) (w : Nat) (f : Workgroup → Workgroup) : (s.onWg w f).choices = s.choices := rfl
@[simp] theorem State.onWg_free (s : State) (w : Nat) (f : Workgroup → Workgroup) : (s.onWg w f).free = s.free := rfl

/-! ## `State.onLaunch` -/

@[simp] theorem State.onLaunch_cur (s : State) (l : Nat) (f : Launch → Launch) : (s.onLaunch l f).cur = s.cur := rfl
@[simp] theorem State.onLaunch_others (s : State) (l : Nat) (f : Launch → Launch) : (s.onLaunch l f).others = s.others := rfl
@[simp] theorem State.onLaunch_mem (s : State) (l : Nat) (f : Launch → Launch) : (s.onLaunch l f).mem = s.mem := rfl
@[simp] theorem State.onLaunch_pot (s : State) (l : Nat) (f : Launch → Launch) : (s.onLaunch l f).pot = s.pot := rfl
@[simp] theorem State.onLaunch_enclaves (s : State) (l : Nat) (f : Launch → Launch) : (s.onLaunch l f).enclaves = s.enclaves := rfl
@[simp] theorem State.onLaunch_ops (s : State) (l : Nat) (f : Launch → Launch) : (s.onLaunch l f).ops = s.ops := rfl
@[simp] theorem State.onLaunch_fills (s : State) (l : Nat) (f : Launch → Launch) : (s.onLaunch l f).fills = s.fills := rfl
@[simp] theorem State.onLaunch_chunks (s : State) (l : Nat) (f : Launch → Launch) : (s.onLaunch l f).chunks = s.chunks := rfl
@[simp] theorem State.onLaunch_codeLines (s : State) (l : Nat) (f : Launch → Launch) : (s.onLaunch l f).codeLines = s.codeLines := rfl
@[simp] theorem State.onLaunch_wgs (s : State) (l : Nat) (f : Launch → Launch) : (s.onLaunch l f).wgs = s.wgs := rfl
@[simp] theorem State.onLaunch_parts (s : State) (l : Nat) (f : Launch → Launch) : (s.onLaunch l f).parts = s.parts := rfl
@[simp] theorem State.onLaunch_exits (s : State) (l : Nat) (f : Launch → Launch) : (s.onLaunch l f).exits = s.exits := rfl
@[simp] theorem State.onLaunch_channels (s : State) (l : Nat) (f : Launch → Launch) : (s.onLaunch l f).channels = s.channels := rfl
@[simp] theorem State.onLaunch_layout (s : State) (l : Nat) (f : Launch → Launch) : (s.onLaunch l f).layout = s.layout := rfl
@[simp] theorem State.onLaunch_rp (s : State) (l : Nat) (f : Launch → Launch) : (s.onLaunch l f).rp = s.rp := rfl
@[simp] theorem State.onLaunch_links (s : State) (l : Nat) (f : Launch → Launch) : (s.onLaunch l f).links = s.links := rfl
@[simp] theorem State.onLaunch_health (s : State) (l : Nat) (f : Launch → Launch) : (s.onLaunch l f).health = s.health := rfl
@[simp] theorem State.onLaunch_hostRoot (s : State) (l : Nat) (f : Launch → Launch) : (s.onLaunch l f).hostRoot = s.hostRoot := rfl
@[simp] theorem State.onLaunch_nextId (s : State) (l : Nat) (f : Launch → Launch) : (s.onLaunch l f).nextId = s.nextId := rfl
@[simp] theorem State.onLaunch_turns (s : State) (l : Nat) (f : Launch → Launch) : (s.onLaunch l f).turns = s.turns := rfl
@[simp] theorem State.onLaunch_choices (s : State) (l : Nat) (f : Launch → Launch) : (s.onLaunch l f).choices = s.choices := rfl
@[simp] theorem State.onLaunch_free (s : State) (l : Nat) (f : Launch → Launch) : (s.onLaunch l f).free = s.free := rfl

/-! ## `State.onOp` -/

@[simp] theorem State.onOp_cur (s : State) (o : Nat) (f : Op → Op) : (s.onOp o f).cur = s.cur := rfl
@[simp] theorem State.onOp_others (s : State) (o : Nat) (f : Op → Op) : (s.onOp o f).others = s.others := rfl
@[simp] theorem State.onOp_mem (s : State) (o : Nat) (f : Op → Op) : (s.onOp o f).mem = s.mem := rfl
@[simp] theorem State.onOp_pot (s : State) (o : Nat) (f : Op → Op) : (s.onOp o f).pot = s.pot := rfl
@[simp] theorem State.onOp_enclaves (s : State) (o : Nat) (f : Op → Op) : (s.onOp o f).enclaves = s.enclaves := rfl
@[simp] theorem State.onOp_fills (s : State) (o : Nat) (f : Op → Op) : (s.onOp o f).fills = s.fills := rfl
@[simp] theorem State.onOp_chunks (s : State) (o : Nat) (f : Op → Op) : (s.onOp o f).chunks = s.chunks := rfl
@[simp] theorem State.onOp_codeLines (s : State) (o : Nat) (f : Op → Op) : (s.onOp o f).codeLines = s.codeLines := rfl
@[simp] theorem State.onOp_launches (s : State) (o : Nat) (f : Op → Op) : (s.onOp o f).launches = s.launches := rfl
@[simp] theorem State.onOp_wgs (s : State) (o : Nat) (f : Op → Op) : (s.onOp o f).wgs = s.wgs := rfl
@[simp] theorem State.onOp_parts (s : State) (o : Nat) (f : Op → Op) : (s.onOp o f).parts = s.parts := rfl
@[simp] theorem State.onOp_exits (s : State) (o : Nat) (f : Op → Op) : (s.onOp o f).exits = s.exits := rfl
@[simp] theorem State.onOp_channels (s : State) (o : Nat) (f : Op → Op) : (s.onOp o f).channels = s.channels := rfl
@[simp] theorem State.onOp_layout (s : State) (o : Nat) (f : Op → Op) : (s.onOp o f).layout = s.layout := rfl
@[simp] theorem State.onOp_rp (s : State) (o : Nat) (f : Op → Op) : (s.onOp o f).rp = s.rp := rfl
@[simp] theorem State.onOp_links (s : State) (o : Nat) (f : Op → Op) : (s.onOp o f).links = s.links := rfl
@[simp] theorem State.onOp_health (s : State) (o : Nat) (f : Op → Op) : (s.onOp o f).health = s.health := rfl
@[simp] theorem State.onOp_hostRoot (s : State) (o : Nat) (f : Op → Op) : (s.onOp o f).hostRoot = s.hostRoot := rfl
@[simp] theorem State.onOp_nextId (s : State) (o : Nat) (f : Op → Op) : (s.onOp o f).nextId = s.nextId := rfl
@[simp] theorem State.onOp_turns (s : State) (o : Nat) (f : Op → Op) : (s.onOp o f).turns = s.turns := rfl
@[simp] theorem State.onOp_choices (s : State) (o : Nat) (f : Op → Op) : (s.onOp o f).choices = s.choices := rfl
@[simp] theorem State.onOp_free (s : State) (o : Nat) (f : Op → Op) : (s.onOp o f).free = s.free := rfl

/-! ## `State.dropOp` -/

@[simp] theorem State.dropOp_cur (s : State) (o : Nat) : (s.dropOp o).cur = s.cur := rfl
@[simp] theorem State.dropOp_others (s : State) (o : Nat) : (s.dropOp o).others = s.others := rfl
@[simp] theorem State.dropOp_mem (s : State) (o : Nat) : (s.dropOp o).mem = s.mem := rfl
@[simp] theorem State.dropOp_pot (s : State) (o : Nat) : (s.dropOp o).pot = s.pot := rfl
@[simp] theorem State.dropOp_enclaves (s : State) (o : Nat) : (s.dropOp o).enclaves = s.enclaves := rfl
@[simp] theorem State.dropOp_fills (s : State) (o : Nat) : (s.dropOp o).fills = s.fills := rfl
@[simp] theorem State.dropOp_chunks (s : State) (o : Nat) : (s.dropOp o).chunks = s.chunks := rfl
@[simp] theorem State.dropOp_codeLines (s : State) (o : Nat) : (s.dropOp o).codeLines = s.codeLines := rfl
@[simp] theorem State.dropOp_launches (s : State) (o : Nat) : (s.dropOp o).launches = s.launches := rfl
@[simp] theorem State.dropOp_wgs (s : State) (o : Nat) : (s.dropOp o).wgs = s.wgs := rfl
@[simp] theorem State.dropOp_parts (s : State) (o : Nat) : (s.dropOp o).parts = s.parts := rfl
@[simp] theorem State.dropOp_exits (s : State) (o : Nat) : (s.dropOp o).exits = s.exits := rfl
@[simp] theorem State.dropOp_channels (s : State) (o : Nat) : (s.dropOp o).channels = s.channels := rfl
@[simp] theorem State.dropOp_layout (s : State) (o : Nat) : (s.dropOp o).layout = s.layout := rfl
@[simp] theorem State.dropOp_rp (s : State) (o : Nat) : (s.dropOp o).rp = s.rp := rfl
@[simp] theorem State.dropOp_links (s : State) (o : Nat) : (s.dropOp o).links = s.links := rfl
@[simp] theorem State.dropOp_health (s : State) (o : Nat) : (s.dropOp o).health = s.health := rfl
@[simp] theorem State.dropOp_hostRoot (s : State) (o : Nat) : (s.dropOp o).hostRoot = s.hostRoot := rfl
@[simp] theorem State.dropOp_nextId (s : State) (o : Nat) : (s.dropOp o).nextId = s.nextId := rfl
@[simp] theorem State.dropOp_turns (s : State) (o : Nat) : (s.dropOp o).turns = s.turns := rfl
@[simp] theorem State.dropOp_choices (s : State) (o : Nat) : (s.dropOp o).choices = s.choices := rfl
@[simp] theorem State.dropOp_free (s : State) (o : Nat) : (s.dropOp o).free = s.free := rfl

/-! ## `State.onPart` -/

@[simp] theorem State.onPart_cur (s : State) (p : Nat) (f : PartState → PartState) : (s.onPart p f).cur = s.cur := rfl
@[simp] theorem State.onPart_others (s : State) (p : Nat) (f : PartState → PartState) : (s.onPart p f).others = s.others := rfl
@[simp] theorem State.onPart_mem (s : State) (p : Nat) (f : PartState → PartState) : (s.onPart p f).mem = s.mem := rfl
@[simp] theorem State.onPart_pot (s : State) (p : Nat) (f : PartState → PartState) : (s.onPart p f).pot = s.pot := rfl
@[simp] theorem State.onPart_enclaves (s : State) (p : Nat) (f : PartState → PartState) : (s.onPart p f).enclaves = s.enclaves := rfl
@[simp] theorem State.onPart_ops (s : State) (p : Nat) (f : PartState → PartState) : (s.onPart p f).ops = s.ops := rfl
@[simp] theorem State.onPart_fills (s : State) (p : Nat) (f : PartState → PartState) : (s.onPart p f).fills = s.fills := rfl
@[simp] theorem State.onPart_chunks (s : State) (p : Nat) (f : PartState → PartState) : (s.onPart p f).chunks = s.chunks := rfl
@[simp] theorem State.onPart_codeLines (s : State) (p : Nat) (f : PartState → PartState) : (s.onPart p f).codeLines = s.codeLines := rfl
@[simp] theorem State.onPart_launches (s : State) (p : Nat) (f : PartState → PartState) : (s.onPart p f).launches = s.launches := rfl
@[simp] theorem State.onPart_wgs (s : State) (p : Nat) (f : PartState → PartState) : (s.onPart p f).wgs = s.wgs := rfl
@[simp] theorem State.onPart_exits (s : State) (p : Nat) (f : PartState → PartState) : (s.onPart p f).exits = s.exits := rfl
@[simp] theorem State.onPart_channels (s : State) (p : Nat) (f : PartState → PartState) : (s.onPart p f).channels = s.channels := rfl
@[simp] theorem State.onPart_layout (s : State) (p : Nat) (f : PartState → PartState) : (s.onPart p f).layout = s.layout := rfl
@[simp] theorem State.onPart_rp (s : State) (p : Nat) (f : PartState → PartState) : (s.onPart p f).rp = s.rp := rfl
@[simp] theorem State.onPart_links (s : State) (p : Nat) (f : PartState → PartState) : (s.onPart p f).links = s.links := rfl
@[simp] theorem State.onPart_health (s : State) (p : Nat) (f : PartState → PartState) : (s.onPart p f).health = s.health := rfl
@[simp] theorem State.onPart_hostRoot (s : State) (p : Nat) (f : PartState → PartState) : (s.onPart p f).hostRoot = s.hostRoot := rfl
@[simp] theorem State.onPart_nextId (s : State) (p : Nat) (f : PartState → PartState) : (s.onPart p f).nextId = s.nextId := rfl
@[simp] theorem State.onPart_turns (s : State) (p : Nat) (f : PartState → PartState) : (s.onPart p f).turns = s.turns := rfl
@[simp] theorem State.onPart_choices (s : State) (p : Nat) (f : PartState → PartState) : (s.onPart p f).choices = s.choices := rfl
@[simp] theorem State.onPart_free (s : State) (p : Nat) (f : PartState → PartState) : (s.onPart p f).free = s.free := rfl

/-! ## `State.setPot` -/

@[simp] theorem State.setPot_cur (s : State) (i : Nat) (e : PotEntry) : (s.setPot i e).cur = s.cur := rfl
@[simp] theorem State.setPot_others (s : State) (i : Nat) (e : PotEntry) : (s.setPot i e).others = s.others := rfl
@[simp] theorem State.setPot_mem (s : State) (i : Nat) (e : PotEntry) : (s.setPot i e).mem = s.mem := rfl
@[simp] theorem State.setPot_enclaves (s : State) (i : Nat) (e : PotEntry) : (s.setPot i e).enclaves = s.enclaves := rfl
@[simp] theorem State.setPot_ops (s : State) (i : Nat) (e : PotEntry) : (s.setPot i e).ops = s.ops := rfl
@[simp] theorem State.setPot_fills (s : State) (i : Nat) (e : PotEntry) : (s.setPot i e).fills = s.fills := rfl
@[simp] theorem State.setPot_chunks (s : State) (i : Nat) (e : PotEntry) : (s.setPot i e).chunks = s.chunks := rfl
@[simp] theorem State.setPot_codeLines (s : State) (i : Nat) (e : PotEntry) : (s.setPot i e).codeLines = s.codeLines := rfl
@[simp] theorem State.setPot_launches (s : State) (i : Nat) (e : PotEntry) : (s.setPot i e).launches = s.launches := rfl
@[simp] theorem State.setPot_wgs (s : State) (i : Nat) (e : PotEntry) : (s.setPot i e).wgs = s.wgs := rfl
@[simp] theorem State.setPot_parts (s : State) (i : Nat) (e : PotEntry) : (s.setPot i e).parts = s.parts := rfl
@[simp] theorem State.setPot_exits (s : State) (i : Nat) (e : PotEntry) : (s.setPot i e).exits = s.exits := rfl
@[simp] theorem State.setPot_channels (s : State) (i : Nat) (e : PotEntry) : (s.setPot i e).channels = s.channels := rfl
@[simp] theorem State.setPot_layout (s : State) (i : Nat) (e : PotEntry) : (s.setPot i e).layout = s.layout := rfl
@[simp] theorem State.setPot_rp (s : State) (i : Nat) (e : PotEntry) : (s.setPot i e).rp = s.rp := rfl
@[simp] theorem State.setPot_links (s : State) (i : Nat) (e : PotEntry) : (s.setPot i e).links = s.links := rfl
@[simp] theorem State.setPot_health (s : State) (i : Nat) (e : PotEntry) : (s.setPot i e).health = s.health := rfl
@[simp] theorem State.setPot_hostRoot (s : State) (i : Nat) (e : PotEntry) : (s.setPot i e).hostRoot = s.hostRoot := rfl
@[simp] theorem State.setPot_nextId (s : State) (i : Nat) (e : PotEntry) : (s.setPot i e).nextId = s.nextId := rfl
@[simp] theorem State.setPot_turns (s : State) (i : Nat) (e : PotEntry) : (s.setPot i e).turns = s.turns := rfl
@[simp] theorem State.setPot_choices (s : State) (i : Nat) (e : PotEntry) : (s.setPot i e).choices = s.choices := rfl
@[simp] theorem State.setPot_free (s : State) (i : Nat) (e : PotEntry) : (s.setPot i e).free = s.free := rfl

/-! ## `State.mapAgents` -/

@[simp] theorem State.mapAgents_mem (s : State) (f : Agent → Agent) : (s.mapAgents f).mem = s.mem := rfl
@[simp] theorem State.mapAgents_pot (s : State) (f : Agent → Agent) : (s.mapAgents f).pot = s.pot := rfl
@[simp] theorem State.mapAgents_enclaves (s : State) (f : Agent → Agent) : (s.mapAgents f).enclaves = s.enclaves := rfl
@[simp] theorem State.mapAgents_ops (s : State) (f : Agent → Agent) : (s.mapAgents f).ops = s.ops := rfl
@[simp] theorem State.mapAgents_fills (s : State) (f : Agent → Agent) : (s.mapAgents f).fills = s.fills := rfl
@[simp] theorem State.mapAgents_chunks (s : State) (f : Agent → Agent) : (s.mapAgents f).chunks = s.chunks := rfl
@[simp] theorem State.mapAgents_codeLines (s : State) (f : Agent → Agent) : (s.mapAgents f).codeLines = s.codeLines := rfl
@[simp] theorem State.mapAgents_launches (s : State) (f : Agent → Agent) : (s.mapAgents f).launches = s.launches := rfl
@[simp] theorem State.mapAgents_wgs (s : State) (f : Agent → Agent) : (s.mapAgents f).wgs = s.wgs := rfl
@[simp] theorem State.mapAgents_parts (s : State) (f : Agent → Agent) : (s.mapAgents f).parts = s.parts := rfl
@[simp] theorem State.mapAgents_exits (s : State) (f : Agent → Agent) : (s.mapAgents f).exits = s.exits := rfl
@[simp] theorem State.mapAgents_channels (s : State) (f : Agent → Agent) : (s.mapAgents f).channels = s.channels := rfl
@[simp] theorem State.mapAgents_layout (s : State) (f : Agent → Agent) : (s.mapAgents f).layout = s.layout := rfl
@[simp] theorem State.mapAgents_rp (s : State) (f : Agent → Agent) : (s.mapAgents f).rp = s.rp := rfl
@[simp] theorem State.mapAgents_links (s : State) (f : Agent → Agent) : (s.mapAgents f).links = s.links := rfl
@[simp] theorem State.mapAgents_health (s : State) (f : Agent → Agent) : (s.mapAgents f).health = s.health := rfl
@[simp] theorem State.mapAgents_hostRoot (s : State) (f : Agent → Agent) : (s.mapAgents f).hostRoot = s.hostRoot := rfl
@[simp] theorem State.mapAgents_nextId (s : State) (f : Agent → Agent) : (s.mapAgents f).nextId = s.nextId := rfl
@[simp] theorem State.mapAgents_turns (s : State) (f : Agent → Agent) : (s.mapAgents f).turns = s.turns := rfl
@[simp] theorem State.mapAgents_choices (s : State) (f : Agent → Agent) : (s.mapAgents f).choices = s.choices := rfl
@[simp] theorem State.mapAgents_free (s : State) (f : Agent → Agent) : (s.mapAgents f).free = s.free := rfl

/-! ## `State.claiming` -/

@[simp] theorem State.claiming_cur (s t : State) : (s.claiming t).cur = s.cur := rfl
@[simp] theorem State.claiming_others (s t : State) : (s.claiming t).others = s.others := rfl
@[simp] theorem State.claiming_enclaves (s t : State) : (s.claiming t).enclaves = s.enclaves := rfl
@[simp] theorem State.claiming_ops (s t : State) : (s.claiming t).ops = s.ops := rfl
@[simp] theorem State.claiming_fills (s t : State) : (s.claiming t).fills = s.fills := rfl
@[simp] theorem State.claiming_chunks (s t : State) : (s.claiming t).chunks = s.chunks := rfl
@[simp] theorem State.claiming_codeLines (s t : State) : (s.claiming t).codeLines = s.codeLines := rfl
@[simp] theorem State.claiming_launches (s t : State) : (s.claiming t).launches = s.launches := rfl
@[simp] theorem State.claiming_wgs (s t : State) : (s.claiming t).wgs = s.wgs := rfl
@[simp] theorem State.claiming_parts (s t : State) : (s.claiming t).parts = s.parts := rfl
@[simp] theorem State.claiming_exits (s t : State) : (s.claiming t).exits = s.exits := rfl
@[simp] theorem State.claiming_channels (s t : State) : (s.claiming t).channels = s.channels := rfl
@[simp] theorem State.claiming_layout (s t : State) : (s.claiming t).layout = s.layout := rfl
@[simp] theorem State.claiming_rp (s t : State) : (s.claiming t).rp = s.rp := rfl
@[simp] theorem State.claiming_links (s t : State) : (s.claiming t).links = s.links := rfl
@[simp] theorem State.claiming_health (s t : State) : (s.claiming t).health = s.health := rfl
@[simp] theorem State.claiming_hostRoot (s t : State) : (s.claiming t).hostRoot = s.hostRoot := rfl
@[simp] theorem State.claiming_nextId (s t : State) : (s.claiming t).nextId = s.nextId := rfl
@[simp] theorem State.claiming_turns (s t : State) : (s.claiming t).turns = s.turns := rfl
@[simp] theorem State.claiming_choices (s t : State) : (s.claiming t).choices = s.choices := rfl
@[simp] theorem State.claiming_free (s t : State) : (s.claiming t).free = s.free := rfl

/-! ## `State.keepClaims` -/

@[simp] theorem State.keepClaims_cur (s t : State) : (s.keepClaims t).cur = s.cur := rfl
@[simp] theorem State.keepClaims_others (s t : State) : (s.keepClaims t).others = s.others := rfl
@[simp] theorem State.keepClaims_enclaves (s t : State) : (s.keepClaims t).enclaves = s.enclaves := rfl
@[simp] theorem State.keepClaims_ops (s t : State) : (s.keepClaims t).ops = s.ops := rfl
@[simp] theorem State.keepClaims_fills (s t : State) : (s.keepClaims t).fills = s.fills := rfl
@[simp] theorem State.keepClaims_chunks (s t : State) : (s.keepClaims t).chunks = s.chunks := rfl
@[simp] theorem State.keepClaims_codeLines (s t : State) : (s.keepClaims t).codeLines = s.codeLines := rfl
@[simp] theorem State.keepClaims_launches (s t : State) : (s.keepClaims t).launches = s.launches := rfl
@[simp] theorem State.keepClaims_wgs (s t : State) : (s.keepClaims t).wgs = s.wgs := rfl
@[simp] theorem State.keepClaims_parts (s t : State) : (s.keepClaims t).parts = s.parts := rfl
@[simp] theorem State.keepClaims_exits (s t : State) : (s.keepClaims t).exits = s.exits := rfl
@[simp] theorem State.keepClaims_channels (s t : State) : (s.keepClaims t).channels = s.channels := rfl
@[simp] theorem State.keepClaims_layout (s t : State) : (s.keepClaims t).layout = s.layout := rfl
@[simp] theorem State.keepClaims_rp (s t : State) : (s.keepClaims t).rp = s.rp := rfl
@[simp] theorem State.keepClaims_links (s t : State) : (s.keepClaims t).links = s.links := rfl
@[simp] theorem State.keepClaims_health (s t : State) : (s.keepClaims t).health = s.health := rfl
@[simp] theorem State.keepClaims_hostRoot (s t : State) : (s.keepClaims t).hostRoot = s.hostRoot := rfl
@[simp] theorem State.keepClaims_nextId (s t : State) : (s.keepClaims t).nextId = s.nextId := rfl
@[simp] theorem State.keepClaims_turns (s t : State) : (s.keepClaims t).turns = s.turns := rfl
@[simp] theorem State.keepClaims_choices (s t : State) : (s.keepClaims t).choices = s.choices := rfl
@[simp] theorem State.keepClaims_free (s t : State) : (s.keepClaims t).free = s.free := rfl

/-! ## Registers of an agent -/

@[simp] theorem Agent.advance_id (a : Agent) (n : Word) : (a.advance n).id = a.id := rfl
@[simp] theorem Agent.advance_kind (a : Agent) (n : Word) : (a.advance n).kind = a.kind := rfl
@[simp] theorem Agent.advance_enc (a : Agent) (n : Word) : (a.advance n).enc = a.enc := rfl
@[simp] theorem Agent.advance_part (a : Agent) (n : Word) : (a.advance n).part = a.part := rfl
@[simp] theorem Agent.advance_wg (a : Agent) (n : Word) : (a.advance n).wg = a.wg := rfl
@[simp] theorem Agent.advance_die (a : Agent) (n : Word) : (a.advance n).die = a.die := rfl
@[simp] theorem Agent.advance_core (a : Agent) (n : Word) : (a.advance n).core = a.core := rfl
@[simp] theorem Agent.advance_status (a : Agent) (n : Word) : (a.advance n).status = a.status := rfl
@[simp] theorem Agent.advance_level (a : Agent) (n : Word) : (a.advance n).level = a.level := rfl
@[simp] theorem Agent.advance_regs (a : Agent) (n : Word) : (a.advance n).regs = a.regs := rfl
@[simp] theorem Agent.advance_gsize (a : Agent) (n : Word) : (a.advance n).gsize = a.gsize := rfl
@[simp] theorem Agent.advance_width (a : Agent) (n : Word) : (a.advance n).width = a.width := rfl
@[simp] theorem Agent.advance_seenWidth (a : Agent) (n : Word) : (a.advance n).seenWidth = a.seenWidth := rfl
@[simp] theorem Agent.advance_contract (a : Agent) (n : Word) : (a.advance n).contract = a.contract := rfl
@[simp] theorem Agent.advance_budget (a : Agent) (n : Word) : (a.advance n).budget = a.budget := rfl
@[simp] theorem Agent.advance_ids (a : Agent) (n : Word) : (a.advance n).ids = a.ids := rfl
@[simp] theorem Agent.advance_gchg (a : Agent) (n : Word) : (a.advance n).gchg = a.gchg := rfl
@[simp] theorem Agent.advance_clamped (a : Agent) (n : Word) : (a.advance n).clamped = a.clamped := rfl
@[simp] theorem Agent.advance_rmode (a : Agent) (n : Word) : (a.advance n).rmode = a.rmode := rfl
@[simp] theorem Agent.advance_flush (a : Agent) (n : Word) : (a.advance n).flush = a.flush := rfl
@[simp] theorem Agent.advance_fflags (a : Agent) (n : Word) : (a.advance n).fflags = a.fflags := rfl
@[simp] theorem Agent.advance_trap (a : Agent) (n : Word) : (a.advance n).trap = a.trap := rfl
@[simp] theorem Agent.advance_shadow (a : Agent) (n : Word) : (a.advance n).shadow = a.shadow := rfl
@[simp] theorem Agent.advance_lane (a : Agent) (n : Word) : (a.advance n).lane = a.lane := rfl
@[simp] theorem Agent.advance_sync (a : Agent) (n : Word) : (a.advance n).sync = a.sync := rfl
@[simp] theorem Agent.advance_sched (a : Agent) (n : Word) : (a.advance n).sched = a.sched := rfl
@[simp] theorem Agent.advance_code (a : Agent) (n : Word) : (a.advance n).code = a.code := rfl
@[simp] theorem Agent.advance_leaving (a : Agent) (n : Word) : (a.advance n).leaving = a.leaving := rfl
@[simp] theorem Agent.advance_homeSeen (a : Agent) (n : Word) : (a.advance n).homeSeen = a.homeSeen := rfl
@[simp] theorem Agent.advance_relClock (a : Agent) (n : Word) : (a.advance n).relClock = a.relClock := rfl
@[simp] theorem Agent.advance_fabricClock (a : Agent) (n : Word) : (a.advance n).fabricClock = a.fabricClock := rfl
@[simp] theorem Agent.advance_snapshot (a : Agent) (n : Word) : (a.advance n).snapshot = a.snapshot := rfl
@[simp] theorem Agent.advance_savedWidth (a : Agent) (n : Word) : (a.advance n).savedWidth = a.savedWidth := rfl
@[simp] theorem Agent.advance_pendingScalars (a : Agent) (n : Word) : (a.advance n).pendingScalars = a.pendingScalars := rfl
@[simp] theorem Agent.advance_preempting (a : Agent) (n : Word) : (a.advance n).preempting = a.preempting := rfl
@[simp] theorem Agent.advance_slotIdx (a : Agent) (n : Word) : (a.advance n).slotIdx = a.slotIdx := rfl
@[simp] theorem Agent.advance_pc (a : Agent) (n : Word) : (a.advance n).pc = a.pc + n := rfl
@[simp] theorem Agent.goto_id (a : Agent) (p : Word) : (a.goto p).id = a.id := rfl
@[simp] theorem Agent.goto_kind (a : Agent) (p : Word) : (a.goto p).kind = a.kind := rfl
@[simp] theorem Agent.goto_enc (a : Agent) (p : Word) : (a.goto p).enc = a.enc := rfl
@[simp] theorem Agent.goto_part (a : Agent) (p : Word) : (a.goto p).part = a.part := rfl
@[simp] theorem Agent.goto_wg (a : Agent) (p : Word) : (a.goto p).wg = a.wg := rfl
@[simp] theorem Agent.goto_die (a : Agent) (p : Word) : (a.goto p).die = a.die := rfl
@[simp] theorem Agent.goto_core (a : Agent) (p : Word) : (a.goto p).core = a.core := rfl
@[simp] theorem Agent.goto_status (a : Agent) (p : Word) : (a.goto p).status = a.status := rfl
@[simp] theorem Agent.goto_level (a : Agent) (p : Word) : (a.goto p).level = a.level := rfl
@[simp] theorem Agent.goto_regs (a : Agent) (p : Word) : (a.goto p).regs = a.regs := rfl
@[simp] theorem Agent.goto_gsize (a : Agent) (p : Word) : (a.goto p).gsize = a.gsize := rfl
@[simp] theorem Agent.goto_width (a : Agent) (p : Word) : (a.goto p).width = a.width := rfl
@[simp] theorem Agent.goto_seenWidth (a : Agent) (p : Word) : (a.goto p).seenWidth = a.seenWidth := rfl
@[simp] theorem Agent.goto_contract (a : Agent) (p : Word) : (a.goto p).contract = a.contract := rfl
@[simp] theorem Agent.goto_budget (a : Agent) (p : Word) : (a.goto p).budget = a.budget := rfl
@[simp] theorem Agent.goto_ids (a : Agent) (p : Word) : (a.goto p).ids = a.ids := rfl
@[simp] theorem Agent.goto_gchg (a : Agent) (p : Word) : (a.goto p).gchg = a.gchg := rfl
@[simp] theorem Agent.goto_clamped (a : Agent) (p : Word) : (a.goto p).clamped = a.clamped := rfl
@[simp] theorem Agent.goto_rmode (a : Agent) (p : Word) : (a.goto p).rmode = a.rmode := rfl
@[simp] theorem Agent.goto_flush (a : Agent) (p : Word) : (a.goto p).flush = a.flush := rfl
@[simp] theorem Agent.goto_fflags (a : Agent) (p : Word) : (a.goto p).fflags = a.fflags := rfl
@[simp] theorem Agent.goto_trap (a : Agent) (p : Word) : (a.goto p).trap = a.trap := rfl
@[simp] theorem Agent.goto_shadow (a : Agent) (p : Word) : (a.goto p).shadow = a.shadow := rfl
@[simp] theorem Agent.goto_lane (a : Agent) (p : Word) : (a.goto p).lane = a.lane := rfl
@[simp] theorem Agent.goto_sync (a : Agent) (p : Word) : (a.goto p).sync = a.sync := rfl
@[simp] theorem Agent.goto_sched (a : Agent) (p : Word) : (a.goto p).sched = a.sched := rfl
@[simp] theorem Agent.goto_code (a : Agent) (p : Word) : (a.goto p).code = a.code := rfl
@[simp] theorem Agent.goto_leaving (a : Agent) (p : Word) : (a.goto p).leaving = a.leaving := rfl
@[simp] theorem Agent.goto_homeSeen (a : Agent) (p : Word) : (a.goto p).homeSeen = a.homeSeen := rfl
@[simp] theorem Agent.goto_relClock (a : Agent) (p : Word) : (a.goto p).relClock = a.relClock := rfl
@[simp] theorem Agent.goto_fabricClock (a : Agent) (p : Word) : (a.goto p).fabricClock = a.fabricClock := rfl
@[simp] theorem Agent.goto_snapshot (a : Agent) (p : Word) : (a.goto p).snapshot = a.snapshot := rfl
@[simp] theorem Agent.goto_savedWidth (a : Agent) (p : Word) : (a.goto p).savedWidth = a.savedWidth := rfl
@[simp] theorem Agent.goto_pendingScalars (a : Agent) (p : Word) : (a.goto p).pendingScalars = a.pendingScalars := rfl
@[simp] theorem Agent.goto_preempting (a : Agent) (p : Word) : (a.goto p).preempting = a.preempting := rfl
@[simp] theorem Agent.goto_slotIdx (a : Agent) (p : Word) : (a.goto p).slotIdx = a.slotIdx := rfl
@[simp] theorem Agent.goto_pc (a : Agent) (p : Word) : (a.goto p).pc = p := rfl
@[simp] theorem Agent.setS_id (a : Agent) (r : BitVec 6) (x : Word) : (a.setS r x).id = a.id := by unfold Agent.setS; split <;> rfl
@[simp] theorem Agent.setS_kind (a : Agent) (r : BitVec 6) (x : Word) : (a.setS r x).kind = a.kind := by unfold Agent.setS; split <;> rfl
@[simp] theorem Agent.setS_enc (a : Agent) (r : BitVec 6) (x : Word) : (a.setS r x).enc = a.enc := by unfold Agent.setS; split <;> rfl
@[simp] theorem Agent.setS_part (a : Agent) (r : BitVec 6) (x : Word) : (a.setS r x).part = a.part := by unfold Agent.setS; split <;> rfl
@[simp] theorem Agent.setS_wg (a : Agent) (r : BitVec 6) (x : Word) : (a.setS r x).wg = a.wg := by unfold Agent.setS; split <;> rfl
@[simp] theorem Agent.setS_die (a : Agent) (r : BitVec 6) (x : Word) : (a.setS r x).die = a.die := by unfold Agent.setS; split <;> rfl
@[simp] theorem Agent.setS_core (a : Agent) (r : BitVec 6) (x : Word) : (a.setS r x).core = a.core := by unfold Agent.setS; split <;> rfl
@[simp] theorem Agent.setS_status (a : Agent) (r : BitVec 6) (x : Word) : (a.setS r x).status = a.status := by unfold Agent.setS; split <;> rfl
@[simp] theorem Agent.setS_level (a : Agent) (r : BitVec 6) (x : Word) : (a.setS r x).level = a.level := by unfold Agent.setS; split <;> rfl
@[simp] theorem Agent.setS_pc (a : Agent) (r : BitVec 6) (x : Word) : (a.setS r x).pc = a.pc := by unfold Agent.setS; split <;> rfl
@[simp] theorem Agent.setS_gsize (a : Agent) (r : BitVec 6) (x : Word) : (a.setS r x).gsize = a.gsize := by unfold Agent.setS; split <;> rfl
@[simp] theorem Agent.setS_width (a : Agent) (r : BitVec 6) (x : Word) : (a.setS r x).width = a.width := by unfold Agent.setS; split <;> rfl
@[simp] theorem Agent.setS_seenWidth (a : Agent) (r : BitVec 6) (x : Word) : (a.setS r x).seenWidth = a.seenWidth := by unfold Agent.setS; split <;> rfl
@[simp] theorem Agent.setS_contract (a : Agent) (r : BitVec 6) (x : Word) : (a.setS r x).contract = a.contract := by unfold Agent.setS; split <;> rfl
@[simp] theorem Agent.setS_budget (a : Agent) (r : BitVec 6) (x : Word) : (a.setS r x).budget = a.budget := by unfold Agent.setS; split <;> rfl
@[simp] theorem Agent.setS_ids (a : Agent) (r : BitVec 6) (x : Word) : (a.setS r x).ids = a.ids := by unfold Agent.setS; split <;> rfl
@[simp] theorem Agent.setS_gchg (a : Agent) (r : BitVec 6) (x : Word) : (a.setS r x).gchg = a.gchg := by unfold Agent.setS; split <;> rfl
@[simp] theorem Agent.setS_clamped (a : Agent) (r : BitVec 6) (x : Word) : (a.setS r x).clamped = a.clamped := by unfold Agent.setS; split <;> rfl
@[simp] theorem Agent.setS_rmode (a : Agent) (r : BitVec 6) (x : Word) : (a.setS r x).rmode = a.rmode := by unfold Agent.setS; split <;> rfl
@[simp] theorem Agent.setS_flush (a : Agent) (r : BitVec 6) (x : Word) : (a.setS r x).flush = a.flush := by unfold Agent.setS; split <;> rfl
@[simp] theorem Agent.setS_fflags (a : Agent) (r : BitVec 6) (x : Word) : (a.setS r x).fflags = a.fflags := by unfold Agent.setS; split <;> rfl
@[simp] theorem Agent.setS_trap (a : Agent) (r : BitVec 6) (x : Word) : (a.setS r x).trap = a.trap := by unfold Agent.setS; split <;> rfl
@[simp] theorem Agent.setS_shadow (a : Agent) (r : BitVec 6) (x : Word) : (a.setS r x).shadow = a.shadow := by unfold Agent.setS; split <;> rfl
@[simp] theorem Agent.setS_lane (a : Agent) (r : BitVec 6) (x : Word) : (a.setS r x).lane = a.lane := by unfold Agent.setS; split <;> rfl
@[simp] theorem Agent.setS_sync (a : Agent) (r : BitVec 6) (x : Word) : (a.setS r x).sync = a.sync := by unfold Agent.setS; split <;> rfl
@[simp] theorem Agent.setS_sched (a : Agent) (r : BitVec 6) (x : Word) : (a.setS r x).sched = a.sched := by unfold Agent.setS; split <;> rfl
@[simp] theorem Agent.setS_code (a : Agent) (r : BitVec 6) (x : Word) : (a.setS r x).code = a.code := by unfold Agent.setS; split <;> rfl
@[simp] theorem Agent.setS_leaving (a : Agent) (r : BitVec 6) (x : Word) : (a.setS r x).leaving = a.leaving := by unfold Agent.setS; split <;> rfl
@[simp] theorem Agent.setS_homeSeen (a : Agent) (r : BitVec 6) (x : Word) : (a.setS r x).homeSeen = a.homeSeen := by unfold Agent.setS; split <;> rfl
@[simp] theorem Agent.setS_relClock (a : Agent) (r : BitVec 6) (x : Word) : (a.setS r x).relClock = a.relClock := by unfold Agent.setS; split <;> rfl
@[simp] theorem Agent.setS_fabricClock (a : Agent) (r : BitVec 6) (x : Word) : (a.setS r x).fabricClock = a.fabricClock := by unfold Agent.setS; split <;> rfl
@[simp] theorem Agent.setS_snapshot (a : Agent) (r : BitVec 6) (x : Word) : (a.setS r x).snapshot = a.snapshot := by unfold Agent.setS; split <;> rfl
@[simp] theorem Agent.setS_savedWidth (a : Agent) (r : BitVec 6) (x : Word) : (a.setS r x).savedWidth = a.savedWidth := by unfold Agent.setS; split <;> rfl
@[simp] theorem Agent.setS_pendingScalars (a : Agent) (r : BitVec 6) (x : Word) : (a.setS r x).pendingScalars = a.pendingScalars := by unfold Agent.setS; split <;> rfl
@[simp] theorem Agent.setS_preempting (a : Agent) (r : BitVec 6) (x : Word) : (a.setS r x).preempting = a.preempting := by unfold Agent.setS; split <;> rfl
@[simp] theorem Agent.setS_slotIdx (a : Agent) (r : BitVec 6) (x : Word) : (a.setS r x).slotIdx = a.slotIdx := by unfold Agent.setS; split <;> rfl

theorem Agent.setS_zero (a : Agent) (x : Word) : a.setS 0 x = a := rfl

theorem Agent.setS_of_ne {a : Agent} {r : BitVec 6} (h : r ≠ 0) (x : Word) :
    a.setS r x = { a with regs := { a.regs with s := a.regs.s.set r.toNat x } } := by
  unfold Agent.setS
  rw [if_neg h]

@[simp] theorem Agent.rs_zero (a : Agent) : a.rs 0 = 0 := rfl
@[simp] theorem Agent.rs_advance (a : Agent) (n : Word) (r : BitVec 6) : (a.advance n).rs r = a.rs r := rfl
@[simp] theorem Agent.rs_goto (a : Agent) (p : Word) (r : BitVec 6) : (a.goto p).rs r = a.rs r := rfl

/-- A scalar register reads what was last written to it; s0 reads zero. -/
theorem Agent.rs_setS (a : Agent) (d r : BitVec 6) (x : Word) :
    (a.setS d x).rs r = if r = d ∧ d ≠ 0 then x else a.rs r := by
  by_cases hr : r = 0
  · subst hr
    rw [Agent.rs_zero, Agent.rs_zero]
    split
    · next h => exact absurd h.1.symm h.2
    · rfl
  · by_cases hd : d = 0
    · subst hd
      rw [Agent.setS_zero, if_neg fun h => h.2 rfl]
    · rw [Agent.setS_of_ne hd]
      unfold Agent.rs
      rw [if_neg hr, if_neg hr]
      by_cases h : r = d
      · subst h
        rw [if_pos ⟨rfl, hd⟩]
        exact Vector.getElem_set_self r.isLt
      · have hn : d.toNat ≠ r.toNat := fun e => h (BitVec.eq_of_toNat_eq e.symm)
        rw [if_neg fun e => h e.1]
        exact Vector.getElem_set_ne d.isLt r.isLt hn

@[simp] theorem Agent.mask_setS (a : Agent) (d : BitVec 6) (x : Word) (k : BitVec 4) : (a.setS d x).mask k = a.mask k := by
  unfold Agent.setS
  split <;> rfl

@[simp] theorem Agent.laneDrained_setS (a : Agent) (d : BitVec 6) (x : Word) : (a.setS d x).laneDrained = a.laneDrained := by
  unfold Agent.setS
  split <;> rfl

@[simp] theorem Agent.laneDrained_advance (a : Agent) (n : Word) : (a.advance n).laneDrained = a.laneDrained := rfl

theorem State.write_as_withPc (s : State) (d : BitVec 6) (x : Word) :
    s.write d x = ({ s with cur := s.cur.setS d x }).withPc (s.cur.pc + 4) := by
  unfold State.write State.withPc State.onCur Agent.advance
  simp

theorem State.advance_eq_withPc (s : State) : s.advance = s.withPc (s.cur.pc + 4) := rfl
theorem State.onCur_onCur (s : State) (f g : Agent → Agent) : (s.onCur f).onCur g = s.onCur fun a => g (f a) := rfl
theorem State.onCur_same (s : State) : (s.onCur fun a => a) = s := rfl

end Sys2Proof.Machine
end

