-- ==== Sys2Proof/Laws/Ops.lean ====
section
/-!
SUPPORT. What the shared operations can do, said once each: the ways an effect ends, the frame of an effect by its
parts, trap entry, levels and waits, scopes, and that accesses keep memory in canonical form.
-/
namespace Sys2Proof.Machine

variable {α β : Type}

/-! ## How an instruction given by effects ends -/

/-- An instruction given by its effects ends in a next state: the state that they reach; or after a trap the state
before them with what a walk has claimed, in which the trap is taken; or the state before them in a wait. -/
theorem runX_cases {x : X Unit} {s u : State} (h : runX x s = .next u) :
    (∃ t, x s = .ok () t ∧ u = t) ∨
    (∃ c v ipa t, x s = .error (.trap c v ipa) t ∧ u = (s.keepClaims t).takeTrap c v ipa) ∨
    (∃ w t, x s = .error (.wait w) t ∧ u = s.waitFor w) ∨
    (∃ f va t, x s = .error (.fill f va) t ∧ u = (s.keepWalk t).awaitFill f va) := by
  unfold runX State.after at h
  cases hx : x s with
  | ok a t =>
    rw [hx] at h
    cases h
    exact .inl ⟨t, rfl, rfl⟩
  | error e t =>
    rw [hx] at h
    cases e with
    | trap c v ipa => cases h; exact .inr (.inl ⟨c, v, ipa, t, rfl, rfl⟩)
    | fill f va => cases h; exact .inr (.inr (.inr ⟨f, va, t, rfl, rfl⟩))
    | wait w => cases h; exact .inr (.inr (.inl ⟨w, t, rfl, rfl⟩))

/-- Where a trap is taken: in a restore routine, in a save routine, in a handler, or elsewhere; the cause STAGE2 first
leaves its IPA. -/
theorem takeTrap_cases (s : State) (c : Cause) (v : Word) (ipa : Nat) :
    ∃ t : State, t = (if c = cStage2 then s.onCur fun a => { a with trap := { a.trap with s2ipa := ipa } } else s) ∧
      ((t.cur.trap.inRestore = true ∧ s.takeTrap c v ipa = t.restoreFails) ∨
       (t.cur.trap.inRestore = false ∧ t.cur.trap.inSave = true ∧ s.takeTrap c v ipa = t.forcedSave t.cur.id) ∨
       (t.cur.trap.inRestore = false ∧ t.cur.trap.inSave = false ∧ t.cur.trap.hm = true ∧ t.cur.isH = true ∧
          s.takeTrap c v ipa = t.onCur fun a => { a with status := .stopped }) ∨
       (t.cur.trap.inRestore = false ∧ t.cur.trap.inSave = false ∧ t.cur.trap.hm = true ∧ t.cur.isH = false ∧
          s.takeTrap c v ipa = t.exitAgent c) ∨
       (t.cur.trap.inRestore = false ∧ t.cur.trap.inSave = false ∧ t.cur.trap.hm = false ∧
          s.takeTrap c v ipa = t.enterTrap c v)) := by
  refine ⟨_, rfl, ?_⟩
  unfold State.takeTrap
  generalize (if c = cStage2 then s.onCur fun a => { a with trap := { a.trap with s2ipa := ipa } } else s) = t
  dsimp only
  cases h1 : t.cur.trap.inRestore with
  | true => exact .inl ⟨rfl, rfl⟩
  | false =>
    cases h2 : t.cur.trap.inSave with
    | true => exact .inr (.inl ⟨rfl, rfl, rfl⟩)
    | false =>
      cases h3 : t.cur.trap.hm with
      | false => exact .inr (.inr (.inr (.inr ⟨rfl, rfl, rfl, rfl⟩)))
      | true =>
        cases h4 : t.cur.isH with
        | true => exact .inr (.inr (.inl ⟨rfl, rfl, rfl, rfl, rfl⟩))
        | false => exact .inr (.inr (.inr (.inl ⟨rfl, rfl, rfl, rfl, rfl⟩)))

theorem needLevel_of_le {l : Level} {s : State} (h : l.num ≤ s.cur.level.num) (k : Out) : needLevel l s k = k := by
  unfold needLevel
  rw [if_neg (Nat.not_lt.mpr h)]

theorem needLevel_of_lt {l : Level} {s : State} (h : s.cur.level.num < l.num) (k : Out) :
    needLevel l s k = trapOut s cPrivilege := by
  unfold needLevel
  rw [if_pos h]

/-- What `CheckScope` answers: the scope as it is, or 0 on a control thread; the policy's with GSTAT marked; or the trap. -/
theorem checkScope_cases (n : Nat) (s : State) :
    (∃ k, checkScope n s = .ok k s) ∨
    ((s.policy s.cur).maxScope < n ∧
      checkScope n s = .ok (s.policy s.cur).maxScope (s.onCur fun a => { a with clamped := true })) ∨
    checkScope n s = .error (.trap cScopeClamp (BitVec.ofNat 64 (n + 16 * (s.policy s.cur).maxScope))) s := by
  unfold checkScope
  rw [X.bind_of_ok (X.get_run s)]
  unfold clampScope
  by_cases hh : s.cur.isH = true
  · simp only [hh, if_true]
    exact .inl ⟨_, rfl⟩
  · simp only [hh, Bool.false_eq_true, if_false]
    by_cases hm : (s.policy s.cur).maxScope < n
    · simp only [hm, if_true]
      by_cases ht : (s.policy s.cur).clampTrap = true
      · simp only [ht, if_true]
        exact .inr (.inr rfl)
      · simp only [ht, Bool.false_eq_true, if_false]
        exact .inr (.inl ⟨trivial, rfl⟩)
    · simp only [hm, if_false]
      exact .inl ⟨_, rfl⟩

/-! ## The frame of an effect, by its parts -/

/-- Whatever way `x` ends, the state that it reaches stands in `R` to the state that it began in. -/
def X.Keeps (R : State → State → Prop) (x : X α) : Prop :=
  ∀ s, (∀ a t, x s = .ok a t → R s t) ∧ ∀ e t, x s = .error e t → R s t

/-- A relation that holds of a state and itself, and across two stages. -/
structure StateRel (R : State → State → Prop) : Prop where
  refl : ∀ s, R s s
  trans : ∀ {s t u}, R s t → R t u → R s u

namespace X.Keeps

variable {R : State → State → Prop} (hR : StateRel R)
include hR

theorem pure (a : α) : X.Keeps R (Pure.pure a : X α) := fun s =>
  ⟨fun _ _ h => by cases h; exact hR.refl s, fun _ _ h => by cases h⟩

theorem throw (e : Stop) : X.Keeps R (MonadExcept.throw e : X α) := fun s =>
  ⟨fun _ _ h => (by cases h), fun _ _ h => by cases h; exact hR.refl s⟩

theorem get : X.Keeps R (MonadState.get : X State) := fun s =>
  ⟨fun _ _ h => by cases h; exact hR.refl s, fun _ _ h => by cases h⟩

theorem trap (c : Cause) (v : Word) : X.Keeps R (X.trap c v : X α) := throw hR _
theorem trapN (c : Cause) (v : Nat) : X.Keeps R (X.trapN c v : X α) := throw hR _
theorem waitOn (w : Wait) : X.Keeps R (X.waitOn w) := throw hR _

theorem bind {x : X α} {f : α → X β} (hx : X.Keeps R x) (hf : ∀ a, X.Keeps R (f a)) : X.Keeps R (x >>= f) := fun s => by
  cases h : x s with
  | ok a t =>
    rw [X.bind_of_ok h]
    have ht := (hx s).1 a t h
    exact ⟨fun b u hu => hR.trans ht ((hf a t).1 b u hu), fun e u hu => hR.trans ht ((hf a t).2 e u hu)⟩
  | error e t =>
    rw [X.bind_of_error h]
    exact ⟨fun _ _ hu => (by cases hu), fun _ _ hu => by cases hu; exact (hx s).2 e t h⟩

theorem check (b : Bool) (c : Cause) (v : Word) : X.Keeps R (X.check b c v) := by
  cases b
  · exact throw hR _
  · exact pure hR _

theorem aligned (va : Word) (n : Nat) : X.Keeps R (X.aligned va n) := check hR _ _ _
theorem cur : X.Keeps R X.cur := bind hR (get hR) fun _ => pure hR _

theorem mapM {f : α → X β} (h : ∀ a, X.Keeps R (f a)) (l : List α) : X.Keeps R (l.mapM f) := by
  induction l with
  | nil => exact pure hR _
  | cons a l ih =>
    rw [List.mapM_cons]
    exact bind hR (h a) fun _ => bind hR ih fun _ => pure hR _

theorem forM {f : α → X PUnit} (h : ∀ a, X.Keeps R (f a)) (l : List α) : X.Keeps R (l.forM f) := by
  induction l with
  | nil => exact pure hR _
  | cons a l ih => exact bind hR (h a) fun _ => ih

theorem foldlM {f : β → α → X β} (h : ∀ b a, X.Keeps R (f b a)) (l : List α) : ∀ b, X.Keeps R (l.foldlM f b) := by
  induction l with
  | nil => intro b; exact pure hR _
  | cons a l ih => intro b; exact bind hR (h b a) ih

omit hR in
theorem ite {p : Prop} [Decidable p] {x y : X α} (hx : p → X.Keeps R x) (hy : ¬ p → X.Keeps R y) :
    X.Keeps R (if p then x else y) := by
  split
  · next h => exact hx h
  · next h => exact hy h

omit hR in
theorem modify {f : State → State} (h : ∀ s, R s (f s)) : X.Keeps R (modify f : X PUnit) := fun s =>
  ⟨fun _ _ hu => by cases hu; exact h s, fun _ _ hu => by cases hu⟩

omit hR in
theorem update {f : State → State} (h : ∀ s, R s (f s)) : X.Keeps R (X.update f) := modify h

omit hR in
/-- An effect that reads the state and goes on from what it read. -/
theorem withState {f : State → X α} (h : ∀ s, (∀ a t, f s s = .ok a t → R s t) ∧ ∀ e t, f s s = .error e t → R s t) :
    X.Keeps R (MonadState.get >>= f) := fun s => h s

omit hR in
theorem attempt {x : X α} (h : X.Keeps R x) : X.Keeps R (X.attempt x) := fun s => by
  unfold X.attempt
  cases hx : x s with
  | ok a t => exact ⟨fun _ _ hu => by cases hu; exact (h s).1 a t hx, fun _ _ hu => by cases hu⟩
  | error e t => exact ⟨fun _ _ hu => by cases hu; exact (h s).2 e t hx, fun _ _ hu => by cases hu⟩

theorem drainLane : X.Keeps R X.drainLane := by
  unfold X.drainLane
  exact bind hR (cur hR) fun _ => ite (fun _ => waitOn hR _) fun _ => pure hR _

end X.Keeps

/-! ## Memory stays in canonical form -/

/-- From a state whose memory is in canonical form the next has it too. -/
def KeepsWf (s t : State) : Prop := s.mem.wf = true → t.mem.wf = true

theorem keepsWf_rel : StateRel KeepsWf := ⟨fun _ h => h, fun h1 h2 h => h2 (h1 h)⟩

@[simp] theorem onAgent_mem (s : State) (id : Nat) (f : Agent → Agent) : (s.onAgent id f).mem = s.mem := by
  unfold State.onAgent
  split <;> rfl

@[simp] theorem markDirty_mem (s : State) (pa : Nat) : (s.markDirty pa).mem = s.mem := by
  unfold State.markDirty
  split
  · rfl
  · dsimp only
    split <;> rfl

theorem wf_enterLeavings (a : Agent) (l : List Leaving) : ∀ m : MemSys, m.wf = true →
    (l.foldl (fun m w => m.enterLeaving a w) m).wf = true := by
  induction l with
  | nil => intro m h; exact h
  | cons w l ih => intro m h; exact ih _ (MemSys.wf_enter h ..)

theorem wf_drainWrites (s : State) (id : Nat) : KeepsWf s (s.drainWrites id) := by
  intro h
  unfold State.drainWrites
  split
  · exact h
  · next a _ =>
    rw [onAgent_mem]
    exact wf_enterLeavings a _ _ h

theorem wf_drainBytes (s : State) (id : Nat) (ps : List Nat) : KeepsWf s (s.drainBytes id ps) := by
  intro h
  unfold State.drainBytes
  split
  · exact h
  · next a _ =>
    dsimp only
    rw [onAgent_mem]
    exact wf_enterLeavings a _ _ h

theorem wf_release (s : State) (id k : Nat) : KeepsWf s (s.release id k) := by
  intro h
  have hd := wf_drainWrites s id h
  unfold State.release
  split
  · exact h
  · dsimp only
    have hf (t : State) (f : Agent → Agent) (ht : t.mem.wf = true) : (if k < 8 then t else t.onAgent id f).mem.wf = true := by
      split
      · exact ht
      · rw [onAgent_mem]; exact ht
    split
    · exact hf _ _ hd
    · exact MemSys.wf_toHome (hf _ _ hd) _

theorem wf_acquire (s : State) (d k : Nat) (c : Clock) : KeepsWf s (s.acquire d k c) := by
  intro h
  unfold State.acquire
  split
  · exact h
  · dsimp only
    split
    · exact MemSys.wf_pull h d c
    · unfold State.dropShared
      exact MemSys.wf_drop (MemSys.wf_pull h d c) d _

theorem wf_chunkByte (s : State) (c : Chunk) (p : Nat) : KeepsWf s (s.chunkByte c p).2 := by
  intro h
  unfold State.chunkByte
  dsimp only
  split
  · unfold State.draw; split <;> exact h
  · rw [onAgent_mem]; exact MemSys.wf_readBytes _ _ _ _ _ _ h

theorem wf_chunkBytes (s : State) (c : Chunk) : KeepsWf s (s.chunkBytes c).2 := by
  intro h
  unfold State.chunkBytes
  split
  · exact h
  · suffices ∀ (l : List Nat) (r : List Byte × State), r.2.mem.wf = true → (l.foldl (fun (r : List Byte × State) p =>
        let x := r.2.chunkByte c p; (r.1 ++ [x.1], x.2)) r).2.mem.wf = true from this _ _ h
    intro l
    induction l with
    | nil => intro r hr; exact hr
    | cons p l ih => intro r hr; exact ih _ (wf_chunkByte _ c p hr)

@[simp] theorem markAll_mem (l : List (Nat × Byte)) : ∀ s : State,
    (l.foldl (fun (s : State) (x : Nat × Byte) => s.markDirty x.1) s).mem = s.mem := by
  induction l with
  | nil => intro s; rfl
  | cons x l ih => intro s; rw [List.foldl_cons, ih, markDirty_mem]

/-- A chunk moves within memory in canonical form. -/
theorem wf_moveChunk (s : State) (c : Chunk) : KeepsWf s (s.moveChunk c) := by
  intro h
  have hd (b : Bool) (t : State) (ps : List Nat) (ht : t.mem.wf = true) :
      (if b = true then t.drainBytes c.agent ps else t).mem.wf = true := by
    split
    · exact wf_drainBytes t c.agent ps ht
    · exact ht
  unfold State.moveChunk
  dsimp only
  have h2 := wf_chunkBytes _ c (hd c.dstLocal.isNone _ c.dst (hd c.srcLocal.isNone s c.src h))
  revert h2
  generalize State.chunkBytes _ c = r
  intro h2
  split
  · exact h2
  · split
    · rw [markAll_mem]; exact h2
    · exact MemSys.wf_enter (by rw [markAll_mem]; exact h2) ..

theorem wf_landFor (s : State) (id : Nat) (loc : Option Nat) (ps : List Nat) : KeepsWf s (s.landFor id loc ps) := by
  intro h
  unfold State.landFor
  suffices ∀ (l : List Chunk) (t : State), t.mem.wf = true → (l.foldl (fun (s : State) c =>
      { s.moveChunk c with chunks := s.chunks.filter (·.id != c.id) }) t).mem.wf = true from this _ _ h
  intro l
  induction l with
  | nil => intro t ht; exact ht
  | cons c l ih => intro t ht; exact ih _ (wf_moveChunk t c ht)

theorem wf_landAt (s : State) (id : Nat) (p : Place) (n : Nat) : KeepsWf s (s.landAt id p n) := by
  unfold State.landAt
  split
  · exact wf_landFor s id _ _
  · exact wf_landFor s id _ _
  · exact fun h => h

theorem wf_drainTouching (s : State) (ps : List Nat) : KeepsWf s (s.drainTouching ps) := fun h =>
  wf_drainBytes _ _ _ (wf_landFor s _ _ _ h)

theorem wf_claimFrame (s : State) (i : Nat) (st : FrameState) (e : BitVec 16) : KeepsWf s (s.claimFrame i st e) := by
  intro h
  unfold State.claimFrame
  exact MemSys.wf_wipe h ..

theorem keepsWf_of_mem {s t : State} (h : t.mem = s.mem) : KeepsWf s t := fun hs => by rw [h]; exact hs

theorem wf_set {t : State} {R : State → State → Prop} {s : State} (h : R s t) :
    (∀ a u, (set t : X PUnit) s = .ok a u → R s u) ∧ ∀ e u, (set t : X PUnit) s = .error e u → R s u :=
  ⟨fun _ _ hu => by cases hu; exact h, fun _ _ hu => by cases hu⟩

end Sys2Proof.Machine
end

