-- ==== Sys2Proof/Laws/PerInstr.lean ====
section
/-!
SUPPORT. Statements made instruction by instruction, with one lemma for each constructor: an encoding has the words that
its table gives it.
-/
namespace Sys2Proof.Laws.Encoding

/-- The three tables agree on how many 32-bit words an instruction has: three for a lane instruction (R46), two for the
two-word `li` (R42), one for every other scalar instruction (R40), and none for a step of the part. -/
def Statement (i : Instr) : Prop :=
  (encode i).length =
    if (laneUse i).isSome then 3 else if i.encodable = true then (match i with | .liTwoWord .. => 2 | _ => 1) else 0

theorem add (x0 : BitVec 6) (x1 : BitVec 6) (x2 : BitVec 6) : Statement (.add x0 x1 x2) := rfl
theorem sub (x0 : BitVec 6) (x1 : BitVec 6) (x2 : BitVec 6) : Statement (.sub x0 x1 x2) := rfl
theorem mul (x0 : BitVec 6) (x1 : BitVec 6) (x2 : BitVec 6) : Statement (.mul x0 x1 x2) := rfl
theorem mulh (x0 : BitVec 6) (x1 : BitVec 6) (x2 : BitVec 6) : Statement (.mulh x0 x1 x2) := rfl
theorem mulhn (x0 : BitVec 6) (x1 : BitVec 6) (x2 : BitVec 6) : Statement (.mulhn x0 x1 x2) := rfl
theorem div (x0 : BitVec 6) (x1 : BitVec 6) (x2 : BitVec 6) : Statement (.div x0 x1 x2) := rfl
theorem divn (x0 : BitVec 6) (x1 : BitVec 6) (x2 : BitVec 6) : Statement (.divn x0 x1 x2) := rfl
theorem rem (x0 : BitVec 6) (x1 : BitVec 6) (x2 : BitVec 6) : Statement (.rem x0 x1 x2) := rfl
theorem remn (x0 : BitVec 6) (x1 : BitVec 6) (x2 : BitVec 6) : Statement (.remn x0 x1 x2) := rfl
theorem min (x0 : BitVec 6) (x1 : BitVec 6) (x2 : BitVec 6) : Statement (.min x0 x1 x2) := rfl
theorem max (x0 : BitVec 6) (x1 : BitVec 6) (x2 : BitVec 6) : Statement (.max x0 x1 x2) := rfl
theorem minn (x0 : BitVec 6) (x1 : BitVec 6) (x2 : BitVec 6) : Statement (.minn x0 x1 x2) := rfl
theorem maxn (x0 : BitVec 6) (x1 : BitVec 6) (x2 : BitVec 6) : Statement (.maxn x0 x1 x2) := rfl
theorem and (x0 : BitVec 6) (x1 : BitVec 6) (x2 : BitVec 6) : Statement (.and x0 x1 x2) := rfl
theorem or (x0 : BitVec 6) (x1 : BitVec 6) (x2 : BitVec 6) : Statement (.or x0 x1 x2) := rfl
theorem xor (x0 : BitVec 6) (x1 : BitVec 6) (x2 : BitVec 6) : Statement (.xor x0 x1 x2) := rfl
theorem shl (x0 : BitVec 6) (x1 : BitVec 6) (x2 : BitVec 6) : Statement (.shl x0 x1 x2) := rfl
theorem shr (x0 : BitVec 6) (x1 : BitVec 6) (x2 : BitVec 6) : Statement (.shr x0 x1 x2) := rfl
theorem sra (x0 : BitVec 6) (x1 : BitVec 6) (x2 : BitVec 6) : Statement (.sra x0 x1 x2) := rfl
theorem rotl (x0 : BitVec 6) (x1 : BitVec 6) (x2 : BitVec 6) : Statement (.rotl x0 x1 x2) := rfl
theorem abs (x0 : BitVec 6) (x1 : BitVec 6) : Statement (.abs x0 x1) := rfl
theorem clz (x0 : BitVec 6) (x1 : BitVec 6) : Statement (.clz x0 x1) := rfl
theorem ctz (x0 : BitVec 6) (x1 : BitVec 6) : Statement (.ctz x0 x1) := rfl
theorem popc (x0 : BitVec 6) (x1 : BitVec 6) : Statement (.popc x0 x1) := rfl
theorem sext8 (x0 : BitVec 6) (x1 : BitVec 6) : Statement (.sext8 x0 x1) := rfl
theorem sext16 (x0 : BitVec 6) (x1 : BitVec 6) : Statement (.sext16 x0 x1) := rfl
theorem sext32 (x0 : BitVec 6) (x1 : BitVec 6) : Statement (.sext32 x0 x1) := rfl
theorem zext8 (x0 : BitVec 6) (x1 : BitVec 6) : Statement (.zext8 x0 x1) := rfl
theorem zext16 (x0 : BitVec 6) (x1 : BitVec 6) : Statement (.zext16 x0 x1) := rfl
theorem zext32 (x0 : BitVec 6) (x1 : BitVec 6) : Statement (.zext32 x0 x1) := rfl
theorem cmp (x0 : BitVec 6) (x1 : BitVec 6) (x2 : BitVec 6) (x3 : Cond) : Statement (.cmp x0 x1 x2 x3) := rfl
theorem sel (x0 : BitVec 6) (x1 : BitVec 6) (x2 : BitVec 6) (x3 : BitVec 6) : Statement (.sel x0 x1 x2 x3) := rfl
theorem addi (x0 : BitVec 6) (x1 : BitVec 6) (x2 : BitVec 13) : Statement (.addi x0 x1 x2) := rfl
theorem andi (x0 : BitVec 6) (x1 : BitVec 6) (x2 : BitVec 13) : Statement (.andi x0 x1 x2) := rfl
theorem ori (x0 : BitVec 6) (x1 : BitVec 6) (x2 : BitVec 13) : Statement (.ori x0 x1 x2) := rfl
theorem xori (x0 : BitVec 6) (x1 : BitVec 6) (x2 : BitVec 13) : Statement (.xori x0 x1 x2) := rfl
theorem shli (x0 : BitVec 6) (x1 : BitVec 6) (x2 : BitVec 6) : Statement (.shli x0 x1 x2) := rfl
theorem shri (x0 : BitVec 6) (x1 : BitVec 6) (x2 : BitVec 6) : Statement (.shri x0 x1 x2) := rfl
theorem srai (x0 : BitVec 6) (x1 : BitVec 6) (x2 : BitVec 6) : Statement (.srai x0 x1 x2) := rfl
theorem cmpi (x0 : BitVec 6) (x1 : BitVec 6) (x2 : Cond) (x3 : BitVec 10) : Statement (.cmpi x0 x1 x2 x3) := rfl
theorem bfx (x0 : BitVec 6) (x1 : BitVec 6) (x2 : BitVec 6) (x3 : BitVec 6) : Statement (.bfx x0 x1 x2 x3) := rfl
theorem bfxS (x0 : BitVec 6) (x1 : BitVec 6) (x2 : BitVec 6) (x3 : BitVec 6) : Statement (.bfxS x0 x1 x2 x3) := rfl
theorem bfi (x0 : BitVec 6) (x1 : BitVec 6) (x2 : BitVec 6) (x3 : BitVec 6) : Statement (.bfi x0 x1 x2 x3) := rfl
theorem lui (x0 : BitVec 6) (x1 : BitVec 19) : Statement (.lui x0 x1) := rfl
theorem li (x0 : BitVec 6) (x1 : BitVec 18) : Statement (.li x0 x1) := rfl
theorem liTwoWord (x0 : BitVec 6) (x1 : BitVec 32) : Statement (.liTwoWord x0 x1) := rfl
theorem lea (x0 : BitVec 6) (x1 : BitVec 6) (x2 : BitVec 13) : Statement (.lea x0 x1 x2) := rfl
theorem leaPc (x0 : BitVec 6) (x1 : BitVec 19) : Statement (.leaPc x0 x1) := rfl
theorem br (x0 : BitVec 25) : Statement (.br x0) := rfl
theorem call (x0 : BitVec 25) : Statement (.call x0) := rfl
theorem bz (x0 : BitVec 6) (x1 : BitVec 19) : Statement (.bz x0 x1) := rfl
theorem bnz (x0 : BitVec 6) (x1 : BitVec 19) : Statement (.bnz x0 x1) := rfl
theorem loop (x0 : BitVec 6) (x1 : BitVec 19) : Statement (.loop x0 x1) := rfl
theorem bmask (x0 : MaskCond) (x1 : BitVec 4) (x2 : BitVec 19) : Statement (.bmask x0 x1 x2) := rfl
theorem jtab (x0 : BitVec 6) (x1 : BitVec 19) : Statement (.jtab x0 x1) := rfl
theorem lpad (x0 : BitVec 16) : Statement (.lpad x0) := rfl
theorem bccEq (x0 : BitVec 6) (x1 : BitVec 6) (x2 : BitVec 13) : Statement (.bccEq x0 x1 x2) := rfl
theorem bccNe (x0 : BitVec 6) (x1 : BitVec 6) (x2 : BitVec 13) : Statement (.bccNe x0 x1 x2) := rfl
theorem bccLt (x0 : BitVec 6) (x1 : BitVec 6) (x2 : BitVec 13) : Statement (.bccLt x0 x1 x2) := rfl
theorem bccGe (x0 : BitVec 6) (x1 : BitVec 6) (x2 : BitVec 13) : Statement (.bccGe x0 x1 x2) := rfl
theorem bccLtn (x0 : BitVec 6) (x1 : BitVec 6) (x2 : BitVec 13) : Statement (.bccLtn x0 x1 x2) := rfl
theorem bccGen (x0 : BitVec 6) (x1 : BitVec 6) (x2 : BitVec 13) : Statement (.bccGen x0 x1 x2) := rfl
theorem bcci (x0 : BitVec 6) (x1 : Cond) (x2 : BitVec 6) (x3 : BitVec 10) : Statement (.bcci x0 x1 x2 x3) := rfl
theorem nop : Statement (.nop) := rfl
theorem halt : Statement (.halt) := rfl
theorem yield : Statement (.yield) := rfl
theorem ret : Statement (.ret) := rfl
theorem sret : Statement (.sret) := rfl
theorem fret : Statement (.fret) := rfl
theorem ecall : Statement (.ecall) := rfl
theorem trap (x0 : BitVec 6) : Statement (.trap x0) := rfl
theorem lpark : Statement (.lpark) := rfl
theorem rdgrant (x0 : BitVec 6) : Statement (.rdgrant x0) := rfl
theorem setw (x0 : BitVec 6) : Statement (.setw x0) := rfl
theorem qread (x0 : BitVec 6) (x1 : BitVec 6) (x2 : BitVec 2) : Statement (.qread x0 x1 x2) := rfl
theorem lrun (x0 : Bool) (x1 : BitVec 4) (x2 : BitVec 20) : Statement (.lrun x0 x1 x2) := rfl
theorem csrr (x0 : BitVec 6) (x1 : BitVec 12) : Statement (.csrr x0 x1) := rfl
theorem csrw (x0 : BitVec 6) (x1 : BitVec 6) (x2 : BitVec 12) : Statement (.csrw x0 x1 x2) := rfl
theorem csrs (x0 : BitVec 6) (x1 : BitVec 6) (x2 : BitVec 12) : Statement (.csrs x0 x1 x2) := rfl
theorem csrc (x0 : BitVec 6) (x1 : BitVec 6) (x2 : BitVec 12) : Statement (.csrc x0 x1 x2) := rfl
theorem ldsI8 (x0 : BitVec 6) (x1 : BitVec 6) (x2 : BitVec 13) : Statement (.ldsI8 x0 x1 x2) := rfl
theorem ldsN8 (x0 : BitVec 6) (x1 : BitVec 6) (x2 : BitVec 13) : Statement (.ldsN8 x0 x1 x2) := rfl
theorem ldsI16 (x0 : BitVec 6) (x1 : BitVec 6) (x2 : BitVec 13) : Statement (.ldsI16 x0 x1 x2) := rfl
theorem ldsN16 (x0 : BitVec 6) (x1 : BitVec 6) (x2 : BitVec 13) : Statement (.ldsN16 x0 x1 x2) := rfl
theorem ldsI32 (x0 : BitVec 6) (x1 : BitVec 6) (x2 : BitVec 13) : Statement (.ldsI32 x0 x1 x2) := rfl
theorem ldsN32 (x0 : BitVec 6) (x1 : BitVec 6) (x2 : BitVec 13) : Statement (.ldsN32 x0 x1 x2) := rfl
theorem ldsI64 (x0 : BitVec 6) (x1 : BitVec 6) (x2 : BitVec 13) : Statement (.ldsI64 x0 x1 x2) := rfl
theorem stsI8 (x0 : BitVec 6) (x1 : BitVec 6) (x2 : BitVec 13) : Statement (.stsI8 x0 x1 x2) := rfl
theorem stsI16 (x0 : BitVec 6) (x1 : BitVec 6) (x2 : BitVec 13) : Statement (.stsI16 x0 x1 x2) := rfl
theorem stsI32 (x0 : BitVec 6) (x1 : BitVec 6) (x2 : BitVec 13) : Statement (.stsI32 x0 x1 x2) := rfl
theorem stsI64 (x0 : BitVec 6) (x1 : BitVec 6) (x2 : BitVec 13) : Statement (.stsI64 x0 x1 x2) := rfl
theorem ldacqI32 (x0 : BitVec 6) (x1 : BitVec 6) (x2 : BitVec 4) : Statement (.ldacqI32 x0 x1 x2) := rfl
theorem ldacqN32 (x0 : BitVec 6) (x1 : BitVec 6) (x2 : BitVec 4) : Statement (.ldacqN32 x0 x1 x2) := rfl
theorem ldacqI64 (x0 : BitVec 6) (x1 : BitVec 6) (x2 : BitVec 4) : Statement (.ldacqI64 x0 x1 x2) := rfl
theorem strelI32 (x0 : BitVec 6) (x1 : BitVec 6) (x2 : BitVec 4) : Statement (.strelI32 x0 x1 x2) := rfl
theorem strelI64 (x0 : BitVec 6) (x1 : BitVec 6) (x2 : BitVec 4) : Statement (.strelI64 x0 x1 x2) := rfl
theorem fenceAcq (x0 : BitVec 4) : Statement (.fenceAcq x0) := rfl
theorem fenceRel (x0 : BitVec 4) : Statement (.fenceRel x0) := rfl
theorem fenceAr (x0 : BitVec 4) : Statement (.fenceAr x0) := rfl
theorem cwb (x0 : BitVec 6) (x1 : BitVec 6) : Statement (.cwb x0 x1) := rfl
theorem cinv (x0 : BitVec 6) (x1 : BitVec 6) : Statement (.cinv x0 x1) := rfl
theorem cdis (x0 : BitVec 6) (x1 : BitVec 6) : Statement (.cdis x0 x1) := rfl
theorem mcas (x0 : BitVec 6) (x1 : BitVec 6) : Statement (.mcas x0 x1) := rfl
theorem atomAdd (x0 : BitVec 6) (x1 : BitVec 6) (x2 : BitVec 6) (x3 : Bool) (x4 : BitVec 2) (x5 : BitVec 4) : Statement (.atomAdd x0 x1 x2 x3 x4 x5) := rfl
theorem atomAnd (x0 : BitVec 6) (x1 : BitVec 6) (x2 : BitVec 6) (x3 : Bool) (x4 : BitVec 2) (x5 : BitVec 4) : Statement (.atomAnd x0 x1 x2 x3 x4 x5) := rfl
theorem atomOr (x0 : BitVec 6) (x1 : BitVec 6) (x2 : BitVec 6) (x3 : Bool) (x4 : BitVec 2) (x5 : BitVec 4) : Statement (.atomOr x0 x1 x2 x3 x4 x5) := rfl
theorem atomXor (x0 : BitVec 6) (x1 : BitVec 6) (x2 : BitVec 6) (x3 : Bool) (x4 : BitVec 2) (x5 : BitVec 4) : Statement (.atomXor x0 x1 x2 x3 x4 x5) := rfl
theorem atomMin (x0 : BitVec 6) (x1 : BitVec 6) (x2 : BitVec 6) (x3 : Bool) (x4 : BitVec 2) (x5 : BitVec 4) : Statement (.atomMin x0 x1 x2 x3 x4 x5) := rfl
theorem atomMax (x0 : BitVec 6) (x1 : BitVec 6) (x2 : BitVec 6) (x3 : Bool) (x4 : BitVec 2) (x5 : BitVec 4) : Statement (.atomMax x0 x1 x2 x3 x4 x5) := rfl
theorem atomMinn (x0 : BitVec 6) (x1 : BitVec 6) (x2 : BitVec 6) (x3 : Bool) (x4 : BitVec 2) (x5 : BitVec 4) : Statement (.atomMinn x0 x1 x2 x3 x4 x5) := rfl
theorem atomMaxn (x0 : BitVec 6) (x1 : BitVec 6) (x2 : BitVec 6) (x3 : Bool) (x4 : BitVec 2) (x5 : BitVec 4) : Statement (.atomMaxn x0 x1 x2 x3 x4 x5) := rfl
theorem atomSwap (x0 : BitVec 6) (x1 : BitVec 6) (x2 : BitVec 6) (x3 : Bool) (x4 : BitVec 2) (x5 : BitVec 4) : Statement (.atomSwap x0 x1 x2 x3 x4 x5) := rfl
theorem atomCas (x0 : BitVec 6) (x1 : BitVec 6) (x2 : BitVec 6) (x3 : Bool) (x4 : BitVec 2) (x5 : BitVec 4) : Statement (.atomCas x0 x1 x2 x3 x4 x5) := rfl
theorem twait (x0 : BitVec 6) (x1 : BitVec 6) (x2 : BitVec 6) : Statement (.twait x0 x1 x2) := rfl
theorem tread (x0 : BitVec 6) (x1 : BitVec 6) : Statement (.tread x0 x1) := rfl
theorem tsig (x0 : BitVec 6) (x1 : BitVec 6) : Statement (.tsig x0 x1) := rfl
theorem cbatch (x0 : BitVec 6) : Statement (.cbatch x0) := rfl
theorem abinit (x0 : BitVec 6) (x1 : BitVec 6) : Statement (.abinit x0 x1) := rfl
theorem aarrive (x0 : BitVec 6) (x1 : BitVec 6) (x2 : BitVec 6) : Statement (.aarrive x0 x1 x2) := rfl
theorem await (x0 : BitVec 6) (x1 : BitVec 6) (x2 : BitVec 6) : Statement (.await x0 x1 x2) := rfl
theorem wgbar (x0 : BitVec 6) (x1 : BitVec 6) (x2 : BitVec 6) : Statement (.wgbar x0 x1 x2) := rfl
theorem hbar (x0 : BitVec 6) (x1 : BitVec 6) (x2 : BitVec 6) : Statement (.hbar x0 x1 x2) := rfl
theorem kick (x0 : BitVec 6) (x1 : BitVec 6) (x2 : BitVec 6) : Statement (.kick x0 x1 x2) := rfl
theorem btres (x0 : BitVec 6) (x1 : BitVec 6) (x2 : BitVec 6) : Statement (.btres x0 x1 x2) := rfl
theorem btalloc (x0 : BitVec 6) (x1 : BitVec 6) (x2 : BitVec 6) : Statement (.btalloc x0 x1 x2) := rfl
theorem btfork (x0 : BitVec 6) (x1 : BitVec 6) (x2 : BitVec 6) : Statement (.btfork x0 x1 x2) := rfl
theorem btcow (x0 : BitVec 6) (x1 : BitVec 6) (x2 : BitVec 6) : Statement (.btcow x0 x1 x2) := rfl
theorem btdemote (x0 : BitVec 6) (x1 : BitVec 6) (x2 : BitVec 6) : Statement (.btdemote x0 x1 x2) := rfl
theorem btrel (x0 : BitVec 6) (x1 : BitVec 6) (x2 : BitVec 6) : Statement (.btrel x0 x1 x2) := rfl
theorem eresume (x0 : BitVec 6) (x1 : BitVec 6) (x2 : BitVec 6) : Statement (.eresume x0 x1 x2) := rfl
theorem tstat (x0 : BitVec 6) (x1 : BitVec 6) : Statement (.tstat x0 x1) := rfl
theorem ecreate (x0 : BitVec 6) (x1 : BitVec 6) : Statement (.ecreate x0 x1) := rfl
theorem edestroy (x0 : BitVec 6) (x1 : BitVec 6) : Statement (.edestroy x0 x1) := rfl
theorem eaddpg (x0 : BitVec 6) (x1 : BitVec 6) : Statement (.eaddpg x0 x1) := rfl
theorem eextend (x0 : BitVec 6) (x1 : BitVec 6) : Statement (.eextend x0 x1) := rfl
theorem eevict (x0 : BitVec 6) (x1 : BitVec 6) : Statement (.eevict x0 x1) := rfl
theorem eload (x0 : BitVec 6) (x1 : BitVec 6) : Statement (.eload x0 x1) := rfl
theorem kimport (x0 : BitVec 6) (x1 : BitVec 6) : Statement (.kimport x0 x1) := rfl
theorem kerase (x0 : BitVec 6) : Statement (.kerase x0) := rfl
theorem potq (x0 : BitVec 6) (x1 : BitVec 6) : Statement (.potq x0 x1) := rfl
theorem savev (x0 : BitVec 6) (x1 : BitVec 6) (x2 : BitVec 6) : Statement (.savev x0 x1 x2) := rfl
theorem restv (x0 : BitVec 6) (x1 : BitVec 6) : Statement (.restv x0 x1) := rfl
theorem sdone (x0 : BitVec 6) : Statement (.sdone x0) := rfl
theorem vadd (x0 : ITy) (x1 : Lane) : Statement (.vadd x0 x1) := rfl
theorem vsub (x0 : ITy) (x1 : Lane) : Statement (.vsub x0 x1) := rfl
theorem vmul (x0 : ITy) (x1 : Lane) : Statement (.vmul x0 x1) := rfl
theorem vmulh (x0 : ITy) (x1 : Lane) : Statement (.vmulh x0 x1) := rfl
theorem vmad (x0 : ITy) (x1 : Lane) : Statement (.vmad x0 x1) := rfl
theorem vmin (x0 : ITy) (x1 : Lane) : Statement (.vmin x0 x1) := rfl
theorem vmax (x0 : ITy) (x1 : Lane) : Statement (.vmax x0 x1) := rfl
theorem vand (x0 : ITy) (x1 : Lane) : Statement (.vand x0 x1) := rfl
theorem vor (x0 : ITy) (x1 : Lane) : Statement (.vor x0 x1) := rfl
theorem vxor (x0 : ITy) (x1 : Lane) : Statement (.vxor x0 x1) := rfl
theorem vshl (x0 : ITy) (x1 : Lane) : Statement (.vshl x0 x1) := rfl
theorem vshr (x0 : ITy) (x1 : Lane) : Statement (.vshr x0 x1) := rfl
theorem vsra (x0 : ITy) (x1 : Lane) : Statement (.vsra x0 x1) := rfl
theorem vbfx (x0 : ITy) (x1 : Lane) : Statement (.vbfx x0 x1) := rfl
theorem vbfi (x0 : ITy) (x1 : Lane) : Statement (.vbfi x0 x1) := rfl
theorem vsel (x0 : ITy) (x1 : Lane) : Statement (.vsel x0 x1) := rfl
theorem vabs (x0 : Bool) (x1 : Lane) : Statement (.vabs x0 x1) := rfl
theorem vneg (x0 : Bool) (x1 : Lane) : Statement (.vneg x0 x1) := rfl
theorem vnot (x0 : Bool) (x1 : Lane) : Statement (.vnot x0 x1) := rfl
theorem vclz (x0 : Bool) (x1 : Lane) : Statement (.vclz x0 x1) := rfl
theorem vpopc (x0 : Bool) (x1 : Lane) : Statement (.vpopc x0 x1) := rfl
theorem vmov (x0 : Bool) (x1 : Lane) : Statement (.vmov x0 x1) := rfl
theorem vcmp (x0 : ITy) (x1 : VCond) (x2 : Lane) : Statement (.vcmp x0 x1 x2) := rfl
theorem vimm (x0 : Lane) : Statement (.vimm x0) := rfl
theorem vtid (x0 : Lane) : Statement (.vtid x0) := rfl
theorem vtidWg (x0 : Lane) : Statement (.vtidWg x0) := rfl
theorem vaff (x0 : Lane) : Statement (.vaff x0) := rfl
theorem fadd (x0 : FTy) (x1 : Lane) : Statement (.fadd x0 x1) := rfl
theorem fsub (x0 : FTy) (x1 : Lane) : Statement (.fsub x0 x1) := rfl
theorem fmul (x0 : FTy) (x1 : Lane) : Statement (.fmul x0 x1) := rfl
theorem ffma (x0 : FTy) (x1 : Lane) : Statement (.ffma x0 x1) := rfl
theorem fmin (x0 : FTy) (x1 : Lane) : Statement (.fmin x0 x1) := rfl
theorem fmax (x0 : FTy) (x1 : Lane) : Statement (.fmax x0 x1) := rfl
theorem fabs (x0 : FTy) (x1 : Lane) : Statement (.fabs x0 x1) := rfl
theorem fneg (x0 : FTy) (x1 : Lane) : Statement (.fneg x0 x1) := rfl
theorem fcmp (x0 : FTy) (x1 : Lane) : Statement (.fcmp x0 x1) := rfl
theorem fclass (x0 : FTy) (x1 : Lane) : Statement (.fclass x0 x1) := rfl
theorem frcp (x0 : FTy) (x1 : Lane) : Statement (.frcp x0 x1) := rfl
theorem frsq (x0 : FTy) (x1 : Lane) : Statement (.frsq x0 x1) := rfl
theorem fsqrt (x0 : FTy) (x1 : Lane) : Statement (.fsqrt x0 x1) := rfl
theorem fdiv (x0 : FTy) (x1 : Lane) : Statement (.fdiv x0 x1) := rfl
theorem fexp2 (x0 : FTy) (x1 : Lane) : Statement (.fexp2 x0 x1) := rfl
theorem flog2 (x0 : FTy) (x1 : Lane) : Statement (.flog2 x0 x1) := rfl
theorem ftanh (x0 : FTy) (x1 : Lane) : Statement (.ftanh x0 x1) := rfl
theorem fscale (x0 : FTy) (x1 : Lane) : Statement (.fscale x0 x1) := rfl
theorem cvt (x0 : CTy) (x1 : CTy) (x2 : Lane) : Statement (.cvt x0 x1 x2) := rfl
theorem npack (x0 : Bool) (x1 : Lane) : Statement (.npack x0 x1) := rfl
theorem nunpack (x0 : Bool) (x1 : Lane) : Statement (.nunpack x0 x1) := rfl
theorem vdot (x0 : DotTy) (x1 : Lane) : Statement (.vdot x0 x1) := rfl
theorem vdoth (x0 : DotTy) (x1 : Lane) : Statement (.vdoth x0 x1) := rfl
theorem mand (x0 : Lane) : Statement (.mand x0) := rfl
theorem mor (x0 : Lane) : Statement (.mor x0) := rfl
theorem mxor (x0 : Lane) : Statement (.mxor x0) := rfl
theorem mnot (x0 : Lane) : Statement (.mnot x0) := rfl
theorem mmov (x0 : Lane) : Statement (.mmov x0) := rfl
theorem mcnt (x0 : Lane) : Statement (.mcnt x0) := rfl
theorem mfirst (x0 : Lane) : Statement (.mfirst x0) := rfl
theorem mfrom (x0 : Lane) : Statement (.mfrom x0) := rfl
theorem rshuf (x0 : Lane) : Statement (.rshuf x0) := rfl
theorem rshift (x0 : Lane) : Statement (.rshift x0) := rfl
theorem rbcast (x0 : Lane) : Statement (.rbcast x0) := rfl
theorem rscan (x0 : Lane) : Statement (.rscan x0) := rfl
theorem rred (x0 : Lane) : Statement (.rred x0) := rfl
theorem rredQ (x0 : Lane) : Statement (.rredQ x0) := rfl
theorem gperm (x0 : Lane) : Statement (.gperm x0) := rfl
theorem gscan (x0 : Lane) : Statement (.gscan x0) := rfl
theorem gred (x0 : Lane) : Statement (.gred x0) := rfl
theorem gbcast (x0 : Lane) : Statement (.gbcast x0) := rfl
theorem gredQ (x0 : Lane) : Statement (.gredQ x0) := rfl
theorem vld (x0 : Size) (x1 : Lane) : Statement (.vld x0 x1) := rfl
theorem vst (x0 : Size) (x1 : Lane) : Statement (.vst x0 x1) := rfl
theorem vldx (x0 : Size) (x1 : Lane) : Statement (.vldx x0 x1) := rfl
theorem vstx (x0 : Size) (x1 : Lane) : Statement (.vstx x0 x1) := rfl
theorem vlds (x0 : Size) (x1 : Lane) : Statement (.vlds x0 x1) := rfl
theorem acpy (x0 : Lane) : Statement (.acpy x0) := rfl
theorem vatom (x0 : VAtomOp) (x1 : Size) (x2 : Lane) : Statement (.vatom x0 x1 x2) := rfl
theorem vred (x0 : VAtomOp) (x1 : Size) (x2 : Lane) : Statement (.vred x0 x1 x2) := rfl
theorem laneBlockIssueStart (x0 : Nat) : Statement (.laneBlockIssueStart x0) := rfl
theorem lrunDispatchRoom (x0 : Nat) : Statement (.lrunDispatchRoom x0) := rfl
theorem laneResultReturn (x0 : Nat) (x1 : Nat) : Statement (.laneResultReturn x0 x1) := rfl
theorem counterStallEnd (x0 : Nat) : Statement (.counterStallEnd x0) := rfl
theorem laneStreamDrained (x0 : Nat) : Statement (.laneStreamDrained x0) := rfl
theorem bmaskWaitEnd (x0 : Nat) : Statement (.bmaskWaitEnd x0) := rfl
theorem qreadSequenceReached (x0 : Nat) : Statement (.qreadSequenceReached x0) := rfl
theorem twaitSatisfied (x0 : Nat) : Statement (.twaitSatisfied x0) := rfl
theorem awaitSatisfied (x0 : Nat) : Statement (.awaitSatisfied x0) := rfl
theorem wgbarComplete (x0 : Nat) : Statement (.wgbarComplete x0) := rfl
theorem hbarComplete (x0 : Nat) (x1 : Nat) : Statement (.hbarComplete x0 x1) := rfl
theorem acpyChunkLands (x0 : Nat) : Statement (.acpyChunkLands x0) := rfl
theorem storageFillEnd (x0 : Nat) (x1 : Option (List Byte)) : Statement (.storageFillEnd x0 x1) := rfl
theorem spillRefill (x0 : Nat) (x1 : Nat) : Statement (.spillRefill x0 x1) := rfl
theorem launchDispatchStart (x0 : Nat) : Statement (.launchDispatchStart x0) := rfl
theorem rangeDeal (x0 : Nat) (x1 : Nat) : Statement (.rangeDeal x0 x1) := rfl
theorem workgroupAdmit (x0 : Nat) (x1 : Nat) : Statement (.workgroupAdmit x0 x1) := rfl
theorem swapOut (x0 : Nat) : Statement (.swapOut x0) := rfl
theorem swappedWorkgroupReady (x0 : Nat) : Statement (.swappedWorkgroupReady x0) := rfl
theorem groupAged (x0 : Nat) : Statement (.groupAged x0) := rfl
theorem budgetWindow : Statement (.budgetWindow) := rfl
theorem timeSliceEnd (x0 : Nat) (x1 : Nat) : Statement (.timeSliceEnd x0 x1) := rfl
theorem saveRoutineOverrun (x0 : Nat) : Statement (.saveRoutineOverrun x0) := rfl
theorem restoreRoutineOverrun (x0 : Nat) : Statement (.restoreRoutineOverrun x0) := rfl
theorem groupResume (x0 : Nat) (x1 : Nat) : Statement (.groupResume x0 x1) := rfl
theorem donePoll (x0 : Nat) : Statement (.donePoll x0) := rfl
theorem dieFence (x0 : Nat) : Statement (.dieFence x0) := rfl
theorem linePoison (x0 : Nat) (x1 : Nat) : Statement (.linePoison x0 x1) := rfl
theorem portDegrade (x0 : Nat) (x1 : Nat) : Statement (.portDegrade x0 x1) := rfl
theorem portTrained (x0 : Nat) (x1 : BitVec 8) : Statement (.portTrained x0 x1) := rfl
theorem tileRecordTake (x0 : Nat) (x1 : Nat) : Statement (.tileRecordTake x0 x1) := rfl
theorem tileTaskIssue (x0 : Nat) : Statement (.tileTaskIssue x0) := rfl
theorem mmaTask (x0 : Nat) : Statement (.mmaTask x0) := rfl
theorem attnTask (x0 : Nat) : Statement (.attnTask x0) := rfl
theorem epiTask (x0 : Nat) : Statement (.epiTask x0) := rfl
theorem engineFaultSuspend (x0 : Nat) : Statement (.engineFaultSuspend x0) := rfl
theorem heldFaultRecordWrite (x0 : Nat) : Statement (.heldFaultRecordWrite x0) := rfl
theorem recordCompleteSignal (x0 : Nat) : Statement (.recordCompleteSignal x0) := rfl
theorem copyRecordStart (x0 : Nat) (x1 : Nat) : Statement (.copyRecordStart x0 x1) := rfl
theorem copyUnitLands (x0 : Nat) : Statement (.copyUnitLands x0) := rfl
theorem storeRecordStart (x0 : Nat) (x1 : Nat) : Statement (.storeRecordStart x0 x1) := rfl
theorem storeCommandComplete (x0 : Nat) (x1 : Bool) (x2 : List Byte) : Statement (.storeCommandComplete x0 x1 x2) := rfl
theorem collRendezvous (x0 : Nat) (x1 : Nat) (x2 : Nat) : Statement (.collRendezvous x0 x1 x2) := rfl
theorem rdvFlitReceive (x0 : Flit) (x1 : RdvFlit) : Statement (.rdvFlitReceive x0 x1) := rfl
theorem rdvtoExpiry (x0 : Nat) : Statement (.rdvtoExpiry x0) := rfl
theorem btcowCopyDone (x0 : Nat) : Statement (.btcowCopyDone x0) := rfl
theorem blockMoveCopyLanded (x0 : Nat) : Statement (.blockMoveCopyLanded x0) := rfl
theorem blockMoveSwing (x0 : Nat) : Statement (.blockMoveSwing x0) := rfl
theorem scrubFrameStart : Statement (.scrubFrameStart) := rfl
theorem scrubFrameEnd : Statement (.scrubFrameEnd) := rfl
theorem migrationGo (x0 : Nat) : Statement (.migrationGo x0) := rfl
theorem migrationLineCopy (x0 : Nat) : Statement (.migrationLineCopy x0) := rfl
theorem spdm : Statement (.spdm) := rfl
theorem prepare : Statement (.prepare) := rfl
theorem shadowsWritten : Statement (.shadowsWritten) := rfl
theorem commit : Statement (.commit) := rfl
theorem sliceFlip (x0 : Nat) : Statement (.sliceFlip x0) := rfl
theorem abort : Statement (.abort) := rfl
theorem layoutq : Statement (.layoutq) := rfl
theorem fwstage : Statement (.fwstage) := rfl
theorem manifest : Statement (.manifest) := rfl
theorem svncommit : Statement (.svncommit) := rfl
theorem migopen : Statement (.migopen) := rfl
theorem miground : Statement (.miground) := rfl
theorem migstop : Statement (.migstop) := rfl
theorem migend : Statement (.migend) := rfl
theorem migaccept : Statement (.migaccept) := rfl
theorem migapply : Statement (.migapply) := rfl
theorem migresume : Statement (.migresume) := rfl
theorem migrefuse : Statement (.migrefuse) := rfl
theorem ridgepoleRestart (x0 : Bool) : Statement (.ridgepoleRestart x0) := rfl
theorem packageReset : Statement (.packageReset) := rfl
theorem trainingComplete (x0 : List Part) : Statement (.trainingComplete x0) := rfl
theorem streamOpen (x0 : Nat) (x1 : PeerEntry) : Statement (.streamOpen x0 x1) := rfl
theorem streamClose (x0 : Nat) : Statement (.streamClose x0) := rfl
theorem dataFlitReceive (x0 : Flit) : Statement (.dataFlitReceive x0) := rfl
theorem arriveFlitReceive (x0 : Flit) : Statement (.arriveFlitReceive x0) := rfl
theorem markerReceive (x0 : Flit) : Statement (.markerReceive x0) := rfl
theorem faultFlitReceive (x0 : Flit) : Statement (.faultFlitReceive x0) := rfl
theorem ackReceive (x0 : Flit) : Statement (.ackReceive x0) := rfl
theorem nakReceive (x0 : Flit) : Statement (.nakReceive x0) := rfl
theorem idleFlitReceive (x0 : Flit) : Statement (.idleFlitReceive x0) := rfl
theorem unknownFlitDiscard (x0 : Flit) : Statement (.unknownFlitDiscard x0) := rfl
theorem keyEpochMarker (x0 : Nat) : Statement (.keyEpochMarker x0) := rfl
theorem attach (x0 : Nat) (x1 : DriveAnswer) : Statement (.attach x0 x1) := rfl
theorem detach (x0 : Nat) : Statement (.detach x0) := rfl
theorem attachmentError (x0 : Nat) : Statement (.attachmentError x0) := rfl
theorem tdiTlpReceive (x0 : Nat) (x1 : Nat) (x2 : Nat) (x3 : List Byte) : Statement (.tdiTlpReceive x0 x1 x2 x3) := rfl
theorem doeSpdmMessage (x0 : List Byte) : Statement (.doeSpdmMessage x0) := rfl
theorem powerCapCheck (x0 : BitVec 16) : Statement (.powerCapCheck x0) := rfl
theorem capwWrite (x0 : BitVec 16) : Statement (.capwWrite x0) := rfl
theorem registerWrite (x0 : Nat) (x1 : List Byte) : Statement (.registerWrite x0 x1) := rfl
theorem illegalEncoding (x0 : Bool) (x1 : BitVec 96) : Statement (.illegalEncoding x0 x1) := rfl
theorem writeDelivery (x0 : Delivery) : Statement (.writeDelivery x0) := rfl
theorem eviction (x0 : Nat) (x1 : Nat) : Statement (.eviction x0 x1) := rfl
theorem hostLinkStateChange (x0 : BitVec 2) : Statement (.hostLinkStateChange x0) := rfl
theorem uncorrectableRegisterError (x0 : Nat) : Statement (.uncorrectableRegisterError x0) := rfl

end Sys2Proof.Laws.Encoding
end

