-- ==== Sys2Proof/Tests/Slice0.lean ====
section
/-!
SUPPORT. Tests: words written out from the spec's encodings, ill-formed terms that each check refuses, single steps whose
expected results stand in the spec's examples, and for the statements a witness that their hypotheses can be met.
-/
namespace Sys2Proof.Tests

open Sys2Proof.Machine

set_option maxRecDepth 100000
set_option Elab.async false

/-! ## Decoding: words from the spec's encoding tables, one or more of each family -/

/-- 02 Table 2.3 and R42: `addi s5, s4, #-8`. -/
theorem test_decode_addi : decodeScalar 0x0A289FF8 0 = .ok (.addi 5 4 (-8)) := rfl
/-- 04 Table 4.5: `add s2, s2, s3`, `loop s3, top`, `jtab s4, kind`, `lpad #1`. -/
theorem test_decode_add : decodeScalar 0x02104180 0 = .ok (.add 2 2 3) := rfl
theorem test_decode_loop : decodeScalar 0x281FFFFF 0 = .ok (.loop 3 (-1)) := rfl
theorem test_decode_jtab : decodeScalar 0x2C200002 0 = .ok (.jtab 4 2) := rfl
theorem test_decode_lpad : decodeScalar 0x2E000001 0 = .ok (.lpad 1) := rfl
/-- 02: `lrun` of block 40 under m1. -/
theorem test_decode_lrun : decodeScalar 0x40100028 0 = .ok (.lrun false 1 40) := rfl
/-- 06 R161, R166, R170, R186. -/
theorem test_decode_lds : decodeScalar 0x6C204010 0 = .ok (.ldsI64 4 2 16) := rfl
theorem test_decode_atom : decodeScalar 0x8028C3D5 0 = .ok (.atomAdd 5 6 7 true 1 5) := rfl
theorem test_decode_fence : decodeScalar 0x7A000025 0 = .ok (.fenceRel 5) := rfl
theorem test_decode_kick : decodeScalar 0xA4494580 0 = .ok (.kick 9 10 11) := rfl
/-- 07 Table 7.2. -/
theorem test_decode_btfork : decodeScalar 0xC028C382 0 = .ok (.btfork 5 6 7) := rfl
theorem test_decode_btcow : decodeScalar 0xC028C383 0 = .ok (.btcow 5 6 7) := rfl
theorem test_decode_eresume : decodeScalar 0xC2210000 0 = .ok (.eresume 4 8 0) := rfl
theorem test_decode_ecreate : decodeScalar 0xC4106000 0 = .ok (.ecreate 2 3) := rfl
theorem test_decode_savev : decodeScalar 0xC6194580 0 = .ok (.savev 3 10 11) := rfl
theorem test_decode_sdone : decodeScalar 0xC6018002 0 = .ok (.sdone 12) := rfl
/-- Bit by bit from 02 Table 2.2 and R40: SYS 0x1F in [31:25], FN 1 in [6:0]. -/
theorem test_decode_halt : decodeScalar (0x1F#7 ++ 0#6 ++ 0#6 ++ 0#6 ++ 1#7) 0 = .ok .halt := rfl
theorem test_decode_csrw : decodeScalar (0x22#7 ++ 3#6 ++ 4#6 ++ 0#1 ++ 0x021#12) 0 = .ok (.csrw 3 4 0x021) := rfl
/-- R42: the two-word form of `li`. -/
theorem test_decode_li_two : decodeScalar (0x0E#7 ++ 9#6 ++ 1#1 ++ 0#18) 0xDEADBEEF = .ok (.liTwoWord 9 0xDEADBEEF) := rfl
/-- 02 and 05: lane words, the lowest word last. -/
theorem test_decode_vtid : decodeLane (0x04800001#32 ++ 0#32 ++ 0#32) = .ok (.vtid { vd := 1 }) := rfl
theorem test_decode_vcmp :
    decodeLane (0x03840002#32 ++ 0x03040000#32 ++ 0#32) = .ok (.vcmp .i32 .lt { vd := 2, va := 3, vb := 4 }) := rfl
theorem test_decode_vld :
    decodeLane (0x20080006#32 ++ 0x08000004#32 ++ 0x40#32) = .ok (.vld .i32 { vd := 6, va := 8, aux := 4, imm := 0x40 }) := rfl
theorem test_decode_rbcast :
    decodeLane (0x18049009#32 ++ 0x02000000#32 ++ 3#32) = .ok (.rbcast { mk := 4, mi := true, vd := 9, va := 2, imm := 3 }) := rfl
theorem test_decode_gred_q : decodeLane (0xD8C40501#32 ++ 0x05000000#32 ++ 0x40#32) =
    .ok (.gredQ { park := true, last := true, rm := 5, vd := 1, va := 5, imm := 0x40 }) := rfl
/-- The table's numbering: the first word of a lane instruction in the low bits. -/
theorem test_table_word : decodeTableWord 96 0x048000010000000000000000 = some (.vtid { vd := 1 }) := by decide

/-! ## Words and terms that name no instruction -/

/-- The checks of well-formedness, one ill-formed term each. -/
theorem test_illformed_scope : legal (.fenceRel 11) = false := by decide
theorem test_illformed_bitfield : legal (.bfx 1 2 63 1) = false := by decide
theorem test_illformed_bitfield_insert : legal (.bfi 1 2 32 32) = false := by decide
theorem test_illformed_aux : legal (.vadd .i32 { aux := 8 }) = false := by decide
theorem test_illformed_odd_pair : legal (.vadd .i64 { vd := 1, va := 2, vb := 4 }) = false := by decide
theorem test_illformed_mask_dest : legal (.mand { vd := 0, va := 1, vb := 2 }) = false := by decide
theorem test_illformed_unused_field : legal (.vadd .i32 { vd := 1, va := 2, vb := 3, vc := 4 }) = false := by decide
theorem test_illformed_imm : legal (.vadd .i32 { imm := 1 }) = false := by decide
theorem test_illformed_rounding : legal (.fadd .f32 { rm := 6 }) = false := by decide
theorem test_illformed_format : legal (.npack false { aux := 0xFF }) = false := by decide
theorem test_illformed_reduction : legal (.rred { imm := 7 }) = false := by decide
/-- R94 and Table 2.4: an opcode that the table leaves out, a reserved bit, kind 11 of SHIFTI. -/
theorem test_reject_opcode : (decodeScalar (0x37#7 ++ 0#25) 0).toOption = none := by decide
theorem test_reject_reserved : (decodeScalar (0x1F#7 ++ 1#6 ++ 0#12 ++ 0#7) 0).toOption = none := by decide
theorem test_reject_shift_kind : (decodeScalar (0x09#7 ++ 1#6 ++ 2#6 ++ 0#5 ++ 3#2 ++ 0#6) 0).toOption = none := by decide

/-! ## Small states -/

/-- All of memory has trained. -/
def trained (s : State) : State := { s with health := { s.health with untrained := false } }
/-- An S-level group with the first 4 GiB mapped one to one, frames 1 and 2 its enclave's, and its code in frame 1. -/
def grp : State := trained (State.reset.withFetchWord 32 0)
/-- The group with some scalar registers set. -/
def sregs (l : List (Nat × Word)) (a : Agent) : Agent :=
  { a with regs := { a.regs with s := l.foldl (fun v x => v.setIfInBounds x.1 x.2) a.regs.s } }
def withRegs (l : List (Nat × Word)) : State := grp.onCur (sregs l)
/-- Memory that holds numbers: address, number, bytes; addresses rising, and no cell of `s` among them. -/
def holds (l : List (Nat × Nat × Nat)) (s : State) : State :=
  let lo := (l.headD (0, 0, 0)).1
  let cells := ((l.map fun x => natCells x.1 x.2.1 x.2.2).flatten).filter fun c => c.2 != 0
  { s with mem := { s.mem with home := s.mem.home.filter (fun c => decide (c.1 < lo)) ++ cells ++ s.mem.home.filter fun c => decide (lo ≤ c.1) } }
/-- The same agent as a control thread, and as a thread of the host agent. -/
def ctl : State := grp.onCur fun a => { a with kind := .control }
def hst : State := grp.onCur fun a => { a with kind := .host, level := .h, enc := 0 }
def usr : State := grp.onCur fun a => { a with level := .u }
/-- The group with a block handed over, so that its lane stream has not drained. -/
def busyLane (s : State) : State :=
  s.onCur fun a => { a with lane := { a.lane with queue := [{ lidx := 0, s := a.regs.s }] } }
/-- An effect ends well, with a result and a state that `p` admits. -/
def ends {α : Type} (r : EStateM.Result Stop State α) (p : α → State → Bool) : Bool :=
  match r with | .ok a t => p a t | .error .. => false
/-- An effect ends in a trap that `p` admits. -/
def traps {α : Type} (r : EStateM.Result Stop State α) (p : Cause → Word → Bool) : Bool :=
  match r with | .error (.trap c v _) _ => p c v | _ => false
/-- A step of the part, or an instruction, ends in a next state of which `p` holds. -/
def goes (o : Out) (p : State → Bool) : Bool := match o with | .next t => p t | _ => false

/-! ## Single steps, with results from the spec's examples -/

theorem test_step_add : goes (step (State.reset.withFetchWord 32 0x02104180)) (fun t => t.cur.pc == 0x40084) = true := by
  decide +kernel
/-- R109: with s4 = 1 the table of the example reaches the second pad; with s4 = 2 it raises JTAB with XVAL = 2. -/
def jumps (x : Word) : State :=
  holds [(0x50000, 0x000000140000000C00020001, 12), (0x50014, 0x2E000001, 4)] (withRegs [(4, x)])
theorem test_jtab_hit : goes (exec (.jtab 4 0x3FE0) (jumps 1)) (fun t => t.cur.pc == 0x50014) = true := by decide +kernel
theorem test_jtab_bound : goes (exec (.jtab 4 0x3FE0) (jumps 2))
    (fun t => t.cur.trap.cause == cJtab && t.cur.trap.val == 2 && t.cur.trap.spc == 0x40080) = true := by decide +kernel
/-- R93: a divisor of zero, and −2^63 by −1. -/
theorem test_div_zero : goes (exec (.div 5 2 3) (withRegs [(2, 7)])) (fun t => t.cur.rs 5 == 0xFFFFFFFFFFFFFFFF) = true := by
  decide +kernel
theorem test_div_overflow : goes (exec (.div 5 2 3) (withRegs [(2, 0x8000000000000000), (3, 0xFFFFFFFFFFFFFFFF)]))
    (fun t => t.cur.rs 5 == 0x8000000000000000) = true := by decide +kernel
/-- R96: `andi` with #−16 clears the low four bits. -/
theorem test_andi : goes (exec (.andi 5 2 (-16)) (withRegs [(2, 0x123F)])) (fun t => t.cur.rs 5 == 0x1230) = true := by
  decide +kernel
/-- R105: `loop` with sD = 0 on entry wraps and branches. -/
theorem test_loop_wraps : goes (exec (.loop 3 (-1)) grp)
    (fun t => t.cur.rs 3 == 0xFFFFFFFFFFFFFFFF && t.cur.pc == 0x4007C) = true := by decide +kernel
/-- R114: a `qread` that nothing will answer raises SOFTWARE with both sequence numbers. -/
theorem test_qread_never : goes (exec (.qread 10 9 1) ((withRegs [(9, 7)]).onCur fun a =>
      { a with regs := { a.regs with q := a.regs.q.set 1 { val := 0, seq := 6 } } }))
    (fun t => t.cur.trap.cause == cSoftware && t.cur.trap.val == 0x00070006) = true := by decide +kernel
/-- R161: a signed byte is extended. -/
theorem test_lds_sign : goes (exec (.ldsI8 5 2 1) (holds [(0x50000, 0x80FF, 2)] (withRegs [(2, 0x50000)])))
    (fun t => t.cur.rs 5 == 0xFFFFFFFFFFFFFF80) = true := by decide +kernel
theorem test_lds_misaligned : goes (exec (.ldsI64 5 2 4) (withRegs [(2, 0x50000)]))
    (fun t => t.cur.trap.cause == cMisalign && t.cur.trap.val == 0x50004) = true := by decide +kernel
/-- R165: `atom.cas` on a word that does not match returns the old value and leaves it. -/
theorem test_cas_fails : goes (exec (.atomCas 5 2 3 true 0 6) (holds [(0x50000, 4, 8)] (withRegs [(2, 0x50000), (3, 9), (5, 1)])))
    (fun t => t.cur.rs 5 == 4 && t.mem.homeNat 0x50000 8 == 4) = true := by decide +kernel
/-- R169, the example: entry 1 does not match, nothing is written, sD receives 0b10. -/
theorem test_mcas_example : goes (exec (.mcas 5 2) (holds [(0x52000, 0x30602, 8), (0x52020, 0x53000, 8), (0x52028, 5, 8),
      (0x52030, 6, 8), (0x52040, 0x53100, 8), (0x52050, 0x100, 8), (0x53000, 5, 8), (0x53100, 7, 8)] (withRegs [(2, 0x52000)])))
    (fun t => t.cur.rs 5 == 2 && t.mem.homeNat 0x53000 8 == 5 && t.mem.homeNat 0x53100 8 == 7) = true := by decide +kernel
/-- R181, Table 6.13, steps 0 to 3. -/
theorem test_barrier_phases :
    let b0 : Barrier := { word := 2, cur := 2, next := 0, complete := 0 }
    let b1 := b0.arrive 1 false
    let b2 := b1.arrive 1 true
    let b3 := b2.arrive 1 false
    (b1.cur, b1.next, b1.complete) = (1, 0, 0) ∧ (b2.cur, b2.next, b2.complete) = (1, 1, 0) ∧
    (b3.cur, b3.next, b3.complete) = (1, 0, 1) := by decide
/-- R147, the example: the reduction is a tree, so that 2^24 + 7 ones is 16,777,222. -/
theorem test_gred_tree : resultAt (exec (.gred { vd := 2, va := 1, imm := 0x40 }) (grp.onCur fun a => { a with
      lane := { a.lane with active := some { lidx := 0, mask := allLive 8, s := a.regs.s } }
      regs := { a.regs with v := a.regs.v.set 1 (.g (0x4B800000 :: List.replicate 7 0x3F800000)) } })) false 2 0 =
    some 0x4B800003 := by decide +kernel
/-- R136, the example: `b4p2sf` codes unpacked. -/
theorem test_nunpack : (List.range 8).map (fun j => resultAt (exec (.nunpack false { vd := 16, va := 8, aux := 0x62 }) (grp.onCur fun a => { a with
      budget := 24
      lane := { a.lane with active := some { lidx := 0, mask := allLive 8, s := a.regs.s } }
      regs := { a.regs with v := a.regs.v.set 8 (.u 0xBA987654) } })) false (16 + j) 0) =
    [some 0x3F800000, some 0x3FC00000, some 0x40000000, some 0x40400000, some 0x7FC00000, some 0xBE800000, some 0xBF000000,
      some 0xBF400000] := by decide +kernel
/-- R54: a word that names no instruction raises ILLEGAL with the word in XVAL. -/
theorem test_illegal_word : goes (step (State.reset.withFetchWord 32 0x6E000000))
    (fun t => t.cur.trap.cause == cIllegal && t.cur.trap.val == 0x6E000000 && t.cur.trap.spc == 0x40080) = true := by decide +kernel
/-- R381: above the cap the clock falls by 100 MHz. -/
theorem test_power_cap : goes (exec (.powerCapCheck 2500) State.reset) (fun t => t.health.clkMhz == 1100) = true := by decide +kernel
/-- Reset memory is in canonical form, and no agent stands. -/
theorem test_reset_memory : State.reset.mem.wf = true := by decide

/-! ## The hypotheses of the statements can be met -/

/-- A trap handler of the group; a save routine; a restore routine. -/
def handler (s : State) : State := s.onCur fun a => { a with trap := { a.trap with hm := true } }
def inSaveRoutine (s : State) : State := s.onCur fun a => { a with trap := { a.trap with inSave := true } }
def inRestoreRoutine (s : State) : State := s.onCur fun a => { a with trap := { a.trap with inRestore := true } }
/-- One access comes to a memory place. -/
def isMem (p : Place) : Bool := match p with | .mem .. => true | _ => false
def isOk {α : Type} (r : EStateM.Result Stop State α) : Bool := ends r fun _ _ => true

/-- The group that ends block 0 with a pending write of m3 and of q1. -/
def pending : State := grp.onCur fun a => { a with
  lane := { a.lane with pend := [{ cls := some .xlane, writes := [.mask 3 (allLive 8) 0, .q 1 5] }] } }
def shadowed (l : List Word) : State := grp.onCur fun a => { a with shadow := l }
/-- A jump table whose entry is no multiple of 4, and one whose target is another pad. -/
def jumpsOdd : State :=
  holds [(0x50000, 0x000000160000000C00020001, 12), (0x50014, 0x2E000001, 4)] (withRegs [(4, 1)])
def jumpsWrong : State :=
  holds [(0x50000, 0x000000140000000C00020001, 12), (0x50014, 0x2E000002, 4)] (withRegs [(4, 1)])
def jtabReads (s : State) (p : Word → BitVec 32 → Bool) : Bool :=
  let h := s.cur.pc + 0xFF80
  ends (fetchWord h s) fun hdr t1 => decide ((s.cur.rs 4).toNat < hdr.toNat / 2 ^ 16) &&
    ends (fetchWord (h + 4 + 4 * s.cur.rs 4) t1) fun e t2 =>
      let tgt := h + BitVec.ofInt 64 e.toInt
      if tgt.toNat % 4 ≠ 0 then p tgt 0 else ends (fetchWord tgt t2) fun w _ => p tgt w

/-- The group with a block of one lane instruction handed over. -/
def ahead (i : Instr) : State :=
  (State.reset.withFetchWord 96 ((encode i).foldr (fun w x => w.toNat + x * 2 ^ 32) 0)).onCur fun a =>
    { a with lane := { queue := [{ lidx := 0, s := a.regs.s }] } }
/-- That block, read and found to end with it. -/
def aheadIs (i : Instr) : Bool :=
  let s := ahead i
  s.cur.lane.active.isNone && s.cur.lane.writes.isEmpty && s.cur.lane.queue == [{ lidx := 0, s := s.cur.regs.s }] &&
    ends (fetchLane 0 s) fun x _ => match x with | .ok j => j == i && (laneUse j).any fun u => u.1.last | .error _ => false

theorem witness_ControlTransfers :
    (grp.maskPending 3 = false ∧ pending.maskPending 3 = true ∧ grp.cur.lane.queue = [] ∧ grp.cur.lane.active = none) ∧
    (aheadIs (.mand { last := true, vd := 3 }) = true ∧ (ahead (.mand { last := true, vd := 3 })).maskPending 3 = true ∧
      (ahead (.mand { last := true, vd := 3 })).maskPending 4 = false) ∧
    ((shadowed (.replicate 63 0)).cur.shadow.length < 64 ∧ 64 ≤ (shadowed (.replicate 64 0)).cur.shadow.length) ∧
    ((shadowed [0]).cur.shadow = [] ++ [0] ∧ (shadowed [0]).cur.rs 63 = 0) ∧
    ((shadowed [4, 8]).cur.shadow = [4] ++ [8] ∧ (shadowed [4, 8]).cur.rs 63 ≠ 8) ∧ grp.cur.shadow = [] ∧
    ends (fetchWord 0x50000 (jumps 2)) (fun hdr _ => decide (hdr.toNat / 2 ^ 16 ≤ ((jumps 2).cur.rs 4).toNat)) = true ∧
    jtabReads (jumps 1) (fun tgt w => tgt.toNat % 4 == 0 && w.toNat == 0x17 * 2 ^ 25 + 1) = true ∧
    jtabReads jumpsOdd (fun tgt _ => tgt.toNat % 4 != 0) = true ∧
    jtabReads jumpsWrong (fun tgt w => tgt.toNat % 4 == 0 && w.toNat != 0x17 * 2 ^ 25 + 1) = true := by decide +kernel

/-- The exit ring of partition 0 in the device carve-out. -/
def ringed (s : State) : State :=
  { s with layout := { s.layout with entries := s.layout.entries.set 0 { valid := true, exitBase := 0x7FED000 } } }
def ringReady (s : State) : Bool := s.hostFrame (s.exitAddr 0)
theorem witness_TrapEntry :
    (ringReady (ringed (handler grp)) = true ∧ ringReady (handler grp) = false) ∧
    (grp.cur.trap.inRestore = false ∧ grp.cur.trap.inSave = false ∧ grp.cur.trap.hm = false) ∧
    ((handler grp).cur.trap.hm = true ∧ (handler grp).cur.kind ≠ .host ∧ (handler grp).cur.trap.inSave = false) ∧
    ((handler hst).cur.trap.hm = true ∧ (handler hst).cur.kind = .host ∧ (handler hst).cur.trap.inRestore = false) := by
  decide +kernel

/-- The group with a second running group in its workgroup. -/
def twoGroups : State :=
  { grp with wgs := grp.wgs.map (fun g => { g with groups := [1, 2] }), others := [{ grp.cur with id := 2 }] }
theorem witness_SystemInstructions :
    (grp.cur.laneDrained = true ∧ (busyLane grp).cur.laneDrained = false ∧ usr.cur.level = .u ∧ grp.cur.level = .s ∧
      hst.cur.level = .h) ∧ (ctl.cur.laneDrained = true ∧ ctl.cur.kind ≠ .group) ∧
    (twoGroups.cur.laneDrained = true ∧ twoGroups.cur.kind = .group ∧ (twoGroups.enclave? twoGroups.cur.enc).bind (·.save) = none ∧
      (twoGroups.wg? twoGroups.cur.wg).any (fun g => g.groups.contains 2) = true ∧ 2 ≠ twoGroups.cur.id ∧
      (twoGroups.agent? 2).any (fun b => b.status != .ended) = true) := by decide +kernel

/-- A handler whose faulting instruction was the load of R154, with threads to replay, at a base. -/
def replayer (base : Word) : State :=
  holds [(0x400C0, 0x200800060800000400000040, 12)]
    ((handler (withRegs [(8, base)])).onCur fun a => { a with
      regs := { a.regs with m := a.regs.m.set 15 1 }
      trap := { a.trap with fv := true, xlane := 0x400C0 }, lane := {} })
def replaysTo (s : State) (p : State → Bool) : Bool :=
  ends (fetchLane (xlaneIndex s.cur) (s.onCur fun a => a.replaying)) fun x t =>
    match x with
    | .ok j => match laneMeaning j with
      | some k => goes (k t) fun u => (match u.cur.status with | .waiting _ => false | _ => true) && p u
      | none => false
    | .error _ => false
theorem witness_TrapReturn :
    usr.cur.level = .u ∧ (grp.cur.level ≠ .u ∧ grp.cur.laneDrained = true ∧ (busyLane grp).cur.laneDrained = false ∧
      grp.cur.trap.fv = false ∧ grp.cur.lane.replay = none) ∧
    (let s := replayer 0x50000
     s.cur.level ≠ .u ∧ s.cur.trap.fv = true ∧ s.cur.laneDrained = true ∧ (busyLane s).cur.laneDrained = false ∧
      replaysTo s (fun u => !u.cur.trap.hm && !s.cur.trap.inRestore) = true) ∧
    (let s := replayer 0x150000
     s.cur.level ≠ .u ∧ s.cur.trap.fv = true ∧ s.cur.laneDrained = true ∧ replaysTo s (fun u => u.cur.trap.hm) = true) := by
  decide +kernel

theorem witness_GroupControlInstructions :
    ctl.cur.kind ≠ .group ∧ (grp.cur.kind = .group ∧ grp.cur.inRoutine = false ∧ grp.cur.laneDrained = true ∧
      (busyLane grp).cur.laneDrained = false) ∧ (0 : Nat) ∉ [8, 16, 32, 64] ∧
    ((withRegs [(4, 8)]).cur.rs 4).toNat ≤ (withRegs [(4, 8)]).cur.gsize ∧ ¬ ((withRegs [(4, 16)]).cur.rs 4).toNat ≤ grp.cur.gsize ∧
    (pending.cur.regs.q[1].seq = 0 ∧ pending.cur.regs.q[1].seq ≠ 1 ∧ pending.qPending 1 = true ∧
      grp.qPending 1 = false) ∧
    (aheadIs (.gredQ { last := true, vd := 1 }) = true ∧ (ahead (.gredQ { last := true, vd := 1 })).qPending 1 = true ∧
      (ahead (.gredQ { last := true, vd := 1 })).qPending 2 = false) ∧
    grp.cur.code = some { code := 0x40000, span := 0x200, textOff := 0x80, textLen := 8, laneOff := 0xC0, laneN := 1 } ∧
    grp.cur.lane.queue.length < 8 ∧
    8 ≤ (grp.onCur fun a => { a with lane := { a.lane with queue := .replicate 8 { lidx := 0, s := a.regs.s } } }).cur.lane.queue.length := by
  decide +kernel

theorem witness_SpecialRegisterAccesses :
    (0x007 : Nat) ∉ [0x000, 0x001, 0x002, 0x003, 0x004, 0x005, 0x006, 0x010, 0x011, 0x012, 0x020, 0x021, 0x022, 0x023,
      0x024, 0x025, 0x030, 0x031, 0x032, 0x040, 0x041, 0x050] ∧
    usr.cur.level = .u ∧ hst.cur.level = .h ∧ (grp.cur.level = .s ∧ grp.cur.inRoutine = false ∧ grp.cur.laneDrained = true) ∧
    (busyLane grp).cur.laneDrained = false ∧ (busyLane grp).cur.level = .s ∧
    ((inSaveRoutine grp).cur.level = .s ∧ (inSaveRoutine grp).cur.inRoutine = true) ∧
    ([0x024, 0x030, 0x031, 0x032].all fun n => (BitVec.ofNat 12 n).toNat == n) = true := by decide +kernel

def readsWell (s : State) (va : Word) (n : Nat) : Bool :=
  va.toNat % n == 0 && ends (translateRange s.cur.ctx va .r n s) fun p t =>
    match p with | .dev pa => isOk (devRead pa va n t) | _ => isOk (readPlace s.cur.ctx p va n t)
def writesWell (s : State) (va : Word) (bs : List Byte) : Bool :=
  va.toNat % bs.length == 0 && ends (translateRange s.cur.ctx va .w bs.length s) fun p t =>
    match p with | .dev pa => isOk (devWriteX pa va bs t) | _ => isOk (writePlace s.cur.ctx p va bs t)
theorem witness_ScalarLoadsAndStores :
    ([1, 2, 4, 8].all fun n => readsWell grp 0x50000 n && writesWell grp 0x50000 (natBytes 7 n)) = true ∧
    (0x50001 : Nat) % 2 ≠ 0 ∧ (0x50002 : Nat) % 4 ≠ 0 ∧ (0x50004 : Nat) % 8 ≠ 0 ∧
    traps (translate grp.cur.ctx 0x150000 .r grp) (fun c _ => c == cOwner) = true ∧
    traps (translate grp.cur.ctx 0x150000 .w grp) (fun c _ => c == cOwner) = true := by decide +kernel

theorem witness_StoreAndTranslationFrames :
    grp.cur.kind ≠ .host ∧ grp.cur.id ≠ 0 ∧
    ends (translateRange grp.cur.ctx 0x50000 .w 8 grp) (fun p _ => isMem p) = true ∧ grp.chunks = [] ∧
    (let s := { grp with chunks := [{ id := 3, agent := 1, batch := 1, die := 0, src := [0x50400], dst := [0x50004] }] }
     ends (translateRange s.cur.ctx 0x50000 .w 8 s) (fun p t => isMem p && t.chunks.any fun c => c.agent == s.cur.id && c.touches none [0x50004]) = true) ∧
    ends (translate grp.cur.ctx 0x50000 .r grp) (fun _ t => potIndex 0x50000 == some 1 && decide ((t.potAt 1).state ≠ .free)) = true := by
  decide +kernel

theorem witness_EnclaveIsolation :
    grp.cur.ctx.host = false ∧ ends (translate grp.cur.ctx 0x50000 .w grp) (fun p _ => isMem p && potIndex 0x50000 == some 1) = true := by
  decide +kernel

/-- A partition whose policy has scope 6 as its widest, with and without CLAMPTRAP. -/
def policed (trap : Bool) : State :=
  { grp with layout := { grp.layout with entries := grp.layout.entries.set 0 { valid := true, maxScope := 6, clampTrap := trap } } }
def runsLd (s : State) (n sc : Nat) : Bool :=
  ends (translateRange s.cur.ctx 0x50000 .r n s) fun p t => ends (checkScope sc t) fun k t2 => isOk (acquireLoad p 0x50000 n k t2)
def runsSt (s : State) (n sc : Nat) : Bool :=
  ends (translateRange s.cur.ctx 0x50000 .w n s) fun p t => ends (checkScope sc t) fun k t2 =>
    t2.cur.laneDrained && isOk (releaseStore p 0x50000 (natBytes 9 n) k (t2.release t2.cur.id k))
theorem witness_OrderedLoadsAndStores :
    hst.cur.kind = .host ∧ (grp.cur.kind ≠ .host ∧ 10 ≤ (grp.policy grp.cur).maxScope) ∧
    (((policed false).policy (policed false).cur).maxScope < 7 ∧ ((policed false).policy (policed false).cur).clampTrap = false) ∧
    (((policed true).policy (policed true).cur).maxScope < 7 ∧ ((policed true).policy (policed true).cur).clampTrap = true) ∧
    ([(4, 0), (4, 10), (8, 0), (8, 10)].all fun x => runsLd grp x.1 x.2 && runsSt grp x.1 x.2) = true ∧
    ends (translateRange grp.cur.ctx 0x50000 .w 8 (busyLane grp)) (fun _ t => ends (checkScope 5 t) fun _ t2 => !t2.cur.laneDrained) = true := by
  decide +kernel

theorem witness_HomeReadsAndWrites :
    isOk (acquireLoad (.mem 0x50000 false 0) 0x50000 8 5 grp) = true ∧
    isOk (releaseStore (.mem 0x50000 false 0) 0x50000 (natBytes 9 8) 10 grp) = true ∧
    isOk (atomicRead (.mem 0x50000 false 0) 0x50000 8 grp) = true ∧
    isOk (atomicWrite (.mem 0x50000 false 0) 0x50000 7 8 .zero grp) = true := by decide +kernel

theorem witness_FenceInstructions :
    ends (checkScope 4 grp) (fun k _ => decide (k < 5)) = true ∧ ends (checkScope 5 grp) (fun k _ => decide (5 ≤ k)) = true ∧
    grp.cur.laneDrained = true ∧ (busyLane grp).cur.laneDrained = false ∧ isOk (checkScope 5 (busyLane grp)) = true := by
  decide +kernel

theorem of_ends {α : Type} {r : EStateM.Result Stop State α} {p : α → State → Bool} (h : ends r p = true) : ∃ a t, r = .ok a t ∧ p a t = true := by
  cases r with
  | ok a t => exact ⟨a, t, rfl, h⟩
  | error e t => cases h
/-- A range operation runs over one stretch, of a page with or without a software-managed mark. -/
theorem range_one (o : RangeOp) (k : Kind) (q : Word × Nat) (s : State) (hq : ¬ (windowBase ≤ q.1.toNat ∧ q.1.toNat < 2 ^ 57))
    (h : ends (translate s.cur.ctx q.1 k s) (fun p _ => isMem p) = true) : ∃ u, RangeRuns o k [q] s u := by
  obtain ⟨p, t, e, hp⟩ := of_ends h
  simp only [RangeRuns, if_neg hq]
  cases p with
  | mem pa m ap =>
    cases m
    · exact ⟨t, .inr (.inl ⟨_, _, e, by simp, rfl⟩)⟩
    · exact ⟨_, .inl ⟨_, _, _, e, rfl⟩⟩
  | scr g x => cases hp
  | dev pa => cases hp
/-- Copies of die 0: a dirty byte of a software-managed line, and a byte of another page. -/
def replicas : State := { grp with mem := grp.mem.onDie 0 fun d =>
  { d with copies := [{ addr := 0x50010, val := 9, smr := true, dirty := true }, { addr := 0x50400, val := 4 }] } }
theorem witness_CacheRangeOperations_runs : ∀ o k, ∃ u,
    RangeRuns o k ((withRegs [(4, 0x50000), (5, 0x80)]).spans 0x50000 0x80) ((withRegs [(4, 0x50000), (5, 0x80)]).drainWrites 1) u := by
  intro o k
  rw [show (withRegs [(4, 0x50000), (5, 0x80)]).spans 0x50000 0x80 = [(0x50000, 0x80)] by decide +kernel]
  exact range_one o k _ _ (by decide) (by cases k <;> decide +kernel)
theorem witness_CacheRangeOperations_dirty :
    (((replicas.mem.die 0).copies.filter fun c => c.smr && c.dirty && c.addr == 0x50010).getLast?.map (·.val) = some 9 ∧
      (0x50000 : Nat) / 32 * 32 ≤ 0x50010 ∧ 0x50010 < (0x50000 + 0x80 + 31) / 32 * 32) ∧
    ((replicas.mem.die 0).copies.filter fun c => c.smr && c.dirty && c.addr == 0x50400) = [] ∧ ¬ (0x50400 : Nat) < (0x50000 + 0x80 + 31) / 32 * 32 := by
  decide +kernel
theorem witness_CacheRangeOperations :
    (busyLane grp).cur.laneDrained = false ∧ grp.cur.laneDrained = true ∧
    (let s := withRegs [(4, 0x50000), (5, 0x80)]
     s.cur.laneDrained = true ∧ min (s.cur.rs 5).toNat (2 ^ 64 - (s.cur.rs 4).toNat) ≠ 0 ∧
      [RangeOp.wb, .inv, .dis].all (fun o => (rangeGo o (s.spans 0x50000 0x80) (s.drainWrites 1)).2.isNone) = true) ∧
    (let s := withRegs [(4, 0xFFFFFFFFFFFFFFFF), (5, 0)]
     s.cur.laneDrained = true ∧ min (s.cur.rs 5).toNat (2 ^ 64 - (s.cur.rs 4).toNat) = 0) := by decide +kernel

def atomicRuns (s : State) (n : Nat) (pcie : Bool) (o : BitVec 2) (sc : Nat) : Bool :=
  ends (atomicPlace 0x50000 n pcie s) fun p t1 => ends (checkScope sc t1) fun k t2 => t2.cur.laneDrained &&
    ends (atomicRead p 0x50000 n (if o.getLsbD 1 then t2.release t2.cur.id k else t2)) fun x t4 =>
      isOk (atomicWrite p 0x50000 x.1 n x.2 t4)
/-- Two `mcas` entries of R169 with expected values, and whether the observed values are asked for. -/
def mcasAt (e1 e2 : Nat) (report : Bool) : State :=
  holds [(0x52000, 0x20602 + (if report then 0x1000 else 0), 8), (0x52020, 0x53000, 8), (0x52028, e1, 8), (0x52030, 6, 8),
    (0x52040, 0x53100, 8), (0x52048, e2, 8), (0x52050, 0x100, 8), (0x53000, 5, 8), (0x53100, 7, 8)] (withRegs [(2, 0x52000)])
def mcasRuns (s : State) (ok : Bool) : Bool :=
  ends (loadBlock 0x52000 32 s) fun hb t1 => mcasHeaderOk (bytesNat hb) &&
    ends (mcasEntries 0x52000 (bytesNat hb) (List.range (bytesNat hb % 256)) t1) fun es t2 =>
      ends (es.mapM mcasPlace t2) fun ps t3 => (mcasOverlap ((ps.map (·.1)).zip (es.map (·.size)))).isNone &&
        ends (checkScope (bytesNat hb / 2 ^ 8 % 2 ^ 4) t3) fun k t4 => t4.cur.laneDrained &&
          ends (mcasObserve (es.zip ps) (t4.release t4.cur.id k)) fun x t5 =>
            let bits := (((es.zip x.1).zipIdx).map fun y => if y.1.1.exp = y.1.2 then 0 else 2 ^ y.2).sum
            if ok then bits == 0 && ends (mcasWrite (es.zip ps) (x.2.join (t5.releaseClock k)) t5) fun _ t6 =>
              if (bytesNat hb).testBit 12 then isOk (mcasReport 0x52000 x.1 0 (t6.acquire t6.cur.die k x.2)) else true
            else bits != 0 && isOk (mcasReport 0x52000 x.1 0 (t5.acquire t5.cur.die k x.2))
theorem witness_AtomicInstructions :
    ([(4, 0), (8, 3)].all fun x => atomicRuns grp x.1 false (BitVec.ofNat 2 x.2) 0 && atomicRuns grp x.1 true (BitVec.ofNat 2 x.2) 10) = true ∧
    mcasRuns (mcasAt 5 7 false) true = true ∧ mcasRuns (mcasAt 5 7 true) true = true ∧ mcasRuns (mcasAt 5 8 false) false = true := by
  decide +kernel

/-! ### Synchronisation, queues, enclaves -/

def onEnc1 (f : Enclave → Enclave) (s : State) : State := { s with enclaves := s.enclaves.map f }
/-- The group with a software timeline at 5 and a hardware timeline, a closed batch, and a queue. -/
def queued (q : Queue) : State :=
  onEnc1 (fun e => { e with timelines := [{ scope := 6, soft := true, count := 5 }, { scope := 5 }], queues := [q] })
    ((holds [(0x50007, 1, 1), (0x50020, 0x20, 8)] (withRegs [(4, 0x50000), (5, 5), (6, 6), (7, 0x8000000000000000), (8, 1), (9, 2), (10, 0x51000)])).onCur fun a =>
      { a with sync := { a.sync with lastBatch := 1 } })
def room : Queue := { kind := 1, hwCap := 4 }
def spills : Queue := { kind := 1, spillCap := 4, spillAddr := 0x60000 }
def full : Queue := { kind := 1 }
/-- The same with a chunk of batch 1 outstanding, and with a suspended COPY whose token is 5. -/
def chunked : State := { queued room with chunks := [{ id := 1, agent := 1, batch := 1, die := 0, src := [], dst := [] }] }
def suspended : State := { queued room with ops := [{ id := 5, enc := 1, kind := .record 1, record := { bytes := [] }, state := .suspended }] }
def kicks (s : State) : Bool :=
  ends (loadBlock 0x50000 64 s) fun bs t => recordOk s { bytes := bs } 1 2 && ends (checkScope 6 t) fun k t2 =>
    t.cur == s.cur && (t.queue? 1 0).isSome && match t.queue? 1 0 with
    | some q => q.place == 2 || ends (if q.place = 1 then writeVa (hwCtx 1 0) (q.spillSlot q.spilled) bs (t2.release 1 k) else .ok () (t2.release 1 k))
        fun _ t3 => t3.queue? 1 0 == some q
    | none => false
theorem witness_TimelineAndQueueInstructions :
    (hst.cur.kind = .host ∧ (queued room).cur.kind ≠ .host ∧ (queued room).cur.inRoutine = false) ∧
    ((2 : Nat) ^ 12 ≤ 0x50000 ∧ ((queued room).enclave? 1).all (fun e => decide (e.timelines.length ≤ 2)) = true) ∧
    (((queued room).enclave? 1).any fun e => e.timelines[0]? == some { scope := 6, soft := true, count := 5 } &&
      e.timelines[1]? == some { scope := 5 }) = true ∧
    (((queued room).cur.rs 5).toNat ≤ 5 ∧ 5 < ((queued room).cur.rs 6).toNat ∧ isOk (checkScope 6 (queued room)) = true) ∧
    ((queued room).cur.laneDrained = true ∧ (busyLane (queued room)).cur.laneDrained = false) ∧
    (((queued room).cur.rs 7).toNat = 2 ^ 63 ∧ (queued room).cur.sync.lastBatch < ((queued room).cur.rs 9).toNat ∧
      ((queued room).cur.rs 8).toNat ≤ (queued room).cur.sync.lastBatch ∧ (queued room).groupTimeline (queued room).cur = 1 ∧
      chunked.groupTimeline chunked.cur = 0 ∧ isOk (checkScope ((queued room).cur.sync.scopeUpTo 1) (queued room)) = true) ∧
    ((queued room).queue? 1 1 = none ∧ (queued room).queue? 1 0 = some room ∧ (0x50001 : Nat) % 64 ≠ 0) ∧
    (kicks (queued room) && kicks (queued spills) && kicks (queued full)) = true ∧
    (room.place = 0 ∧ spills.place = 1 ∧ full.place = 2 ∧ room.kind < 8) ∧
    ends (loadBlock 0x51000 64 (queued room)) (fun bs _ => recordOk (queued room) { bytes := bs } 1 2 == false) = true ∧
    (usr.cur.level ≠ .s ∧ (queued room).cur.level = .s ∧ (queued room).suspendedOp 1 5 = none ∧ (queued room).suspendedRefill 1 5 = none) ∧
    (suspended.suspendedOp 1 5).any (fun o => isOk (abandonOp o suspended)) = true := by decide +kernel

/-- A barrier of two at 0x50000, and others malformed or overflowed. -/
def barred (w : Nat) (x : Word) : State :=
  holds [(0x50000, w, 8), (0x50008, 2, 8)] (withRegs [(4, 0x50000), (5, x), (6, 0x50008)])
def barAt (s : State) (p : Barrier → State → Bool) : Bool :=
  ends (atomicPlace 0x50000 32 false s) fun pl t => ends (readBarrier pl 0x50000 t) fun x t2 => p x.1 t2
def barArrives (s : State) (x : Nat) : Bool :=
  ends (atomicPlace 0x50000 32 false s) fun pl t => ends (readBarrier pl 0x50000 t) fun y t2 =>
    ends (checkScope (if y.1.malformed then 6 else y.1.word / 2 ^ 52 % 16) t2) fun k t3 => t3.cur.laneDrained &&
      isOk (writeBarrier pl 0x50000 (y.1.arrive (x % 2 ^ 48) (x.testBit 63)) y.2 (t3.release t3.cur.id k))
theorem witness_ArrivalBarriers :
    (let b : Barrier := { word := 2, cur := 2, next := 0, complete := 0 }
     let good := fun (b : Barrier) => b.word % 2 ^ 48 ≠ 0 ∧ b.word / 2 ^ 52 % 16 ≤ 10 ∧ b.word / 2 ^ 57 % 64 = 0 ∧
       b.word / 2 ^ 48 % 16 = 0 ∧ b.cur ≤ b.word % 2 ^ 48 ∧ b.next ≤ b.word % 2 ^ 48 ∧ 0 < b.cur
     (good b ∧ b.word.testBit 63 = false ∧ false = b.complete.testBit 0 ∧ b.cur < 3 ∧ 1 < b.cur ∧ 2 = b.cur ∧ b.next < b.word % 2 ^ 48) ∧
     (good { b with next := 2 } ∧ (2 : Nat) = b.word % 2 ^ 48) ∧ (true ≠ b.complete.testBit 0 ∧ b.word % 2 ^ 48 < b.next + 3 ∧ b.next + 2 ≤ b.word % 2 ^ 48) ∧
     (10 < (11 * 2 ^ 52 : Nat) / 2 ^ 52 % 16) ∧ ({ b with word := 2 + 2 ^ 63 } : Barrier).word.testBit 63 = true ∧
     good { b with word := 2 + 2 ^ 63 }) ∧
    ((barred 2 1).cur.rs 6).toNat % 32 ≠ 0 ∧ (barred 2 1).cur.inRoutine = false ∧
    (let x := 2 + 5 * 2 ^ 52
     x / 2 ^ 52 % 16 ≤ 10 ∧ x % 2 ^ 48 ≠ 0 ∧ x / 2 ^ 57 = 0 ∧ x / 2 ^ 48 % 16 = 0) ∧
    ends (atomicPlace 0x50000 32 false (barred 2 1)) (fun p t =>
      isOk (writeBarrier p 0x50000 { word := 2, cur := 2, next := 0, complete := 0 } .zero (t.beforeAtomic p 32))) = true ∧
    (0x1000000000001 : Nat) / 2 ^ 48 % 2 ^ 15 ≠ 0 ∧
    (barArrives (barred 2 1) 1 && barArrives (barred 0 1) 1 && barArrives (barred 2 1) (2 ^ 63 + 2)) = true ∧
    (busyLane (barred 2 1)).cur.laneDrained = false ∧
    barAt (barred 2 1) (fun b _ => !b.word.testBit 63 && !b.malformed && decide (b.complete < 1)) = true ∧
    barAt (barred 2 0) (fun b t => !b.word.testBit 63 && !b.malformed && decide (0 ≤ b.complete) && isOk (checkScope (b.word / 2 ^ 52 % 16) t)) = true ∧
    barAt (barred (2 + 2 ^ 63) 0) (fun b _ => b.word.testBit 63) = true ∧ barAt (barred 0 0) (fun b _ => b.malformed) = true := by
  decide +kernel

/-- The group with two herds in its HERDMAP, numbered 3 and 7. -/
def herded : State := (withRegs [(4, 7), (5, 0x103), (6, 0x800), (7, 1), (8, 9)]).onCur fun a =>
  { a with ids := { a.ids with herdMap := 0x300000703 } }
theorem witness_WorkgroupBarriers :
    (herded.cur.inRoutine = false ∧ herded.cur.kind = .group ∧ herded.cur.laneDrained = true) ∧
    ((herded.cur.rs 7).toNat % 2 ^ 8 ≠ 0 ∧ (herded.cur.rs 6).toNat / 2 ^ 11 ≠ 0) ∧
    (ctl.cur.kind ≠ .group ∧ ctl.cur.laneDrained = true ∧ (busyLane ctl).cur.laneDrained = false) ∧
    (isOk (checkScope 2 herded) && isOk (checkScope 6 herded)) = true ∧ (busyLane herded).cur.laneDrained = false ∧
    (let listed := fun (x : Word) (j : Nat) => herded.cur.ids.herdMap.getLsbD (32 + j) && herded.cur.ids.herdMap.toNat / 2 ^ (8 * j) % 2 ^ 8 == x.toNat % 2 ^ 8
     listed (herded.cur.rs 4) 0 = false ∧ listed (herded.cur.rs 4) 1 = true ∧ listed (herded.cur.rs 5) 0 = true ∧
     (List.range 4).all (fun j => !listed (herded.cur.rs 8) j) = true) := by decide +kernel

/-- A block table: HBM descriptors 1 (free) and 2 (VALID with `ref` references), LPDDR descriptor 3 (free); sequence 0 has
block 1 at descriptor 2. -/
def tabled (ref : Nat) : State :=
  onEnc1 (fun e => { e with timelines := [{ scope := 6, soft := true }], tables := [(0, 0x50000)] })
    (holds [(0x50000, 0x50400, 8), (0x50008, 0x50800, 8), (0x50020, 2 + 2 ^ 32, 8), (0x50028, 14 + 2 * 2 ^ 32, 8), (0x50030, 0x50C00, 8),
        (0x50038, 0x50D00, 8), (0x50040, 1 + 2 ^ 32, 8), (0x50400, 0x50E00, 8), (0x50408, 2 + 4 * 2 ^ 32, 8), (0x50E04, 2, 4), (0x50810, 2 ^ 60 + 0x60000, 8), (0x50820, 2 ^ 62 + 2 ^ 60 + 0x64000, 8),
        (0x50828, ref * 2 ^ 48, 8), (0x50830, 2 * 2 ^ 60 + 0x68000, 8), (0x50C00, 1, 4), (0x50D00, 3, 4)]
      grp)
def stepsTo {α : Type} (b : B α) (s : State) (p : α → Bool) : Bool :=
  ends (checkScope 6 s) fun k t => t.cur.laneDrained && ends (b.step grp.cur.ctx k .a (t.release t.cur.id k)) fun x _ => p x
/-- Names of blocks 0 and 1 of sequence 0. -/
def name00 : Word := 0
def name01 : Word := 1
theorem witness_BlockTableInstructionSteps :
    hst.cur.level = .h ∧ usr.cur.level = .u ∧ (grp.cur.level ≠ .h ∧ isOk (checkScope 6 (busyLane grp)) = true ∧ (busyLane grp).cur.laneDrained = false) ∧
    (let c := grp.cur.ctx
     let none5 : Word := 0x5000000000000000
     [btRes c 0 5, btAlloc c none5 1, btFork c none5 none5, btRel c none5 0].all (fun b => stepsTo b (tabled 1) fun x => x.1 != 0 && x.2 == 0) = true ∧
     stepsTo (btCow c none5 0) (tabled 1) (fun x => match x with | .status e _ => e != 0 | _ => false) = true ∧
     stepsTo (btDemote c none5 false) (tabled 1) (fun x => match x with | .error e => e != 0 | _ => false) = true ∧
     stepsTo (btAlloc c name00 1) (tabled 1) (fun x => x.1 == 0) = true ∧
     stepsTo (btCow c name01 0) (tabled 2) (fun x => x == .copy 2 1 2) = true ∧
     stepsTo (btDemote c name01 false) (tabled 1) (fun x => match x with | .ok y => y == (2, 3) | _ => false) = true) ∧
    moveTimeline (tabled 1) 0 = some 0 ∧ moveTimeline (tabled 1) 1 = none := by
  refine ⟨?_, ?_, ?_, ⟨?_, ?_, ?_, ?_, ?_, ?_⟩, ?_⟩ <;> decide +kernel

/-- A host thread with host memory at 0x7FED000000, stage-2 tables at 0x7FEC080000, and partition 0 with frames 8 to 23. -/
def hosted (l : List (Nat × Nat × Nat)) : State :=
  holds ([(0x7FEC000000, 0x7FEC010003, 8), (0x7FEC0103F8, 0x7F0000203D, 8), (0x7FEC080000, 0x7FEC090003, 8), (0x7FEC090000, 0x7FEC0A0003, 8),
      (0x7FEC0A0000, 0x7FEC0B0003, 8)] ++ l)
    { hst with mem := {}, layout := { hst.layout with entries := hst.layout.entries.set 0 { valid := true, hbase := 8, hcnt := 16 } }, choices := [5, 6, 7] }
/-- The blocks of an `ecreate` with one frame, one queue and one timeline, of an `eaddpg` and of an `eextend`. -/
def creating : State := hosted [(0x7FED000000, 0x101, 8), (0x7FED000008, 1, 8), (0x7FED000010, 0x7FED000100, 8), (0x7FED000020, 0x7FEC080000, 8),
  (0x7FED000028, 0x7FED000200, 8), (0x7FED000030, 0x7FED000300, 8), (0x7FED000100, 0x200000, 8), (0x7FED000200, 0x10001, 8), (0x7FED000300, 5, 1),
  (0x7FED000400, 6, 8), (0x7FED000408, 0x240000, 8), (0x7FED000418, 0x400000, 8), (0x7FED000480, 0x10006, 8)]
def after {α : Type} (r : EStateM.Result Stop State α) : State := match r with | .ok _ t => t | .error _ t => t
def built : State := after ((ecreate 0x7FED000000).run creating)
/-- An enclave of ID 6 that runs, with frame 9 its own and unmapped, and the blocks of an `eevict` and of an `eload`. -/
def paging : State :=
  let s := hosted [(0x7FED000000, 6, 8), (0x7FED000008, 0x240000, 8), (0x7FED000010, 0x7FED100000, 8), (0x7FED000020, 6, 8),
    (0x7FED000028, 0x280000, 8), (0x7FED000030, 0x7FED100000, 8)]
  { s with enclaves := [{ id := 6, state := .running, s2Root := 0x7FEC100000 }], pot := [(9, { state := .owned, owner := 6 })] }
theorem witness_EnclaveCreationAndEnd :
    (grp.cur.level ≠ .h ∧ creating.cur.level = .h ∧ creating.cur.level ≠ .s ∧ grp.cur.level = .s) ∧
    ([ecreate 1, edestroy 0x10000, eaddpg 0x7FED000400, eextend 0x7FED000400, eevict 0x7FED000400, eload 0x7FED000400].all fun (q : Q Word) =>
      ends (q.run creating) fun x _ => match x with | .error _ => true | .ok _ => false) = true ∧
    ends (loadBlock 0x7FED000000 128 creating) (fun bk t1 => ecreateOk bk && ends (loadBlock (BitVec.ofNat 64 (wordAt bk 16)) 8 t1) fun fr t2 =>
      ends (loadBlock (BitVec.ofNat 64 (wordAt bk 40)) 16 t2) fun qt t3 => ends (loadBlock (BitVec.ofNat 64 (wordAt bk 48)) 1 t3) fun tl t4 =>
        qtabOk (wordAt qt 0) && tl.all (fun z => tltabOk z.toNat) && decide (t4.enclaves.length < 4096) && decide (t4.hwEntries 0 + 1 ≤ 4096) &&
        t4.frameFree 0 (wordAt fr 0) && (t4.path2 (wordAt fr 0) 4 0 (wordAt bk 32)).isSome && t4.newEncId t4.draw.1 == some 6) = true ∧
    ends (loadBlock 0x7FED000400 32 built) (fun bk t1 => wordAt bk 0 / 2 ^ 16 % 4 == 0 && wordAt bk 0 == 6 && wordAt bk 16 == 0 && addpgVaOk (wordAt bk 24) &&
      (t1.enclave? 6).any fun e => decide (e.state = .building) && t1.frameFree e.part (wordAt bk 8) && (t1.path2 (wordAt bk 8) 4 0 e.s2Root).isSome &&
        ends (stage2 e.id serviceView e.s1Root .w t1) fun root _ =>
          match arenaPath t1 e (fun ipa => root.1 + (ipa - e.s1Root)) (wordAt bk 24) 4 0 e.s1Root e.arena false with
          | .ok tb => !(t1.entryAt tb.2.2).testBit 0
          | .error _ => false) = true ∧
    ([(0x7FED000400 : Word), 0x7FED000480].all fun x => ends (loadBlock x 72 { creating with enclaves := [{ id := 6 }] }) fun bk t1 => decide (wordAt bk 0 < 2 ^ 17) &&
      (t1.enclave? (BitVec.ofNat 16 (wordAt bk 0))).any (fun e => decide (e.state = .building)) && decide (t1.cur.status ≠ .absent)) = true ∧
    (({ creating with enclaves := [{ id := 6 }] } : State).enclave? 6).any (fun (e : Enclave) => decide (e.state ≠ .dying)) = true := by
  refine ⟨?_, ?_, ?_, ?_, ?_, ?_⟩ <;> decide +kernel

/-- The tag of an evicted page is an opaque function of its bytes: either clause of `eload` may apply, and the second does where
no version of the page is known. The capsule of a `kimport` opens or not by such a function too. -/
theorem witness_PagingKeysAndOwnership :
    ends (loadBlock 0x7FED000000 32 paging) (fun bk t => wordAt bk 0 == 6 && wordAt bk 8 % 0x40000 == 0 && potIndex (wordAt bk 8) == some 9 &&
      (t.enclave? 6).any fun e => decide (e.state = .running) && decide ((t.potAt 9).state = .owned) && (t.potAt 9).owner == e.id &&
        (t.mapsFrame e (wordAt bk 8)).isEmpty &&
        (pieces (BitVec.ofNat 64 (wordAt bk 16)) 0x40040).all fun q => ends (translateRange t.cur.ctx q.1 .w q.2 t) fun p _ => isMem p) = true ∧
    ends (loadBlock 0x7FED000020 24 paging) (fun bk t => wordAt bk 0 == 6 && t.frameFree 0 (wordAt bk 8) && potIndex (wordAt bk 8) == some 10 &&
      (pieces (BitVec.ofNat 64 (wordAt bk 16)) 0x40040).all (fun q => ends (translateRange t.cur.ctx q.1 .r q.2 t) fun p _ => isMem p) &&
      ends (loadBlock (BitVec.ofNat 64 (wordAt bk 16) + 0x40000) 64 t) fun tr t3 =>
        (t3.enclave? 6).any fun e => (alook e.latest (wordAt tr 8)).isNone) = true ∧
    (let s := holds [(0x50008, 3, 8)] (withRegs [(4, 0x50000), (5, 31), (6, 32)])
     s.cur.level = .s ∧ ends (loadBlock 0x50000 1632 s) (fun bk t => wordAt bk 8 != t.layout.gen.toNat) = true ∧ (s.cur.rs 5).toNat < 32 ∧ 32 ≤ (s.cur.rs 6).toNat) ∧
    (let s := onEnc1 (fun e => { e with wslots := [none] }) (withRegs [(4, 0x50000)])
     ends (loadBlock 0x50000 1632 s) (fun bk t => wordAt bk 8 == t.layout.gen.toNat && wordAt bk 0 == 0 &&
       (t.enclave? t.cur.enc).any fun e => (e.slots false)[0]? == some none) = true) ∧
    ({ paging with mem := { paging.mem with poison := [0x2401] } }.badPage 0x240000 = some cPoison ∧ paging.badPage 0x240000 = none ∧ paging.cur.level = .h) ∧
    usr.cur.level = .u ∧ potIndex 0x8000000000 = none ∧ potIndex 0x7FFFFFFFFF = some 2097151 := by
  refine ⟨?_, ?_, ?_, ?_, ?_, ?_⟩ <;> decide +kernel

/-! ### Save areas, lanes, waits, memory -/

/-- The group in its save or restore routine, with an 8 KiB save area at 0x101000 in a SAVE frame. -/
def saving (restore : Bool) (l : List (Nat × Nat × Nat)) : State :=
  let s := onEnc1 (fun e => { e with save := some { ipa := 0x100000, slotSz := 16384, nslot := 1 } })
    (holds l ((withRegs [(4, 0x30001), (5, 0x400), (6, 0x401), (7, 0x1FF8), (8, 0x40000)]).onCur fun a =>
      { a with trap := { a.trap with saveBase := 0x101000, inSave := !restore, inRestore := restore } }))
  { s with pot := s.pot ++ [(4, { state := .save, owner := 1 })] }
def saved1 : State := saving true [(0x101400, 1 + 3 * 2 ^ 16 + 8 * 2 ^ 32, 8)]
def savedRegs : Regs := { grp.cur.regs with v := (grp.cur.regs.v.set 1 (.g (List.replicate 8 5))).set 2 (.a 1 2) }
theorem witness_SaveAndRestoreInstructions :
    (usr.cur.level ≠ .s ∧ grp.cur.level = .s ∧ grp.cur.trap.inSave = false ∧ grp.cur.trap.inRestore = false) ∧
    (let s := saving false []
     let n := (saveRecord s.cur.regs s.cur.gsize s.cur.regs.s 1 1 3).length
     s.cur.level = .s ∧ s.cur.trap.inSave = true ∧ ¬ (0x40000 < 2 ^ 18) ∧ (0x30001 < 2 ^ 18 ∧ 1 ≤ 1 ∧ 1 + 1 ≤ 64) ∧ 0x401 % 8 ≠ 0 ∧
     (0x400 % 8 = 0 ∧ 0x400 ≤ 0x400 ∧ 0x400 + n ≤ areaOf s ∧ areaOf s < 0x1FF8 + n) ∧ areaOf s = 8192 ∧
     isOk (saveWrite 1 0 0x101400 (List.replicate n 0) s) = true ∧
     isOk (saveWrite 1 0 0x101000 (groupRecord s.cur ((s.cur.trap.spc &&& ~~~ 3) ||| 1) 0x400 false) s) = true) ∧
    (saved1.cur.level = .s ∧ saved1.cur.trap.inRestore = true ∧ 0x408 ≤ areaOf saved1) ∧
    ends (saveRead 1 0x101400 8 saved1) (fun hb t1 =>
      let h := bytesNat hb
      h / 2 ^ 32 % 2 ^ 11 == 8 && h / 2 ^ 18 % 2 ^ 14 == 0 && h / 2 ^ 43 % 2 ^ 21 == 0 && saveRangeOk 8 (h % 2 ^ 8) (h / 2 ^ 8 % 2 ^ 8 + 1) (h / 2 ^ 16 % 4) &&
      recordBody 8 1 3 0 == some (8, []) && decide (0x400 + 8 + 8 ≤ areaOf saved1) && isOk (saveRead 1 0x101408 8 t1)) = true ∧
    ([(0, 0, 8), (0, 7, 1), (1, 1, 15), (2, 0, 4), (3, 1, 63)].all fun x => saveRangeOk 8 x.2.1 x.2.2 x.1) = true ∧
    (savedRegs.v.toList.all fun r => match r with | .g l => l.length == 8 | _ => true) = true ∧
    (savedRegs.m.toList.all fun m => m &&& allLive 8 == m) = true := by decide +kernel

/-- A group at a lane instruction, with a budget of 24 registers and a base in s8. -/
def laned : State := (withRegs [(8, 0x50000), (9, 0x50400)]).onCur fun a =>
  { a with
    budget := 24
    regs := { a.regs with v := (a.regs.v.set 4 (.a 0x50000 8)).set 6 (.a 0 8), m := a.regs.m.set 3 0xF }
    lane := { a.lane with active := some { lidx := 0, mask := allLive 8, s := a.regs.s } } }
/-- The same with 63 results of each class outstanding. -/
def counted : State := laned.onCur fun a => { a with lane := { a.lane with pend :=
  ([OutClass.mem, .long, .xlane].map fun k => List.replicate 63 { cls := some k, writes := [] }).flatten } }
def issues (i : Instr) : Bool :=
  inBudget i laned.cur.budget && match laneClass i with | some k => decide (laned.cur.lane.count k < 63) | none => true
theorem witness_LaneIssue :
    (laneUse (.vadd .i32 { vd := 24 })).isSome = true ∧ laneClass (.vadd .i32 { vd := 24 }) = none ∧
    inBudget (.vadd .i32 { vd := 24 }) laned.cur.budget = false ∧ inBudget (.vadd .i32 { vd := 23 }) laned.cur.budget = true ∧
    inBudget (.gbcast { vd := 1, imm := 7 }) laned.cur.budget = true ∧ (7 : Nat) < laned.cur.gsize ∧
    laneClass (.gbcast { vd := 1, imm := 7 }) = some .xlane ∧ 63 ≤ counted.cur.lane.count .xlane ∧ counted.cur.lane.count .xlane ≤ 63 ∧
    laneClass (.fdiv .f32 {}) = some .long ∧ laned.cur.lane.count .long < 63 := by decide +kernel

def iops (t : ITy) (f : Lane) : List Instr :=
  [.vadd t f, .vsub t f, .vmul t f, .vmad t f, .vmulh t f, .vmin t f, .vmax t f, .vand t f, .vor t f, .vxor t f, .vshl t f, .vshr t f,
    .vsra t f, .vbfx t f, .vbfi t f, .vsel t f]
theorem witness_LaneIntegerResults :
    (7 : Nat) < laned.cur.gsize ∧ ((iops .i64 { vd := 2, va := 4, vb := 6 }).all issues && (iops .n32 { vd := 23 }).all issues) = true ∧
    ([Instr.vabs true { vd := 2 }, .vneg false {}, .vnot false {}, .vmov false {}, .vclz false {}, .vpopc true { vd := 2 }, .vcmp .n64 .le { vd := 1 }, .vimm {},
      .vtid {}, .vtidWg {}, .vaff {}].all issues) = true ∧ (0 + 64 : Nat) ≤ ITy.i64.width ∧ (31 + 1 : Nat) ≤ ITy.i32.width ∧
    (2 : Nat) ^ 31 ≤ 0x80000000 ∧ 0x80000000 < 2 ^ 32 := by decide +kernel

theorem witness_LaneMasksAndMoves :
    ((7 : Nat) < laned.cur.gsize ∧ laned.cur.gsize ≤ 1024 ∧ 0 < laned.cur.width ∧ laned.cur.width ≤ laned.cur.gsize) ∧
    ([Instr.mand { vd := 1 }, .mor { vd := 1 }, .mxor { vd := 1 }, .mnot { vd := 1 }, .mmov { vd := 1 }, .mfrom { vd := 1 }, .mfirst { vd := 1 },
      .mcnt {}, .rshuf {}, .rbcast {}, .gperm {}, .rshift { imm := 0 }, .gbcast { imm := 7 }].all issues) = true ∧
    (let l := fun (i : BitVec 32) => (7 % laned.cur.width : Nat) - (i.extractLsb' 0 8).toInt
     0 ≤ l 7 ∧ l 7 < laned.cur.width ∧ 0 ≤ l 0 ∧ l 0 < laned.cur.width ∧ l 8 < 0 ∧ (laned.cur.width : Int) ≤ l 255) ∧
    (7 : Nat) < laned.cur.gsize ∧ laned.cur.gsize ≤ 8 := by decide +kernel

theorem witness_LaneReductions :
    ([0x40, 0x52, 0x61].all fun x => ((redType x).any fun t => !t.isInt) && decide (x.toNat % 8 < 3)) = true ∧
    ([0x40, 0x52, 0x61].all fun x => let f : Lane := { imm := x }
      [Instr.rscan f, .gscan f, .rred f, .gred f, .rredQ f, .gredQ f].all issues) = true ∧
    (redType 0).isSome = true ∧ (redType 0).all CTy.isInt = true ∧ (0 : Nat) % 8 < 6 ∧ (5 : Nat) % 8 < 6 ∧ laned.cur.gsize = 2 ^ 3 ∧ laned.cur.width = 2 ^ 3 ∧
    (laned.laneCtx {}).live.getLsbD 7 = true ∧ (laned.laneCtx { mk := 3 }).live.getLsbD 3 = true ∧ (laned.laneCtx { mk := 3 }).live.getLsbD 4 = false ∧
    ([Instr.rscan {}, .gscan {}, .rred {}, .gred {}, .rredQ {}, .gredQ {}].all issues) = true := by decide +kernel

theorem witness_LaneFloatArithmetic :
    (7 : Nat) < laned.cur.gsize ∧ ([FTy.f32, .bf16, .f16].all fun t => [Instr.fadd t {}, .fsub t {}, .fmul t {}, .fdiv t {}, .ffma t {}, .fmin t {}, .fmax t {}, .frcp t {},
      .frsq t {}, .fsqrt t {}, .fexp2 t {}, .flog2 t {}, .ftanh t {}, .fscale t {}, .fabs t {}, .fneg t {}, .fclass t {}, .fcmp t { vd := 1 }].all issues) = true ∧
    (0 : Nat) < 32 / (FTy.fmt .f32).width ∧ (1 : Nat) < 32 / (FTy.fmt .f16).width ∧
    ([0, 1, 0x80000000, 0x00800000, 0x7F7FFFFF, 0x7F800000, 0xFF800000].all fun x => decide (x < 2 ^ (FTy.fmt .f32).width) && decide ((FTy.fmt .f32).decode x ≠ .nan)) = true := by
  decide +kernel

theorem witness_LaneConversionsAndDots :
    (7 : Nat) < laned.cur.gsize ∧ ([Instr.cvt .i32 .i64 { vd := 1, va := 2 }, .cvt .f32 .i32 {}, .cvt .n64 .f16 {}, .cvt .bf16 .f32 {}, .cvt .narrow .f32 { aux := 0x62 },
      .npack false { aux := 0x62 }, .npack true { aux := 0x62 }, .nunpack false { aux := 0x62 }, .nunpack true { aux := 0x62 }, .vdot .bf16 {}, .vdoth .f16 {}, .vdot .narrow {},
      .vdoth .narrow {}].all issues) = true ∧
    (CTy.i32.isInt = true ∧ CTy.f32.isInt = false) ∧ (7 < nfCount 0x62 ∧ 32 = (Fmt.narrow 0x62).width * nfCount 0x62 ∧ nfCount 0x62 % 2 = 0) := by decide +kernel

/-- The live threads' places for an access of `n` bytes, all found, and what `p` says of the places and the state after. -/
def founds (find : Nat → X (List Place)) (s : State) (p : List (Nat × List Place) → State → Bool) : Bool :=
  ends (laneFind find (List.range 8) s) fun rs t => decide ((foundPlaces rs).length = 8) && p (foundPlaces rs) t
theorem witness_LaneMemory :
    ([Instr.vld .i32 { va := 8 }, .vldx .i32 {}, .vlds .i8 {}, .vst .i64 { va := 8 }, .vstx .i32 {}, .vatom .add .i32 {}, .vred .min .n64 {}, .acpy { va := 9 }].all issues) = true ∧
    (let x := laned.cur.laneCtx
     let s := laned.laneView.2
     founds (fun t => findOne (0x50000 + bv64 (4 * t)) 4 .r x) s (fun ps t => ends (readThreads x 4 ps t) fun r _ => r.2.isEmpty) = true ∧
     founds (fun t => findOne (0x50000 + bv64 (8 * t)) 8 .w x) s (fun ps t => isOk (writeThreads x 8 (fun k => k) ps t)) = true ∧
     ends (checkScope 0 s) (fun _ s1 => founds (fun t => do
         let q ← atomicPlaceFor x (0x50000 + bv64 (4 * t)) 4 true
         pure [q]) s1 fun ps u => ends (atomicThreads 4 (fun _ v => v + 1) ps u) fun r _ => r.2.isEmpty) = true ∧
     ends (checkScope 0 s) (fun _ s1 => founds (fun t => do
         let p ← translateRange x (0x50000 + bv64 (4 * t)) .r 4
         let q ← translateRange x (0x50400 + bv64 (4 * t)) .w 4
         pure [p, q]) s1 fun _ _ => true) = true) ∧
    (laned.cur.trap.hm = false ∧ laned.cur.preempting = false ∧ cOwner ≠ cIllegal) ∧
    (let x := laned.cur.laneCtx
     let s := laned.laneView.2
     let last := fun (rs : List (Nat × Except Stop (List Place))) => (foundTraps rs).map (fun y => (y.1, y.2.1)) == [(7, cOwner)] && (foundFills rs).isEmpty
     ends (laneFind (fun t => findOne (0xBFFE4 + bv64 (4 * t)) 4 .r x) (List.range 8) s) (fun rs t => last rs &&
       ends (readThreads x 4 (foundPlaces rs) t) fun r _ => r.2.isEmpty) = true ∧
     ends (laneFind (fun t => findOne (0xBFFE4 + bv64 (4 * t)) 4 .w x) (List.range 8) s) (fun rs t => last rs &&
       isOk (writeThreads x 4 (fun k => k) (foundPlaces rs) t)) = true ∧
     ends (checkScope 0 s) (fun _ s1 => ends (laneFind (fun t => do
         let q ← atomicPlaceFor x (0xBFFE4 + bv64 (4 * t)) 4 true
         pure [q]) (List.range 8) s1) fun rs u => last rs && ends (atomicThreads 4 (fun _ v => v + 1) (foundPlaces rs) u) fun r _ => r.2.isEmpty) = true ∧
     ends (checkScope 0 s) (fun _ s1 => ends (laneFind (fun t => do
         let p ← translateRange x (0x50000 + bv64 (4 * t)) .r 4
         let q ← translateRange x (0xBFFE4 + bv64 (4 * t)) .w 4
         pure [p, q]) (List.range 8) s1) fun rs _ => last rs && (foundPlaces rs).length == 7) = true) := by
  decide +kernel

theorem witness_ResultLanding : (255 : Nat) < 256 ∧ (15 : Nat) < 16 ∧ (3 : Nat) < 4 ∧ (7 : Nat) < 8 := by decide

/-- A group with a status and a change. -/
def inState (st : Status) (s : State := grp) : State := s.onCur fun a => { a with status := st }
def ponding (ws : List PendWrite) : State := grp.onCur fun a => { a with lane := { a.lane with pend := [{ cls := none, writes := ws }] } }
theorem witness_LaneStreamSteps :
    grp.agent? 1 = some grp.cur ∧
    ((busyLane grp).cur.lane.queue.length = 1 ∧ laneAwake (busyLane grp).cur.status = true ∧ (busyLane grp).resident (busyLane grp).cur = true ∧
      (busyLane grp).cur.lane.active = none ∧ (busyLane grp).cur.lane.parked = false ∧ (busyLane grp).cur.lane.writes = []) ∧
    ((inState (.waiting .lrunRoom)).cur.status = .waiting .lrunRoom ∧ grp.cur.lane.queue.length < 8) ∧
    ([[PendWrite.lane 1 0xFF true (.u 3)], [.q 1 5], [.q 1 5, .q 1 6], [.mask 3 0xFF 1]].all fun ws =>
      (ponding ws).cur.lane.pend[0]? == some { cls := none, writes := ws } && (ponding ws).cur.status.standing &&
        ws.all fun w => !(ponding ws).cur.qHeld 0 w) = true ∧
    ((inState (.waiting .drain)).cur.laneDrained = true ∧ (inState (.waiting .drain)).cur.preempting = false) ∧
    (inState (.waiting (.bmask 3))).maskPending 3 = false ∧
    (grp.cur.regs.q[1].seq = 0 ∧ grp.cur.regs.q[1].seq ≠ 1 ∧ grp.qPending 1 = false) := by decide +kernel

/-- The group waiting at `wgbar`, or at `hbar` of herd 0, with an arrival. -/
def atBarrier (herd : Option Nat) (w : Wait) : State := (inState (.waiting w)).onCur fun a =>
  { a with sync := { a.sync with arrival := some { herd, k := 1, op := 1, val := 7, sd := 5 } } }
def someRecord : Rec := { bytes := List.replicate 64 0 }
def launch1 : Launch := { id := 9, op := 1, enc := 1, part := 0, record := someRecord, view := { code := 0, span := 0, textOff := 0, textLen := 0, laneOff := 0, laneN := 0 } }
def herdState : State := { atBarrier (some 0) .hbar with
  launches := [{ launch1 with herds := [[0]] }], wgs := grp.wgs.map fun g => { g with launch := 9 } }
theorem witness_SynchronisationSteps :
    (let s := { queued room with cur := { (queued room).cur with status := .waiting (.twait 0 5) } }
     s.agent? 1 = some s.cur ∧ (s.focus 1).twaitMet 0 5 = true) ∧
    (let s := inState (.waiting (.await 0x50000 0)) (barred 2 0)
     s.agent? 1 = some s.cur ∧ (s.focus 1).awaitMet 0x50000 0 = true) ∧
    ((barMembers .wgbar none ((atBarrier none .wgbar).groupsOf 1)).any fun l => (l.map (·.1.id)) == [1] &&
      l.all fun y => (atBarrier none .wgbar).agent? y.1.id == some y.1) = true ∧
    (herdState.launch? 9).any (fun la => ((herdState.herdGroups la 0).bind (barMembers .hbar (some 0))).any fun l =>
      (l.map (·.1.id)) == [1] && l.all fun y => herdState.agent? y.1.id == some y.1 && y.2.op == 1) = true ∧
    (grp.cur.kind ≠ .host ∧ grp.cur.status = .ready ∧ grp.cur.trap.hm = false ∧ grp.cur.preempting = false ∧ ringReady (ringed grp) = true) := by
  refine ⟨?_, ?_, ?_, ?_, ?_⟩ <;> decide +kernel

def aChunk : Chunk := { id := 3, agent := 1, batch := 1, die := 0, src := [0, 1], dst := [4, 5], srcLocal := some 1, dstLocal := some 1 }
def aFlight : Flight := { agent := 1, die := 0, clock := Clock.start.set 0 2, bytes := [(0x50000, 7)], todo := [1, 2] }
theorem witness_MemorySteps :
    (let s := { grp with chunks := [aChunk], choices := [0] }
     s.chunks.find? (·.id == 3) = some aChunk ∧ s.chunkHeld aChunk = false ∧ (s.wg? 1).isSome = true ∧ aChunk.src.length = aChunk.dst.length ∧ aChunk.src ≠ []) ∧
    (let c := { aChunk with src := [0x50400], dst := [0x50500], srcLocal := none, dstLocal := none }
     let s := { replicas with chunks := [c], choices := [0] }
     s.chunks.find? (·.id == 3) = some c ∧ s.chunkHeld c = false ∧
       let u := ({ s with choices := [] }.drainBytes 1 c.src).drainBytes 1 c.dst
       c.src.all (fun p => (findCopy (u.mem.die 0).copies (u.redirect p)).isSome) = true) ∧
    (((replicas.mem.die 0).copies.filter fun c => c.smr && c.dirty && c.addr == 0x50010).getLast?.map (·.val) = some 9 ∧ (0x50010 : Nat) / 256 = 0x500) ∧
    (let s := grp.onCur fun a => { a with leaving := [{ bytes := [(0x50000, 7)] }, { bytes := [(0x50001, 8)] }] }
     s.agent? s.cur.id = some s.cur ∧ mayEnter s.cur.leaving 0 = true ∧ mayEnter s.cur.leaving 1 = true) ∧
    (let m := { grp.mem with flight := [aFlight, { aFlight with clock := Clock.start.set 0 3 }] }
     m.flight[0]? = some aFlight ∧ aFlight.todo.contains 1 = true ∧ m.held 1 aFlight = false ∧ m.held 1 { aFlight with clock := Clock.start.set 0 3 } = true ∧
     aFlight.origin = false ∧ aFlight.atHome = false ∧ aFlight.touches 0x50000 = true) ∧
    (regionOf 0xF000000000000 = .device ∧ deviceHole 0xF000000000000 = false ∧ relayModule (0xF000000000000 - devBase) = none ∧ (0xF000000000000 : Nat) % 8 + 8 ≤ 8) ∧
    (badRange grp 0 [] false 0x50500 1 = none ∧ badRange { grp with mem := { grp.mem with poison := [0x505] } } 0 [] false 0x50500 1 ≠ none) ∧
    (let s := { grp with links := { grp.links with streams := [(3, { state := stUp })] } }
     potIndex 0x7FEC0000F0 = some 2095872 ∧ deviceCarveOut 2095872 = true ∧ (0x7FEC0000F0 : Nat) % 256 + 16 ≤ 256 ∧ (s.potAt 2095872).state = .owned ∧
     (s.potAt 2095872).owner = 0 ∧ s.lockedWrite (s.redirect 0x7FEC0000F0) (List.replicate 16 1) = false ∧
     (s.links.streams.any fun x => decide (x.2.state = stUp) && x.2.lenc == 0 && x.2.penc == 0) = true ∧ grp.links.streams = []) := by
  decide +kernel

/-! ### Launches, scheduling, saves, engines -/

/-- A record of 8-byte words from offset 0 on. -/
def recOf (ws : List Nat) : Rec := { bytes := (ws.map fun w => natBytes w 8).flatten, die := 0, wg := 1 }
/-- A LAUNCH of two workgroups of eight threads, of the object at 0x60000 with one scalar word of code. -/
def launchRec : Rec := recOf [0, 0, 0x60000, 2 ^ 32, 8, 0, 0, 0]
def objectAt : List (Nat × Nat × Nat) := [(0x60000, 0x14F4C5641, 8), (0x60018, 0x100 + 4 * 2 ^ 32, 8), (0x60068, 0x200, 8)]
/-- Partition 0 with slice 0 of die 0, an enclave with save fields, and a queue. -/
def part0 (q : Queue) (s : State := grp) : State :=
  let t := onEnc1 (fun e => { e with save := some { ipa := 0x100000, slotSz := 16384, nslot := 2 }, mapCleared := true, queues := [q] }) (holds objectAt s)
  { t with
    pot := t.pot ++ [(4, { state := .save, owner := 1 })]
    layout := { t.layout with entries := t.layout.entries.set 0 { valid := true, slices := 1 } } }
def launched : Launch := { launch1 with record := launchRec, ranges := [(0, 0)] }
theorem witness_LaunchSteps :
    (let q : Queue := { hwCap := 1, spillCap := 4, spillAddr := 0x60400, spill := [launchRec] }
     let s := part0 q
     s.queue? (BitVec.ofNat 16 1) 0 = some q ∧ q.used + recordEntries q.kind ≤ q.hwCap ∧ q.refillFault = none ∧
     ends (readVa (hwCtx 1 0) (q.spillSlot q.refilled) (recordSize q.kind) .r s) (fun _ t => t.queue? 1 0 == some q) = true) ∧
    (let o : Op := { id := 7, enc := 1, kind := .record 0, record := launchRec }
     let s := { part0 {} with ops := [o] }
     s.unopened 0 = some o ∧ (s.enclave? o.enc).any (fun e => s.hasSlice e && ends (openLaunch e launchRec 0 7 s) fun r _ =>
       match r with | .ok _ => true | .error _ => false) = true) ∧
    (let s := part0 { hwCap := 1, hw := [launchRec] }
     s.unopened 0 = none ∧ (firstRecord (s.launchHeads 0)).isSome = true ∧ s.masterDie 0 = some 0 ∧ s.inDispatch 0 < 64 ∧
     s.ops.all (fun o => o.id != s.nextId) = true) ∧
    (let s := { part0 {} with launches := [launched], choices := [5] }
     s.launch? 9 = some launched ∧ s.partOnDie 0 0 = true ∧ launched.dead = false ∧ launched.redeal = [] ∧ launched.dealt ≤ launched.record.grid ∧
     s.asks launched 0 = true ∧ { s with layout := { s.layout with held := [0] } }.asks launched 0 = false ∧
     { s with launches := [{ launched with redeal := [3, 4, 7] }] }.asks { launched with redeal := [3, 4, 7] } 0 = true) ∧
    (let t := (part0 { hwCap := 1, hw := [launchRec] }).onHealth fun h => { h with dieFence := 15 }
     t.unopened 0 = none ∧ (firstRecord (t.launchHeads 0)).isSome = true ∧ t.masterDie 0 = none ∧ t.partitionGone 0 = true ∧
       t.ops.all (fun o => o.id != t.nextId) = true) ∧
    (let s := { part0 {} with launches := [launched], choices := [0] }
     let f : SaveFields := { ipa := 0x100000, slotSz := 16384, nslot := 2 }
     (s.enclave? 1).any (fun e => s.hasSlice e && e.admitBlocked.isNone && e.save == some f && (
        let u := { s.onEnclave e.id fun (x : Enclave) => { x with save := some f } with choices := [] }
        let js := (u.freeSlots e.id f.nslot 0).take launched.record.need.groups
        decide (js.length = launched.record.need.groups) && isOk (takeSlots e.id 0 f js u))) = true ∧
     s.partOnDie 0 0 = true ∧ (s.wgs.all fun w => decide (w.state ≠ .dispatchable)) = true ∧ launched.nextFor 0 = some 0 ∧
     s.coreFor s.onCores 0 0 launched.record.need = some 0 ∧ saveSize launched.record.g launched.record.budget ≤ areaSize f) := by decide +kernel

def wgIn (st : WgState) (s : State := grp) : State := { s with wgs := s.wgs.map fun w => { w with state := st } }
def tileOp : Op := { id := 7, enc := 1, kind := .record 2, record := recOf (2 ^ 57 :: List.replicate 15 0) }
def sliced (s : State) : State :=
  { s with layout := { s.layout with entries := s.layout.entries.set 0 { valid := true, budget := #v[1, 0, 0, 0] } }
           enclaves := s.enclaves ++ [{ id := 2, state := .running }], parts := [(0, { budget := #v[1, 0, 0, 0] })] }
theorem witness_SchedulingSteps :
    ((wgIn .swapping).wg? 1).any (fun w => decide (w.state = .swapping)) = true ∧ (wgIn .swapping).tileRuns 1 = false ∧
    { wgIn .swapping with ops := [tileOp] }.tileRuns 1 = true ∧ ((wgIn .swapping).groupsOf 1).all (fun a => a.lane.pend.isEmpty) = true ∧
    (let s := wgIn .swapped (inState (.saved true none))
     (s.wg? 1).any (fun w => decide (w.state = .swapped) && w.groups.all fun k => s.savedReady k) = true) ∧
    (grp.agent? 1 = some grp.cur ∧ grp.canScalar grp.cur = true ∧ (let a := inState .exited; a.canScalar a.cur = false ∧ a.canLane a.cur = false)) ∧
    (let s := { grp with layout := { grp.layout with journal := .committing, entries := grp.layout.entries.set 0 { valid := true, slices := 1 } } }
     s.layout.journal = .committing ∧ 0 ∉ s.layout.flipped ∧ (s.layout.entries.getD 0 {}).slices.getLsbD 0 = true ∧ grp.layout.journal ≠ .committing) ∧
    (let s := { sliced grp with choices := [5] }
     s.tslice 0 ≠ 0 ∧ (s.part 0).slice = none ∧ (s.enclaves.filter fun x => x.part == 0 && EnclaveState.runs x.state) ≠ []) ∧
    ((sliced grp).tslice 0 ≠ 0 ∧ ((sliced grp).parts.map (·.1)).Pairwise (· < ·)) ∧
    (let s := sliced grp
     (s.enclave? (BitVec.ofNat 16 2)).any (fun e => e.part == 0 && decide (e.state = .running)) = true ∧ (s.part 0).slice = none ∧ s.preempted 0 2 = [1] ∧
     (s.onCur fun a => { a with part := 5 }).preempted 0 2 = []) := by decide +kernel

/-- The pre-empted group; a group that overruns its save routine; one that is saved, and its core. -/
def preempted : State := grp.onCur fun a => { a with preempting := true }
def savedGroup (forced : Bool) : State := (inState (.saved forced none) (part0 {})).onCur fun a =>
  { a with contract := some 8, trap := { a.trap with saveBase := 0x101000 } }
/-- A page at 0x100000000 that a drive is to fill, in stage-1 tables of frame 2, with the pool and the backing table in frame 1. -/
def absent (l : List (Nat × Nat × Nat)) : State :=
  holds (l ++ [(0x90008, 0x98003, 8), (0x98000, 0x98403, 8), (0x98400, 0x200, 8)]) grp
theorem page_length : (List.replicate 0x40000 (0 : Byte)).length = 0x40000 := List.length_replicate
/-- An enclave whose root frame is frame 4, with its service block at 0x110000. -/
def serviced (l : List (Nat × Nat × Nat)) (s : State := grp) : State :=
  let t := onEnc1 (fun e => { e with s1Root := 0x100000 }) (holds ([(0x100000, 0x120003, 8)] ++ l ++ [(0x120000, 0x243D, 8)]) s)
  { t with pot := t.pot ++ [(4, { state := .owned, owner := 1 })] }
/-- The drive in slot 0 of the enclave, with blocks of 4 KiB. -/
def driven (s : State) : State := { s with links := { s.links with attachments := [(0, { encid := 1, state := 2, lbas := 12 })] } }
/-- The fill of the level-3 leaf at 0x124400, whose backing entry 0 stands at 0x50000, and whose page comes from the pool at 0x50100. -/
def filling : State := driven (serviced [(0x110020, 0x50100, 8), (0x110030, 1, 8), (0x110038, 0x50000, 8), (0x110040, 1, 8), (0x124400, 0xA00, 8)]
  (holds [(0x50010, 64, 8), (0x50100, 0x40000, 8)] grp))
def fill1 : Fill := { id := 5, enc := 1, die := 0, leaf := 0x124400, old := 0xA00, va := 0x100000000, ipa := 0x124400 }
/-- The page itself comes from outside: any 262,144 bytes (`page_length`). -/
theorem witness_SaveAndResumeSteps :
    (preempted.agent? 1 = some preempted.cur ∧ preempted.cur.status = .ready ∧ preempted.cur.kind = .group ∧ preempted.cur.laneDrained = true ∧
      preempted.cur.lane.drainTrap = none ∧ preempted.cur.trap.hm = false ∧ preempted.cur.inRoutine = false ∧ preempted.migStops preempted.cur = false) ∧
    (let s := saving false []
     s.cur.status = .ready ∧ s.cur.trap.inSave = true ∧ s.cur.trap.inRestore = false ∧ isOk (saveWrite 1 0 0x101000 (forcedBytes { s.cur with
       regs := { s.cur.regs with s := s.cur.snapshot.getD s.cur.regs.s }, snapshot := none, pc := s.cur.trap.spc, level := s.cur.trap.level
       trap := { s.cur.trap with inSave := false, used := 0 } }) s) = true) ∧
    (saved1.cur.status = .ready ∧ saved1.cur.trap.inRestore = true ∧ ringReady (ringed saved1) = true) ∧
    ([true, false].all fun f => let s := savedGroup f
      s.cur.status == .saved f none && s.cur.lane.drainTrap == none && s.cur.contract == some 8 && (s.wg? 1).isSome && s.coreTakes s.cur 0 &&
      (s.enclave? 1).any (fun e => s.hasSlice e) &&
      isOk (readSlot s.cur (if f then (forcedBytes s.cur).length else 0x400) ((s.onWg 1 fun (x : Workgroup) => { x with core := 0 }).focus 1))) = true ∧
    (let x : ExitRec := { part := 0, exitId := 1, addr := 0x7FED000000, what := .agent 1 }
     let s := { holds [(0x7FED000018, 1, 1)] (inState .exited) with exits := [x] }
     s.exits = [] ++ x :: [] ∧ s.hostFrame x.addr = true ∧ badData s (s.redirect x.addr) = none ∧
       s.mem.homeByte (s.redirect (x.addr + 0x18)) = 1 ∧ s.cur.status = .exited) ∧
    (filling.driveOf 1 0).any (fun a => 64 * 2 ^ a.lbas.toNat == 0x40000) = true ∧
    ends (popPool fill1 filling) (fun ipa t => isOk (fillPage fill1 [] ipa t)) = true ∧ fill1.engineWaiters = [] ∧
    (inState (.waiting (.fill 5))).cur.status = .waiting (.fill fill1.id) ∧ (inState (.saved true (some (.fill 5)))).cur.status = .saved true (some (.fill fill1.id)) := by
  decide +kernel

/-- A TILE record that waits for timeline 0 to reach 3, one without a condition, and the states that hold their operations. -/
def waitRec : Rec := recOf ([2 ^ 57, 0, 3, 0, 0x1000] ++ List.replicate 11 0)
def tiled (ops : List Op) : State :=
  onEnc1 (fun e => { e with timelines := [{ scope := 6 }] }) { part0 {} with ops }
def heldRec : FaultRec := { token := 7, word1 := 0x210, va := 0, progress := 0 }
theorem witness_TileRecordLifecycle :
    (let q : Queue := { kind := 2, hwCap := 4, hw := [tileOp.record] }
     let s := part0 q
     s.queue? 1 0 = some q ∧ (s.enclave? 1).any (fun e => s.hasSlice e) = true ∧ s.ops = [] ∧ s.windowOn 0 < 64 ∧
     64 ≤ { s with ops := (List.range 64).map fun k => { tileOp with id := 100 + k, state := .window } }.windowOn 0) ∧
    (let o := { tileOp with record := waitRec, state := .window }
     let s := tiled [o]
     s.op? 7 = some o ∧ o.started = false ∧ (0, 3) ∈ o.record.waits ∧
     (s.enclave? 1).any (fun e => (e.timeline? 0).any fun l => decide (l.count.toNat < 3)) = true) ∧
    (let o := { tileOp with state := .window }
     let x := { tileOp with id := 8, started := true }
     (tiled [o, x]).op? 7 = some o ∧ x ∈ (tiled [o, x]).ops ∧ x.state ≠ .done ∧ x.record.wg = o.record.wg ∧ x.record.bank = o.record.bank) ∧
    (let o := { tileOp with state := .window, entries := [(0, []), (1, []), (2, [])] }
     (tiled [o]).taskReady o = true ∧ (tiled [o]).taskFirst o = true ∧ (o.record.shapes.all fun i => (alook o.entries i).isSome) = true) ∧
    (let o := { tileOp with cause := cShape }
     let s := onEnc1 (fun e => { e with held := [heldRec] }) (tiled [o])
     s.op? 7 = some o ∧ o.state = .running ∧ o.cause ≠ 0 ∧ s.unacked 7 = false ∧ o.blocks = [] ∧ (s.enclave? 1).any (fun e => !e.held.isEmpty) = true) ∧
    (let s := onEnc1 (fun e => { e with held := [heldRec] }) (serviced [(0x110000, 0x50000, 8), (0x110008, 4, 8)])
     ends (writeFault 1 0 heldRec s) (fun b t => b && t.enclave? 1 == s.enclave? 1) = true) ∧
    ends (writeFault 1 0 heldRec (serviced [])) (fun b _ => !b) = true ∧
    (let r : Rec := recOf ((2 ^ 57 + 0x1000) :: List.replicate 15 0)
     let o := { tileOp with record := { r with slot := 2 }, state := .done }
     let x := { tileOp with id := 8, record := { r with slot := 1 } }
     o.record.tlv = true ∧ (tiled [o]).signalsBefore o = false ∧ (tiled [o, x]).signalsBefore o = true ∧ tileOp.record.tlv = false ∧
      (tiled [o]).op? 7 = some o ∧ ((tiled [o]).enclave? 1).any (fun e => (e.timeline? o.record.tl).isSome) = true) ∧
    (let s := tiled [tileOp]
     { s with links := { s.links with streams := [(3, { kept := [{ flit := { port := 4, typ := 0, slot := false, rstream := 3, ctr := 0, epoch := 0, body := [], tag := [] }, op := some 7 }] })] } }.unacked 7 = true) := by decide +kernel

/-- The object-table entry of a shape: base, class, rights, second extent, bytes in all. -/
def shapeEntry (base cls rights ext1 limit : Nat) : List Byte :=
  ((recOf [base, cls + (if ext1 = 0 then 0 else 2 ^ 16) + rights * 2 ^ 24, 0, 16 + 2 ^ 24, (if ext1 = 0 then 0 else ext1 + 16 * 2 ^ 24), 0, 0, limit]).bytes)
/-- An MMA of one row of A and one column of B, 16 bf16 deep. -/
def mmaOp (aBase : Nat) (loaded : Bool) : Op :=
  { id := 7, enc := 1, kind := .record 2
    record := recOf ([2 ^ 57, 0, 0, 0, 0, 1, 2, 0xFFFF + 0xFFFF * 2 ^ 16 + 2 ^ 48 + 2 ^ 50, 16 + 2 ^ 10] ++ List.replicate 7 0)
    entries := [(1, shapeEntry aBase 1 1 0 32), (2, shapeEntry 0x50000 1 1 0 32)]
    stationary := if loaded then some [(List.replicate 16 0x3F80, [])] else none }
/-- An EPI of two rows of two f32 columns, without a bias. -/
def epiOp (dBase : Nat) : Op :=
  { id := 7, enc := 1, kind := .record 2
    record := recOf ([2 ^ 57 + 2 * 2 ^ 32, 0, 0, 0, 2 ^ 48, 3, 0xFFFF + 0x3F800000 * 2 ^ 32, 2 * 2 ^ 24] ++ List.replicate 8 0)
    entries := [(3, shapeEntry dBase 0 2 2 128)] }
def has (o : Op) (s : State := grp) : State := { s with ops := [o] }
def attnBad : Op :=
  { id := 7, enc := 1, kind := .record 2, record := recOf ([2 ^ 57 + 2 ^ 32, 0, 0, 0, 0, 1] ++ List.replicate 10 0), entries := [(1, [])] }
def fails {α : Type} (r : EStateM.Result Stop State α) (p : Stop → Bool) : Bool := match r with | .error e _ => p e | _ => false
def isFill (e : Stop) : Bool := match e with | .fill .. => true | _ => false
def isTrap (e : Stop) : Bool := match e with | .trap .. => true | _ => false
theorem witness_MatrixTaskSteps :
    ([mmaOp 0x50000 false, mmaOp 0x50000 true, epiOp 0x50000, attnBad].all fun o => (has o).op? 7 == some o && o.live &&
      o.record.shapes.all fun i => (alook o.entries i).isSome) = true ∧
    ((mmaOp 0x50000 false).record.task = 0 ∧ attnBad.record.task = 1 ∧ (epiOp 0x50000).record.task = 2) ∧
    fails (mmaStep (mmaOp 0x150000 true) (has (mmaOp 0x150000 true))) isTrap = true ∧ fails (epiStep (epiOp 0x150000) (has (epiOp 0x150000))) isTrap = true ∧
    fails (attnStep attnBad (has attnBad)) isTrap = true ∧ fails (mmaStep (mmaOp 0x100000000 true) (has (mmaOp 0x100000000 true) (absent []))) isFill = true ∧
    fails (epiStep (epiOp 0x100000000) (has (epiOp 0x100000000) (absent []))) isFill = true ∧
    isOk (mmaLoad (mmaOp 0x50000 false) (has (mmaOp 0x50000 false))) = true ∧
    (let o := mmaOp 0x50000 true
     let s := has o
     ends (mmaOperand o 0x28 1 0 false s) (fun a _ => ends (mmaOperand o 0x30 1 0 true s) fun _ _ => ends (mmaScale o 0xFFFF 1 s) fun sa _ => sa.isNone &&
       ends (readRun o.ctx a.1 a.2.2 a.2.1 16 s) fun _ t1 => ends (readScales o.ctx none 0 0 1 t1) fun _ t => (t.wg? 1).isSome && t.op? 7 == some o) = true) ∧
    (let o := epiOp 0x50000
     let s := has o
     o.record.f 0x30 0 16 = 0xFFFF ∧ ends (o.shape 3 false s) (fun h _ => h.cls == o.record.f 0x38 16 2 && h.width == 32 &&
       ends (h.place true 0 0 2 s) fun p _ => ends (writeVa o.ctx (bv64 (h.base + p.1)) (packBytes 32 [0, 0]) s) fun _ t => t.op? 7 == some o) = true ∧
     (s.wg? 1).isSome = true ∧ o.progress + 1 < o.record.m) := by decide +kernel

/-- An ATTN task of one row over one block of one token, in the table of `tabled`, at a stage. -/
def attnOp (progress : Nat) (blocks : List (Nat × Nat × Nat × Nat)) : Op :=
  { id := 7, enc := 1, kind := .record 2, progress, blocks
    record := recOf ([2 ^ 57 + 2 ^ 32, 0, 0, 0, 0, 1, 1, 1, 2 ^ 32 + 0x3F800000] ++ List.replicate 7 0)
    entries := [(1, [])], stationary := some [(List.replicate 64 0x3F80, [])], attn := [{ mx := 0xFF800000, sum := 0, o := List.replicate 64 0 }] }
theorem witness_AttentionTaskSteps :
    ([attnOp 0 [], attnOp 0 [(0, 2, 0x64000, 0x4000)], attnOp 1 []].all fun o => (has o).op? 7 == some o && o.live && o.record.task == 1 &&
      o.record.shapes.all fun i => (alook o.entries i).isSome) = true ∧
    (let o := attnOp 0 []
     o.progress < o.record.nlb ∧ fieldN (o.record.w 0x30) 0 16 + o.progress ≤ 65535 ∧
     ends (B.step o.ctx 6 (resolveBlock o.ctx 1 false) .a (has o (tabled 1))) (fun x t => (match x with | .ok .. => true | _ => false) && t.op? 7 == some o) = true) ∧
    (let o := attnOp 0 [(0, 2, 0x64000, 0x4000)]
     let s := { has o (tabled 1) with choices := [0] }
     ends (readSlab o.ctx 0x64000 128 { s with choices := [] }) (fun _ t1 => ends (readSlab o.ctx 0x66000 128 t1) fun _ t2 =>
       ends (unpinBlock o.ctx 0 2 t2) fun _ t => t.op? 7 == some o && t.wgs == s.wgs) = true ∧
     o.progress + 1 = o.record.nlb ∧ o.record.f 0x40 32 32 = 1 ∧ o.record.hd = 64 ∧ o.record.eb = 2 ∧ o.record.slab = 0x4000) ∧
    (let o := attnOp 1 []
     o.record.nlb ≤ o.progress ∧ o.record.w 0x48 = 0 ∧ ((has o).wg? 1).any (fun w => w.acc.isEmpty) = true ∧ o.attn.length ≤ o.record.m ∧
     (o.attn.all fun x => x.o.length == o.record.hd) = true) := by
  refine ⟨?_, ⟨?_, ?_, ?_⟩, ⟨?_, ?_⟩, ?_⟩ <;> decide +kernel

/-! ### Copies, stores, collectives, block moves -/

/-- A stream to module 7 on port 4, with its keys. -/
def up7 : Stream := { lenc := 1, pmid := 7, penc := 2, state := stUp, port := 4, txCur := some 11, txNext := some 12, rxCur := some 13, rxNext := some 14 }
def streamed (l : List (Nat × Stream)) (s : State) : State := { s with links := { s.links with streams := l } }
/-- A COPY of `n` bytes from 0x50000 to 0x60000, on this module or to a peer. -/
def copyRec (n peer : Nat) : Rec := recOf [peer * 2 ^ 40, 0, 0x50000, 0x60000, n, 0, 0, 0]
def copyOp (n progress : Nat) : Op := { id := 7, enc := 1, kind := .record 1, record := copyRec n 0, started := true, progress }
def queueOf (kind : Nat) (r : Rec) (s : State := grp) : State := part0 { kind, hwCap := 1, hw := [r] } s
/-- A peer number other than this module's is a peer; 7 and 8 are not both this module's. -/
theorem peer_choice : (copyRec 300 7).peer = some 7 ∨ (copyRec 300 8).peer = some 8 := by
  have h7 : (copyRec 300 7).f 0 40 8 = 7 := by decide +kernel
  have h8 : (copyRec 300 8).f 0 40 8 = 8 := by decide +kernel
  unfold Rec.peer; rw [h7, h8]
  by_cases h : 7 = Config.mid.toNat <;> simp [h]
  omega
/-- A STORE: operation, drive slot, LBA, blocks, buffer. -/
def storeRec (op blocks : Nat) : Rec := recOf [op * 2 ^ 32, 0, 2 ^ 32, 64, blocks, 0x60000, 0, 0]
def storeOpOf (op sent : Nat) : Op := { id := 7, enc := 1, kind := .record 3, record := storeRec op 1, started := true, sent, cmds := [(0, if op = 2 then 0 else 512)] }
def blocks512 (s : State) : State := { s with links := { s.links with attachments := [(0, { encid := 1, state := 2, lbas := 9 })] } }
/-- A record whose peer is 7, or 8 where this module is 7: `peer_choice`. -/
theorem witness_CopyAndStoreSteps :
    (let s := queueOf 1 (copyRec 300 0)
     s.headRecord (BitVec.ofNat 16 1) 0 1 = some (copyRec 300 0) ∧ s.ops = [] ∧ s.dieLive 0 = true ∧ (copyRec 300 0).die = 0 ∧
     (s.onHealth fun h => { h with dieFence := 1 }).dieLive 0 = false ∧ (copyRec 300 0).copyMode ≠ 2 ∧ (copyRec 300 0).peer = none) ∧
    (inWindow ((copyRec 300 7).w 0x18) = false ∧ (copyRec 300 7).f 0 34 1 = 0 ∧ inWindow ((recOf [7 * 2 ^ 40, 0, 0x50000, windowBase, 300, 0, 0, 0]).w 0x18) = true ∧
      (let r := recOf [7 * 2 ^ 40 + 2 ^ 34, 0, 0x50000, 0x60000, 300, 0, windowBase + 256, 0]
       inWindow (r.w 0x18) = false ∧ r.f 0 34 1 = 1 ∧ inWindow (r.w 0x30) = true)) ∧
    ([7, 8].all fun p => let s := queueOf 1 (copyRec 300 p)
      s.headRecord (BitVec.ofNat 16 1) 0 1 == some (copyRec 300 p) && (copyRec 300 p).copyMode != 2 && (s.streamTo 1 p).isNone &&
      (streamed [(3, { up7 with pmid := BitVec.ofNat 8 p })] s).streamTo (BitVec.ofNat 16 1) p == some (3, { up7 with pmid := BitVec.ofNat 8 p })) = true ∧
    ([copyOp 300 0, copyOp 300 256].all fun o => o.live && o.record.copyMode == 0 && o.record.f 0 34 1 == 0 && decide (o.progress < o.record.w 0x20) && o.pin.isNone &&
      (has o).op? 7 == some o && (let k := min 256 (o.record.w 0x20 - o.progress)
        ends (readVa o.ctx (bv64 (o.record.w 0x10 + o.progress)) k .r (has o)) fun bs t => bs == List.replicate k 0 &&
          ends (writeVa o.ctx (bv64 (o.record.w 0x18 + o.progress)) (List.replicate k 0) t) fun _ u => u.op? 7 == some o)) = true ∧
    (copyOp 300 0).record.peer = none ∧ 0 + min 256 (300 - 0) < 300 ∧ 256 + min 256 (300 - 256) = 300 ∧
    ([7, 8].all fun p => [0, 192].all fun x =>
      let o := { copyOp 300 0 with record := copyRec 300 p, stream := some 3, sent := x }
      let s := streamed [(3, { up7 with pmid := BitVec.ofNat 8 p })] (has o)
      s.op? 7 == some o && s.canSend 3 && decide (o.sent < o.record.copyLen) &&
        ends (readVa o.ctx (o.record.srcAt o.sent) (min (min 192 (o.record.copyLen - o.sent)) (o.record.rowLen - o.sent % o.record.rowLen)) .r s)
          fun _ t => t.op? 7 == some o && t.links == s.links) = true ∧
    (let s := queueOf 3 (storeRec 0 3)
     s.headRecord (BitVec.ofNat 16 1) 0 3 = some (storeRec 0 3) ∧ s.ops = [] ∧ s.driveOf (BitVec.ofNat 16 1) (storeRec 0 3).drive = none ∧
     (blocks512 s).driveOf (BitVec.ofNat 16 1) (storeRec 0 3).drive = some { encid := 1, state := 2, lbas := 9 } ∧ (storeRec 2 3).storeOp = 2 ∧
     (blocks512 s).pairRoom 1 (storeRec 0 3).drive = 256 ∧ (recOf [0, 0, 2 ^ 32, 64, 3, 0x60001, 0, 0]).w 0x28 % 256 ≠ 0 ∧
     (recOf [2 ^ 36, 0, 2 ^ 32, 64, 3, 0x60000, 0, 0]).f 0 36 1 = 1 ∧ ((blocks512 s).enclave? 1).any (fun e => (storageKey e.sslots 0).isNone) = true ∧
     (storeRec 0 3).w 0x28 % 256 = 0 ∧ (storeRec 0 3).blocks * 512 ≤ 2 ^ 32 ∧ (storeRec 0 3).f 0 36 1 = 0 ∧
     storeHolds { storeOpOf 0 512 with state := .running } 1 0 (storeRec 0 3) = true ∧ storeHolds { storeOpOf 0 512 with state := .done } 1 0 (storeRec 0 3) = false) ∧
    ([storeOpOf 0 512, storeOpOf 1 512, storeOpOf 2 0].all fun o =>
      let s := { blocks512 (has o) with choices := [0] }
      s.op? 7 == some o && o.live && s.driveOf o.enc o.record.drive == some { encid := 1, state := 2, lbas := 9 } && o.record.f 0 34 1 == 0 && o.record.f 0 36 1 == 0 &&
        (o.record.storeOp == 2 || decide (o.record.blocks * 512 ≤ o.sent))) = true ∧
    ((storeOpOf 0 512).record.storeOp = 0 ∧ (storeOpOf 1 512).record.storeOp = 1 ∧ (storeOpOf 2 0).record.storeOp = 2) ∧
    ends (writeVa (storeOpOf 0 512).ctx 0x60000 (List.replicate 512 0) (blocks512 (has (storeOpOf 0 512)))) (fun _ t => t.op? 7 == some (storeOpOf 0 512)) = true ∧
    ends (readVa (storeOpOf 1 512).ctx 0x60000 512 .r (blocks512 (has (storeOpOf 1 512)))) (fun _ t => t.op? 7 == some (storeOpOf 1 512)) = true := by
  refine ⟨?_, ?_, ?_, ?_, ?_, ?_, ?_, ?_, ?_, ?_, ?_, ?_, ?_⟩ <;> decide +kernel

/-- A COLL record of two members, of which this one is rank 0, its layout generation, and its operation. -/
def collRec (lgen : Nat) : Rec := recOf [4 * 2 ^ 56, 0, 0x50000, 0x60000, 64, 2 + lgen * 2 ^ 32, 0x50400, 0]
def collOpOf (lgen : Nat) (started : Bool) : Op :=
  { id := 7, enc := 1, kind := .record 4, record := collRec lgen, entries := [(0, [9, 7])], started, die := 4 }
/-- A flit of type `ty` on stream 3 that its receiver expects, sealed under the receiver's key. -/
def flitOf (ty : BitVec 4) (payload : List Byte) : Flit :=
  let f : Flit := { port := 4, typ := ty, slot := false, rstream := 3, ctr := 0, epoch := 0, body := [], tag := [] }
  Flit.sealWith f 13 (Flit.iv f) payload
theorem crypt_crypt (key : Nat) (iv bs : List Byte) : gcmCrypt key iv (gcmCrypt key iv bs) = bs := by
  unfold gcmCrypt
  apply List.ext_getElem
  · simp
  · intro i h1 h2
    simp [BitVec.xor_assoc]
/-- What is sealed under a key opens under it. -/
theorem open_seal (f : Flit) (key : Nat) (iv p : List Byte) : Flit.openWith (Flit.sealWith f key iv p) key iv = some (padPayload p) := by
  have h : Flit.header (Flit.sealWith f key iv p) = Flit.header f := rfl
  unfold Flit.openWith
  rw [h]
  show gcmOpen key iv (Flit.header f) (gcmCrypt key iv (padPayload p)) (gcmTag16 key iv (Flit.header f) (gcmCrypt key iv (padPayload p))) = _
  simp [gcmOpen, crypt_crypt]
theorem payload_of (ty : BitVec 4) (p : List Byte) (s : State) (h : (s.stream 3).rxCur = some 13) : s.rxPayload (flitOf ty p) = some (padPayload p) := by
  unfold State.rxPayload
  rw [show (flitOf ty p).rstream.toNat = 3 from rfl, show (flitOf ty p).fecBad = false from rfl, show (flitOf ty p).slot = false from rfl,
    show (flitOf ty p).epoch = 0 from rfl]
  show (if (false || false != BitVec.getLsbD 0 0) = true then none else (s.stream 3).rxCur.bind _) = _
  rw [h]
  exact open_seal _ _ _ _
/-- A number of `n` bytes at an address of memory. -/
def poked (a x n : Nat) (s : State) : State := { s with mem := { s.mem with home := writeCells s.mem.home (natCells a x n) } }
def cowOf : Op := { id := 7, enc := 1, kind := .cow name01 2 1 2 5, record := { bytes := [] } }
def moveOf (st : OpState) : Op := { id := 7, enc := 1, kind := .move 0 2 3 false 0 9, record := { bytes := [] }, state := st, progress := 0x4000 }
/-- Its table has BLKLOG 0, so that the copy has no unit to move. -/
def coworker : State := inState (.waiting (.btcow 7)) (has cowOf (poked 0x50028 (2 * 2 ^ 32) 8 (tabled 2)))
/-- The descriptor 2 with DRAIN set. -/
def draining (s : State) : State := poked 0x50820 (2 * 2 ^ 62 + 2 ^ 60 + 2 ^ 58 + 0x64000) 8 s
/-- The same with a destination that no page maps; a bound table that no page maps; a block whose address no page maps. -/
def wildCopy : State := poked 0x50820 0x64000 8 coworker
def torn (s : State) : State := onEnc1 (fun e => { e with tables := [(0, 0x150000)] }) s
def farBlock (s : State) : State := poked 0x50820 (2 ^ 62 + 2 ^ 60 + 0x164000) 8 s
/-- The copy of the move stands at `p` after its bytes: without a fault where `p` is the whole block, else with one. -/
def movesTo (p : Nat) (s : State) : Bool :=
  let c := engineCtx 1 0 0
  ends (landedMove c 0 2 s) fun x t0 => !x && ends (pinFor c 0 2 t0) fun y t1 => match y with
    | some (d, size) => decide (size = 0x4000) && boundTable t1 1 0 == some 0x50000 &&
        ends (B.step c 6 (do let t ← btHeader c 0x50000; btDesc c t 3) .r t1) fun e t2 =>
          ends (copyBlock c d.addr e.addr ((size - p) / 256) p t2) fun r t3 => r.1 == p && r.2.isNone == (p == size) &&
            ends (B.step c 6 (do
              let t ← btHeader c 0x50000
              let d ← btDesc c t 2
              btSettle c t 2 { d with pins := d.pins - 1, drain := r.2.isNone }) .r t3) fun _ t4 =>
                (t4.op? 7).any fun o => decide (o.state = .running) && o.progress == p
    | none => false
theorem witness_CollectiveAndBlockMoveSteps :
    ([0, 1].all fun g => let o := collOpOf g false
      let s := streamed [(3, up7)] (has o)
      s.op? 7 == some o && o.live && (alook o.entries 0).isSome && s.memberStreams o == some [3] && s.canSend 3 && s.links.rdvIn.isEmpty && s.links.rdvOut.isEmpty && o.rdv.isEmpty && o.streams.isEmpty &&
      decide (1 < o.record.nmem) && decide (1 ≠ o.record.rank)) = true ∧
    ((collOpOf 0 false).record.lgen = grp.layout.gen.toNat % 2 ^ 32 ∧ (collOpOf 1 false).record.lgen ≠ grp.layout.gen.toNat % 2 ^ 32) ∧
    ([tRdv, tData].all fun ty => let f := flitOf ty []
      f.fecBad == false && f.typ == ty && (streamed [(3, up7)] grp).expected f && (streamed [(3, up7)] grp).ops.isEmpty) = true ∧
    (∀ ty, (streamed [(3, up7)] grp).rxPayload (flitOf ty []) = some (padPayload [])) ∧
    ([true, false].all fun b => let s := onEnc1 (fun e => { e with part := 0 }) (has (collOpOf 0 b))
      let t := { s with layout := { s.layout with entries := s.layout.entries.set 0 { valid := true, rdvto := 5 } } }
      t.op? 7 == some (collOpOf 0 b) && decide ((t.layout.entries.getD (t.partOf 1) {}).rdvto ≠ 0)) = true := by
  refine ⟨?_, ?_, ?_, fun ty => payload_of ty [] _ (by decide +kernel), ?_⟩ <;> decide +kernel
theorem witness_CollectiveAndBlockMoveSteps_btcow :
    let c := engineCtx 1 0 0
    (coworker.op? 7 = some cowOf ∧ coworker.cur.status = .waiting (.btcow 7) ∧
     ends (cowCopy c (nameTable name01) 2 1 (draining coworker)) (fun x _ => !x) = true ∧
     ends (cowCopy c (nameTable name01) 2 1 coworker) (fun x t1 => x &&
       ends (B.step t1.cur.ctx (t1.clampFor t1.cur.part 6) (cowSwing t1.cur.ctx name01 2 1) .a t1) fun _ _ => true) = true ∧
     fails (cowCopy c (nameTable name01) 2 1 wildCopy) isTrap = true ∧ ends (cowUndo c (nameTable name01) 1 wildCopy) (fun _ _ => true) = true) := by
  refine ⟨?_, ?_, ?_, ?_, ?_, ?_⟩ <;> decide +kernel
theorem witness_CollectiveAndBlockMoveSteps_move :
    (let c := engineCtx 1 0 0
     let s := has (moveOf .running) (tabled 1)
     s.op? 7 = some (moveOf .running) ∧ (moveOf .waiting).state ≠ .running ∧
     ends (landedMove c 0 2 (draining s)) (fun b t => b && t.op? 7 == some (moveOf .running)) = true ∧
     fails (moveBytes (moveOf .running) 0 2 3 (has (moveOf .running) (torn (tabled 1)))) isTrap = true ∧
     movesTo 0x4000 s = true ∧ movesTo 0 (has { moveOf .running with progress := 0 } (farBlock (tabled 1))) = true) ∧
    (let c := engineCtx 1 0 0
     let s := has (moveOf .waiting) (tabled 1)
     s.op? 7 = some (moveOf .waiting) ∧ boundTable s 1 0 = some 0x50000 ∧
     ends (B.step c 6 (moveSwing c 0x50000 2 3) .a s) (fun b _ => !b) = true ∧ ends (B.step c 6 (moveSwing c 0x50000 2 3) .a (draining s)) (fun b _ => b) = true ∧
     fails (B.step c 6 (moveSwing c 0x150000 2 3) .a s) isTrap = true ∧
     (s.enclave? 1).any (fun e => e.timelines.length == 1) = true) := by
  refine ⟨⟨?_, ?_, ?_, ?_, ?_, ?_⟩, ?_, ?_, ?_, ?_, ?_, ?_⟩ <;> decide +kernel

/-! ### Ridgepole -/

/-- The frames of the part with some entries of the POT, the scrubber at a cursor. -/
def pots (l : List (Nat × FrameState)) (cursor : Nat := 0) (s : State := grp) : State :=
  { s with pot := l.map fun x => (x.1, { state := x.2, owner := 6 }), rp := { s.rp with scrubCursor := cursor } }
def scrubbed (i : Nat) : State :=
  let s := pots [(i, .scrubbing)]
  { s with rp := { s.rp with scrubbing := some i }, enclaves := [{ id := 6, state := .dying }] }
/-- A chunk that a copy engine still moves out of the frame under scrubbing. -/
def heldFrame : State := { scrubbed 8 with chunks := [{ id := 1, agent := 1, batch := 1, die := 0, src := [frameAddr 8], dst := [] }] }
def onChannel0 (c : MigChannel) (s : State) : State := s.onChannel 0 fun _ => c
/-- A migration of frame 8 to frame 9 through its leaf in a table that the host agent owns. -/
def chan : MigChannel := { go := true, src := 8, dst := 9, leaf := 0x7FEC0B0040 / 8 }
def movable : State :=
  let s := hosted [(0x7FEC0B0040, 0x20002D, 8)]
  onChannel0 chan { s with pot := (8, { state := .owned, owner := 6 }) :: s.pot }
def movingAt (n : Nat) : State :=
  onChannel0 { chan with go := false, status := 1, copied := n, run := some (8, 9, 0) }
    { grp with pot := [(8, { state := .owned, owner := 6, migrating := true }), (9, { state := .owned, owner := 6, migrating := true })] }
/-- Of two listed frames the one that is SCRUBBING is the only one due. -/
theorem potInit_kept (m : Nat) : (potInit m).state ≠ .scrubbing := by
  unfold potInit
  split
  · decide
  · split <;> decide
theorem due_eight (c m : Nat) (h : ((pots [(8, .scrubbing), (12, .owned)] c).potAt m).state = .scrubbing) : m = 8 := by
  have hu : (pots [(8, .scrubbing), (12, .owned)] c).health.untrained = false := rfl
  have hr : (pots [(8, .scrubbing), (12, .owned)] c).rp.unscrubbed = 0 := rfl
  have hl : (pots [(8, .scrubbing), (12, .owned)] c).rp.lateScrub = false := rfl
  have hp : (pots [(8, .scrubbing), (12, .owned)] c).pot = [(8, { state := .scrubbing, owner := 6 }), (12, { state := .owned, owner := 6 })] := rfl
  have ht : (pots [(8, .scrubbing), (12, .owned)] c).trainedFrame m = true := by simp [State.trainedFrame, hu, hr]
  simp only [State.potAt, ht, hp, hl, State.potBase, alook, if_true, Bool.false_and, Bool.false_eq_true, if_false] at h
  by_cases h8 : 8 = m
  · exact h8.symm
  · by_cases h12 : 12 = m
    · simp [h12, h8] at h
    · simp only [h8, h12, if_false, Option.getD_none] at h
      exact absurd h (potInit_kept m)
theorem witness_FrameSteps :
    ((scrubbed 8).rp.scrubbing = some 8 ∧ ((scrubbed 8).potAt 8).state = .scrubbing ∧ (scrubbed 8).trainedFrame 8 = true ∧ (scrubbed 8).chunkIn 8 = false ∧
      (scrubbed 8).enclaves = [{ id := 6, state := .dying }] ∧
      ∀ x ∈ (scrubbed 8).pot, x.1 ≠ 8 → x.2.owner ≠ 6 ∨ x.2.state = .free) ∧
    (heldFrame.rp.scrubbing = some 8 ∧ (heldFrame.potAt 8).state = .scrubbing ∧ heldFrame.chunkIn 8 = true) ∧
    (∀ c m, ((pots [(8, .scrubbing), (12, .owned)] c).potAt m).state = .scrubbing → m = 8) ∧
    ([0, 9].all fun c => let s := pots [(8, .scrubbing), (12, .owned)] c
      s.rp.scrubbing.isNone && decide (s.pot.map (·.1)).Nodup && (s.pot.all fun x => x.1 < 6291456) && (s.potAt 8).state == .scrubbing && s.trainedFrame 8) = true ∧
    ((0 : Nat) ≤ 8 ∧ (8 : Nat) < 9) ∧
    ((grp.channel 0).go = false ∧ (movable.channel 0).go = true ∧ potIndex ((movable.channel 0).src.toNat * 0x40000) = some 8 ∧
      potIndex ((movable.channel 0).dst.toNat * 0x40000) = some 9 ∧ movable.migrationFrames (movable.channel 0) = some (8, 9)) ∧
    ([FrameState.free, .scrubbing, .save].all fun x => ((onChannel0 chan (pots [(8, x)])).potAt 8).state == x && ((onChannel0 chan (pots [(8, x)])).channel 0).go) = true ∧
    ((grp.channel 0).status ≠ 1) ∧
    ([0, 1022, 1023].all fun n => let s := movingAt n
      (s.channel 0).status == 1 && (s.channel 0).run == some (8, 9, 0) && potIndex ((s.channel 0).src.toNat * 0x40000) == some 8 && potIndex ((s.channel 0).dst.toNat * 0x40000) == some 9 &&
      (s.potAt 8).state != .scrubbing && (s.potAt 8).migrating && (s.potAt 9).migrating && s.mem.wf && decide ((s.channel 0).copied < 1024)) = true := by
  refine ⟨?_, ?_, due_eight, ?_, ?_, ?_, ?_, ?_, ?_⟩ <;> decide +kernel

/-- A command in the mailbox of a part at full service: opcode, TARGET, LEN, RCAP; its request in a carve-out of the host agent. -/
def mailed (op target len rcap : Nat) (s : State) : State :=
  let m : Mailbox := { op := BitVec.ofNat 8 op, target := BitVec.ofNat 16 target, len := BitVec.ofNat 32 len, buf := 0x7FED000000 / 64, rbuf := 0x7FED100000 / 64
                       rcap := BitVec.ofNat 32 rcap, busy := true }
  { s with rp := { s.rp with mailbox := m }, health := { s.health with service := .full } }
def admitted (r : Except Nat Unit) : Bool := match r with | .ok _ => true | .error _ => false
def takes (s : State) (op n : Nat) : Bool := s.mbHolds op && admitted s.mbAdmit && decide (n ≤ s.rp.mailbox.rcap.toNat) && s.hostRange (s.rp.mailbox.rbuf * 64) n
theorem takes_iff (s : State) (op n : Nat) (h : takes s op n = true) : s.mbTakes op n := by
  simp only [takes, Bool.and_eq_true, decide_eq_true_eq, admitted] at h
  obtain ⟨⟨⟨h1, h2⟩, h3⟩, h4⟩ := h
  refine ⟨h1, ?_, h3, h4⟩
  split at h2
  · next e => exact e
  · cases h2
def refuses (c : Cmd) (code : Nat) : Bool := match c with | .ok _ => false | .error k => k == code
def answers (c : Cmd) (p : List Byte → State → Bool) : Bool := match c with | .ok (r, t) => p r t | .error _ => false
def inRecovery (s : State) : State := { s with health := { s.health with service := .recovery } }
/-- A manifest of one combination. -/
def manifestAt : List (Nat × Nat × Nat) := [(0x7FED000000, 0x1464D5A4E, 8), (0x7FED000008, 1, 8)]
/-- Whether a signature holds is open (log 6): of the clauses of FWSTAGE and MANIFEST that turn on it, one applies; a response
of open length is taken or answered with SPACE. -/
theorem witness_MailboxAndFirmwareCommands :
    ((hosted []).mbHolds 0x12 = false ∧ (inRecovery (mailed 0x12 0 0 64 (hosted []))).mbHolds 0x12 = true ∧
      (inRecovery (mailed 0x12 0 0 64 (hosted []))).rp.mailbox.op = 0x12 ∧ (mailed 0x12 0 0 64 (hosted [])).mbHolds 0x12 = true ∧
      admitted (mailed 0x12 0 0 64 (hosted [])).mbAdmit = true ∧ refuses (mailed 0x12 0 0 64 (hosted [])).abortCmd 3 = true) ∧
    ([3, 7].all fun cap => let s := mailed 0x22 0 0 cap (hosted [])
      s.mbHolds 0x22 && admitted s.mbAdmit && answers s.svncommitCmd fun r _ => decide (r.length = 7)) = true ∧
    takes (mailed 0x22 0 0 7 (hosted [])) 0x22 7 = true ∧
    (let s := mailed 0x22 0 0 7 (hosted [])
     s.hostRange (s.rp.mailbox.rbuf * 64) 7 = true ∧ ∀ k, k < 7 → s.redirect (s.rp.mailbox.rbuf * 64 + k) = s.rp.mailbox.rbuf * 64 + k) ∧
    ((mailed 0x01 3 4 64 (hosted [])).endpointBlocks 3 = none ∧ takes (mailed 0x01 3 4 64 (hosted [])) 0x01 4 = true) ∧
    ((mailed 0x01 0 4 64 (hosted [(0x7FED000001, 0xE4, 1)])).endpointBlocks 0).isSome = true ∧
    ((mailed 0x01 0 4 64 (hosted [(0x7FED000001, 0xE4, 1)])).mbRequest.getD 1 0 = 0xE4 ∧ (mailed 0x01 0 4 64 (hosted [(0x7FED000001, 0xE0, 1)])).mbRequest.getD 1 0 = 0xE0) ∧
    takes (mailed 0x01 0 4 64 (hosted [(0x7FED000001, 0xE4, 1)])) 0x01 4 = true ∧
    (let s := mailed 0x01 0 4 64 (hosted [(0x7FED000001, 0xE1, 1)])
     takes s 0x01 4 = true ∧ (s.mbRequest.getD 1 0).toNat = 0xE1 ∧ (spdmAnswer false ((alook s.rp.spdm 0).getD 0) s.mbRequest s.rp.chain []).toOption.isNone = true ∧
       (spdmAnswer false 1 s.mbRequest s.rp.chain []).toOption.isSome = true) ∧
    ([6, 7].all fun c => takes (mailed 0x20 c 64 0 (hosted [])) 0x20 0) = true ∧
    (let s := mailed 0x21 0 3381 0 (hosted manifestAt)
     takes s 0x21 0 = true ∧ s.rp.mailbox.target = 0 ∧ manifestOk s.mbRequest = true ∧ s.rp.firmware.msvnFuse.toNat ≤ wordAt s.mbRequest 8) := by
  decide +kernel

/-- A request block of the layout without partitions: 5,184 bytes, all 0 but those listed. -/
def laid (op len rcap : Nat) (l : List (Nat × Nat × Nat)) : State :=
  let s := mailed op 0 len rcap (hosted l)
  { s with enclaves := [] }
def inJournal (j : Journal) (s : State) : State := { s with layout := { s.layout with journal := j } }
def committing (l : List Nat) : State := let s := inJournal .committing (laid 0 0 64 []); { s with layout := { s.layout with flipped := l }, health := { s.health with untrained := false } }
def entriesOf (b : List Byte) : List PartEntry := ((List.range 40).map fun p => (b.drop (64 + 128 * p)).take 128).map PartEntry.ofBytes
/-- Forty entries that are not VALID, with the fields' smallest values: no parent, scope 6. -/
def freeEntries : List (Nat × Nat × Nat) := (List.range 40).map fun p => (0x7FED000040 + 128 * p, 0x0A3F00, 3)
/-- A PREPARE of them with an expected generation. -/
def laidOut (gen : Nat) : State := laid 0x10 5184 0 ((0x7FED000000, gen, 8) :: freeEntries)
/-- The bytes that cells in rising order from `p` on give `n` addresses. -/
def dense : Nat → Nat → List Host.Cell → List Byte
  | 0, _, _ => []
  | n + 1, p, [] => 0 :: dense n (p + 1) []
  | n + 1, p, (q, b) :: l => if q = p then b :: dense n (p + 1) l else 0 :: dense n (p + 1) ((q, b) :: l)
theorem dense_eq (n p : Nat) (l : List Host.Cell) (h : l.Pairwise fun a b => a.1 < b.1) (hp : ∀ c ∈ l, p ≤ c.1) :
    dense n p l = (List.range n).map fun k => readCell l (p + k) := by
  have none' : ∀ (l : List Host.Cell) (r : Nat), (∀ c ∈ l, r < c.1) → readCell l r = 0 := by
    intro l r hl
    induction l with
    | nil => rfl
    | cons c l ih =>
      have := hl c (by simp)
      rw [readCell, if_neg (by omega)]
      exact ih fun c hc => hl c (by simp [hc])
  induction n generalizing p l with
  | zero => simp [dense]
  | succ n ih =>
    rw [List.range_succ_eq_map, List.map_cons, List.map_map]
    have shift : ∀ m : List Host.Cell, ((List.range n).map fun k => readCell m (p + 1 + k)) =
        (List.range n).map ((fun k => readCell m (p + k)) ∘ Nat.succ) := by
      intro m; apply List.map_congr_left; intro k _; simp [Nat.succ_eq_add_one]; congr 1; omega
    cases l with
    | nil => rw [dense, ih _ _ .nil (by simp), shift]; rfl
    | cons c l =>
      obtain ⟨q, b⟩ := c
      have hq := hp (q, b) (by simp)
      have hl := List.pairwise_cons.mp h
      unfold dense
      split
      · next e =>
        subst e
        rw [ih _ _ hl.2 fun c hc => hl.1 c hc, shift]
        simp only [Nat.add_zero, readCell, if_true, List.cons.injEq, true_and]
        apply List.map_congr_left
        intro k _
        simp only [Function.comp]
        rw [if_neg (by omega)]
      · next e =>
        rw [ih _ _ h fun c hc => by
          rcases List.mem_cons.mp hc with rfl | hc
          · show p + 1 ≤ q; simp only at hq; omega
          · have := hl.1 c hc; simp only at this hq; omega, shift]
        simp only [Nat.add_zero, List.cons.injEq, and_true]
        exact (none' _ _ fun c hc => by
          rcases List.mem_cons.mp hc with rfl | hc
          · simp only at hq ⊢; omega
          · have := hl.1 c hc; simp only at this hq; omega).symm
/-- The request, where no write is in delivery and no frame migrates. -/
theorem request_dense (s : State) (n p : Nat) (hn : s.rp.mailbox.len.toNat = n) (hp : s.rp.mailbox.buf * 64 = p) (hf : s.mem.flight.isEmpty = true)
    (hc : s.channels.toList.all (·.run.isNone) = true) (hw : s.mem.wf = true) :
    s.mbRequest = dense n p (s.mem.home.filter fun c => decide (p ≤ c.1)) := by
  subst hn hp
  rw [List.isEmpty_iff] at hf
  have hr : ∀ pa, s.redirect pa = pa := by
    intro pa
    unfold State.redirect
    dsimp only
    split
    · next c e =>
      have h1 := List.find?_some e
      have h2 := List.all_eq_true.mp hc _ (List.mem_of_find?_eq_some e)
      simp only [Option.isNone_iff_eq_none] at h2
      simp [h2] at h1
    · rfl
  rw [dense_eq _ _ _ (List.Pairwise.filter _ ((wfCells_iff _).mp hw).1) fun c hc => by simpa using (List.mem_filter.mp hc).2]
  unfold State.mbRequest
  rw [List.map_map]
  apply List.map_congr_left
  intro k _
  show (s.mem.settle 4 _).homeByte (s.redirect _) = _
  rw [MemSys.homeByte_settle_other _ _ _ _ (by simp [hf]), hr, readCell_filter _ (fun p => decide (s.rp.mailbox.buf * 64 ≤ p)), if_pos (by simp)]
  rfl
/-- What PREPARE asks of a request: its reserved bits and its entries, and the generation it expects. -/
def requestOk (b : List Byte) (gen : Nat) : Bool :=
  let es := (List.range 40).map fun p => (b.drop (64 + 128 * p)).take 128
  ((b.drop 8).take 56).all (· == 0) && es.all reservedClear && layoutOk (es.map PartEntry.ofBytes) && wordAt b 0 == gen
def layoutIdle (s : State) (new : List PartEntry) : Bool :=
  (changing s.layout.entries new).all s.sliceIdle && s.framesIdle new && s.entriesIdle new
/-- The entry whose bytes are those of `freeEntries`. -/
def freeEntry : PartEntry := PartEntry.ofBytes (natBytes 0x0A3F00 128)
/-- The bytes that the requests of `laidOut` hold: where the generation is written does not meet an entry. -/
theorem request_laidOut (gen : Nat) (h : gen = 0 ∨ gen = 1) :
    (laidOut gen).mbRequest = dense 5184 0x7FED000000 ((laidOut gen).mem.home.filter fun c => decide (0x7FED000000 ≤ c.1)) := by
  obtain rfl | rfl := h <;>
    exact request_dense _ 5184 0x7FED000000 (by decide +kernel) (by decide +kernel) (by decide +kernel) (by decide +kernel) (by decide +kernel)
theorem entries_laidOut (gen : Nat) (h : gen = 0 ∨ gen = 1) : entriesOf (laidOut gen).mbRequest = List.replicate 40 freeEntry := by
  rw [request_laidOut gen h]
  obtain rfl | rfl := h <;> decide +kernel
/-- The check of a request looks at its entries one by one. -/
theorem requestOk_laidOut (gen : Nat) (h : gen = 0 ∨ gen = 1) : requestOk (laidOut gen).mbRequest gen = true := by
  show (((laidOut gen).mbRequest.drop 8 |>.take 56).all (· == 0) &&
    (((List.range 40).map fun p => ((laidOut gen).mbRequest.drop (64 + 128 * p)).take 128).all reservedClear) &&
    layoutOk (entriesOf (laidOut gen).mbRequest) && wordAt (laidOut gen).mbRequest 0 == gen) = true
  rw [entries_laidOut gen h, request_laidOut gen h]
  simp only [Bool.and_eq_true]
  obtain rfl | rfl := h <;> refine ⟨⟨⟨?_, ?_⟩, ?_⟩, ?_⟩ <;> decide +kernel
theorem witness_LayoutCommands_prepare :
    takes (laidOut 0) 0x10 0 = true ∧ (laidOut 0).rp.mailbox.target = 0 ∧ (laidOut 0).rp.mailbox.len = 5184 ∧ requestOk (laidOut 0).mbRequest 0 = true ∧
      (laidOut 0).layout.gen = 0 ∧ (laidOut 0).layout.journal = .idle ∧ layoutIdle (laidOut 0) (entriesOf (laidOut 0).mbRequest) = true := by
  refine ⟨?_, ?_, ?_, requestOk_laidOut 0 (.inl rfl), ?_, ?_, ?_⟩
  case refine_6 => rw [entries_laidOut 0 (.inl rfl)]; decide +kernel
  all_goals decide +kernel
theorem witness_LayoutCommands_refusals :
    (requestOk (laidOut 1).mbRequest 1 = true ∧ (laidOut 1).layout.gen = 0 ∧ (laidOut 1).mbHolds 0x10 = true ∧ admitted (laidOut 1).mbAdmit = true) ∧
      layoutOk (entriesOf (List.replicate 5184 0)) = false := by
  refine ⟨⟨requestOk_laidOut 1 (.inr rfl), ?_, ?_, ?_⟩, ?_⟩ <;> decide +kernel
theorem witness_LayoutCommands :
    ((laid 0 0 0 []).layout.journal ≠ .preparing) ∧
    (let s := inJournal .preparing (laid 0x10 5184 0 [])
     (s.onMailbox fun m => { m with pendingPrepare := true }).layout.journal = .preparing) ∧
    ([Journal.prepared, .idle].all fun j => takes (inJournal j (laid 0x11 0 8 [])) 0x11 8 && takes (inJournal j (laid 0x12 0 0 [])) 0x12 0) = true ∧
    ((committing []).layout.journal = .committing ∧ (∃ j, j < 40 ∧ j ≠ 3 ∧ j ∉ (committing []).layout.flipped) ∧ (∃ j, j < 40 ∧ j ≠ 3 ∧ j ∉ (committing [3]).layout.flipped) ∧
      (∀ j, j < 40 → j ≠ 3 → j ∈ (committing ((List.range 40).filter (· != 3))).layout.flipped) ∧ (committing []).health.untrained = false) ∧
    ((laid 0x13 0 5184 []).layout.entries.length = 40 ∧ takes (laid 0x13 0 5184 []) 0x13 5184 = true) := by decide +kernel

/-! ### Migration, restart, links, power -/

/-- A command for enclave 6 in a state, with a session. -/
def migrating (op len rcap : Nat) (st : EnclaveState) (x : Option MigSession) (l : List (Nat × Nat × Nat) := []) : State :=
  let s := mailed op 6 len rcap (hosted l)
  { s with enclaves := [{ id := 6, state := st, session := x, m := List.replicate 64 0 }], cur := { s.cur with part := 39 } }
def ses : MigSession := { nonce := List.replicate 32 0, peerNonce := List.replicate 32 0 }
theorem fit_length (n : Nat) (bs : List Byte) : (fitTo n bs).length = n := by simp [fitTo]
theorem token_length (n : Ridgepole) (k : Byte) (a b : List Byte) :
    (signToken n k a b).length = 3310 + (a.length + b.length) + n.chain.length := by
  simp [signToken, aliasSig, fit_length]; omega
/-- One byte is no record: what would be its tag is not 16 bytes long. -/
theorem record_fails (s : State) (h : (s.enclave? 6).isSome = true) : s.applyRecords 6 1 [0] = .error 4 := by
  have ht : ∀ k iv a c, gcmTag16 k iv a c ≠ [] := by
    intro k iv a c hc
    have := congrArg List.length hc
    simp [gcmTag16] at this
  obtain ⟨e, he⟩ := Option.isSome_iff_exists.mp h
  have h' : s.enclave? 6#16 = some e := he
  simp [State.applyRecords, gcmOpen, ht]
  rw [h']
  rfl
/-- What a peer's signature, hello or request says is open (log 6): of the clauses that turn on it one applies. -/
theorem witness_MigrationCommands :
    ([EnclaveState.building, .running].all fun st => let s := migrating 0x30 0 64 st (if st = .running then some ses else none)
      (s.enclave? 6).isSome && s.mbHolds 0x30 && admitted s.mbAdmit) = true ∧
    answers (migrating 0x30 0 8192 .running none).migopenCmd (fun _ _ => true) = true ∧
    (let s := migrating 0x31 0 8192 .migrating (some { ses with key := 9 })
     answers s.migroundCmd (fun r _ => r.isEmpty) = true ∧ takes s 0x31 0 = true) ∧
    (let s := migrating 0x32 0 8192 .migrating (some { ses with key := 9, stopping := true })
     s.mbHolds 0x32 = true ∧ admitted s.mbAdmit = true ∧ (s.enclave? 6).any Enclave.stopping = true ∧ s.migQuiet 6 = true ∧
     { s with fills := [{ fill1 with enc := 6 }] }.migQuiet 6 = false ∧
     answers (s.onSession 6 fun m => { m with stopping := false }).migstopCmd (fun _ _ => true) = true) ∧
    ([0x52, 0x43].all fun k => let s := migrating 0x33 65 0 .stopped (some ses) [(0x7FED000000, k, 1)]
      takes s 0x33 0 && (s.mbRequest.drop 1).take 32 == ses.nonce && (s.mbRequest.drop 33).take 32 == ses.peerNonce && s.mbRequest.headD 0 == BitVec.ofNat 8 k) = true ∧
    takes (migrating 0x38 0 8192 .stopped none) 0x38 4909 = true ∧
    (let s := migrating 0x39 0 0 .arriving (some ses)
     takes s 0x39 0 = true ∧ answers ((s.applyRecords 6 s.mbRequest.length s.mbRequest).map fun t => ([], t)) (fun _ t => t == s) = true) ∧
    (let s := migrating 0x39 1 0 .arriving (some ses)
     s.mbHolds 0x39 = true ∧ admitted s.mbAdmit = true ∧ s.mbRequest = [0] ∧ s.applyRecords 6 1 [0] = .error 4) ∧
    (let s := migrating 0x3A 0 8192 .arriving (some { ses with stateDone := true })
     s.mbTakes 0x3A (signToken s.rp 0x43 ses.peerNonce ses.nonce).length ∧ (migrating 0x3A 0 0 .arriving (some ses)).mbHolds 0x3A = true) ∧
    (let s := migrating 0x3B 0 8192 .arriving (some ses)
     s.mbTakes 0x3B (signToken s.rp 0x52 ses.peerNonce ses.nonce).length) ∧
    (let s := mailed 0x3B 0 0 8192 (hosted [])
     { s with rp := { s.rp with pendingSession := some ses } }.mbTakes 0x3B (signToken s.rp 0x52 ses.peerNonce ses.nonce).length) := by
  refine ⟨?_, ?_, ?_, ?_, ?_, ?_, ?_, ⟨?_, ?_, ?_, record_fails _ (by decide +kernel)⟩, ⟨takes_iff _ _ _ ?_, ?_⟩, takes_iff _ _ _ ?_, takes_iff _ _ _ ?_⟩
  case refine_11 => rw [token_length]; decide +kernel
  case refine_13 => rw [token_length]; decide +kernel
  case refine_14 => rw [token_length]; decide +kernel
  all_goals decide +kernel

/-- Which images pass is open (log 6); with no combination listed the part stays in recovery service. -/
theorem witness_RestartAndResetSteps :
    ([Journal.idle, .preparing, .prepared, .committing].all fun j => (laid 0x12 0 0 []).health.service != .reset && (inJournal j (laid 0x12 0 0 [])).layout.journal == j &&
      (laid 0x12 0 0 []).rp.mailbox.busy) = true ∧
    (({ grp.rp.firmware with manifest := [] } : Firmware).bootTuple = none ∧ grp.potLost = false ∧ (∀ p ∈ grp.layout.entries, p.valid = false) ∧ ridgepoleFrame 8 = false ∧ deviceCarveOut 8 = false ∧
      ((pots [(8, .owned)]).potAt 8).state ≠ .free) ∧
    ((laid 0 0 0 []).health.service ≠ .reduced ∧ ({ grp with health := { grp.health with service := .reduced } } : State).health.service = .reduced ∧ grp.layout.journal = .idle ∧
      lateFrame 524288 = true ∧ ridgepoleFrame 524288 = false ∧ deviceCarveOut 524288 = false ∧ alook grp.pot 524288 = none) ∧
    ((0 : Nat) < 4 ∧ (3 : Nat) < 4 ∧ grp.health.dieFence.getLsbD 3 = false ∧ (grp.onHealth fun h => { h with dieFence := 8 }).health.dieFence.getLsbD 3 = true) ∧
    (regionOf (0x500 * 256) = .hbm ∧ regionOf (0x100000000 * 256) = .lpddr ∧ (64 : Nat) ≤ 64 ∧ 64 < (65 : Nat)) := by decide +kernel

/-- A stream entry, and the state of port 4 with the peer that it has found. -/
def ported (st : BitVec 2) (mid : BitVec 8) (x : Stream) : State :=
  (streamed [(3, x)] grp).onPort 4 fun p => { p with state := st, peerMid := mid }
def opening : Stream := { pmid := 7, state := stOpening }
def peer1 : PeerEntry := { isMatch := true, running := true, tag := 5, pidx := 9, secret := [] }
theorem port4_up (s : State) (st : BitVec 2) (h : (s.links.ports.toList.getD 4 {}).state = st) (h2 : st = 2 ∨ st = 3)
    (h3 : (s.links.ports.toList.getD 4 {}).mode = 0) : s.fabricUp 4 = true := by
  obtain rfl | rfl := h2 <;> simp_all [State.fabricUp, State.fabricPort]
theorem port4_fabric (s : State) (h : (s.links.ports.toList.getD 4 {}).mode = 0) : s.fabricPort 4 = true := by
  simp_all [State.fabricPort]
/-- R368: what the host ports are depends on the mode of the pair, which is open (log 2): one of the two clauses applies. -/
theorem witness_StreamAndPortSteps :
    (up7.state ≠ stOpening ∧ opening.state = stOpening ∧ opening.state ≠ stUp ∧ ({ opening with state := stIdle } : Stream).state ≠ stUp ∧
      ((ported 2 7 opening).stream 3) = opening) ∧
    ({ peer1 with isMatch := false } : PeerEntry).isMatch = false ∧ (∀ p, p < 18 → ((ported 0 0 opening).links.ports.toList.getD p {}).peerMid ≠ opening.pmid) ∧
    (opening.lenc = 0 ∧ up7.lenc ≠ 0 ∧ ({ peer1 with running := false } : PeerEntry).running = false) ∧
    ((ported 2 7 opening).openAdmitted opening peer1 = true ∧ (ported 2 7 opening).fabricUp 4 = true ∧
      ((ported 2 7 opening).links.ports.toList.getD 4 {}).peerMid = opening.pmid ∧
      ∀ q, q < 4 → ((ported 2 7 opening).links.ports.toList.getD q {}).peerMid ≠ opening.pmid) ∧
    (let st := { up7 with ctr := markerCtr }
     (ported 2 7 st).stream 3 = st ∧ st.state = stUp ∧ st.txCur.isSome = true ∧ (ported 2 7 st).portKept 4 < 1024 ∧ (ported 2 7 st).links.rdvOut = []) ∧
    up7.ctr ≠ markerCtr ∧
    ((ported 2 7 up7).fabricPort 4 = true ∧ (ported 0 0 up7).fabricPort 4 = true ∧ (ported 2 7 up7).portState 4 = 2 ∧ (ported 0 0 up7).portState 4 = 0 ∧ (8 : Nat) ≤ 8 ∧ (4 : Nat) ≤ 4 ∧ (7 : Nat) < 8 ∧ (3 : Nat) < 4) ∧
    ((7 : BitVec 8) ≠ 0 ∧ (Config.bridge = true ∨ Config.bridge = false)) := by
  refine ⟨by decide +kernel, by decide, by decide +kernel, by decide, ⟨by decide +kernel, port4_up _ 2 (by decide +kernel) (.inl rfl) (by decide +kernel),
    by decide +kernel, by decide +kernel⟩, by decide +kernel, by decide, ⟨port4_fabric _ (by decide +kernel), port4_fabric _ (by decide +kernel), by decide +kernel⟩, by decide, by cases Config.bridge <;> simp⟩

/-- A DATA payload: 8 bytes to an address, under record tag 5. -/
def dataBytes (dst : Nat) : List Byte := natBytes dst 8 ++ natBytes (8 + 5 * 2 ^ 16) 8 ++ List.replicate 16 0 ++ List.replicate 8 0xAA
/-- An ACK or NAK for the flit of epoch 0 and CTR 0 of stream 3, sealed under the link key of port 4. -/
def controlFlit (ty : BitVec 4) : Flit :=
  let f : Flit := { port := 4, typ := ty, slot := false, rstream := 0, ctr := 6, epoch := 0, body := [], tag := [] }
  Flit.sealWith f 21 (Flit.controlIv f) (natBytes 3 8 ++ natBytes 0 8)
def keptFlit (op : Option Nat) (n : Nat) (isLast : Bool) : Kept := { flit := flitOf tData [], op, nbytes := n, isLast }
/-- Stream 3 with what it keeps, on port 4 with its link key. -/
def linked (x : Stream) (s : State) : State := (streamed [(3, x)] s).onPort 4 fun p => { p with state := 2, peerMid := 7, linkKey := 21 }
theorem control_of (ty : BitVec 4) (s : State) (hk : (s.links.ports.toList.getD 4 {}).linkKey = 21) (hs : (s.stream 3).state = stUp)
    (hp : (s.stream 3).port = 4) : s.controlOf (controlFlit ty) = some (3, 0, 0) := by
  unfold State.controlOf
  rw [show (controlFlit ty).fecBad = false from rfl, show (controlFlit ty).port = 4 from rfl, hk]
  have h : Flit.openWith (controlFlit ty) 21 (Flit.controlIv (controlFlit ty)) = some (padPayload (natBytes 3 8 ++ natBytes 0 8)) := open_seal _ _ _ _
  have h3 : wordAt (padPayload (natBytes 3 8 ++ natBytes 0 8)) 0 = 3 := by decide +kernel
  have h0 : wordAt (padPayload (natBytes 3 8 ++ natBytes 0 8)) 8 = 0 := by decide +kernel
  simp only [h, h3, h0, hs, hp]
  rfl
/-- A copy to a peer whose flit has the record tag 5. -/
def peerOp (sent : Nat) : Op := { copyOp 300 0 with stream := some 3, rectag := 5, sent }
def atStream (x : Stream) (s : State) (p : Stream → State → Bool) : Bool := let t := linked x s; p (t.stream 3) t
theorem payload_none (ty : BitVec 4) (s : State) : s.rxPayload { flitOf ty [] with slot := true } = none := by
  unfold State.rxPayload
  rw [if_pos]
  simp [flitOf, Flit.sealWith]
theorem witness_FlitAndAcknowledgementSteps :
    (∀ ty, (flitOf ty (dataBytes 0x60000)).fecBad = false ∧ (flitOf ty []).typ = ty ∧ (linked up7 grp).rxPayload (flitOf ty (dataBytes 0x60000)) = some (padPayload (dataBytes 0x60000)) ∧
      (linked up7 grp).rxPayload { flitOf ty [] with slot := true } = none) ∧
    ([tData, tArrive, tMarker, tFault, tRdv].all fun ty => (linked up7 grp).expected (flitOf ty []) && (linked up7 grp).expected { flitOf ty [] with slot := true } &&
      !(linked up7 grp).expected { flitOf ty [] with ctr := 1 }) = true ∧
    ([0, 1, 2].all fun n => ((linked { up7 with failures := n } (has (peerOp 0))).stream 3).failures == n) = true ∧
    (let b := padPayload (dataBytes 0x60000)
     let s := linked up7 grp
     bitN (wordAt b 8) 11 = false ∧ (s.stream 3).discard.contains (fieldN (wordAt b 8) 16 48) = false ∧ (s.stream 3).lenc ≠ 0 ∧ bitN (wordAt b 8) 8 = false ∧
     ends (writeVa (engineCtx 1 4 0) (bv64 (wordAt b 0)) ((b.drop 0x20).take (fieldN (wordAt b 8) 0 8)) s) (fun _ _ => true) = true ∧
     ends (writeVa (engineCtx 1 4 0) (bv64 (wordAt b 0)) ((b.drop 0x20).take (fieldN (wordAt b 8) 0 8)) (s.fromPeers 4)) (fun _ t => t.links == s.links) = true ∧ s.canSend 3 = true) ∧
    (let b := padPayload (dataBytes 0x150000)
     let put := writeVa (engineCtx 1 4 0) (bv64 (wordAt b 0)) ((b.drop 0x20).take (fieldN (wordAt b 8) 0 8))
     fails (put (linked up7 grp)) isTrap = true ∧ fails (put ((linked up7 grp).fromPeers 4)) isTrap = true) ∧
    (let b := padPayload (natBytes 0x50000 8)
     let s := linked up7 (barred 2 0)
     ends (applyArrive (engineCtx 1 4 0) (s.partOf (s.stream 3).lenc) b s) (fun _ _ => true) = true ∧
     ends (engineBarrier (engineCtx 1 4 0) (bv64 (wordAt b 0)) .w (s.fromPeers 4)) (fun r t1 => t1.links == s.links && t1.layout == s.layout && t1.enclaves == s.enclaves &&
       ends (engineArrive (engineCtx 1 4 0) (bv64 (wordAt b 0)) r 1 (bitN (wordAt b 8) 0) (t1.clampFor (t1.partOf 1) r.2.1.orderScope) t1)
         fun _ t => t.links == s.links) = true) ∧
    (let o := peerOp 192
     (linked up7 (has o)).ops = [o] ∧ o.kind = .record 1 ∧ o.stream = some 3 ∧ o.rectag = wordAt (padPayload (faultPayload 5 cOwner 0x60000)) 0 ∧ o.state = .running) ∧
    (listedType tData = true ∧ listedType 7 = false ∧ listedType 15 = false ∧ (flitOf 7 []).port = 4 ∧ grp.fabricPort 4 = true ∧ grp.fabricPort 18 = false) ∧
    (∀ ty, (controlFlit ty).fecBad = false ∧ (controlFlit ty).typ = ty ∧ (linked up7 grp).controlOf (controlFlit ty) = some (3, 0, 0)) ∧
    (tData ≠ tAck ∧ tData ≠ tNak) ∧
    ([false, true].all fun z => let y := keptFlit (some 7) 192 z
      atStream { up7 with kept := [y], ctr := 1 } (has (peerOp 192)) fun st s => st.kept.length == 1 && y.flit.epoch == 0 && y.flit.ctr == 0 && s.op? 7 == some (peerOp 192) && s.links.rdvOut.isEmpty &&
        keptThrough st.kept 0 0 != []) = true ∧
    ([0, 1, 2].all fun n => atStream { up7 with kept := [keptFlit none 0 false], naks := n } grp fun st _ => st.naks == n && keptThrough st.kept 0 0 != []) = true := by
  refine ⟨fun ty => ⟨rfl, rfl, payload_of ty _ _ (by decide +kernel), payload_none ty _⟩, by decide +kernel, by decide +kernel, by decide +kernel, by decide +kernel, by decide +kernel, by decide +kernel,
    ⟨by decide, by decide, by decide, rfl, port4_fabric _ (by decide +kernel), by decide +kernel⟩, fun ty => ⟨rfl, rfl, control_of ty _ (by decide +kernel) (by decide +kernel) (by decide +kernel)⟩, by decide, by decide +kernel, by decide +kernel⟩

/-- Entry 0 of the attachment table in a state, for enclave 1; a TDI in RUN. -/
def attached (st : BitVec 3) (l : List (Nat × Attachment) := []) : State :=
  { grp with links := { grp.links with attachments := (0, { encid := 1, state := st }) :: l, tdis := [(1, { state := .run, stream := 3 })] } }
/-- What the bridge opens of a secured message is open (log 24): the clauses of a message that opens apply to one that does. -/
theorem witness_AttachmentAndPowerSteps :
    ([0, 1, 2, 3, 4].all fun st => ((attached st).attachment 0).state == st) = true ∧
    ((attached 1).attachFree 0 ((attached 1).attachment 0) = true ∧
      (attached 1 [(1, { encid := 1, state := 2 })]).attachFree 0 ((attached 1).attachment 0) = false) ∧
    (((attached 2).tdi 1).state = .run ∧ ((attached 2).tdi 1).stream ≠ 4 ∧ ((attached 2).tdi 1).stream = 3 ∧ ((attached 2).tdi 2).state ≠ .run ∧ grp.vfEnabled 1 = false) ∧
    (let s := { attached 2 with layout := { grp.layout with entries := [{ valid := true, vf := 1, hbase := 2095872, hcnt := 4, hostCo := 1 }] } }
     s.vfPlace 1 0x3FFFF [5] = some 0x7FEC03FFFF ∧ s.vfPlace 1 0x3FFFF [5, 6] = none ∧
     s.vfWindow 1 0x3F000 4096 = some 0x7FEC03F000 ∧ ((s.spans 0x7FEC03F000 4096).all fun q => (badData s q.1.toNat).isNone) = true ∧ s.vfWindow 1 0x40000 4096 = none ∧
     ({ s with links := { s.links with tdis := [(1, { state := .error })] } }.tdi 1).state = .error) ∧
    (grp.rp.doeKey = none ∧ grp.rp.doe ≠ 3 ∧ (0x7F : Nat) ∉ spdmSupported ∧ 0x84 ∈ spdmSupported ∧ 0xE1 ∈ spdmSupported ∧
      (spdmAnswer true grp.rp.doe [0x14, 0xE1] grp.rp.chain []).toOption.isNone = true ∧ (spdmAnswer true grp.rp.doe [0x14, 0x84] grp.rp.chain []).toOption.isSome = true ∧
      ({ grp.rp with doe := 3 } : Ridgepole).doe = 3 ∧ ({ grp.rp with doeKey := some 5 } : Ridgepole).doeKey = some 5 ∧ grp.rp.doeUp = false ∧
      (Config.bridge = true ∨ Config.bridge = false)) ∧
    ([(900, true), (900, false), (1000, false), (1200, false)].all fun (x : Nat × Bool) =>
      let h := { grp.health with clkMhz := BitVec.ofNat 16 x.1, matrixHalf := x.2 }
      decide (900 ≤ h.clkMhz.toNat) && decide (h.clkMhz.toNat ≤ 1800) && h.clkMhz.toNat % 100 == 0 && (!h.matrixHalf || h.clkMhz == 900) &&
        decide (h.clkMhz.toNat ≤ h.fullClock)) = true ∧
    (grp.health.capW.toNat = 2400 ∧ grp.health.capW.toNat < 2401 ∧ 2279 * 100 < 95 * grp.health.capW.toNat ∧ 95 * grp.health.capW.toNat ≤ 2280 * 100) := by
  refine ⟨?_, ?_, ?_, ?_, ⟨?_, ?_, ?_, ?_, ?_, ?_, ?_, ?_, ?_, ?_, by cases Config.bridge <;> simp⟩, ?_, ?_⟩ <;> decide +kernel

/-! ### The machine -/

/-- The state that one step of `withFetchWord` is to run: a scalar word, or a lane instruction. -/
def fetching (nbits w : Nat) : State := State.reset.withFetchWord nbits w
/-- A state once the agent that its schedule names has come to act. -/
def turned (s : State) (id : Nat) : State := { s with turns := [] }.noteReady.focus id
/-- What the fetch of a state brings. -/
def fetches (s : State) (p : BitVec 32 → State → Bool) : Bool := ends (fetchWord s.cur.pc s) p
def laneFetches (s : State) (p : BitVec 96 → Bool) : Bool := ends (fetchLaneBits 0 s) fun x _ => p x
def at' (pc : Word) (s : State) : State := s.onCur fun a => { a with pc }
/-- The state of a word that comes to be fetched: the turn, the agent that acts, and that its slot picks it. -/
def coming (nbits w : Nat) : State := let s := fetching nbits w; turned s s.cur.id
def picked (s : State) (l : List Nat) : Bool := s.canScalar s.cur && s.picks l && s.cur.pc.toNat % 4 == 0
def lanePicked (s : State) (l : List Nat) : Bool := s.canLane s.cur && s.picks l && s.cur.lane.active.any fun b => b.lidx == 0
theorem witness_StepRunsDecodedInstruction :
    ([(32, 0x02104180), (32, 0x6E000000), (64, 0xDEADBEEF1C240000)].all fun (x : Nat × Nat) => let s := fetching x.1 x.2; let v := coming x.1 x.2
      s.turns == [.scalar v.cur.id [0]] && v.cur.id == s.cur.id && picked v [0]) = true ∧
    fetches (coming 32 0x02104180) (fun w _ => !needsSecondWord w && (decodeScalar w 0).toOption == some (.add 2 2 3)) = true ∧
    fetches (coming 32 0x6E000000) (fun w _ => !needsSecondWord w && (decodeScalar w 0).toOption.isNone) = true ∧
    fetches (coming 64 0xDEADBEEF1C240000) (fun w t => needsSecondWord w && ends (fetchWord (t.cur.pc + 4) t) fun u _ => (decodeScalar w u).toOption.isSome) = true ∧
    ([0x150000, 0x40082].all fun pc => let v := turned (at' pc grp) grp.cur.id
      v.cur.id == grp.cur.id && v.canScalar v.cur && v.picks [] && (if pc = 0x40082 then v.cur.pc.toNat % 4 != 0 else v.cur.pc.toNat % 4 == 0 && fails (fetchWord 0x150000 v) isTrap)) = true ∧
    ([0x048000010000000000000000, 0xFE0000000000000000000000].all fun x => let s := fetching 96 x; let v := coming 96 x
      s.turns == [.lane v.cur.id [0]] && v.cur.id == s.cur.id && lanePicked v [0] && v.cur.lane.active.any fun b => decide (b.issued < 256)) = true ∧
    laneFetches (coming 96 0x048000010000000000000000) (fun x => (decodeLane x).toOption == some (.vtid { vd := 1 })) = true ∧
    laneFetches (coming 96 (0xFE0000000000000000000000)) (fun x => (decodeLane x).toOption.isNone) = true ∧
    (let v := (coming 96 0).onCur fun a => { a with lane := { a.lane with active := a.lane.active.map fun b => { b with issued := 256 } } }
     lanePicked v [0] = true ∧ laneFetches v (fun _ => true) = true) ∧
    (let v := turned { grp with others := [{ grp.cur with id := 2 }] } 2
     v.cur.id = 2 ∧ picked v [grp.cur.id] = true ∧ fetches v (fun w _ => !needsSecondWord w) = true) ∧
    (let w := { grp with cur := { grp.cur with status := .exited } }
     (turned w grp.cur.id).canScalar (turned w grp.cur.id).cur = false ∧ (turned grp grp.cur.id).canLane (turned grp grp.cur.id).cur = false ∧
      (turned grp 77).cur.id ≠ 77 ∧ (turned grp grp.cur.id).picks [grp.cur.id] = false) ∧
    ((Instr.scrubFrameStart).encodable = false ∧ { grp with turns := [] }.others = [] ∧ { grp with turns := [] }.canScalar grp.cur = true) := by
  refine ⟨?_, ?_, ?_, ?_, ?_, ?_, ?_, ?_, ?_, ?_, ?_, ?_⟩ <;> decide +kernel

theorem witness_EveryInstructionSteps :
    { grp with turns := [] }.turns = [] ∧ ((grp.cur :: grp.others).map fun a => a.id).Nodup := by decide +kernel
theorem witness_DecodeEncodeAgree :
    ([Instr.addi 5 4 (-8), .liTwoWord 9 0xDEADBEEF, .vtid { vd := 1 }, .rred { imm := 5 }, .cvt .f32 .i64 { vd := 2 }].all fun i => i.encodable && legal i) = true := by
  decide +kernel
theorem witness_EncodeDecodeAgree : decodeWords [0x02104180] = .ok (.add 2 2 3) ∧ decodeWords [0, 0, 0x04800001] = .ok (.vtid { vd := 1 }) := ⟨rfl, rfl⟩
theorem witness_StepKeepsMemoryCanonical : (fetching 32 0x02104180).mem.wf = true ∧ goes (step (fetching 32 0x02104180)) (fun _ => true) = true := by decide +kernel
/-- A step that keeps LAYOUTGEN, and one that raises it. -/
theorem witness_LayoutGenerationRises :
    goes (exec .scrubFrameStart grp) (fun _ => true) = true ∧
    goes (exec .commit (inJournal .prepared (laid 0x11 0 8 []))) (fun t => t.layout.gen == 1 && decide (t.layout.journal = .committing)) = true := by decide +kernel
theorem witness_NoInstructionReachesLevelH :
    (Instr.ecall).encodable = true ∧ usr.cur.kind ≠ .host ∧ usr.cur.level ≠ .h ∧ usr.cur.trap.level ≠ .h ∧ goes (exec .ecall usr) (fun t => decide (t.cur.level ≠ .h)) = true := by
  decide +kernel

end Sys2Proof.Tests
end

section
/-! ## The outcome of an instruction is a next state (R9, R88, R89; log 4) -/
namespace Sys2Proof.Machine

/-- The outcome is a next state: neither a stop nor a refusal. -/
def HasNext (o : Out) : Prop := ∃ t, o = .next t

theorem hasNext_next (t : State) : HasNext (.next t) := ⟨t, rfl⟩
theorem hasNext_runX (x : X Unit) (s : State) : HasNext (runX x s) := runX_next x s
theorem hasNext_trapOut (s : State) (c : Cause) (v : Word) : HasNext (trapOut s c v) := ⟨_, rfl⟩
theorem hasNext_illegal (i : Instr) (s : State) : HasNext (illegal i s) := ⟨_, rfl⟩
theorem hasNext_laneIllegal (i : Instr) (s : State) : HasNext (laneIllegal i s) := ⟨_, rfl⟩
theorem hasNext_branchIf {n : Nat} (c : Bool) (o : BitVec n) (s : State) : HasNext (branchIf c o s) := ⟨_, rfl⟩

/-! ### The checks that stand before an instruction's effects -/

theorem HasNext.ite {p : Prop} [Decidable p] {o o' : Out} (h : HasNext o) (h' : HasNext o') :
    HasNext (if p then o else o') := by
  split
  · exact h
  · exact h'

theorem HasNext.needLevel {o : Out} (h : HasNext o) (l : Level) (s : State) : HasNext (needLevel l s o) :=
  .ite (hasNext_trapOut ..) h

theorem HasNext.whenDrained {o : Out} (h : HasNext o) (s : State) : HasNext (whenDrained s o) :=
  .ite h (hasNext_next _)

theorem HasNext.onLevels {o : Out} (h : HasNext o) (ls : List Level) (s : State) : HasNext (onLevels ls s o) :=
  .ite h (hasNext_trapOut ..)

theorem HasNext.outEnd {o : Out} (h : HasNext o) (before : State) : HasNext (outEnd before o) := by
  obtain ⟨t, rfl⟩ := h
  exact hasNext_next _

/-! ### The forms that several instructions share -/

theorem hasNext_rangeForm (op : RangeOp) (a b : BitVec 6) (s : State) : HasNext (rangeForm op a b s) := by
  refine .ite (hasNext_next _) (.ite (hasNext_next _) ?_)
  dsimp only
  split <;> exact hasNext_next _

theorem hasNext_csrAccess (i : Instr) (d : BitVec 6) (r : BitVec 12) (write : Bool) (f : Agent → Word → Agent)
    (s : State) : HasNext (csrAccess i d r write f s) := by
  unfold csrAccess
  split
  · exact .ite (hasNext_illegal ..) (hasNext_trapOut ..)
  · exact .ite (hasNext_next _) (hasNext_next _)

theorem hasNext_runSave (x : X Unit) (s : State) : HasNext (runSave x s) := by
  unfold runSave
  split
  · exact .ite (hasNext_next _) (hasNext_next _)
  · exact hasNext_next _

theorem hasNext_issueLane (i : Instr) (f : Lane) (ok : Agent → Bool) (cls : Option OutClass)
    (body : LaneCtx → List PendWrite × Flags) (s : State) : HasNext (issueLane i f ok cls body s) :=
  .ite (hasNext_laneIllegal ..) (.ite (hasNext_next _) (hasNext_next _))

theorem hasNext_laneMemory (i : Instr) (f : Lane) (scope : Option (BitVec 4))
    (find : LaneCtx → Ctx → Nat → X (List Place))
    (perform : LaneCtx → Ctx → Nat → List (Nat × List Place) → X LaneData) (s : State) :
    HasNext (laneMemory i f scope find perform s) := by
  refine .ite (hasNext_laneIllegal ..) (.ite (hasNext_next _) ?_)
  dsimp only
  split
  · exact hasNext_next _
  · exact hasNext_next _
  · split
    · exact hasNext_next _
    · split <;> exact hasNext_next _

theorem hasNext_laneInt1 (i : Instr) (w : Bool) (f : Lane) (op : Nat → Nat) (s : State) :
    HasNext (laneInt1 i w f op s) := hasNext_issueLane ..

theorem hasNext_laneInt2 (i : Instr) (t : ITy) (f : Lane) (aff : LaneReg → LaneReg → Option LaneReg)
    (op : Nat → Nat → Nat) (s : State) : HasNext (laneInt2 i t f aff op s) := hasNext_issueLane ..

theorem hasNext_laneGen (i : Instr) (f : Lane) (r : LaneCtx → LaneReg) (s : State) : HasNext (laneGen i f r s) :=
  hasNext_issueLane ..

theorem hasNext_laneFloat1 (i : Instr) (t : FTy) (f : Lane) (cls : Option OutClass)
    (op : RMode → FV → Nat → Nat × Flags) (s : State) : HasNext (laneFloat1 i t f cls op s) := hasNext_issueLane ..

theorem hasNext_laneFloat2 (i : Instr) (t : FTy) (f : Lane) (cls : Option OutClass)
    (op : RMode → FV → FV → Nat → Nat × Flags) (s : State) : HasNext (laneFloat2 i t f cls op s) := hasNext_issueLane ..

theorem hasNext_maskForm (i : Instr) (f : Lane) (op : Mask → Mask → Mask) (s : State) : HasNext (maskForm i f op s) :=
  hasNext_issueLane ..

theorem hasNext_moveForm (i : Instr) (f : Lane) (ok : Agent → Bool) (r : LaneCtx → Nat → Nat) (s : State) :
    HasNext (moveForm i f ok r s) := hasNext_issueLane ..

theorem hasNext_scanForm (i : Instr) (f : Lane) (block : LaneCtx → Nat) (s : State) : HasNext (scanForm i f block s) :=
  hasNext_issueLane ..

theorem hasNext_loadLanes (i : Instr) (z : Size) (f : Lane) (addr : LaneCtx → Nat → Word) (s : State) :
    HasNext (loadLanes i z f addr s) := hasNext_laneMemory ..

theorem hasNext_storeLanes (i : Instr) (z : Size) (f : Lane) (addr : LaneCtx → Nat → Word) (s : State) :
    HasNext (storeLanes i z f addr s) := hasNext_laneMemory ..

theorem hasNext_atomicLanes (i : Instr) (op : VAtomOp) (z : Size) (f : Lane) (out : Bool) (s : State) :
    HasNext (atomicLanes i op z f out s) := hasNext_laneMemory ..

/-! ### Instructions that choose between several ends -/

theorem hasNext_execRet (s : State) : HasNext (execRet s) := by
  unfold execRet
  split
  · exact hasNext_trapOut ..
  · exact .ite (hasNext_trapOut ..) (hasNext_next _)

theorem hasNext_execEcall (s : State) : HasNext (execEcall s) := by
  unfold execEcall
  split
  · exact hasNext_trapOut ..
  · exact hasNext_next _
  · exact hasNext_illegal ..

theorem hasNext_execSetw (a : BitVec 6) (s : State) : HasNext (execSetw a s) :=
  .ite (hasNext_illegal ..) (.ite (hasNext_trapOut ..) (.whenDrained (hasNext_next _) s))

theorem hasNext_execQread (d a : BitVec 6) (q : BitVec 2) (s : State) : HasNext (execQread d a q s) :=
  .ite (hasNext_illegal ..) (.ite (hasNext_next _) (.ite (hasNext_next _) (hasNext_trapOut ..)))

theorem hasNext_execLrun (inv : Bool) (k : BitVec 4) (l : BitVec 20) (s : State) : HasNext (execLrun inv k l s) := by
  refine .ite (hasNext_illegal ..) ?_
  split
  · exact hasNext_illegal ..
  · exact .ite (hasNext_trapOut ..) (.ite (hasNext_next _) (hasNext_next _))

theorem hasNext_execWgbar (d a b : BitVec 6) (s : State) : HasNext (execWgbar d a b s) :=
  .ite (hasNext_illegal ..) (.ite (hasNext_trapOut ..) (.ite (.whenDrained (hasNext_next _) s) (hasNext_runX ..)))

theorem hasNext_execHbar (d a b : BitVec 6) (s : State) : HasNext (execHbar d a b s) := by
  refine .ite (hasNext_illegal ..) ?_
  dsimp only
  split
  · exact hasNext_trapOut ..
  · exact hasNext_runX ..

theorem hasNext_execTstat (d a : BitVec 6) (s : State) : HasNext (execTstat d a s) := by
  refine .ite (hasNext_trapOut ..) ?_
  dsimp only
  split <;> exact hasNext_next _

theorem hasNext_execBtdemote (d a b : BitVec 6) (s : State) : HasNext (execBtdemote d a b s) := by
  refine .onLevels ?_ _ s
  split
  · exact hasNext_trapOut ..
  · exact hasNext_runX ..

theorem hasNext_execSavev (d a b : BitVec 6) (s : State) : HasNext (execSavev d a b s) :=
  .onLevels (.ite (hasNext_illegal ..) (.ite (hasNext_trapOut ..) (.ite (hasNext_trapOut ..)
    (.ite (hasNext_trapOut ..) (hasNext_runSave ..))))) _ s

theorem hasNext_execSdone (a : BitVec 6) (s : State) : HasNext (execSdone a s) :=
  .onLevels (.ite (hasNext_illegal ..) (.ite (hasNext_trapOut ..) (hasNext_runSave ..))) _ s

theorem hasNext_execEresume (d a b : BitVec 6) (s : State) : HasNext (execEresume d a b s) := by
  refine .onLevels (.ite (hasNext_trapOut ..) ?_) _ s
  split
  · exact .ite (hasNext_next _) (hasNext_runX ..)
  · split
    · exact .ite (hasNext_next _) (hasNext_next _)
    · exact hasNext_next _

theorem hasNext_execBlockMoveCopyLanded (id : Nat) (s : State) : HasNext (execBlockMoveCopyLanded id s) := by
  unfold execBlockMoveCopyLanded
  split
  · split <;> exact hasNext_next _
  · exact hasNext_next _

theorem hasNext_execBlockMoveSwing (id : Nat) (s : State) : HasNext (execBlockMoveSwing id s) := by
  unfold execBlockMoveSwing
  split
  · split <;> exact hasNext_next _
  · exact hasNext_next _

theorem hasNext_execIllegalEncoding (lane : Bool) (bits : BitVec 96) (s : State) :
    HasNext (execIllegalEncoding lane bits s) :=
  .ite (hasNext_next _) (hasNext_trapOut ..)

/-! ### Every instruction -/

/-- Of the instructions other than `fret`, the arms named here test something before they end; every other arm is a next
state as it is written. -/
theorem hasNext_exec_of_ne_fret {i : Instr} (hi : i ≠ .fret) (s : State) : HasNext (exec i s) := by
  unfold exec
  cases i with
  | fret => exact absurd rfl hi
  | bmask => exact .ite (hasNext_next _) (hasNext_branchIf ..)
  | call => exact .ite (hasNext_trapOut ..) (hasNext_next _)
  | ret => exact hasNext_execRet s
  | halt | lpark => exact .whenDrained (hasNext_next _) s
  | sret => exact .needLevel (.whenDrained (hasNext_next _) s) .s s
  | ecall => exact hasNext_execEcall s
  | setw => exact hasNext_execSetw ..
  | qread => exact hasNext_execQread ..
  | lrun => exact hasNext_execLrun ..
  | csrr | csrw | csrs | csrc => exact hasNext_csrAccess ..
  | cwb | cinv | cdis => exact hasNext_rangeForm ..
  | twait | await | kick => exact .ite (hasNext_illegal ..) (hasNext_runX ..)
  | cbatch => exact .ite (hasNext_next _) (hasNext_next _)
  | wgbar => exact hasNext_execWgbar ..
  | hbar => exact hasNext_execHbar ..
  | tstat => exact hasNext_execTstat ..
  | btres | btalloc | btfork | btrel | btcow => exact .onLevels (hasNext_runX ..) _ s
  | btdemote => exact hasNext_execBtdemote ..
  | ecreate | edestroy | eaddpg | eextend | eevict | eload | kimport => exact .onLevels (hasNext_runX ..) _ s
  | kerase => exact .onLevels (.ite (hasNext_trapOut ..) (hasNext_next _)) _ s
  | potq => exact .onLevels (hasNext_next _) _ s
  | eresume => exact hasNext_execEresume ..
  | savev => exact hasNext_execSavev ..
  | restv => exact .onLevels (.ite (hasNext_illegal ..) (hasNext_runX ..)) _ s
  | sdone => exact hasNext_execSdone ..
  | vadd | vsub | vmul | vmulh | vmin | vmax | vand | vor | vxor | vshl | vshr | vsra | vbfi => exact hasNext_laneInt2 ..
  | vbfx | vabs | vnot | vclz | vpopc => exact hasNext_laneInt1 ..
  | vimm | vtid | vtidWg | vaff => exact hasNext_laneGen ..
  | fadd | fsub | fmul | fmin | fmax | fdiv | fscale => exact hasNext_laneFloat2 ..
  | fabs | fneg | fclass | frcp | frsq | fsqrt | fexp2 | flog2 | ftanh => exact hasNext_laneFloat1 ..
  | mand | mor | mxor | mnot | mmov => exact hasNext_maskForm ..
  | rshuf | rshift | rbcast | gperm => exact hasNext_moveForm ..
  | rscan | gscan => exact hasNext_scanForm ..
  | vmad | vsel | vneg | vmov | vcmp | ffma | fcmp | cvt | npack | nunpack | vdot | vdoth | mcnt | mfirst | mfrom | rred
  | rredQ | gred | gbcast | gredQ => exact hasNext_issueLane ..
  | vld | vldx | vlds => exact hasNext_loadLanes ..
  | vst | vstx => exact hasNext_storeLanes ..
  | vatom | vred => exact hasNext_atomicLanes ..
  | acpy => exact hasNext_laneMemory ..
  | blockMoveCopyLanded => exact hasNext_execBlockMoveCopyLanded ..
  | blockMoveSwing => exact hasNext_execBlockMoveSwing ..
  | illegalEncoding => exact hasNext_execIllegalEncoding ..
  | _ => exact hasNext_next _

/-- `fret` replays a lane instruction by the meaning that `exec` gives it (R121). -/
theorem laneMeaning_eq_exec {i : Instr} {k : State → Out} (h : laneMeaning i = some k) : k = exec i := by
  cases i <;> cases h <;> rfl

theorem hasNext_replayLane (s : State) (r : Except (BitVec 96) Instr) (t : State) : HasNext (replayLane s r t) := by
  unfold replayLane
  split
  · exact .outEnd (hasNext_next _) s
  · next i =>
    split
    · next k hk =>
      have hi : i ≠ .fret := by rintro rfl; cases hk
      rw [laneMeaning_eq_exec hk]
      exact .outEnd (hasNext_exec_of_ne_fret hi t) s
    · exact hasNext_next _

theorem hasNext_execFret (s : State) : HasNext (execFret s) := by
  refine .needLevel (.ite (hasNext_illegal ..) (.whenDrained ?_ s)) .s s
  dsimp only
  split
  · exact hasNext_replayLane ..
  · exact .outEnd (hasNext_next _) s
  · exact hasNext_next _

/-- Every instruction and every step of the part ends in a next state. -/
theorem hasNext_exec (i : Instr) (s : State) : HasNext (exec i s) := by
  by_cases hi : i = .fret
  · subst hi
    exact hasNext_execFret s
  · exact hasNext_exec_of_ne_fret hi s

end Sys2Proof.Machine
end

section
/-! ## A turn, and the turn that the part takes where the schedule names none (R270; log 4) -/
namespace Sys2Proof.Machine

/-! ### A turn runs, or no agent can take it -/

theorem hasNext_runScalar (s : State) : HasNext (runScalar s) := by
  unfold runScalar
  split
  · exact hasNext_exec ..
  · exact hasNext_execIllegalEncoding ..
  · exact hasNext_next _

theorem hasNext_runLane (s : State) : HasNext (runLane s) := by
  unfold runLane
  split
  · exact hasNext_next _
  · split
    · exact hasNext_exec ..
    · exact hasNext_execIllegalEncoding ..
    · exact hasNext_next _
    · exact hasNext_next _

/-- The agent that a turn names stands in the acting place, its slot picks it, and its scalar stream can issue. -/
def State.takesScalar (s : State) (id : Nat) (late : List Nat) : Prop :=
  s.cur.id = id ∧ s.canScalar s.cur = true ∧ s.picks late = true

/-- The same of a turn of the lane stream. -/
def State.takesLane (s : State) (id : Nat) (late : List Nat) : Prop :=
  s.cur.id = id ∧ s.canLane s.cur = true ∧ s.picks late = true

theorem takeTurn_scalar_of_takes {s : State} {id : Nat} {late : List Nat}
    (h : (s.noteReady.focus id).takesScalar id late) :
    takeTurn (.scalar id late) s = runScalar (s.noteReady.focus id) := by
  obtain ⟨hid, hcan, hpick⟩ := h
  simp [takeTurn, hid, hcan, hpick]

theorem takeTurn_lane_of_takes {s : State} {id : Nat} {late : List Nat} (h : (s.noteReady.focus id).takesLane id late) :
    takeTurn (.lane id late) s = runLane (s.noteReady.focus id) := by
  obtain ⟨hid, hcan, hpick⟩ := h
  simp [takeTurn, hid, hcan, hpick]

theorem takeTurn_event {i : Instr} (h : isEvent i = true) (s : State) : takeTurn (.event i) s = exec i s := if_pos h

theorem takeTurn_cases (t : Turn) (s : State) : HasNext (takeTurn t s) ∨ takeTurn t s = .fault .badTurn := by
  unfold takeTurn
  cases t with
  | scalar id late =>
    dsimp only
    split
    · exact .inl (hasNext_runScalar _)
    · exact .inr rfl
  | lane id late =>
    dsimp only
    split
    · exact .inl (hasNext_runLane _)
    · exact .inr rfl
  | event i =>
    dsimp only
    split
    · exact .inl (hasNext_exec i s)
    · exact .inr rfl

/-! ### The step, by what the schedule says -/

theorem step_of_turn {s : State} {t : Turn} {ts : List Turn} (h : s.turns = t :: ts) :
    step s = takeTurn t { s with turns := ts } := by
  unfold step
  rw [h]

theorem step_of_ownTurn {s : State} {t : Turn} (h : s.turns = []) (ht : s.noteReady.ownTurn = some t) :
    step s = takeTurn t s := by
  unfold step
  rw [h]
  dsimp only
  rw [ht]

theorem step_of_no_turn {s : State} (h : s.turns = []) (ht : s.noteReady.ownTurn = none) : step s = .next s.noteReady := by
  unfold step
  rw [h]
  dsimp only
  rw [ht]

theorem step_cases (s : State) : HasNext (step s) ∨ step s = .fault .badTurn := by
  cases h : s.turns with
  | cons t ts =>
    rw [step_of_turn h]
    exact takeTurn_cases ..
  | nil =>
    cases ht : s.noteReady.ownTurn with
    | none =>
      rw [step_of_no_turn h ht]
      exact .inl (hasNext_next _)
    | some t =>
      rw [step_of_ownTurn h ht]
      exact takeTurn_cases ..

/-! ### The best of a list by a strict order

A slot's pick is the best of its agents by an order that tells any two of them apart. So it depends on which agents the slot
has, and not on the places in which they stand. -/

/-- No two agents of a list share an id. -/
def DistinctIds (l : List Agent) : Prop := ∀ a ∈ l, ∀ b ∈ l, a.id = b.id → a = b

theorem distinctIds_of_nodup {l : List Agent} (h : (l.map fun a => a.id).Nodup) : DistinctIds l := by
  induction l with
  | nil => intro a ha; exact absurd ha List.not_mem_nil
  | cons c l ih =>
    rw [List.map_cons, List.nodup_cons] at h
    obtain ⟨hc, hl⟩ := h
    intro a ha b hb hab
    rcases List.mem_cons.mp ha with hac | hal <;> rcases List.mem_cons.mp hb with hbc | hbl
    · exact hac.trans hbc.symm
    · exact absurd (List.mem_map.mpr ⟨b, hbl, by rw [← hab, hac]⟩) hc
    · exact absurd (List.mem_map.mpr ⟨a, hal, by rw [hab, hbc]⟩) hc
    · exact ih hl a hal b hbl hab

theorem DistinctIds.subset {l l' : List Agent} (h : DistinctIds l) (hl : ∀ a ∈ l', a ∈ l) : DistinctIds l' :=
  fun a ha b hb => h a (hl a ha) b (hl b hb)

/-- A relation that puts any two agents of different ids in one order. -/
structure OrdersByIds (before : Agent → Agent → Bool) : Prop where
  asymm : ∀ {a b}, before a b = true → before b a = false
  trans : ∀ {a b c}, before a b = true → before b c = true → before a c = true
  total : ∀ {a b : Agent}, a.id ≠ b.id → before a b = true ∨ before b a = true

section BestOf
variable {before : Agent → Agent → Bool}

theorem bestOf_singleton (a : Agent) : bestOf before [a] = some a := rfl

/-- Of the first two agents only the better one is left to meet the rest. -/
theorem bestOf_cons_cons (a b : Agent) (l : List Agent) :
    bestOf before (a :: b :: l) = bestOf before ((if before b a then b else a) :: l) := by
  by_cases h : before b a = true <;> simp only [bestOf, List.foldl_cons, h, if_true, Bool.false_eq_true, if_false]

theorem exists_bestOf_cons (a : Agent) (l : List Agent) : ∃ c, bestOf before (a :: l) = some c := by
  induction l generalizing a with
  | nil => exact ⟨a, bestOf_singleton a⟩
  | cons b l ih =>
    rw [bestOf_cons_cons]
    exact ih _

theorem bestOf_eq_none_iff (l : List Agent) : bestOf before l = none ↔ l = [] := by
  cases l with
  | nil => exact ⟨fun _ => rfl, fun _ => rfl⟩
  | cons a l =>
    obtain ⟨c, hc⟩ := exists_bestOf_cons (before := before) a l
    rw [hc]
    exact ⟨fun h => (by cases h), fun h => by cases h⟩

theorem mem_of_bestOf_cons {a : Agent} {l : List Agent} {c : Agent} (h : bestOf before (a :: l) = some c) :
    c ∈ a :: l := by
  induction l generalizing a with
  | nil => exact List.mem_singleton.mpr (Option.some.inj h).symm
  | cons b l ih =>
    rw [bestOf_cons_cons] at h
    rcases List.mem_cons.mp (ih h) with rfl | hc
    · split
      · exact List.mem_cons_of_mem _ List.mem_cons_self
      · exact List.mem_cons_self
    · exact List.mem_cons_of_mem _ (List.mem_cons_of_mem _ hc)

theorem mem_of_bestOf {l : List Agent} {c : Agent} (h : bestOf before l = some c) : c ∈ l := by
  cases l with
  | nil => cases h
  | cons a l => exact mem_of_bestOf_cons h

/-- Of two agents, the worse one comes after any agent that the better one is, or comes after. -/
theorem OrdersByIds.before_worse (ho : OrdersByIds before) {a b c x : Agent} (hab : a.id = b.id → a = b)
    (hx : x = a ∨ x = b) (hne : x ≠ c)
    (hc : (if before b a then b else a) ≠ c → before c (if before b a then b else a) = true) : before c x = true := by
  have hworse : x ≠ (if before b a then b else a) → before (if before b a then b else a) x = true := by
    split
    · next h =>
      intro hxb
      obtain rfl := hx.resolve_right hxb
      exact h
    · next h =>
      intro hxa
      obtain rfl := hx.resolve_left hxa
      exact (ho.total fun hid => hxa (hab hid).symm).resolve_right h
  by_cases hm : x = (if before b a then b else a)
  · rw [← hm] at hc
    exact hc hne
  · by_cases hcm : (if before b a then b else a) = c
    · rw [← hcm]
      exact hworse hm
    · exact ho.trans (hc hcm) (hworse hm)

theorem bestOf_cons_before_others (ho : OrdersByIds before) {a : Agent} {l : List Agent} (hl : DistinctIds (a :: l))
    {c : Agent} (h : bestOf before (a :: l) = some c) : ∀ x ∈ a :: l, x ≠ c → before c x = true := by
  induction l generalizing a with
  | nil =>
    intro x hx hne
    exact absurd ((List.mem_singleton.mp hx).trans (Option.some.inj h)) hne
  | cons b l ih =>
    rw [bestOf_cons_cons] at h
    have hm : (if before b a then b else a) ∈ a :: b :: l := by
      split
      · exact List.mem_cons_of_mem _ List.mem_cons_self
      · exact List.mem_cons_self
    have hbest := ih (hl.subset fun x hx => (List.mem_cons.mp hx).elim (fun he => he ▸ hm)
      fun hx => List.mem_cons_of_mem _ (List.mem_cons_of_mem _ hx)) h
    have hab := hl a List.mem_cons_self b (List.mem_cons_of_mem _ List.mem_cons_self)
    intro x hx hne
    rcases List.mem_cons.mp hx with hxa | hx
    · exact ho.before_worse hab (.inl hxa) hne (hbest _ List.mem_cons_self)
    · rcases List.mem_cons.mp hx with hxb | hx
      · exact ho.before_worse hab (.inr hxb) hne (hbest _ List.mem_cons_self)
      · exact hbest x (List.mem_cons_of_mem _ hx) hne

theorem bestOf_before_others (ho : OrdersByIds before) {l : List Agent} (hl : DistinctIds l) {c : Agent}
    (h : bestOf before l = some c) : ∀ x ∈ l, x ≠ c → before c x = true := by
  cases l with
  | nil => cases h
  | cons a l => exact bestOf_cons_before_others ho hl h

theorem bestOf_congr_mem (ho : OrdersByIds before) {l l' : List Agent} (hl : DistinctIds l)
    (hmem : ∀ a, a ∈ l' ↔ a ∈ l) : bestOf before l' = bestOf before l := by
  cases h : bestOf before l with
  | none =>
    obtain rfl := (bestOf_eq_none_iff l).mp h
    exact (bestOf_eq_none_iff l').mpr (List.eq_nil_iff_forall_not_mem.mpr fun a ha => List.not_mem_nil ((hmem a).mp ha))
  | some a =>
    have ha : a ∈ l' := (hmem a).mpr (mem_of_bestOf h)
    cases h' : bestOf before l' with
    | none => exact absurd ((bestOf_eq_none_iff l').mp h') (List.ne_nil_of_mem ha)
    | some a' =>
      refine congrArg some (Classical.byContradiction fun hne : a' ≠ a => ?_)
      have h1 := bestOf_before_others ho hl h a' ((hmem a').mp (mem_of_bestOf h')) hne
      have h2 := bestOf_before_others ho (hl.subset fun x hx => (hmem x).mp hx) h' a ha (Ne.symm hne)
      exact Bool.false_ne_true ((ho.asymm h1).symm.trans h2)

end BestOf

/-! ### The two orders of a pick -/

/-- The order of the agents' last issues, the latest first. -/
def issuedAfter (b a : Agent) : Bool :=
  decide (a.sched.lastIssue < b.sched.lastIssue) || (a.sched.lastIssue == b.sched.lastIssue && decide (b.id < a.id))

theorem issuedAfter_iff (b a : Agent) : issuedAfter b a = true ↔
    a.sched.lastIssue < b.sched.lastIssue ∨ (a.sched.lastIssue = b.sched.lastIssue ∧ b.id < a.id) := by
  simp [issuedAfter]

theorem issuedAfter_orders : OrdersByIds issuedAfter where
  asymm h := by
    rw [Bool.eq_false_iff, Ne, issuedAfter_iff]
    rw [issuedAfter_iff] at h
    omega
  trans h1 h2 := by
    rw [issuedAfter_iff] at h1 h2 ⊢
    omega
  total h := by
    rw [issuedAfter_iff, issuedAfter_iff]
    omega

/-- R270 said over numbers: aged first, then by PRI, by time, and round-robin from the last issuer on. -/
theorem outranks_iff (last : Nat) (b a : Agent) : outranks last b a = true ↔
    a.sched.aged.toNat < b.sched.aged.toNat ∨ (b.sched.aged.toNat = a.sched.aged.toNat ∧
    (a.sched.pri < b.sched.pri ∨ (b.sched.pri = a.sched.pri ∧
    (b.waitsFrom < a.waitsFrom ∨ (b.waitsFrom = a.waitsFrom ∧
    ((a.id ≤ last ∧ last < b.id) ∨ ((b.id ≤ last ↔ a.id ≤ last) ∧ b.id < a.id))))))) := by
  unfold outranks
  split
  · next haged => cases ha : a.sched.aged <;> cases hb : b.sched.aged <;> simp_all
  · next haged =>
    have haged : b.sched.aged = a.sched.aged := by simpa using haged
    rw [haged]
    split
    · next hpri => simp [hpri]
    · next hpri =>
      split
      · next hfrom => simp [Decidable.not_not.mp hpri, hfrom]
      · next hfrom =>
        simp only [Decidable.not_not.mp hpri, Decidable.not_not.mp hfrom, Nat.lt_irrefl, true_and, false_or]
        split
        · next hwrap =>
          rw [bne_iff_ne, Ne, decide_eq_decide] at hwrap
          rw [decide_eq_true_iff]
          omega
        · next hwrap =>
          rw [bne_iff_ne, Ne, decide_eq_decide, Decidable.not_not] at hwrap
          rw [decide_eq_true_iff]
          omega

theorem outranks_orders (last : Nat) : OrdersByIds (outranks last) where
  asymm h := by
    rw [Bool.eq_false_iff, Ne, outranks_iff]
    rw [outranks_iff] at h
    omega
  trans h1 h2 := by
    rw [outranks_iff] at h1 h2 ⊢
    omega
  total h := by
    rw [outranks_iff, outranks_iff]
    omega

end Sys2Proof.Machine
end

section
/-! ## The part's own turn can always be taken (R270; log 4) -/
namespace Sys2Proof.Machine

/-! ### Slots -/

/-- The agent in the acting place, which may be absent, and the others. -/
def State.places (s : State) : List Agent := s.cur :: s.others

/-- The agents that issue from the slot of `a`. -/
def State.slot (s : State) (a : Agent) : List Agent := s.places.filter (sameSlot a)

/-- The agent of the slot of `a` that has issued last, or 0. -/
def State.lastIssuer (s : State) (a : Agent) : Nat :=
  match bestOf issuedAfter ((s.slot a).filter fun b => decide (b.sched.lastIssue ≠ 0)) with
  | some x => x.id
  | none => 0

theorem slotPick_eq (s : State) (late : List Nat) (a : Agent) : s.slotPick late a =
    bestOf (outranks (s.lastIssuer a)) ((s.slot a).filter fun b => s.isReady b && !late.contains b.id) := rfl

theorem mem_slot (s : State) (a x : Agent) : x ∈ s.slot a ↔ x ∈ s.places ∧ sameSlot a x = true := List.mem_filter

theorem sameSlot_iff (a b : Agent) : sameSlot a b = true ↔ a.id = b.id ∨
    (a.kind = .group ∧ b.kind = .group ∧ a.die = b.die ∧ a.core = b.core ∧ a.sched.slot = b.sched.slot) := by
  simp [sameSlot, and_assoc]

theorem sameSlot_symm {a b : Agent} (h : sameSlot a b = true) : sameSlot b a = true := by
  rw [sameSlot_iff] at h ⊢
  rcases h with h | ⟨ha, hb, hdie, hcore, hslot⟩
  · exact .inl h.symm
  · exact .inr ⟨hb, ha, hdie.symm, hcore.symm, hslot.symm⟩

theorem sameSlot_trans {l : List Agent} (hl : DistinctIds l) {a b c : Agent} (ha : a ∈ l) (hb : b ∈ l) (hc : c ∈ l)
    (hab : sameSlot a b = true) (hbc : sameSlot b c = true) : sameSlot a c = true := by
  rcases (sameSlot_iff a b).mp hab with h | ⟨hka, -, hdie, hcore, hslot⟩
  · obtain rfl := hl a ha b hb h
    exact hbc
  · rcases (sameSlot_iff b c).mp hbc with h | ⟨-, hkc, hdie', hcore', hslot'⟩
    · obtain rfl := hl b hb c hc h
      exact hab
    · exact (sameSlot_iff a c).mpr (.inr ⟨hka, hkc, hdie.trans hdie', hcore.trans hcore', hslot.trans hslot'⟩)

/-- A pick rests on which agents the slot has and which of them are ready, not on where they stand. -/
theorem slotPick_congr {s t : State} {a b : Agent} (hs : DistinctIds s.places) (hslot : ∀ x, x ∈ t.slot b ↔ x ∈ s.slot a)
    (hready : ∀ x, t.isReady x = s.isReady x) (late : List Nat) : t.slotPick late b = s.slotPick late a := by
  have hd (p : Agent → Bool) : DistinctIds ((s.slot a).filter p) :=
    hs.subset fun x hx => ((mem_slot s a x).mp (List.mem_filter.mp hx).1).1
  have hlast : t.lastIssuer b = s.lastIssuer a := by
    unfold State.lastIssuer
    rw [bestOf_congr_mem issuedAfter_orders (hd fun x => decide (x.sched.lastIssue ≠ 0))
      fun x => by simp only [List.mem_filter, hslot]]
  rw [slotPick_eq, slotPick_eq, hlast]
  exact bestOf_congr_mem (outranks_orders _) (hd _) fun x => by simp only [List.mem_filter, hslot, hready]

theorem slotPick_some {s : State} {late : List Nat} {a b : Agent} (h : s.slotPick late b = some a) :
    a ∈ s.slot b ∧ s.isReady a = true := by
  rw [slotPick_eq] at h
  have ha := mem_of_bestOf h
  rw [List.mem_filter, Bool.and_eq_true] at ha
  exact ⟨ha.1, ha.2.1⟩

theorem pick_some {s : State} {a : Agent} (h : s.pick = some a) : ∃ b ∈ s.places, s.slotPick [] b = some a := by
  unfold State.pick at h
  obtain ⟨b, hb, hpick⟩ := Option.bind_eq_some_iff.mp h
  exact ⟨b, (List.mem_filter.mp (mem_of_bestOf hb)).1, hpick⟩

/-! ### What stays when another agent comes to act -/

theorem focus_canScalar (s : State) (id : Nat) (a : Agent) : (s.focus id).canScalar a = s.canScalar a := by
  unfold State.focus
  split
  · rfl
  · split <;> rfl

theorem focus_canLane (s : State) (id : Nat) (a : Agent) : (s.focus id).canLane a = s.canLane a := by
  unfold State.focus
  split
  · rfl
  · split <;> rfl

theorem focus_isReady (s : State) (id : Nat) (a : Agent) : (s.focus id).isReady a = s.isReady a := by
  unfold State.isReady
  rw [focus_canScalar, focus_canLane]

/-- An agent of the part comes to act, either because it stands in the acting place or out of the others. -/
theorem focus_of_mem {s : State} (hs : DistinctIds s.places) {a : Agent} (ha : a ∈ s.places) :
    (s.cur = a ∧ s.focus a.id = s) ∨
    (a ∈ s.others ∧ s.focus a.id = { s with cur := a, others := s.cur :: s.others.filter (·.id != a.id) }) := by
  unfold State.focus
  split
  · next hid => exact .inl ⟨hs _ List.mem_cons_self a ha hid, rfl⟩
  · next hid =>
    have hao : a ∈ s.others := (List.mem_cons.mp ha).resolve_left fun he => hid (congrArg Agent.id he.symm)
    split
    · next hnone => exact absurd (List.find?_eq_none.mp hnone a hao) (by simp)
    · next b hb =>
      have hbid : b.id = a.id := by simpa using List.find?_some hb
      obtain rfl := hs b (List.mem_cons_of_mem _ (List.mem_of_find?_eq_some hb)) a ha hbid
      exact .inr ⟨hao, rfl⟩

theorem focus_cur_of_mem {s : State} (hs : DistinctIds s.places) {a : Agent} (ha : a ∈ s.places) :
    (s.focus a.id).cur = a := by
  rcases focus_of_mem hs ha with ⟨hcur, he⟩ | ⟨-, he⟩
  · rw [he, hcur]
  · rw [he]

theorem mem_places_focus {s : State} (hs : DistinctIds s.places) {a : Agent} (ha : a ∈ s.places) (x : Agent) :
    x ∈ (s.focus a.id).places ↔ x ∈ s.places := by
  rcases focus_of_mem hs ha with ⟨-, he⟩ | ⟨hao, he⟩
  · rw [he]
  · rw [he]
    simp only [State.places, List.mem_cons, List.mem_filter, bne_iff_ne]
    constructor
    · rintro (rfl | rfl | ⟨hx, -⟩)
      · exact .inr hao
      · exact .inl rfl
      · exact .inr hx
    · rintro (rfl | hx)
      · exact .inr (.inl rfl)
      · by_cases hid : x.id = a.id
        · exact .inl (hs x (List.mem_cons_of_mem _ hx) a ha hid)
        · exact .inr (.inr ⟨hx, hid⟩)

/-- The agent that a slot picks is the pick of its slot when it has come to act. -/
theorem picks_focus_of_slotPick {s : State} (hs : DistinctIds s.places) {late : List Nat} {a b : Agent} (hb : b ∈ s.places)
    (h : s.slotPick late b = some a) : (s.focus a.id).picks late = true := by
  obtain ⟨ha, hba⟩ := (mem_slot s b a).mp (slotPick_some h).1
  have hslot (x : Agent) : x ∈ (s.focus a.id).slot a ↔ x ∈ s.slot b := by
    rw [mem_slot, mem_slot, mem_places_focus hs ha]
    exact and_congr_right fun hx =>
      ⟨sameSlot_trans hs hb ha hx hba, sameSlot_trans hs ha hb hx (sameSlot_symm hba)⟩
  unfold State.picks
  rw [focus_cur_of_mem hs ha, slotPick_congr hs hslot (focus_isReady s a.id), h]
  simp

/-! ### The own turn -/

theorem noted_id (s : State) (a : Agent) : (s.noted a).id = a.id := by
  unfold State.noted
  split
  · split <;> rfl
  · rfl

theorem noteReady_ids (s : State) : (s.noteReady.places.map fun a => a.id) = s.places.map fun a => a.id := by
  simp [State.noteReady, State.mapAgents, State.places, noted_id]

/-- The part's own turn names the agent that a slot picks, for the stream of it that can issue, or it is a step of the part. -/
theorem ownTurn_cases {s : State} (hs : DistinctIds s.places) {t : Turn} (h : s.ownTurn = some t) :
    (∃ id, t = .scalar id [] ∧ (s.focus id).takesScalar id []) ∨ (∃ id, t = .lane id [] ∧ (s.focus id).takesLane id []) ∨
    (∃ i, t = .event i ∧ isEvent i = true) := by
  unfold State.ownTurn at h
  split at h
  · next a hpick =>
    obtain ⟨b, hb, hslot⟩ := pick_some hpick
    obtain ⟨hab, hready⟩ := slotPick_some hslot
    have hcur := focus_cur_of_mem hs ((mem_slot s b a).mp hab).1
    have hid : (s.focus a.id).cur.id = a.id := by rw [hcur]
    have hpicks := picks_focus_of_slotPick hs hb hslot
    obtain rfl := Option.some.inj h
    split
    · next hcan => exact .inl ⟨a.id, rfl, hid, by rw [hcur, focus_canScalar, hcan], hpicks⟩
    · next hcan =>
      have hlane : s.canLane a = true := ((Bool.or_eq_true _ _).mp hready).resolve_left hcan
      exact .inr (.inl ⟨a.id, rfl, hid, by rw [hcur, focus_canLane, hlane], hpicks⟩)
  · split at h
    · exact .inr (.inr ⟨_, (Option.some.inj h).symm, rfl⟩)
    · split at h
      · exact .inr (.inr ⟨_, (Option.some.inj h).symm, rfl⟩)
      · cases h

theorem hasNext_step_of_no_turns {s : State} (h : s.turns = []) (hs : (s.places.map fun a => a.id).Nodup) :
    HasNext (step s) := by
  have hd : DistinctIds s.noteReady.places := distinctIds_of_nodup (by rw [noteReady_ids]; exact hs)
  cases ht : s.noteReady.ownTurn with
  | none =>
    rw [step_of_no_turn h ht]
    exact hasNext_next _
  | some t =>
    rw [step_of_ownTurn h ht]
    rcases ownTurn_cases hd ht with ⟨id, rfl, htakes⟩ | ⟨id, rfl, htakes⟩ | ⟨i, rfl, hi⟩
    · rw [takeTurn_scalar_of_takes htakes]
      exact hasNext_runScalar _
    · rw [takeTurn_lane_of_takes htakes]
      exact hasNext_runLane _
    · rw [takeTurn_event hi]
      exact hasNext_exec i s

/-- Settles O53: no arm of `exec` refuses or stops, and without a schedule the part takes a turn that an agent can take, since
the pick of a slot does not change when the agent picked comes to act. -/
theorem everyInstructionSteps : Obligations.EveryInstructionSteps :=
  ⟨hasNext_exec, fun _ h hs => hasNext_step_of_no_turns h hs, step_cases⟩

end Sys2Proof.Machine
end

section
/-! ## A scalar result: what it writes and what it leaves (R88; 01 Table 1.4) -/
namespace Sys2Proof.Machine

theorem State.write_rs (s : State) (d r : BitVec 6) (x : Word) :
    (s.write d x).cur.rs r = if r = d ∧ d ≠ 0 then x else s.cur.rs r := by
  rw [State.write_cur, Agent.rs_advance, Agent.rs_setS]

/-- A write of sD reaches the scalar file and the program counter of the acting agent, and nothing else. -/
theorem State.write_frame (s : State) (d : BitVec 6) (x : Word) :
    s.write d x = { s with cur := { s.cur with
      pc := s.cur.pc + 4
      regs := { s.cur.regs with s := (s.write d x).cur.regs.s } } } := by
  by_cases hd : d = 0
  · subst hd
    rfl
  · unfold State.write
    rw [funext fun a => congrArg Agent.advance (Agent.setS_of_ne hd x (a := a))]
    rfl

/-- Settles O1: the frame of `State.write`, with the value of each scalar register after it. -/
theorem resultWriteFrame : Obligations.ResultWriteFrame := fun s d x =>
  ⟨by simp, fun r => State.write_rs s d r x, State.write_frame s d x⟩

end Sys2Proof.Machine
end

section
/-! ## Scalar arithmetic over integers, bits and counts (R92 to R101) -/
namespace Sys2Proof.Machine

/-! ### Integer arithmetic (R92) -/

theorem add_eq_ofInt (x y : Word) : x + y = BitVec.ofInt 64 (x.toInt + y.toInt) := by
  rw [BitVec.ofInt_add, BitVec.ofInt_toInt, BitVec.ofInt_toInt]

theorem sub_eq_ofInt (x y : Word) : x - y = BitVec.ofInt 64 (x.toInt - y.toInt) := by
  rw [Int.sub_eq_add_neg, BitVec.ofInt_add, BitVec.ofInt_neg, BitVec.ofInt_toInt, BitVec.ofInt_toInt, BitVec.sub_eq_add_neg]

theorem mul_eq_ofInt (x y : Word) : x * y = BitVec.ofInt 64 (x.toInt * y.toInt) := by
  rw [BitVec.ofInt_mul, BitVec.ofInt_toInt, BitVec.ofInt_toInt]

/-- Bits [127:64] of an integer are those of its floor quotient by 2^64, whatever its sign. -/
theorem extractLsb'_ofInt_high (p : Int) :
    (BitVec.ofInt 128 p).extractLsb' 64 64 = BitVec.ofInt 64 (p / 2 ^ 64) := by
  apply BitVec.eq_of_toNat_eq
  rw [BitVec.extractLsb'_toNat, BitVec.toNat_ofInt, BitVec.toNat_ofInt, Nat.shiftRight_eq_div_pow]
  omega

theorem mulHigh_signExtend (x y : Word) :
    mulHigh (x.signExtend 128) (y.signExtend 128) = BitVec.ofInt 64 (x.toInt * y.toInt / 2 ^ 64) := by
  have hx (z : Word) : z.signExtend 128 = BitVec.ofInt 128 z.toInt := rfl
  rw [mulHigh, hx, hx, ← BitVec.ofInt_mul, extractLsb'_ofInt_high]

theorem mulHigh_setWidth (x y : Word) :
    mulHigh (x.setWidth 128) (y.setWidth 128) = BitVec.ofNat 64 (x.toNat * y.toNat / 2 ^ 64) := by
  have hx (z : Word) : z.setWidth 128 = BitVec.ofInt 128 z.toNat := by
    rw [BitVec.ofInt_natCast, BitVec.ofNat_toNat]
  rw [mulHigh, hx, hx, ← BitVec.ofInt_mul, extractLsb'_ofInt_high, ← BitVec.ofInt_natCast]
  rw [Int.natCast_ediv, Int.natCast_mul]
  rfl

/-! ### Division (R93) -/

theorem divSigned_eq (x y : Word) :
    divSigned x y = if y.toNat = 0 then 0xFFFFFFFFFFFFFFFF else BitVec.ofInt 64 (x.toInt.tdiv y.toInt) := by
  have h : x.sdiv y = BitVec.ofInt 64 (x.toInt.tdiv y.toInt) :=
    BitVec.eq_of_toInt_eq (by rw [BitVec.toInt_sdiv, BitVec.toInt_ofInt])
  have hy : y = 0 ↔ y.toNat = 0 := BitVec.toNat_eq
  simp only [divSigned, hy, h]
  rfl

theorem divUnsigned_eq (x y : Word) :
    divUnsigned x y = if y.toNat = 0 then 0xFFFFFFFFFFFFFFFF else BitVec.ofNat 64 (x.toNat / y.toNat) := by
  have h : x / y = BitVec.ofNat 64 (x.toNat / y.toNat)  := by
    rw [← BitVec.toNat_udiv, BitVec.ofNat_toNat, BitVec.setWidth_eq]
  have hy : y = 0 ↔ y.toNat = 0 := BitVec.toNat_eq
  simp only [divUnsigned, hy, h]
  rfl

theorem remSigned_eq (x y : Word) :
    remSigned x y = if y.toNat = 0 then x else BitVec.ofInt 64 (x.toInt.tmod y.toInt) := by
  have h : x.srem y = BitVec.ofInt 64 (x.toInt.tmod y.toInt) := by
    rw [← BitVec.toInt_srem, BitVec.ofInt_toInt]
  have hy : y = 0 ↔ y.toNat = 0 := BitVec.toNat_eq
  simp only [remSigned, hy, h]

theorem remUnsigned_eq (x y : Word) :
    remUnsigned x y = if y.toNat = 0 then x else BitVec.ofNat 64 (x.toNat % y.toNat) := by
  have h : x % y = BitVec.ofNat 64 (x.toNat % y.toNat) := by
    rw [← BitVec.toNat_umod, BitVec.ofNat_toNat, BitVec.setWidth_eq]
  have hy : y = 0 ↔ y.toNat = 0 := BitVec.toNat_eq
  simp only [remUnsigned, hy, h]

/-! ### Minimum and maximum -/

theorem ite_slt_eq_min (x y : Word) : (if x.slt y then x else y) = BitVec.ofInt 64 (min x.toInt y.toInt) := by
  rw [BitVec.slt_eq_decide]
  rcases Int.lt_or_le x.toInt y.toInt with h | h
  · rw [Int.min_eq_left (Int.le_of_lt h), BitVec.ofInt_toInt, if_pos (decide_eq_true h)]
  · rw [Int.min_eq_right h, BitVec.ofInt_toInt, if_neg (mt of_decide_eq_true (Int.not_lt.mpr h))]

theorem ite_slt_eq_max (x y : Word) : (if x.slt y then y else x) = BitVec.ofInt 64 (max x.toInt y.toInt) := by
  rw [BitVec.slt_eq_decide]
  rcases Int.lt_or_le x.toInt y.toInt with h | h
  · rw [Int.max_eq_right (Int.le_of_lt h), BitVec.ofInt_toInt, if_pos (decide_eq_true h)]
  · rw [Int.max_eq_left h, BitVec.ofInt_toInt, if_neg (mt of_decide_eq_true (Int.not_lt.mpr h))]

theorem ite_ult_eq_min (x y : Word) : (if x.ult y then x else y) = BitVec.ofNat 64 (min x.toNat y.toNat) := by
  rw [BitVec.ult]
  rcases Nat.lt_or_ge x.toNat y.toNat with h | h
  · rw [Nat.min_eq_left (Nat.le_of_lt h), BitVec.ofNat_toNat, BitVec.setWidth_eq, if_pos (decide_eq_true h)]
  · rw [Nat.min_eq_right h, BitVec.ofNat_toNat, BitVec.setWidth_eq, if_neg (mt of_decide_eq_true (Nat.not_lt.mpr h))]

theorem ite_ult_eq_max (x y : Word) : (if x.ult y then y else x) = BitVec.ofNat 64 (max x.toNat y.toNat) := by
  rw [BitVec.ult]
  rcases Nat.lt_or_ge x.toNat y.toNat with h | h
  · rw [Nat.max_eq_right (Nat.le_of_lt h), BitVec.ofNat_toNat, BitVec.setWidth_eq, if_pos (decide_eq_true h)]
  · rw [Nat.max_eq_left h, BitVec.ofNat_toNat, BitVec.setWidth_eq, if_neg (mt of_decide_eq_true (Nat.not_lt.mpr h))]

/-! ### Shifts (R97) -/

theorem shiftLeft_eq_ofNat (x : Word) (c : Nat) : x <<< c = BitVec.ofNat 64 (x.toNat * 2 ^ c) := by
  apply BitVec.eq_of_toNat_eq
  rw [BitVec.toNat_shiftLeft, BitVec.toNat_ofNat, Nat.shiftLeft_eq]

theorem ushiftRight_eq_ofNat (x : Word) (c : Nat) : x >>> c = BitVec.ofNat 64 (x.toNat / 2 ^ c) := by
  rw [← Nat.shiftRight_eq_div_pow, ← BitVec.toNat_ushiftRight, BitVec.ofNat_toNat, BitVec.setWidth_eq]

theorem sshiftRight_eq_ofInt (x : Word) (c : Nat) : x.sshiftRight c = BitVec.ofInt 64 (x.toInt / 2 ^ c) := by
  have h : x.toInt / 2 ^ c = (x.sshiftRight c).toInt := by
    rw [BitVec.toInt_sshiftRight, Int.shiftRight_eq_div_pow, Int.natCast_pow]
    rfl
  rw [h, BitVec.ofInt_toInt]

/-- A rotation by `c` brings bit `i` to place `i + c`, modulo 64. -/
theorem getLsbD_rotateLeft_add (x : Word) {c i : Nat} (hc : c < 64) (hi : i < 64) :
    (x.rotateLeft c).getLsbD ((i + c) % 64) = x.getLsbD i := by
  rw [BitVec.getLsbD_rotateLeft, Nat.mod_eq_of_lt hc]
  by_cases h : i + c < 64
  · have hn : ¬ i + c < c := by omega
    simp [Nat.mod_eq_of_lt h, hn, h]
  · have hm : (i + c) % 64 = i + c - 64 := by omega
    have hl : i + c - 64 < c := by omega
    have hb : 64 - c + (i + c - 64) = i := by omega
    simp [hm, hl, hb]

/-! ### Absolute value and counts (R95, R98) -/

theorem abs_eq_natAbs (x : Word) : (if x.slt 0 then -x else x) = BitVec.ofNat 64 x.toInt.natAbs := by
  have hz : (0 : Word).toInt = 0 := rfl
  rw [← BitVec.ofInt_natCast, BitVec.slt_eq_decide, hz]
  by_cases h : x.toInt < 0
  · rw [if_pos (decide_eq_true h), Int.ofNat_natAbs_of_nonpos (Int.le_of_lt h), BitVec.ofInt_neg, BitVec.ofInt_toInt]
  · rw [if_neg (mt of_decide_eq_true h), Int.natAbs_of_nonneg (Int.not_lt.mp h), BitVec.ofInt_toInt]

theorem leadingZeros_le (w n : Nat) : leadingZeros w n ≤ w := by
  unfold leadingZeros
  split <;> omega

/-- Of the bits of a number below 2^w, those above the highest one bit are zero, and there are `leadingZeros w n` of them. -/
theorem testBit_of_leadingZeros {w n : Nat} (hn : n < 2 ^ w) :
    (∀ i, w - leadingZeros w n ≤ i → n.testBit i = false) ∧
    (leadingZeros w n < w → n.testBit (w - 1 - leadingZeros w n) = true) := by
  by_cases h0 : n = 0
  · subst h0
    simp [leadingZeros]
  · have hlog : n.log2 < w := (Nat.log2_lt h0).mpr hn
    have hlz : leadingZeros w n = w - 1 - n.log2 := if_neg h0
    have hplace : w - 1 - (w - 1 - n.log2) = n.log2 := by omega
    rw [hlz, hplace]
    refine ⟨fun i hi => Nat.testBit_lt_two_pow ?_, fun _ => Nat.testBit_log2 h0⟩
    exact Nat.lt_of_lt_of_le Nat.lt_log2_self (Nat.pow_le_pow_right (by decide) (by omega))

theorem trailingZeros_cases (w n : Nat) :
    (trailingZeros w n = w ∧ ∀ i < w, n.testBit i = false) ∨
    (trailingZeros w n < w ∧ n.testBit (trailingZeros w n) = true ∧ ∀ i < trailingZeros w n, n.testBit i = false) := by
  unfold trailingZeros
  cases h : (List.range w).find? n.testBit with
  | none => exact .inl ⟨rfl, by simpa using List.find?_range_eq_none.mp h⟩
  | some k =>
    obtain ⟨hk, hw, hlow⟩ := List.find?_range_eq_some.mp h
    exact .inr ⟨List.mem_range.mp hw, hk, by simpa using hlow⟩

theorem onesCount_eq_sum (w n : Nat) : onesCount w n = ((List.range w).map fun i => (n.testBit i).toNat).sum := by
  unfold onesCount
  induction List.range w with
  | nil => rfl
  | cons i l ih => cases h : n.testBit i <;> simp [h, ih, Nat.add_comm]

/-! ### Extensions (R101) -/

/-- Sign extension from `k + 1` bits repeats bit `k` above it. -/
theorem getLsbD_signExtend_setWidth (x : Word) {k i : Nat} (hi : i < 64) :
    ((x.setWidth (k + 1)).signExtend 64).getLsbD i = x.getLsbD (min i k) := by
  rw [BitVec.getLsbD_signExtend, BitVec.msb_eq_getLsbD_last, decide_eq_true hi, Bool.true_and, Nat.add_sub_cancel,
    BitVec.getLsbD_setWidth, BitVec.getLsbD_setWidth]
  by_cases h : i < k + 1
  · rw [if_pos h, decide_eq_true h, Bool.true_and, Nat.min_eq_left (Nat.le_of_lt_succ h)]
  · rw [if_neg h, decide_eq_true (Nat.lt_succ_self k), Bool.true_and, Nat.min_eq_right (by omega)]

theorem setWidth_setWidth_eq_mod (x : Word) (k : Nat) :
    (x.setWidth k).setWidth 64 = BitVec.ofNat 64 (x.toNat % 2 ^ k) := by
  rw [← BitVec.toNat_setWidth, BitVec.ofNat_toNat]

/-! ### Every register form -/

/-- Two spellings of one value are one result. -/
theorem next_write_congr {s : State} {d : BitVec 6} {x y : Word} (h : x = y) :
    (.next (s.write d x) : Out) = .next (s.write d y) := by rw [h]

theorem mod_64_lt (y : Word) : y.toNat % 64 < 64 := Nat.mod_lt _ (by decide)

theorem exec_clz (s : State) (d a : BitVec 6) :
    ∃ n, n ≤ 64 ∧ exec (.clz d a) s = .next (s.write d (BitVec.ofNat 64 n)) ∧
      (∀ i, 64 - n ≤ i → i < 64 → (s.cur.rs a).getLsbD i = false) ∧ (n < 64 → (s.cur.rs a).getLsbD (63 - n) = true) := by
  obtain ⟨hhigh, hone⟩ := testBit_of_leadingZeros (s.cur.rs a).isLt
  exact ⟨_, leadingZeros_le 64 _, rfl, fun i hi _ => hhigh i hi, hone⟩

theorem exec_ctz (s : State) (d a : BitVec 6) :
    ∃ n, n ≤ 64 ∧ exec (.ctz d a) s = .next (s.write d (BitVec.ofNat 64 n)) ∧
      (∀ i, i < n → (s.cur.rs a).getLsbD i = false) ∧ (n < 64 → (s.cur.rs a).getLsbD n = true) := by
  rcases trailingZeros_cases 64 (s.cur.rs a).toNat with ⟨hn, hzero⟩ | ⟨hn, hone, hlow⟩
  · exact ⟨_, Nat.le_of_eq hn, rfl, fun i hi => hzero i (hn ▸ hi), fun h => absurd hn (Nat.ne_of_lt h)⟩
  · exact ⟨_, Nat.le_of_lt hn, rfl, hlow, fun _ => hone⟩

/-- Settles O2: the three-register forms of Table 4.2, logic and shifts, and the unary forms, each by the law of its value. -/
theorem registerArithmeticResults : Obligations.RegisterArithmeticResults := by
  refine ⟨fun s d a b => ?_, fun s d a b => ?_, fun s d a => ?_⟩
  · exact ⟨next_write_congr (add_eq_ofInt ..), next_write_congr (sub_eq_ofInt ..), next_write_congr (mul_eq_ofInt ..),
      next_write_congr (mulHigh_signExtend ..), next_write_congr (mulHigh_setWidth ..), next_write_congr (divSigned_eq ..),
      next_write_congr (divUnsigned_eq ..), next_write_congr (remSigned_eq ..), next_write_congr (remUnsigned_eq ..),
      next_write_congr (ite_slt_eq_min ..), next_write_congr (ite_slt_eq_max ..), next_write_congr (ite_ult_eq_min ..),
      next_write_congr (ite_ult_eq_max ..)⟩
  · exact ⟨⟨_, rfl, fun _ => BitVec.getLsbD_and⟩, ⟨_, rfl, fun _ => BitVec.getLsbD_or⟩, ⟨_, rfl, fun _ => BitVec.getLsbD_xor⟩,
      next_write_congr (shiftLeft_eq_ofNat ..), next_write_congr (ushiftRight_eq_ofNat ..),
      next_write_congr (sshiftRight_eq_ofInt ..), ⟨_, rfl, fun _ => getLsbD_rotateLeft_add _ (mod_64_lt _)⟩⟩
  · exact ⟨next_write_congr (abs_eq_natAbs _), exec_clz s d a, exec_ctz s d a,
      next_write_congr (congrArg (BitVec.ofNat 64) (onesCount_eq_sum ..)), ⟨_, rfl, fun _ => getLsbD_signExtend_setWidth _⟩,
      ⟨_, rfl, fun _ => getLsbD_signExtend_setWidth _⟩, ⟨_, rfl, fun _ => getLsbD_signExtend_setWidth _⟩,
      next_write_congr (setWidth_setWidth_eq_mod ..), next_write_congr (setWidth_setWidth_eq_mod ..),
      next_write_congr (setWidth_setWidth_eq_mod ..)⟩

end Sys2Proof.Machine
end

section
/-! ## Control transfers: direct branches and the conditions they decide on (R45, R105, R106, R109) -/
namespace Sys2Proof.Machine

theorem off4_eq_ofInt {n : Nat} (o : BitVec n) : off4 o = BitVec.ofInt 64 (4 * o.toInt) := by
  rw [BitVec.ofInt_mul, BitVec.mul_comm]
  rfl

theorem branchIf_eq {n : Nat} (c : Bool) (o : BitVec n) (s : State) :
    branchIf c o s =
      .next (if c then s.withPc (s.cur.pc + BitVec.ofInt 64 (4 * o.toInt)) else s.withPc (s.cur.pc + 4)) := by
  rw [← off4_eq_ofInt]
  rfl

/-- A branch that is decided by `c` reaches what the proposition `p`, where it says the same, leads to. -/
theorem branchIf_of_iff {n : Nat} {c : Bool} {p : Prop} [Decidable p] (h : c = true ↔ p) (o : BitVec n) (s : State) :
    branchIf c o s =
      .next (if p then s.withPc (s.cur.pc + BitVec.ofInt 64 (4 * o.toInt)) else s.withPc (s.cur.pc + 4)) := by
  rw [branchIf_eq]
  simp only [h]

theorem condHolds_eq_condSense (c : Cond) (x y : Word) : condHolds c x y = condSense c x y := by
  cases c with
  | eq => exact Bool.eq_iff_iff.mpr (by simp [condHolds, condSense, BitVec.toNat_eq])
  | ne => exact Bool.eq_iff_iff.mpr (by simp [condHolds, condSense, BitVec.toNat_eq])
  | lt => exact BitVec.slt_eq_decide
  | ge => exact Bool.eq_iff_iff.mpr (by simp [condHolds, condSense, BitVec.slt_eq_decide])
  | ltn => rfl
  | gen => exact Bool.eq_iff_iff.mpr (by simp [condHolds, condSense, BitVec.ult])

theorem condImm_eq_immSense {n : Nat} (c : Cond) (i : BitVec n) : condImm c i = immSense c i := by
  have hz : i.setWidth 64 = BitVec.ofNat 64 i.toNat := (BitVec.ofNat_toNat 64 i).symm
  cases c with
  | ltn | gen => exact hz
  | eq | ne | lt | ge => rfl

theorem getLsbD_allLive (g : Nat) {t : Nat} (ht : t < 1024) : (allLive g).getLsbD t = decide (t < g) := by
  rw [allLive, BitVec.getLsbD_ofNat, decide_eq_true ht, Bool.true_and, Nat.testBit_two_pow_sub_one]

theorem live_part_eq_zero_iff (g : Nat) (m : Mask) :
    m &&& allLive g = 0 ↔ ∀ t < 1024, (decide (t < g) && m.getLsbD t) = false := by
  rw [BitVec.eq_of_getLsbD_eq_iff]
  refine forall₂_congr fun t ht => ?_
  rw [BitVec.getLsbD_and, getLsbD_allLive g ht, Bool.and_comm, BitVec.ofNat_eq_ofNat, BitVec.getLsbD_zero]

theorem live_part_eq_allLive_iff (g : Nat) (m : Mask) :
    m &&& allLive g = allLive g ↔ ∀ t < 1024, (!decide (t < g) || m.getLsbD t) = true := by
  rw [BitVec.eq_of_getLsbD_eq_iff]
  refine forall₂_congr fun t ht => ?_
  rw [BitVec.getLsbD_and, getLsbD_allLive g ht]
  cases decide (t < g) <;> simp

theorem maskCond_eq_maskSense (c : MaskCond) (g : Nat) (m : Mask) : maskCond c g m = maskSense c g m := by
  apply Bool.eq_iff_iff.mpr
  cases c with
  | any =>
    simp only [maskCond, maskSense, bne_iff_ne, ne_eq, live_part_eq_zero_iff, List.any_eq_true, List.mem_range]
    simp only [Classical.not_forall, Bool.not_eq_false, exists_prop]
  | all => simp only [maskCond, maskSense, beq_iff_eq, live_part_eq_allLive_iff, List.all_eq_true, List.mem_range]
  | none =>
    simp only [maskCond, maskSense, beq_iff_eq, live_part_eq_zero_iff, List.all_eq_true, List.mem_range, Bool.not_eq_true']

theorem branchCc_eq (c : Cond) (d a : BitVec 6) (o : BitVec 13) (s : State) :
    branchCc c d a o s = .next (if condSense c (s.cur.rs d) (s.cur.rs a) then
      s.withPc (s.cur.pc + BitVec.ofInt 64 (4 * o.toInt)) else s.withPc (s.cur.pc + 4)) := by
  rw [branchCc, branchIf_eq, condHolds_eq_condSense]

theorem exec_bz (d : BitVec 6) (o : BitVec 19) (s : State) :
    exec (.bz d o) s = .next (if (s.cur.rs d).toNat = 0 then
      s.withPc (s.cur.pc + BitVec.ofInt 64 (4 * o.toInt)) else s.withPc (s.cur.pc + 4)) :=
  branchIf_of_iff (by rw [beq_iff_eq, BitVec.toNat_eq]; rfl) o s

theorem exec_bnz (d : BitVec 6) (o : BitVec 19) (s : State) :
    exec (.bnz d o) s = .next (if (s.cur.rs d).toNat = 0 then
      s.withPc (s.cur.pc + 4) else s.withPc (s.cur.pc + BitVec.ofInt 64 (4 * o.toInt))) := by
  rw [← ite_not]
  exact branchIf_of_iff (by rw [bne_iff_ne, ne_eq, BitVec.toNat_eq]; rfl) o s

theorem sub_one_eq_zero_iff (x : Word) : x - 1 = 0 ↔ x.toNat = 1 := by
  rw [BitVec.sub_eq_iff_eq_add, BitVec.toNat_eq]
  rfl

/-- `loop` decides on the decremented value, also where s0 discards it (log 15). -/
theorem exec_loop (d : BitVec 6) (o : BitVec 19) (s : State) :
    exec (.loop d o) s = .next ((s.write d (s.cur.rs d - 1)).withPc
      (if (s.cur.rs d).toNat = 1 then s.cur.pc + 4 else s.cur.pc + BitVec.ofInt 64 (4 * o.toInt))) := by
  refine (branchIf_of_iff (p := ¬ (s.cur.rs d).toNat = 1) ?_ o (s.onCur fun a => a.setS d (s.cur.rs d - 1))).trans ?_
  · rw [bne_iff_ne, ne_eq, sub_one_eq_zero_iff]
  · rw [State.write_as_withPc, ite_not, State.onCur_cur, Agent.setS_pc]
    split <;> rfl

theorem exec_bcci (d : BitVec 6) (c : Cond) (i : BitVec 6) (o : BitVec 10) (s : State) :
    exec (.bcci d c i o) s = .next (if condSense c (s.cur.rs d) (immSense c i) then
      s.withPc (s.cur.pc + BitVec.ofInt 64 (4 * o.toInt)) else s.withPc (s.cur.pc + 4)) := by
  rw [← condHolds_eq_condSense, ← condImm_eq_immSense, ← branchIf_eq]
  rfl

/-! ### `bmask` -/

theorem exec_bmask_of_pending {s : State} {k : BitVec 4} (h : s.maskPending k = true) (c : MaskCond) (o : BitVec 19) :
    exec (.bmask c k o) s = .next (s.waits (.bmask k)) := if_pos h

theorem exec_bmask_of_not_pending {s : State} {k : BitVec 4} (h : s.maskPending k = false) (c : MaskCond) (o : BitVec 19) :
    exec (.bmask c k o) s = .next (if maskSense c s.cur.gsize (s.cur.mask k) then
      s.withPc (s.cur.pc + BitVec.ofInt 64 (4 * o.toInt)) else s.withPc (s.cur.pc + 4)) := by
  rw [← maskCond_eq_maskSense, ← branchIf_eq]
  exact if_neg (by rw [h]; exact Bool.false_ne_true)

end Sys2Proof.Machine
end

section
/-! ## What lies ahead in the lane stream: pending writes of mask and q registers (R106, R114; log 16) -/
namespace Sys2Proof.Machine

/-- The last instruction of a block decides alone whether the rest of the block may be one that `p` names. -/
theorem State.blockMay_of_last {s t : State} {k : Nat} {i : Instr} {f : Lane} {u : LaneUse} (p : Instr → Bool) (n : Nat)
    (hfetch : fetchLane k s = .ok (.ok i) t) (huse : laneUse i = some (f, u)) (hlast : f.last = true) :
    s.blockMay p (n + 1) k = p i := by
  simp only [State.blockMay, hfetch, huse, hlast, Bool.not_true, Bool.false_and, Bool.or_false]

/-- Nothing lies ahead of a lane stream with no block in progress and none handed over. -/
theorem State.laneAhead_of_empty {s : State} (p : Instr → Bool) (hactive : s.cur.lane.active = none)
    (hqueue : s.cur.lane.queue = []) : s.laneAhead p = false := by
  simp only [State.laneAhead, hactive, hqueue, List.any_nil, Bool.or_false]

theorem State.laneAhead_of_single {s t : State} {b : Block} {i : Instr} {f : Lane} {u : LaneUse} (p : Instr → Bool)
    (hactive : s.cur.lane.active = none) (hqueue : s.cur.lane.queue = [b]) (hfetch : fetchLane b.lidx s = .ok (.ok i) t)
    (huse : laneUse i = some (f, u)) (hlast : f.last = true) : s.laneAhead p = p i := by
  simp only [State.laneAhead, hactive, hqueue, List.any_cons, List.any_nil, Bool.or_false, Bool.false_or]
  exact State.blockMay_of_last p 255 hfetch huse hlast

/-- Whether a write that has not returned is one of mask register `k`. -/
def PendWrite.isMask (k : Nat) : PendWrite → Bool
  | .mask j _ _ => j == k
  | _ => false

theorem PendWrite.isMask_iff (k : Nat) (w : PendWrite) : w.isMask k = true ↔ ∃ live x, w = .mask k live x := by
  cases w <;> simp [PendWrite.isMask]

theorem PendWrite.isQ_iff (n : Nat) (w : PendWrite) : w.isQ n = true ↔ ∃ x, w = .q n x := by
  cases w <;> simp [PendWrite.isQ]

theorem State.maskPending_eq (s : State) (k : BitVec 4) :
    s.maskPending k = (k != 0 && (s.cur.lane.writes.any (PendWrite.isMask k.toNat)
      || s.laneAhead fun i => laneMaskDest i == some k.toNat)) := rfl

theorem State.qPending_eq (s : State) (n : Nat) :
    s.qPending n = (s.cur.lane.writes.any (PendWrite.isQ n) || s.laneAhead fun i => laneQDest i == some n) := rfl

theorem LaneStream.any_isMask_iff (l : LaneStream) (k : Nat) :
    l.writes.any (PendWrite.isMask k) = true ↔ ∃ live x, PendWrite.mask k live x ∈ l.writes := by
  simp only [List.any_eq_true, PendWrite.isMask_iff]
  exact ⟨fun ⟨_, hw, live, x, e⟩ => ⟨live, x, e ▸ hw⟩, fun ⟨live, x, hw⟩ => ⟨_, hw, live, x, rfl⟩⟩

theorem LaneStream.any_isQ_iff (l : LaneStream) (n : Nat) :
    l.writes.any (PendWrite.isQ n) = true ↔ ∃ x, PendWrite.q n x ∈ l.writes := by
  simp only [List.any_eq_true, PendWrite.isQ_iff]
  exact ⟨fun ⟨_, hw, x, e⟩ => ⟨x, e ▸ hw⟩, fun ⟨x, hw⟩ => ⟨_, hw, x, rfl⟩⟩

theorem State.maskPending_zero (s : State) : s.maskPending 0 = false := rfl

theorem State.maskPending_of_write {s : State} {k : BitVec 4} (hk : k ≠ 0)
    (h : ∃ live x, PendWrite.mask k.toNat live x ∈ s.cur.lane.writes) : s.maskPending k = true := by
  rw [State.maskPending_eq, (LaneStream.any_isMask_iff _ _).mpr h, Bool.true_or, Bool.and_true]
  exact bne_iff_ne.mpr hk

/-- Where no write of mK is on its way, the lane instructions not yet issued decide. -/
theorem State.maskPending_of_no_write {s : State} {k : BitVec 4}
    (h : ∀ live x, PendWrite.mask k.toNat live x ∉ s.cur.lane.writes) :
    s.maskPending k = (k != 0 && s.laneAhead fun i => laneMaskDest i == some k.toNat) := by
  have hany : s.cur.lane.writes.any (PendWrite.isMask k.toNat) = false :=
    Bool.eq_false_iff.mpr fun e => let ⟨live, x, hw⟩ := (LaneStream.any_isMask_iff _ _).mp e; h live x hw
  rw [State.maskPending_eq, hany, Bool.false_or]

theorem State.qPending_of_write {s : State} {n : Nat} (h : ∃ x, PendWrite.q n x ∈ s.cur.lane.writes) :
    s.qPending n = true := by
  rw [State.qPending_eq, (LaneStream.any_isQ_iff _ _).mpr h, Bool.true_or]

/-- Where no write of qN is on its way, the lane instructions not yet issued decide. -/
theorem State.qPending_of_no_write {s : State} {n : Nat} (h : ∀ x, PendWrite.q n x ∉ s.cur.lane.writes) :
    s.qPending n = s.laneAhead fun i => laneQDest i == some n := by
  have hany : s.cur.lane.writes.any (PendWrite.isQ n) = false :=
    Bool.eq_false_iff.mpr fun e => let ⟨x, hw⟩ := (LaneStream.any_isQ_iff _ _).mp e; h x hw
  rw [State.qPending_eq, hany, Bool.false_or]

end Sys2Proof.Machine
end

section
/-! ## Calls, returns and jump tables (R107, R108) -/
namespace Sys2Proof.Machine

theorem exec_call {s : State} (h : s.cur.shadow.length < 64) (o : BitVec 25) :
    exec (.call o) s = .next { s with cur := { s.cur.setS 63 (s.cur.pc + 4) with
      shadow := s.cur.shadow ++ [s.cur.pc + 4]
      pc := s.cur.pc + BitVec.ofInt 64 (4 * o.toInt) } } := by
  rw [← off4_eq_ofInt]
  exact if_neg (Nat.not_le.mpr h)

theorem exec_call_of_full {s : State} (h : 64 ≤ s.cur.shadow.length) (o : BitVec 25) :
    exec (.call o) s = .next (s.takeTrap cLpad 4) := if_pos h

theorem exec_ret_of_empty {s : State} (h : s.cur.shadow = []) : exec .ret s = .next (s.takeTrap cLpad 3) := by
  show execRet s = _
  unfold execRet
  rw [h]
  rfl

theorem exec_ret_of_match {s : State} {l : List Word} {r : Word} (h : s.cur.shadow = l ++ [r]) (hr : s.cur.rs 63 = r) :
    exec .ret s = .next { s with cur := { s.cur with shadow := l, pc := r } } := by
  show execRet s = _
  unfold execRet
  rw [h, List.getLast?_concat]
  have hl : s.cur.shadow.dropLast = l := by rw [h, List.dropLast_concat]
  rw [← hl]
  exact if_neg fun h => h hr

theorem exec_ret_of_mismatch {s : State} {l : List Word} {r : Word} (h : s.cur.shadow = l ++ [r]) (hr : s.cur.rs 63 ≠ r) :
    exec .ret s = .next (s.takeTrap cLpad 2) := by
  show execRet s = _
  unfold execRet
  rw [h, List.getLast?_concat]
  exact if_pos hr

theorem X.check_ok {b : Bool} (h : b = true) (c : Cause) (v : Word) (s : State) : X.check b c v s = .ok () s := by
  rw [X.check_run, if_pos h]

theorem X.check_error {b : Bool} (h : b = false) (c : Cause) (v : Word) (s : State) :
    X.check b c v s = .error (.trap c v) s := by
  rw [X.check_run, if_neg (Bool.eq_false_iff.mp h)]

theorem exec_jtab_of_error {s t : State} {d : BitVec 6} {o : BitVec 19} {e : Stop}
    (h : jtabTarget (s.cur.pc + BitVec.ofInt 64 (4 * o.toInt)) (s.cur.rs d) s = .error e t) :
    exec (.jtab d o) s = .next (s.stopped t e) := by
  rw [← off4_eq_ofInt] at h
  show runX _ s = _
  unfold runX
  rw [X.bind_of_ok (X.cur_run s), X.bind_of_error h]
  rfl

theorem exec_jtab_of_ok {s t : State} {d : BitVec 6} {o : BitVec 19} {tgt : Word}
    (h : jtabTarget (s.cur.pc + BitVec.ofInt 64 (4 * o.toInt)) (s.cur.rs d) s = .ok tgt t) :
    exec (.jtab d o) s = .next (t.withPc tgt) := by
  rw [← off4_eq_ofInt] at h
  refine runX_ok ?_
  rw [X.bind_of_ok (X.cur_run s), X.bind_of_ok h]
  rfl

/-- The count of a jump table stands in the high half of its header. -/
theorem jtab_count_toNat (hdr : BitVec 32) : (hdr.extractLsb' 16 16).toNat = hdr.toNat / 2 ^ 16 := by
  rw [BitVec.extractLsb'_toNat, Nat.shiftRight_eq_div_pow]
  omega

/-- A target is aligned where its two low bits are zero. -/
theorem jtab_aligned_iff (t : Word) : (t.extractLsb' 0 2 == 0) = true ↔ t.toNat % 4 = 0 := by
  rw [beq_iff_eq, BitVec.toNat_eq, BitVec.extractLsb'_toNat, Nat.shiftRight_zero]
  rfl

/-- The word at a target is an `lpad` with the label of the table's header. -/
def lpadMatches (w hdr : BitVec 32) : Bool :=
  w.extractLsb' 25 7 == 0x17 && w.extractLsb' 16 9 == 0 && w.extractLsb' 0 16 == hdr.extractLsb' 0 16

theorem lpadMatches_iff (w hdr : BitVec 32) :
    lpadMatches w hdr = true ↔ w.toNat = 0x17 * 2 ^ 25 + hdr.toNat % 2 ^ 16 := by
  have hop : (0x17 : BitVec 7).toNat = 0x17 := rfl
  have hzero : (0 : BitVec 9).toNat = 0 := rfl
  simp only [lpadMatches, Bool.and_eq_true, beq_iff_eq, BitVec.toNat_eq, BitVec.extractLsb'_toNat,
    Nat.shiftRight_eq_div_pow, hop, hzero]
  omega

section Jtab
variable {s t1 t2 t3 : State} {h x : Word} {hdr e w : BitVec 32}

theorem jtabTarget_of_count (h1 : fetchWord h s = .ok hdr t1) (hx : hdr.toNat / 2 ^ 16 ≤ x.toNat) :
    jtabTarget h x s = .error (.trap cJtab x) t1 := by
  have hc : decide (x.toNat < (hdr.extractLsb' 16 16).toNat) = false := by
    rw [jtab_count_toNat]
    exact decide_eq_false (Nat.not_lt.mpr hx)
  unfold jtabTarget
  rw [X.bind_of_ok h1, X.bind_of_error (X.check_error hc ..)]

theorem jtabTarget_past_count (h1 : fetchWord h s = .ok hdr t1) (hx : x.toNat < hdr.toNat / 2 ^ 16)
    (h2 : fetchWord (h + 4 + 4 * x) t1 = .ok e t2) :
    jtabTarget h x s = (do
      X.check ((h + BitVec.ofInt 64 e.toInt).extractLsb' 0 2 == 0) cLpad 1
      let w ← fetchWord (h + BitVec.ofInt 64 e.toInt)
      X.check (lpadMatches w hdr) cLpad 1
      pure (h + BitVec.ofInt 64 e.toInt)) t2 := by
  have hc : decide (x.toNat < (hdr.extractLsb' 16 16).toNat) = true := by
    rw [jtab_count_toNat]
    exact decide_eq_true hx
  unfold jtabTarget
  rw [X.bind_of_ok h1, X.bind_of_ok (X.check_ok hc ..), X.bind_of_ok h2]
  rfl

theorem jtabTarget_of_unaligned (h1 : fetchWord h s = .ok hdr t1) (hx : x.toNat < hdr.toNat / 2 ^ 16)
    (h2 : fetchWord (h + 4 + 4 * x) t1 = .ok e t2) (ha : (h + BitVec.ofInt 64 e.toInt).toNat % 4 ≠ 0) :
    jtabTarget h x s = .error (.trap cLpad 1) t2 := by
  rw [jtabTarget_past_count h1 hx h2,
    X.bind_of_error (X.check_error (Bool.eq_false_iff.mpr fun hb => ha ((jtab_aligned_iff _).mp hb)) ..)]

theorem jtabTarget_of_lpad (h1 : fetchWord h s = .ok hdr t1) (hx : x.toNat < hdr.toNat / 2 ^ 16)
    (h2 : fetchWord (h + 4 + 4 * x) t1 = .ok e t2) (ha : (h + BitVec.ofInt 64 e.toInt).toNat % 4 = 0)
    (h3 : fetchWord (h + BitVec.ofInt 64 e.toInt) t2 = .ok w t3) (hw : w.toNat = 0x17 * 2 ^ 25 + hdr.toNat % 2 ^ 16) :
    jtabTarget h x s = .ok (h + BitVec.ofInt 64 e.toInt) t3 := by
  rw [jtabTarget_past_count h1 hx h2, X.bind_of_ok (X.check_ok ((jtab_aligned_iff _).mpr ha) ..), X.bind_of_ok h3,
    X.bind_of_ok (X.check_ok ((lpadMatches_iff w hdr).mpr hw) ..)]
  rfl

theorem jtabTarget_of_other_word (h1 : fetchWord h s = .ok hdr t1) (hx : x.toNat < hdr.toNat / 2 ^ 16)
    (h2 : fetchWord (h + 4 + 4 * x) t1 = .ok e t2) (ha : (h + BitVec.ofInt 64 e.toInt).toNat % 4 = 0)
    (h3 : fetchWord (h + BitVec.ofInt 64 e.toInt) t2 = .ok w t3) (hw : w.toNat ≠ 0x17 * 2 ^ 25 + hdr.toNat % 2 ^ 16) :
    jtabTarget h x s = .error (.trap cLpad 1) t3 := by
  rw [jtabTarget_past_count h1 hx h2, X.bind_of_ok (X.check_ok ((jtab_aligned_iff _).mpr ha) ..), X.bind_of_ok h3,
    X.bind_of_error (X.check_error (Bool.eq_false_iff.mpr fun hb => hw ((lpadMatches_iff w hdr).mp hb)) ..)]

end Jtab

/-- Settles O4: direct branches by `branchIf_eq`; `bmask` by what lies ahead in the lane stream; calls and returns by the shadow
stack; `jtab` by the ends of `jtabTarget`. -/
theorem controlTransfers : Obligations.ControlTransfers := by
  refine ⟨fun s d a => ?_, fun s k o => ?_, fun s => ?_, fun s t1 t2 t3 d o hdr e w => ?_⟩
  · exact ⟨fun o => branchIf_eq true o s, fun o => ⟨exec_bz d o s, exec_bnz d o s, exec_loop d o s⟩,
      fun o => ⟨branchCc_eq .eq d a o s, branchCc_eq .ne d a o s, branchCc_eq .lt d a o s, branchCc_eq .ge d a o s,
        branchCc_eq .ltn d a o s, branchCc_eq .gen d a o s⟩, fun c i o => exec_bcci d c i o s, fun _ => rfl⟩
  · refine ⟨fun h c => exec_bmask_of_not_pending h c o, fun h c => exec_bmask_of_pending h c o,
      ⟨s.maskPending_zero, fun t ht => getLsbD_allLive _ ht⟩, State.maskPending_of_write, fun hno hactive => ?_⟩
    rw [State.maskPending_of_no_write hno]
    refine ⟨fun hqueue => ?_, fun b i t f u hk hqueue hfetch huse hlast => ?_⟩
    · rw [State.laneAhead_of_empty _ hactive hqueue, Bool.and_false]
    · rw [State.laneAhead_of_single _ hactive hqueue hfetch huse hlast, bne_iff_ne.mpr hk, Bool.true_and]
  · exact ⟨fun o => ⟨fun h => ⟨_, exec_call h o, rfl⟩, fun h => exec_call_of_full h o⟩,
      fun l r h => ⟨exec_ret_of_match h, exec_ret_of_mismatch h⟩, exec_ret_of_empty⟩
  · intro x h tgt h1
    refine ⟨fun hx => exec_jtab_of_error (jtabTarget_of_count h1 hx), fun hx h2 => ⟨fun ha => ?_, fun ha h3 => ?_⟩⟩
    · exact exec_jtab_of_error (jtabTarget_of_unaligned h1 hx h2 ha)
    · exact ⟨fun hw => exec_jtab_of_ok (jtabTarget_of_lpad h1 hx h2 ha h3 hw),
        fun hw => exec_jtab_of_error (jtabTarget_of_other_word h1 hx h2 ha h3 hw)⟩

end Sys2Proof.Machine
end

section
/-! ## The exit record of an agent that exits (R299; 11 Table 11.9) -/
namespace Sys2Proof.Machine

/-! ### Numbers at home -/

theorem natBytes_length (x n : Nat) : (natBytes x n).length = n := by
  induction n generalizing x with
  | zero => rfl
  | succ n ih => rw [natBytes, List.length_cons, ih]

/-- Where the bytes of `x` stand from `p` on, they read as `x`, cut to their number. -/
theorem readNat_of_natBytes {l : List Host.Cell} {p x n : Nat} (h : ∀ i < n, readCell l (p + i) = (natBytes x n).getD i 0) :
    readNat l p n = x % 256 ^ n := by
  induction n generalizing p x with
  | zero => rw [readNat, Nat.pow_zero, Nat.mod_one]
  | succ n ih =>
    have hhead : readCell l p = BitVec.ofNat 8 x := h 0 n.succ_pos
    have htail : ∀ i < n, readCell l (p + 1 + i) = (natBytes (x / 256) n).getD i 0 := fun i hi => by
      rw [Nat.add_assoc, Nat.add_comm 1 i]
      exact h (i + 1) (Nat.succ_lt_succ hi)
    have hpow : 256 ^ (n + 1) = 256 * 256 ^ n := Nat.pow_succ'
    rw [readNat, hhead, ih htail, BitVec.toNat_ofNat, hpow, Nat.mod_mul]

theorem mem_cellsAt_bounds {bs : List Byte} {p : Nat} {c : Host.Cell} (h : c ∈ cellsAt p bs) :
    p ≤ c.1 ∧ c.1 < p + bs.length := by
  induction bs generalizing p with
  | nil => cases h
  | cons b bs ih =>
    rw [List.length_cons]
    rcases List.mem_cons.mp h with rfl | h
    · simp only; omega
    · have := ih h; omega

theorem MemSys.homeByte_hwWrite_at (m : MemSys) (e p : Nat) {bs : List Byte} {i : Nat} (h : i < bs.length) :
    (m.hwWrite e (cellsAt p bs)).homeByte (p + i) = bs.getD i 0 := by
  unfold MemSys.hwWrite
  rw [MemSys.homeByte_homeWrite, MemSys.homeByte_putHome_at _ _ _ _ _ _ h]

/-- A write of the hardware leaves every byte outside it that no write in delivery touches. -/
theorem MemSys.homeByte_hwWrite_other (m : MemSys) (e p q : Nat) {bs : List Byte} (hq : q < p ∨ p + bs.length ≤ q)
    (hf : ∀ f ∈ m.flight, f.touches q = false) : (m.hwWrite e (cellsAt p bs)).homeByte q = m.homeByte q := by
  unfold MemSys.hwWrite
  rw [MemSys.homeByte_homeWrite, MemSys.homeByte_putHome_other, MemSys.homeByte_settle_other _ _ _ _ hf]
  intro b hb
  have := mem_cellsAt_bounds hb
  omega

/-- A number among the bytes of a write of the hardware reads back. -/
theorem MemSys.homeNat_hwWrite (m : MemSys) (e p : Nat) {bs pre post : List Byte} {x n k : Nat}
    (hbs : bs = pre ++ (natBytes x n ++ post)) (hk : pre.length = k) :
    (m.hwWrite e (cellsAt p bs)).homeNat (p + k) n = x % 256 ^ n := by
  subst hbs hk
  refine readNat_of_natBytes fun i hi => ?_
  have hlen := natBytes_length x n
  have hall : pre.length + i < (pre ++ (natBytes x n ++ post)).length := by
    simp only [List.length_append, hlen]
    omega
  have hat := m.homeByte_hwWrite_at e p hall
  rw [← Nat.add_assoc, List.getD_eq_getElem?_getD, List.getElem?_append_right (Nat.le_add_right ..),
    Nat.add_sub_cancel_left, List.getElem?_append_left (hlen.symm ▸ hi), ← List.getD_eq_getElem?_getD] at hat
  exact hat

/-- A block of four words reads back word by word. -/
theorem MemSys.homeNat_four_words (m : MemSys) (e p w0 w1 w2 w3 : Nat) :
    let n := m.hwWrite e (cellsAt p (natBytes w0 8 ++ natBytes w1 8 ++ natBytes w2 8 ++ natBytes w3 8))
    n.homeNat p 8 = w0 % 256 ^ 8 ∧ n.homeNat (p + 8) 8 = w1 % 256 ^ 8 ∧
      n.homeNat (p + 16) 8 = w2 % 256 ^ 8 ∧ n.homeNat (p + 24) 8 = w3 % 256 ^ 8 := by
  refine ⟨m.homeNat_hwWrite e p (pre := []) (post := natBytes w1 8 ++ (natBytes w2 8 ++ natBytes w3 8)) (k := 0) ?_ rfl,
    m.homeNat_hwWrite e p (pre := natBytes w0 8) (post := natBytes w2 8 ++ natBytes w3 8) ?_ ?_,
    m.homeNat_hwWrite e p (pre := natBytes w0 8 ++ natBytes w1 8) (post := natBytes w3 8) ?_ ?_,
    m.homeNat_hwWrite e p (pre := natBytes w0 8 ++ natBytes w1 8 ++ natBytes w2 8) (post := []) ?_ ?_⟩ <;>
  simp only [List.append_assoc, List.nil_append, List.append_nil, List.length_append, natBytes_length]

/-! ### The record -/

theorem exitBytes_length (enc : BitVec 16) (cause : Cause) (id s2ipa kind : Nat) :
    (exitBytes enc cause id s2ipa kind).length = 32 := by
  simp only [exitBytes, List.length_append, natBytes_length]

/-- The first word of a record takes 64 bits. -/
theorem exitWord_lt (enc : BitVec 16) (cause : Cause) (id : Nat) :
    enc.toNat + cause.toNat * 2 ^ 16 + id % 2 ^ 32 * 2 ^ 32 < 256 ^ 8 := by
  have he := enc.isLt
  have hc := cause.isLt
  omega

/-- The four words of a record of kind 0 at home. -/
theorem MemSys.homeNat_exitBytes (m : MemSys) (p : Nat) (enc : BitVec 16) (cause : Cause) (id s2ipa : Nat) :
    let n := m.hwWrite 4 (cellsAt p (exitBytes enc cause id s2ipa 0))
    n.homeNat p 8 = enc.toNat + cause.toNat * 2 ^ 16 + id % 2 ^ 32 * 2 ^ 32 ∧ n.homeNat (p + 8) 8 = s2ipa % 2 ^ 64 ∧
      n.homeNat (p + 16) 8 = 0 ∧ n.homeNat (p + 24) 8 = 0 := by
  have hbits : 2 ^ 64 = 256 ^ 8 := by decide
  have h := m.homeNat_four_words 4 p (enc.toNat + cause.toNat * 2 ^ 16 + id % 2 ^ 32 * 2 ^ 32) s2ipa 0 0
  rw [Nat.mod_eq_of_lt (exitWord_lt enc cause id), Nat.zero_mod, ← hbits] at h
  exact h

theorem State.part_onPart_same (s : State) (p : Nat) (f : PartState → PartState) : (s.onPart p f).part p = f (s.part p) := by
  unfold State.onPart State.part
  rw [alook_aput_self]
  rfl

/-- The memory after an exit record: written where the entry is the host agent's memory, and otherwise as it was (log 31). -/
theorem State.exitRecord_mem (s : State) (part : Nat) (enc : BitVec 16) (cause : Cause) (s2ipa kind : Nat) (what : ExitWhat) :
    (s.exitRecord part enc cause s2ipa kind what).mem =
      if s.hostFrame (s.exitAddr part) then
        s.mem.hwWrite 4 (cellsAt (s.redirect (s.exitAddr part)) (exitBytes enc cause ((s.part part).exitId + 1) s2ipa kind))
      else s.mem := rfl

/-- An exit leaves the agent exited, and its record in the exit ring. -/
theorem State.exitAgent_exited (s : State) (cause : Cause) :
    Exited s (s.exitAgent cause) { s.cur with status := .exited } cause s.cur.trap.s2ipa := by
  have hmem : (s.exitAgent cause).mem =
      if s.hostFrame (s.exitAddr s.cur.part) then
        s.mem.hwWrite 4 (cellsAt (s.redirect (s.exitAddr s.cur.part))
          (exitBytes s.cur.enc cause ((s.part s.cur.part).exitId + 1) s.cur.trap.s2ipa 0))
      else s.mem := State.exitRecord_mem ..
  have hid : ((s.exitAgent cause).part s.cur.part).exitId = (s.part s.cur.part).exitId + 1 :=
    congrArg PartState.exitId (State.part_onPart_same s s.cur.part fun x => { x with exitId := (s.part s.cur.part).exitId + 1 })
  refine ⟨rfl, rfl, hid, rfl, fun hno => ?_, fun hyes => ?_,
    fun q hq hf => ?_, rfl, rfl, rfl, rfl, rfl⟩
  · rw [hmem]
    exact if_neg (Bool.eq_false_iff.mp hno)
  · rw [hmem, if_pos (show s.hostFrame (s.exitAddr s.cur.part) = true from hyes)]
    exact MemSys.homeNat_exitBytes ..
  · rw [hmem]
    split
    · exact MemSys.homeByte_hwWrite_other _ _ _ _ (by rwa [exitBytes_length]) hf
    · rfl

end Sys2Proof.Machine
end

section
/-! ## The SYS group (R111, R113, R118 to R120) -/
namespace Sys2Proof.Machine

theorem whenDrained_of_drained {s : State} (h : s.cur.laneDrained = true) (k : Out) : whenDrained s k = k := if_pos h

theorem whenDrained_of_busy {s : State} (h : s.cur.laneDrained = false) (k : Out) : whenDrained s k = .next (s.waits .drain) :=
  if_neg (Bool.eq_false_iff.mp h)

theorem foldl_max_bounds {α : Type} (f : α → Nat) (l : List α) (m : Nat) :
    m ≤ l.foldl (fun m a => max m (f a)) m ∧ ∀ a ∈ l, f a ≤ l.foldl (fun m a => max m (f a)) m := by
  induction l generalizing m with
  | nil => exact ⟨Nat.le_refl _, fun _ h => absurd h List.not_mem_nil⟩
  | cons b l ih =>
    obtain ⟨hm, hl⟩ := ih (max m (f b))
    exact ⟨Nat.le_trans (Nat.le_max_left ..) hm, List.forall_mem_cons.mpr ⟨Nat.le_trans (Nat.le_max_right ..) hm, hl⟩⟩

/-- No agent of the part has issued after the latest issue. -/
theorem State.lastIssue_le {s : State} {b : Agent} (hb : b ∈ s.cur :: s.others) : b.sched.lastIssue ≤ s.lastIssue :=
  (foldl_max_bounds (fun a : Agent => a.sched.lastIssue) (s.cur :: s.others) 0).2 b hb

theorem Agent.grant_eq (a : Agent) :
    a.grant = if a.kind = AgentKind.group then
        BitVec.ofNat 64 (a.width % 2 ^ 8 + a.gsize / a.width % 2 ^ 8 * 2 ^ 8 + a.gsize % 2 ^ 11 * 2 ^ 16)
      else 0x80108 := by
  unfold Agent.grant Agent.isControl
  by_cases h : a.kind = .group
  · rw [if_neg (by simp [h]), if_pos h]
    rfl
  · rw [if_pos (by simp [h]), if_neg h]
    rfl

theorem exec_rdgrant (s : State) (d : BitVec 6) :
    exec (.rdgrant d) s = .next (({ s with cur := { s.cur with gchg := false, seenWidth := s.cur.width } }).write d
      (if s.cur.kind = AgentKind.group then
        BitVec.ofNat 64 (s.cur.width % 2 ^ 8 + s.cur.gsize / s.cur.width % 2 ^ 8 * 2 ^ 8 + s.cur.gsize % 2 ^ 11 * 2 ^ 16)
       else 0x80108)) := by
  rw [← Agent.grant_eq]
  rfl

theorem exec_ecall_of_u {s : State} (h : s.cur.level = .u) : exec .ecall s = .next (s.takeTrap cEcall 0) := by
  show execEcall s = _
  unfold execEcall
  rw [h]
  rfl

theorem exec_ecall_of_s {s : State} (h : s.cur.level = .s) :
    exec .ecall s = .next (s.advance.exitAgent (if s.cur.trap.hm = true then s.cur.trap.cause else cEcall)) := by
  show execEcall s = _
  unfold execEcall
  rw [h]

theorem exec_ecall_of_h {s : State} (h : s.cur.level = .h) : exec .ecall s = .next (s.takeTrap cIllegal 0x3E000006) := by
  show execEcall s = _
  unfold execEcall
  rw [h]
  rfl

/-! ### The end of an agent (R119) -/

/-- The acting agent finds itself by its own id. -/
theorem State.agent?_cur (s : State) : s.agent? s.cur.id = some s.cur := if_pos rfl

/-- The release of the acting agent at scope 6: its plain writes enter the order of its die (R246). -/
theorem State.release_cur (s : State) :
    s.release s.cur.id 6 = { s with
      mem := s.cur.leaving.foldl (fun m w => m.enterLeaving s.cur w) s.mem
      cur := { s.cur with leaving := [] } } := by
  unfold State.release State.drainWrites
  rw [State.agent?_cur]
  exact if_pos rfl

/-- The state in which the acting agent has ended, its writes released (R119). -/
def State.endsCur (s : State) : State := (s.release s.cur.id 6).onCur fun a => { a with status := .ended }

theorem State.endsCur_eq (s : State) :
    s.endsCur = { s with
      mem := s.cur.leaving.foldl (fun m w => m.enterLeaving s.cur w) s.mem
      cur := { s.cur with leaving := [], status := .ended } } := by
  unfold State.endsCur
  rw [State.release_cur]
  rfl

theorem State.endAgent_of_control {s : State} (h : s.cur.kind ≠ .group) : s.endAgent = s.endsCur := by
  unfold State.endAgent
  exact if_neg h

/-- Where no save region has been sampled, there is no slot map to write. -/
theorem markSlot_orKeep_of_no_save {enc : BitVec 16} {s : State} (h : (s.enclave? enc).bind (·.save) = none)
    (die j : Nat) (on : Bool) : (markSlot enc die j on).orKeep s = s := by
  unfold X.orKeep markSlot
  rw [X.bind_of_ok (X.get_run s), h]
  rfl

theorem State.endsCur_agent? {s : State} {j : Nat} (h : j ≠ s.cur.id) : s.endsCur.agent? j = s.agent? j := by
  rw [State.endsCur_eq]
  unfold State.agent?
  exact (if_neg h.symm).trans (if_neg h.symm).symm

/-- A group ends alone while another group of its workgroup runs. -/
theorem State.endAgent_of_company {s : State} {g : Workgroup} {j : Nat} {b : Agent} (hkind : s.cur.kind = .group)
    (hsave : (s.enclave? s.cur.enc).bind (·.save) = none) (hg : s.wg? s.cur.wg = some g) (hj : j ∈ g.groups)
    (hne : j ≠ s.cur.id) (hb : s.agent? j = some b) (hrun : b.status ≠ .ended) : s.endAgent = s.endsCur := by
  have hsave' : (s.endsCur.enclave? s.cur.enc).bind (·.save) = none := by
    rw [State.endsCur_eq]
    exact hsave
  have hg' : s.endsCur.wg? s.cur.wg = some g := by
    rw [State.endsCur_eq]
    exact hg
  have hends : ((s.release s.cur.id 6).onCur fun a => { a with status := .ended }) = s.endsCur := rfl
  unfold State.endAgent
  dsimp only
  rw [hends, if_pos hkind, markSlot_orKeep_of_no_save hsave', hg']
  refine if_neg (Bool.eq_false_iff.mp (List.all_eq_false.mpr ⟨j, hj, ?_⟩))
  rw [State.endsCur_agent? hne, hb]
  simpa using hrun

theorem exec_halt_of_drained {s : State} (h : s.cur.laneDrained = true) : exec .halt s = .next s.endAgent :=
  whenDrained_of_drained h _

/-- Settles O6: each SYS instruction by its own end; an `ecall` at S by the exit record, a `halt` by the end of its agent. -/
theorem systemInstructions : Obligations.SystemInstructions := by
  refine ⟨fun s d a => ?_, fun s => ?_⟩
  · exact ⟨rfl, ⟨s.lastIssue + 1, fun b hb => Nat.lt_succ_of_le (State.lastIssue_le hb), rfl⟩, rfl,
      fun h => whenDrained_of_drained h _, fun h => whenDrained_of_busy h _, exec_rdgrant s d, exec_ecall_of_u,
      fun h => ⟨_, exec_ecall_of_s h, s.advance.exitAgent_exited _⟩, exec_ecall_of_h⟩
  · refine ⟨fun h => whenDrained_of_busy h _, fun h hkind => ?_, fun h hkind hsave g j b hg hj hne hb hrun => ?_⟩
    · rw [exec_halt_of_drained h, State.endAgent_of_control hkind]
      rfl
    · rw [exec_halt_of_drained h, State.endAgent_of_company hkind hsave hg hj hne hb hrun]
      rfl

end Sys2Proof.Machine
end

section
/-! ## The grant, reduction results and lane dispatch (R110, R112, R114; log 2) -/
namespace Sys2Proof.Machine

/-! ### The words that ILLEGAL reports (R54) -/

theorem toNat_append_eq_add {m n : Nat} (x : BitVec m) (y : BitVec n) : (x ++ y).toNat = x.toNat * 2 ^ n + y.toNat := by
  rw [BitVec.toNat_append, ← Nat.shiftLeft_add_eq_or_of_lt y.isLt, Nat.shiftLeft_eq]

theorem wordOf_setw (a : BitVec 6) : wordOf (.setw a) = BitVec.ofNat 64 (0x1F * 2 ^ 25 + a.toNat * 2 ^ 13 + 10) := by
  show ((0x1F : BitVec 7) ++ (0 : BitVec 6) ++ a ++ (0 : BitVec 6) ++ (10 : BitVec 7)).setWidth 64 = _
  rw [← BitVec.ofNat_toNat]
  simp only [toNat_append_eq_add]
  have hop : (0x1F : BitVec 7).toNat = 0x1F := rfl
  have hzero : (0 : BitVec 6).toNat = 0 := rfl
  have hfn : (10 : BitVec 7).toNat = 10 := rfl
  rw [hop, hzero, hfn]
  refine congrArg (BitVec.ofNat 64) ?_
  omega

theorem wordOf_lrun (inv : Bool) (k : BitVec 4) (l : BitVec 20) :
    wordOf (.lrun inv k l) = BitVec.ofNat 64 (0x20 * 2 ^ 25 + inv.toNat * 2 ^ 24 + k.toNat * 2 ^ 20 + l.toNat) := by
  show ((0x20 : BitVec 7) ++ BitVec.ofBool inv ++ k ++ l).setWidth 64 = _
  rw [← BitVec.ofNat_toNat]
  simp only [toNat_append_eq_add, BitVec.toNat_ofBool]
  have hop : (0x20 : BitVec 7).toNat = 0x20 := rfl
  rw [hop]
  refine congrArg (BitVec.ofNat 64) ?_
  omega

theorem control_or_routine_of_control {s : State} (h : s.cur.kind ≠ .group) : (s.cur.isControl || s.cur.inRoutine) = true := by
  simp [Agent.isControl, h]

theorem control_or_routine_of_group {s : State} (h : s.cur.kind = .group) (hr : s.cur.inRoutine = false) :
    (s.cur.isControl || s.cur.inRoutine) = false := by
  simp [Agent.isControl, h, hr]

/-! ### `setw` -/

theorem widthOk_iff (w g : Nat) : widthOk w g = true ↔ w ∈ [8, 16, 32, 64] ∧ w ≤ g := by
  simp [widthOk, or_assoc]

/-- A width that an open choice takes from a list is one of it. -/
theorem getD_mod_mem {l : List Nat} (h : l ≠ []) (n d : Nat) : l.getD (n % l.length) d ∈ l := by
  have hlt : n % l.length < l.length := Nat.mod_lt _ (List.length_pos_iff.mpr h)
  rw [List.getD_eq_getElem?_getD, List.getElem?_eq_getElem hlt, Option.getD_some]
  exact List.getElem_mem hlt

/-- A contract is granted as it stands (R12). -/
theorem chooseWidth_of_contract (s : State) (w g : Nat) : chooseWidth s (some w) g = (w, s) := rfl

/-- Without a contract the grant is legal, where any width is. -/
theorem chooseWidth_legal {g w : Nat} (h : w ∈ [8, 16, 32, 64] ∧ w ≤ g) (s : State) :
    (chooseWidth s none g).1 ∈ [8, 16, 32, 64] ∧ (chooseWidth s none g).1 ≤ g := by
  have hne : [8, 16, 32, 64].filter (· ≤ g) ≠ [] := List.ne_nil_of_mem (List.mem_filter.mpr ⟨h.1, decide_eq_true h.2⟩)
  obtain ⟨hmem, hle⟩ := List.mem_filter.mp (getD_mod_mem hne s.draw.1 8)
  exact ⟨hmem, of_decide_eq_true hle⟩

/-- Granting uses up one open choice where there is no contract, and nothing else. -/
theorem chooseWidth_state (s : State) (c : Option Nat) (g : Nat) :
    (chooseWidth s c g).2 = { s with
      choices := if c = none then s.choices.tail else s.choices
      free := if c = none ∧ s.choices = [] then s.free + 1 else s.free } := by
  cases c with
  | some w => rfl
  | none =>
    simp only [chooseWidth, State.draw]
    cases s.choices with
    | nil => simp
    | cons x l => simp

theorem exec_setw_of_control {s : State} (h : s.cur.kind ≠ .group) (a : BitVec 6) :
    exec (.setw a) s = .next (s.takeTrap cIllegal (BitVec.ofNat 64 (0x1F * 2 ^ 25 + a.toNat * 2 ^ 13 + 10))) := by
  rw [← wordOf_setw]
  exact if_pos (control_or_routine_of_control h)

/-- A `setw` of a group outside the routines: WIDTH, or the grant once the lane stream has drained. -/
theorem exec_setw_of_group {s : State} (h : s.cur.kind = .group) (hr : s.cur.inRoutine = false) (a : BitVec 6) :
    exec (.setw a) s =
      if !widthOk (s.cur.rs a).toNat s.cur.gsize then trapOut s cWidth (s.cur.rs a)
      else whenDrained s (.next ((chooseWidth s s.cur.contract s.cur.gsize).2.advance.onCur fun b =>
        b.setGrant (chooseWidth s s.cur.contract s.cur.gsize).1)) :=
  if_neg (Bool.eq_false_iff.mp (control_or_routine_of_group h hr))

theorem exec_setw_of_bad_width {s : State} {a : BitVec 6} (h : s.cur.kind = .group) (hr : s.cur.inRoutine = false)
    (hw : ¬ ((s.cur.rs a).toNat ∈ [8, 16, 32, 64] ∧ (s.cur.rs a).toNat ≤ s.cur.gsize)) :
    exec (.setw a) s = .next (s.takeTrap cWidth (s.cur.rs a)) := by
  rw [← widthOk_iff, Bool.not_eq_true, ← Bool.not_eq_true'] at hw
  rw [exec_setw_of_group h hr, if_pos hw]
  rfl

theorem exec_setw_of_width {s : State} {a : BitVec 6} (h : s.cur.kind = .group) (hr : s.cur.inRoutine = false)
    (hw : (s.cur.rs a).toNat ∈ [8, 16, 32, 64] ∧ (s.cur.rs a).toNat ≤ s.cur.gsize) :
    exec (.setw a) s = whenDrained s (.next ((chooseWidth s s.cur.contract s.cur.gsize).2.advance.onCur fun b =>
      b.setGrant (chooseWidth s s.cur.contract s.cur.gsize).1)) := by
  rw [exec_setw_of_group h hr, (widthOk_iff _ _).mpr hw]
  exact if_neg Bool.false_ne_true

/-- What a grant changes: the width and GCHG of the acting agent, its program counter, and the open choices used. -/
theorem grant_eq (s : State) (c : Option Nat) (g : Nat) :
    (chooseWidth s c g).2.advance.onCur (fun b => b.setGrant (chooseWidth s c g).1) = { s with
      choices := if c = none then s.choices.tail else s.choices
      free := if c = none ∧ s.choices = [] then s.free + 1 else s.free
      cur := { s.cur with
        pc := s.cur.pc + 4, width := (chooseWidth s c g).1
        gchg := s.cur.gchg || decide ((chooseWidth s c g).1 ≠ s.cur.seenWidth) } } := by
  have hb : ((chooseWidth s c g).1 != s.cur.seenWidth) = decide ((chooseWidth s c g).1 ≠ s.cur.seenWidth) :=
    Bool.eq_iff_iff.mpr (by simp)
  rw [chooseWidth_state, ← hb]
  rfl

/-! ### `qread` -/

/-- A `qread` outside the routines, by the sequence numbers and what is still to come. -/
theorem exec_qread_of_normal {s : State} (hr : s.cur.inRoutine = false) (d a : BitVec 6) (q : BitVec 2) :
    exec (.qread d a q) s =
      if s.cur.regs.q[q.toNat].seq = (s.cur.rs a).setWidth 16 then .next (s.write d s.cur.regs.q[q.toNat].val)
      else if s.qPending q.toNat then .next (s.waits (.qread q d ((s.cur.rs a).setWidth 16)))
      else .next (s.takeTrap cSoftware (((s.cur.rs a).setWidth 16 ++ s.cur.regs.q[q.toNat].seq).setWidth 64)) :=
  if_neg (Bool.eq_false_iff.mp hr)

theorem setWidth_append_eq_ofNat (x y : BitVec 16) :
    (x ++ y).setWidth 64 = BitVec.ofNat 64 (x.toNat * 2 ^ 16 + y.toNat) := by
  rw [← BitVec.ofNat_toNat, toNat_append_eq_add]

/-! ### `lrun` -/

theorem exec_lrun_of_control {s : State} (h : s.cur.kind ≠ .group) (inv : Bool) (k : BitVec 4) (l : BitVec 20) :
    exec (.lrun inv k l) s = .next (s.takeTrap cIllegal
      (BitVec.ofNat 64 (0x20 * 2 ^ 25 + inv.toNat * 2 ^ 24 + k.toNat * 2 ^ 20 + l.toNat))) := by
  rw [← wordOf_lrun]
  exact if_pos (control_or_routine_of_control h)

/-- An `lrun` of a group outside the routines: past the lane section, no room, or handed over. -/
theorem exec_lrun_of_group {s : State} {v : CodeView} (h : s.cur.kind = .group) (hr : s.cur.inRoutine = false)
    (hv : s.cur.code = some v) (inv : Bool) (k : BitVec 4) (l : BitVec 20) :
    exec (.lrun inv k l) s =
      if v.laneN ≤ l.toNat then .next (s.takeTrap cIllegal (BitVec.ofNat 64 l.toNat))
      else if 8 ≤ s.cur.lane.queue.length then .next (s.waits .lrunRoom)
      else .next { s with cur := { s.cur with
        pc := s.cur.pc + 4
        lane := { s.cur.lane with queue := s.cur.lane.queue ++
          [{ lidx := l.toNat, sel := k, inv, s := s.cur.regs.s, level := s.cur.level }] } } } := by
  show execLrun inv k l s = _
  unfold execLrun
  rw [if_neg (Bool.eq_false_iff.mp (control_or_routine_of_group h hr)), hv, BitVec.ofNat_toNat]
  rfl

/-- Settles O8: `setw` by the grant that `chooseWidth` makes, `qread` by the sequence numbers and what lies ahead in the lane
stream, `lrun` by the lane section and the room of the queue. -/
theorem groupControlInstructions : Obligations.GroupControlInstructions := by
  refine ⟨fun s a => ?_, fun s d a q => ?_, fun s inv k l v => ?_⟩
  · refine ⟨fun h => exec_setw_of_control h a, fun h hr => ⟨exec_setw_of_bad_width h hr, fun hw => ?_⟩⟩
    rw [exec_setw_of_width h hr hw]
    refine ⟨fun hd => whenDrained_of_busy hd _, fun hd =>
      ⟨(chooseWidth s s.cur.contract s.cur.gsize).1, ?_, fun c hc => ?_, fun hc => ?_⟩⟩
    · rw [whenDrained_of_drained hd, grant_eq]
    · rw [hc, chooseWidth_of_contract]
    · rw [hc]
      exact chooseWidth_legal hw s
  · intro r want hr
    rw [exec_qread_of_normal hr]
    refine ⟨fun he => if_pos he, fun hne hp => ?_, fun hne hp => ?_, State.qPending_of_write, fun hno hactive => ?_⟩
    · rw [if_neg hne, if_pos hp]
    · rw [if_neg hne, if_neg (Bool.eq_false_iff.mp hp), setWidth_append_eq_ofNat]
    · rw [State.qPending_of_no_write hno]
      exact ⟨State.laneAhead_of_empty _ hactive,
        fun b i t f u hqueue hfetch huse hlast => State.laneAhead_of_single _ hactive hqueue hfetch huse hlast⟩
  · refine ⟨fun h => exec_lrun_of_control h inv k l, fun h hr hv => ?_⟩
    rw [exec_lrun_of_group h hr hv]
    exact ⟨fun hl => if_pos hl, fun hl hq => by rw [if_neg (Nat.not_le.mpr hl), if_pos hq],
      fun hl hq => by rw [if_neg (Nat.not_le.mpr hl), if_neg (Nat.not_le.mpr hq)]⟩

end Sys2Proof.Machine
end

section
/-! ## Words of the spec's encodings (02, 04 to 07) -/
namespace Sys2Proof.Machine

/-- Settles O54: the decoder evaluates to each of the written statements. -/
theorem decodedWords : Obligations.DecodedWords :=
  ⟨rfl, rfl, rfl, rfl, rfl, rfl, rfl, rfl, rfl, rfl, rfl, rfl, rfl, rfl, rfl⟩

end Sys2Proof.Machine
end
